-- ==== Sys2Proof/Word.lean ====
section
/-! DEFINITION. The two word types of the block: a byte of a wire sequence (spec/00_scope.md R8) and the
32-bit word of every register, window and command (spec/20_memory.md R81, R89). -/

namespace Sys2Proof

/-- An 8-bit unsigned value (R8). -/
abbrev Byte := BitVec 8

/-- A 32-bit register or bus word (R7, R89: the only access width). -/
abbrev Word := BitVec 32

end Sys2Proof
end

