-- ==== Sys2Proof/Syntax.lean ====
section
/-! DEFINITION. The ENOCODEC command set, version 1 (spec/30_encoding.md R102): one constructor per row of
spec/opcode_table.json, holding exactly the command-word fields its row of R107 uses. The ARGn operands are registers,
read at the block step (R286), and so are no part of a command's syntax. -/

namespace Sys2Proof

/-- A command (R102) with the BSEL, FLG and IMM16 operands R107 gives it. -/
inductive Instr where
  /-- NOP, R149. -/
  | nop
  /-- CRC8, R141: `bsel` names the buffer. -/
  | crc8 (bsel : BitVec 4)
  /-- RX_FLUSH, R148. -/
  | rxFlush
  /-- FRAME_DECODE, R144. -/
  | frameDecode
  /-- FRAME_ENCODE, R146. -/
  | frameEncode
  /-- BITS_UNPACK, R161: source buffer; FLG[0] selects BV_STAT as the target. -/
  | bitsUnpack (bsel : BitVec 4) (stat : Bool)
  /-- BITS_TO_INT, R163: FLG[0] selects BV_STAT as the source. -/
  | bitsToInt (stat : Bool)
  /-- BITS_PACK, R165: destination buffer; FLG[0] selects BV_STAT as the source. -/
  | bitsPack (bsel : BitVec 4) (stat : Bool)
  /-- FIND_PROFILE, R173: FLG[1] direction present, FLG[2] command present. -/
  | findProfile (hasDir hasCmd : Bool)
  /-- FIELD_DECODE, R177. -/
  | fieldDecode
  /-- FIELD_ENCODE, R179: IMM16 is the count of named values. -/
  | fieldEncode (n : BitVec 16)
  /-- DISPATCH, R191. -/
  | dispatch
  /-- PARSE, R192: FLG[0] profile requested, FLG[1] direction present, FLG[2] command present. -/
  | parse (prof hasDir hasCmd : Bool)
  /-- RECV, R213: flags as PARSE. -/
  | recv (prof hasDir hasCmd : Bool)
  /-- CREATE, R214: FLG[0] learn telegram, FLG[1] direction present, FLG[2] command present; IMM16 the NV count. -/
  | create (learn hasDir hasCmd : Bool) (n : BitVec 16)
  /-- CHAIN_FLUSH, R244. -/
  | chainFlush
deriving DecidableEq, Repr

end Sys2Proof
end

