-- ==== Sys2Proof/WellFormed.lean ====
section
/-! DEFINITION. Well-formed commands: the BSEL of a command that uses one lies in the set R107 allows (R103). A command
outside the set still decodes and runs: its meaning ends fatal BAD_ARG (R103, R256). -/

namespace Sys2Proof

/-- The buffer select is in the set R107 allows the command; every other operand field admits every value (R101). -/
def Instr.wellFormed : Instr → Bool
  | .crc8 bsel => decide (bsel.toNat ≤ 3)
  | .bitsUnpack bsel _ => decide (bsel.toNat ≤ 3)
  | .bitsPack bsel _ => decide (bsel.toNat ≤ 1)
  | .nop | .rxFlush | .frameDecode | .frameEncode | .bitsToInt _ | .findProfile _ _ | .fieldDecode | .fieldEncode _
  | .dispatch | .parse _ _ _ | .recv _ _ _ | .create _ _ _ _ | .chainFlush => true

end Sys2Proof
end

