-- ==== Sys2Proof/Decode.lean ====
section
/-! DEFINITION. The command word (spec/30_encoding.md R100 to R104, R116): the decoder, total on every word, rejecting by
name; the encoder, written from the same table; and the host's entry point `decodeTableWord`. -/

namespace Sys2Proof

/-- Why a command word is rejected: the one reason is R104's. -/
inductive DecodeError where
  /-- OPC in 0x10..0xFF (R104). Safe: the machine takes the fatal end R255 gives such a word. -/
  | illegalOpcode
deriving DecidableEq, Repr

/-- OPC, CMD[7:0] (R100). -/
def opcOf (w : Word) : Byte := w.extractLsb' 0 8

/-- BSEL, CMD[11:8] (R100, R101). -/
def bselOf (w : Word) : BitVec 4 := w.extractLsb' 8 4

/-- FLG[k], CMD[12+k] (R101). -/
def flgOf (w : Word) (k : Nat) : Bool := w.getLsbD (12 + k)

/-- IMM16, CMD[31:16] (R100, R101). -/
def immOf (w : Word) : BitVec 16 := w.extractLsb' 16 16

/-- The decoder (R102, R116): OPC alone selects the command; a field R107 does not give a command is ignored (R104). -/
def decode (w : Word) : Except DecodeError Instr :=
  match (opcOf w).toNat with
  | 0x00 => .ok .nop
  | 0x01 => .ok (.crc8 (bselOf w))
  | 0x02 => .ok .rxFlush
  | 0x03 => .ok .frameDecode
  | 0x04 => .ok .frameEncode
  | 0x05 => .ok (.bitsUnpack (bselOf w) (flgOf w 0))
  | 0x06 => .ok (.bitsToInt (flgOf w 0))
  | 0x07 => .ok (.bitsPack (bselOf w) (flgOf w 0))
  | 0x08 => .ok (.findProfile (flgOf w 1) (flgOf w 2))
  | 0x09 => .ok .fieldDecode
  | 0x0A => .ok (.fieldEncode (immOf w))
  | 0x0B => .ok .dispatch
  | 0x0C => .ok (.parse (flgOf w 0) (flgOf w 1) (flgOf w 2))
  | 0x0D => .ok (.recv (flgOf w 0) (flgOf w 1) (flgOf w 2))
  | 0x0E => .ok (.create (flgOf w 0) (flgOf w 1) (flgOf w 2) (immOf w))
  | 0x0F => .ok .chainFlush
  | _ => .error .illegalOpcode

/-- Format C assembled from its fields (R100): IMM16 ++ FLG[3..0] ++ BSEL ++ OPC. FLG[3] is unused by every command
(R107) and written 0. -/
def formatC (imm : BitVec 16) (f2 f1 f0 : Bool) (bsel : BitVec 4) (opc : Byte) : Word :=
  imm ++ (0#1 ++ BitVec.ofBool f2 ++ BitVec.ofBool f1 ++ BitVec.ofBool f0) ++ bsel ++ opc

/-- The encoder (R102, R107): the command word of an instruction, its unused fields 0. -/
def encode : Instr → Word
  | .nop => formatC 0 false false false 0 0x00
  | .crc8 bsel => formatC 0 false false false bsel 0x01
  | .rxFlush => formatC 0 false false false 0 0x02
  | .frameDecode => formatC 0 false false false 0 0x03
  | .frameEncode => formatC 0 false false false 0 0x04
  | .bitsUnpack bsel stat => formatC 0 false false stat bsel 0x05
  | .bitsToInt stat => formatC 0 false false stat 0 0x06
  | .bitsPack bsel stat => formatC 0 false false stat bsel 0x07
  | .findProfile hasDir hasCmd => formatC 0 hasCmd hasDir false 0 0x08
  | .fieldDecode => formatC 0 false false false 0 0x09
  | .fieldEncode n => formatC n false false false 0 0x0A
  | .dispatch => formatC 0 false false false 0 0x0B
  | .parse prof hasDir hasCmd => formatC 0 hasCmd hasDir prof 0 0x0C
  | .recv prof hasDir hasCmd => formatC 0 hasCmd hasDir prof 0 0x0D
  | .create learn hasDir hasCmd n => formatC n hasCmd hasDir learn 0 0x0E
  | .chainFlush => formatC 0 false false false 0 0x0F

/-- The 32-bit command word whose low `nbits` bits are those of `w` and whose other bits are 0: every command is one
word long (R100). -/
def tableWord (nbits w : Nat) : Word := BitVec.ofNat 32 (w % 2 ^ nbits)

/-- The instruction the decoder reads from a row's word. -/
def decodeTableWord (nbits w : Nat) : Option Instr := (decode (tableWord nbits w)).toOption

end Sys2Proof
end

