-- ==== Sys2Proof/Config.lean ====
section
/-! DEFINITION. The configuration of the block: the catalog's types (spec/42_field_codec.md R170, R171), the record
`Cfg` of the parameters spec/00_scope.md R6 leaves OPEN (with the option P_DCRC_TYPE of R3), and the free values: opaque
constants with no body, which nothing can evaluate. The parameters R6 gives a value stand in Machine/Params.lean. -/

namespace Sys2Proof

/-- The kind of a field descriptor (R171), and of a field record (R50). -/
inductive FieldKind where
  | value
  | enum
  | status
deriving DecidableEq, Repr, Inhabited

/-- The vector a descriptor's bit range lies in (R171). -/
inductive FieldSrc where
  | data
  | status
deriving DecidableEq, Repr, Inhabited

/-- A single-value enum entry (R171). The label is presentation metadata: never read. -/
structure EnumItem where
  value : Nat
  label : Nat
deriving DecidableEq, Repr, Inhabited

/-- A range enum entry, inclusive of both ends (R171). The label is never read. -/
structure EnumRange where
  start : Nat
  stop : Nat
  label : Nat
deriving DecidableEq, Repr, Inhabited

/-- A field descriptor (R171). `scale` is a handle for SCALE; `name` and `unit` are handles the block never reads. -/
structure FieldDesc where
  shortcut : BitVec 16
  kind : FieldKind
  src : FieldSrc
  offset : Nat
  size : Nat
  items : List EnumItem
  ranges : List EnumRange
  scale : Option Nat
  name : Nat
  unit : Option Nat
deriving DecidableEq, Repr, Inhabited

/-- A data block of a profile (R170). -/
structure DataBlock where
  direction : Option Byte
  command : Option Byte
  bits : Option (BitVec 16)
  fields : List FieldDesc
deriving DecidableEq, Repr, Inhabited

/-- A profile entry of the catalog (R170). -/
structure Profile where
  rorg : Byte
  func : Byte
  ptype : Byte
  hasCmds : Bool
  blocks : List DataBlock
deriving DecidableEq, Repr, Inhabited

/-- The configuration record CFG (R6): the OPEN parameters, which every claim quantifies over, and the option
P_DCRC_TYPE (R3, 90_conflicts.md C2: `true` is the normative 1). SCALE, a function, is `Config.scale`. -/
structure Cfg where
  /-- P_DCRC_TYPE: the data checksum also covers the type byte. -/
  dcrcType : Bool
  /-- P_RORG_CDM_PROP: category of a proprietary chained fragment. -/
  rorgCdmProp : Byte
  /-- P_SHORTCUT_CMD: catalog shortcut id of the command field. -/
  shortcutCmd : BitVec 16
  /-- P_RXBUF_CAP, bytes. -/
  rxbufCap : Nat
  /-- P_FIELD_CAP, entries. -/
  fieldCap : Nat
  /-- P_NV_CAP, entries. -/
  nvCap : Nat
  /-- P_CHAIN_SLOTS, entries. -/
  chainSlots : Nat
  /-- P_CHAIN_MAX_LEN, bytes. -/
  chainMaxLen : Nat
  /-- CATALOG. -/
  catalog : List Profile
deriving DecidableEq, Repr

/-- DESIGN CHOICE (assumption 1), unsafe: the configuration of the one instance `State.reset` names. The capacities are
R6's recommended values and P_DCRC_TYPE its normative one; R6 recommends none for P_RORG_CDM_PROP, P_SHORTCUT_CMD and
CATALOG. No statement rests on it: statements quantify over `Cfg`. -/
def Cfg.recommended : Cfg where
  dcrcType := true
  rorgCdmProp := 0xFF
  shortcutCmd := 0
  rxbufCap := 65797
  fieldCap := 256
  nvCap := 256
  chainSlots := 16
  chainMaxLen := 65529
  catalog := []

/-- SCALE (R176): the display word of a VALUE descriptor with a scale handle, a total function of the descriptor and
the raw value alone, about which nothing else is assumed. DESIGN CHOICE (assumption 2), safe. -/
opaque Config.scale : FieldDesc → Nat → Word

/-- The draw a host read returns while BUSY = 1 (R91, 93_implementation_defined.md U3): a fresh, unconstrained word for
each value of the draw counter. DESIGN CHOICE (assumption 3), safe. -/
opaque Config.busyRead : Nat → Word

/-- The number of host steps between an accepted CMD write and the command's block step (R296, U9): finite and
unconstrained, drawn afresh for each command. DESIGN CHOICE (assumption 4), safe. -/
opaque Config.commandDelay : Nat → Nat

end Sys2Proof
end

