-- ==== Sys2Proof/Machine/Params.lean ====
section
/-! DEFINITION. The parameters spec/00_scope.md R6 gives a value, by the names it gives them, and the constraints R6,
R170 and R171 put on a configuration. -/

namespace Sys2Proof.Machine

/-- P_MARKER -/
def pMarker : Byte := 0x55
/-- P_CRC_POLY (x^8 term implicit) -/
def pCrcPoly : Byte := 0x07
/-- P_TYPE_RADIO -/
def pTypeRadio : Byte := 0x01
/-- P_TYPE_RESPONSE -/
def pTypeResponse : Byte := 0x02
/-- P_TYPE_EVENT -/
def pTypeEvent : Byte := 0x04
/-- P_RORG_RPS -/
def pRorgRps : Byte := 0xF6
/-- P_RORG_1BS -/
def pRorg1bs : Byte := 0xD5
/-- P_RORG_4BS -/
def pRorg4bs : Byte := 0xA5
/-- P_RORG_VLD -/
def pRorgVld : Byte := 0xD2
/-- P_RORG_UTE -/
def pRorgUte : Byte := 0xD4
/-- P_RORG_MSC -/
def pRorgMsc : Byte := 0xD1
/-- P_RORG_CDM -/
def pRorgCdm : Byte := 0x40
/-- P_SUBTEL_TX -/
def pSubtelTx : Byte := 3
/-- P_DBM_TX -/
def pDbmTx : Byte := 0xFF
/-- P_SEC_NONE -/
def pSecNone : Byte := 0x00
/-- P_DEFAULT_DEST -/
def pDefaultDest : List Byte := [0xFF, 0xFF, 0xFF, 0xFF]
/-- P_DEFAULT_SENDER -/
def pDefaultSender : List Byte := [0xDE, 0xAD, 0xBE, 0xEF]
/-- P_CREATE_RORGS -/
def pCreateRorgs : List Byte := [pRorgRps, pRorg1bs, pRorg4bs, pRorgVld]
/-- P_FIXED_ULEN: user-data length per category for CREATE -/
def pFixedUlen (c : Byte) : Option Nat :=
  if c = pRorgRps then some 1 else if c = pRorg1bs then some 1 else if c = pRorg4bs then some 4 else none
/-- P_LEARN_BIT_RORGS -/
def pLearnBitRorgs : List Byte := [pRorg1bs, pRorg4bs]
/-- P_DATA_CAP, bytes -/
def pDataCap : Nat := 65535
/-- P_OPT_CAP, bytes -/
def pOptCap : Nat := 255
/-- P_TX_CAP, bytes -/
def pTxCap : Nat := 65797
/-- P_BV_CAP, bits -/
def pBvCap : Nat := 524280
/-- P_BS_CAP, bits -/
def pBsCap : Nat := 8
/-- P_INT_BITS -/
def pIntBits : Nat := 64

/-- The command entry (offset, width) of the sub-field table P_SUBFIELDS (R206, used by R201): VLD's command nibble. -/
def commandEntry (c : Byte) : Option (Nat × Nat) := if c = pRorgVld then some (4, 4) else none

end Sys2Proof.Machine

namespace Sys2Proof

/-- R171: a STATUS descriptor reads the status vector and the others the data vector; the kind is ENUM exactly when
the descriptor has an enum map. -/
def FieldDesc.legal (F : FieldDesc) : Bool :=
  (decide (F.kind = .status) == decide (F.src = .status)) &&
    (decide (F.kind = .enum) == !(F.items.isEmpty && F.ranges.isEmpty))

/-- R170's bounds on a catalog, and R171 for each descriptor. -/
def Cfg.catalogLegal (cat : List Profile) : Bool :=
  decide (cat.length ≤ 32768) &&
    cat.all fun e => decide (e.blocks.length ≤ 65536) && e.blocks.all fun b => b.fields.all FieldDesc.legal

/-- R6's constraints on an instance: the ranges of the OPEN capacities, and the distinctness of P_RORG_UTE, P_RORG_CDM,
P_RORG_CDM_PROP and P_RORG_MSC. -/
def Cfg.legal (c : Cfg) : Bool :=
  decide (c.rorgCdmProp ≠ Machine.pRorgUte) && decide (c.rorgCdmProp ≠ Machine.pRorgCdm) &&
    decide (c.rorgCdmProp ≠ Machine.pRorgMsc) &&
    decide (7 ≤ c.rxbufCap) && decide (c.rxbufCap ≤ 262144) &&
    decide (1 ≤ c.fieldCap) && decide (c.fieldCap ≤ 32768) &&
    decide (1 ≤ c.nvCap) && decide (c.nvCap ≤ 65536) &&
    decide (1 ≤ c.chainSlots) && decide (c.chainMaxLen ≤ 65529) &&
    Cfg.catalogLegal c.catalog

end Sys2Proof
end

