-- ==== Sys2Proof/Machine/State.lean ====
section
/-! DEFINITION. The state of the machine (spec/10_state.md R30 to R71) as plain data, with the host agent that drives it
(spec/00_scope.md R13, spec/30_encoding.md R114), the reasons a step can stop, and the state after reset
(spec/70_reset_and_hazards.md R281). Operations over it stand in Machine/Ops.lean. -/

namespace Sys2Proof.Machine

/-- Why the machine stops with a fault. The block itself never faults: every command and every host access has an
effect the spec gives. -/
inductive Fault where
  /-- Raised by the HOST agent alone: its program branches to a label the program does not define, to which R114 gives
  no meaning. Safe: the model stops. -/
  | undefinedLabel
deriving DecidableEq, Repr

/-- Why the machine refuses. -/
inductive Refusal where
  /-- Raised by an arm of exec whose instruction has no meaning yet. Safe. No arm raises it in this model. -/
  | notModelled (mnemonic : String)
deriving DecidableEq, Repr

/-- The result codes of R250; codes that R250 says are never written have no constructor. -/
inductive ResultCode where
  | ok
  | incomplete
  | crcMismatch
  | notFound
  | unknownField
  | chainPending
  | chainOrphan
  | chainFull
  | chainTooLong
  | malformed
  | badDescriptor
  | illegalOpcode
  | badArg
  | unsupportedType
  | unsupportedCategory
  | badAddrLen
  | capacity
deriving DecidableEq, Repr

/-- The packet variants and "no packet" (R56). -/
inductive Variant where
  | generic
  | radio
  | ute
  | response
  | event
  | msc
  | chained
  | noPacket
deriving DecidableEq, Repr

/-- CTRL (R33): its two stored bits. SRST is write-only and stored nowhere. -/
structure Ctrl where
  ieDone : Bool
  ieErr : Bool
deriving DecidableEq, Repr

/-- STATUS (R34). -/
structure Status where
  busy : Bool
  done : Bool
  fatal : Bool
  rxovf : Bool
  busywr : Bool
  lenooc : Bool
  fldovf : Bool
  result : ResultCode
deriving DecidableEq, Repr

/-- PSEL (R49): the selected profile data block. -/
structure Psel where
  valid : Bool
  entry : BitVec 15
  block : BitVec 16
deriving DecidableEq, Repr

/-- V_FLAGS (R62). -/
structure VFlags where
  learn : Bool
  containsEep : Bool
  profileFound : Bool
  unidir : Bool
  respExpected : Bool
  ftValid : Bool
  cmdValid : Bool
  degraded : Bool
  manufValid : Bool
deriving DecidableEq, Repr

/-- The packet view: the V_* registers (R56 to R68), each field at its register's implemented width. `uteReq`,
`uteChannel`, `uteRorg` are V_UTE (R67); `chainIdx`, `chainSeq`, `chainProp`, `chainValid` are V_CHAIN (R68). -/
structure View where
  variant : Variant
  ptype : Byte
  rorg : Byte
  statb : Byte
  dbm : Word
  sender : Word
  dest : Word
  flags : VFlags
  func : Byte
  vtype : Byte
  manuf : BitVec 11
  cmd : Byte
  code : Byte
  uteReq : BitVec 2
  uteChannel : Byte
  uteRorg : Byte
  chainIdx : BitVec 4
  chainSeq : BitVec 4
  chainProp : Bool
  chainValid : Bool
deriving DecidableEq, Repr

/-- A field record, one entry of the field-result table FT (R50). -/
structure FieldRec where
  shortcut : BitVec 16
  kind : FieldKind
  fmatch : BitVec 2
  raw : BitVec 64
  item : BitVec 16
  desc : BitVec 16
  scaled : Bool
  display : Word
deriving DecidableEq, Repr, Inhabited

/-- The fields of a chain slot with VALID = 1 (R71): `acc` is ACC[0..ACCLEN) and `opt` is OPT[0..OPTLEN), the bytes
some rule can read. A slot with VALID = 0 is `none` in the table: no rule reads its fields (R71, U8). -/
structure ChainSlot where
  sender : Word
  seq : BitVec 4
  decl : Nat
  acc : List Byte
  opt : List Byte
deriving DecidableEq, Repr

/-- What the host bus answered to the last access (R81, R83). -/
inductive BusResponse where
  /-- no access yet -/
  | idle
  /-- a write was accepted -/
  | ack
  /-- a read was accepted and returned this word -/
  | data (w : Word)
  /-- the access got a bus error response -/
  | busError
deriving DecidableEq, Repr

/-- One line of a host program (R114), pseudo-instructions expanded (R115) and names resolved to addresses. The
platform's hardware reset input (R280) is a line of its own, placed in the host's program order. -/
inductive HostLine where
  /-- MemWrite(addr, size, value) -/
  | write (addr size : Nat) (value : Word)
  /-- MemRead(addr, size) -/
  | read (addr size : Nat)
  /-- `l:` -/
  | label (l : Nat)
  /-- `if RD[hi:lo] = v goto l` -/
  | ifEq (hi lo v l : Nat)
  /-- `if RD[hi:lo] != v goto l` -/
  | ifNe (hi lo v l : Nat)
  /-- `goto l` -/
  | goto (l : Nat)
  /-- `halt` -/
  | halt
  /-- the platform asserts hardware reset (R280 (a)) -/
  | hardReset
deriving DecidableEq, Repr

/-- The host agent (R13): its program, the line it is at, the value of its most recent `rd` (R114) and the bus's last
answer. It is the model's own state, outside the block: no reset of the block touches it. -/
structure HostAgent where
  prog : List HostLine
  pc : Nat
  rd : Word
  resp : BusResponse
deriving DecidableEq, Repr

/-- A host that has no program: it issues no access. -/
def HostAgent.none : HostAgent := { prog := [], pc := 0, rd := 0, resp := .idle }

/-- A storage array in its one canonical form (`Store.wf`): pairs of an index and a value, indices strictly rising and
no value equal to `default`, which is what an unlisted index reads as. The spec gives every array the reset contents 0
(R281), and `default` is 0 (or 0-bit, or the all-zero record) at each use. -/
abbrev Store (α : Type) := List (Nat × α)

/-- A byte array (RXBUF, TXBUF, FDATA, FOPT): `Store Byte` is a list of `Host.Cell`. -/
abbrev Memory := List Host.Cell

/-- A bit array (BV_DATA, BV_STAT). -/
abbrev Bits := Store Bool

/-- The state of the machine. The block's state is R30's tuple; `cfg` holds the parameters R30 says are not state (it
never changes), and `host`, `delay` and `draws` are the model's own. -/
structure State where
  /-- the parameters CFG and CATALOG (R6, R86); never written -/
  cfg : Cfg
  /-- CTRL, R33 -/
  ctrl : Ctrl
  /-- STATUS, R34 -/
  status : Status
  /-- the pending-command latch CMDL, R36 -/
  cmdl : Word
  /-- ARG0, R37 -/
  arg0 : Word
  /-- ARG1, R37 -/
  arg1 : Word
  /-- ARG2, R37 -/
  arg2 : Word
  /-- ARG3, R37 -/
  arg3 : Word
  /-- RES0, R38 -/
  res0 : Word
  /-- RES1, R38 -/
  res1 : Word
  /-- RES2, R38 -/
  res2 : Word
  /-- RXBUF, R40 -/
  rxbuf : Memory
  /-- RXLEN, R40: 0..P_RXBUF_CAP -/
  rxlen : Nat
  /-- TXBUF, R41 -/
  txbuf : Memory
  /-- TXLEN, R41: 0 or 7..65797 -/
  txlen : Nat
  /-- F_TYPE, R42 -/
  fType : Byte
  /-- F_DLEN, R43 -/
  fDlen : BitVec 16
  /-- F_OLEN, R44 -/
  fOlen : Byte
  /-- FDATA, R45 -/
  fdata : Memory
  /-- FOPT, R46 -/
  fopt : Memory
  /-- BV_DATA, R47 -/
  bvData : Bits
  /-- BV_DLEN, R47: 0..P_BV_CAP -/
  bvDlen : Nat
  /-- BV_STAT, R48 -/
  bvStat : Bits
  /-- BV_SLEN, R48: 0..8 -/
  bvSlen : Nat
  /-- PSEL, R49 -/
  psel : Psel
  /-- NFIELDS, R50: 0..P_FIELD_CAP -/
  nfields : Nat
  /-- the field-result table FT, R50, by entry -/
  ft : Store FieldRec
  /-- the named-value table NV, R51: word w of entry i at index 4*i + w -/
  nv : Store Word
  /-- CNT_FRAMES, R53 -/
  cntFrames : BitVec 16
  /-- CNT_CRCERR, R54 -/
  cntCrcerr : BitVec 16
  /-- CNT_ORPHAN, R55 -/
  cntOrphan : BitVec 16
  /-- the packet view, R56 to R68 -/
  view : View
  /-- the chain table CT, R70: slot s at position s, `none` for VALID = 0 -/
  chain : List (Option ChainSlot)
  /-- the model's own: the host agent -/
  host : HostAgent
  /-- the model's own: host steps left before the pending command's block step (R296); meaningful while BUSY = 1 -/
  delay : Nat
  /-- the model's own: how many free values have been drawn -/
  draws : Nat
deriving DecidableEq, Repr

/-- The view registers a packet has not set (R69, R281): V_VARIANT = 7, all others 0. -/
def View.cleared : View where
  variant := .noPacket
  ptype := 0
  rorg := 0
  statb := 0
  dbm := 0
  sender := 0
  dest := 0
  flags :=
    { learn := false, containsEep := false, profileFound := false, unidir := false, respExpected := false
      ftValid := false, cmdValid := false, degraded := false, manufValid := false }
  func := 0
  vtype := 0
  manuf := 0
  cmd := 0
  code := 0
  uteReq := 0
  uteChannel := 0
  uteRorg := 0
  chainIdx := 0
  chainSeq := 0
  chainProp := false
  chainValid := false

/-- PSEL = 0: no data block selected (R49). -/
def Psel.invalid : Psel := { valid := false, entry := 0, block := 0 }

/-- The reset state of R281 under the configuration `cfg`, with no host program. -/
def State.resetWith (cfg : Cfg) : State where
  cfg := cfg
  ctrl := { ieDone := false, ieErr := false }
  status :=
    { busy := false, done := false, fatal := false, rxovf := false, busywr := false, lenooc := false
      fldovf := false, result := .ok }
  cmdl := 0
  arg0 := 0
  arg1 := 0
  arg2 := 0
  arg3 := 0
  res0 := 0
  res1 := 0
  res2 := 0
  rxbuf := []
  rxlen := 0
  txbuf := []
  txlen := 0
  fType := 0
  fDlen := 0
  fOlen := 0
  fdata := []
  fopt := []
  bvData := []
  bvDlen := 0
  bvStat := []
  bvSlen := 0
  psel := Psel.invalid
  nfields := 0
  ft := []
  nv := []
  cntFrames := 0
  cntCrcerr := 0
  cntOrphan := 0
  view := View.cleared
  chain := List.replicate cfg.chainSlots none
  host := HostAgent.none
  delay := 0
  draws := 0

/-- The machine right after reset (R281), in the instance `Cfg.recommended`. -/
def State.reset : State := State.resetWith Cfg.recommended

end Sys2Proof.Machine
end

