-- ==== Sys2Proof/Machine/Ops.lean ====
section
/-! DEFINITION. The named operations over the state: the storage arrays, the byte buffers by BSEL
(spec/40_checksum_frame.md R150), the block's register updates, and the end of a command, the one way a command
finishes or aborts (spec/60_exceptions.md R252 to R254). -/

namespace Sys2Proof.Machine

/-! ### Storage arrays -/

/-- What an index that is not listed reads as: 0, the reset contents of every array (R281). -/
def Store.blank {α : Type} [Inhabited α] : α := default

/-- Read one element. -/
def Store.read {α : Type} [Inhabited α] : Store α → Nat → α
  | [], _ => Store.blank
  | (k, v) :: r, a => if a = k then v else Store.read r a

/-- Write one element, keeping the canonical form: writing the blank removes the entry. -/
def Store.write {α : Type} [Inhabited α] [DecidableEq α] : Store α → Nat → α → Store α
  | [], a, v => if v = Store.blank then [] else [(a, v)]
  | (k, w) :: r, a, v =>
    if a < k then (if v = Store.blank then (k, w) :: r else (a, v) :: (k, w) :: r)
    else if a = k then (if v = Store.blank then r else (a, v) :: r)
    else (k, w) :: Store.write r a v

/-- The `n` elements from index `a` on, `m[a .. a+n)` (R8, R9). -/
def Store.readList {α : Type} [Inhabited α] (m : Store α) (a : Nat) : Nat → List α
  | 0 => []
  | n + 1 => Store.read m a :: Store.readList m (a + 1) n

/-- `m[a .. a+len) <- vs` (R11). -/
def Store.writeList {α : Type} [Inhabited α] [DecidableEq α] (m : Store α) (a : Nat) : List α → Store α
  | [] => m
  | v :: vs => Store.writeList (Store.write m a v) (a + 1) vs

/-- Every index is at least `lo`, the indices strictly rise, and no listed value is the blank. -/
def Store.wfFrom {α : Type} [Inhabited α] [DecidableEq α] (lo : Nat) : Store α → Bool
  | [] => true
  | (k, v) :: r => decide (lo ≤ k) && decide (v ≠ Store.blank) && Store.wfFrom (k + 1) r

/-- The canonical form of an array. -/
def Store.wf {α : Type} [Inhabited α] [DecidableEq α] (m : Store α) : Bool := Store.wfFrom 0 m

/-- Every listed index is below the array's capacity. -/
def Store.below {α : Type} (cap : Nat) (m : Store α) : Bool := m.all fun p => decide (p.1 < cap)

/-- The canonical form of a byte array: indices strictly rising, no byte equal to 0. -/
def Memory.wf (m : Memory) : Bool := Store.wf (α := Byte) m

/-- `b[i..j)` (R8, R9). -/
def slice {α : Type} (b : List α) (i j : Nat) : List α := (b.take j).drop i

/-! ### Byte sequences and words (R8, R84) -/

/-- The big-endian integer of a byte sequence (R8). -/
def combine (b : List Byte) : Nat := b.foldl (fun a x => a * 256 + x.toNat) 0

/-- `bytes_4(w)`, the first byte the most significant (R216, R84). -/
def bytes4 (w : Word) : List Byte :=
  [w.extractLsb' 24 8, w.extractLsb' 16 8, w.extractLsb' 8 8, w.extractLsb' 0 8]

/-- `zext_32` of a byte (R10). -/
def zextByte (b : Byte) : Word := b.setWidth 32

/-! ### Register updates -/

/-- RES0 <- w. -/
def State.setRes0 (s : State) (w : Word) : State := { s with res0 := w }

/-- RES1 <- w. -/
def State.setRes1 (s : State) (w : Word) : State := { s with res1 := w }

/-- RES2 <- w. -/
def State.setRes2 (s : State) (w : Word) : State := { s with res2 := w }

/-- PSEL <- p. -/
def State.setPsel (s : State) (p : Psel) : State := { s with psel := p }

/-- Replace the packet view. -/
def State.setView (s : State) (v : View) : State := { s with view := v }

/-- Replace the chain table. -/
def State.setChain (s : State) (c : List (Option ChainSlot)) : State := { s with chain := c }

/-- `ClearView()` (R69). -/
def State.clearView (s : State) : State := { s with view := View.cleared, nfields := 0 }

/-- `RXBUF[0 .. len(rem)) <- rem; RXLEN <- len(rem)` (R144, R213). -/
def State.setRx (s : State) (rem : List Byte) : State :=
  { s with rxbuf := Store.writeList s.rxbuf 0 rem, rxlen := rem.length }

/-- RXLEN <- 0; the stored bytes stay (R148). -/
def State.flushRx (s : State) : State := { s with rxlen := 0 }

/-- `TXBUF[0 .. len(f)) <- f; TXLEN <- len(f)` (R146, R221). -/
def State.setTx (s : State) (f : List Byte) : State :=
  { s with txbuf := Store.writeList s.txbuf 0 f, txlen := f.length }

/-- `LoadFrame(t, d, o)` (R210). -/
def State.loadFrame (s : State) (t : Byte) (d o : List Byte) : State :=
  { s with
    fType := t
    fDlen := BitVec.ofNat 16 d.length
    fOlen := BitVec.ofNat 8 o.length
    fdata := Store.writeList s.fdata 0 d
    fopt := Store.writeList s.fopt 0 o }

/-- `BV_DATA[0 .. len(r)) <- r; BV_DLEN <- len(r)` (R161, R198, R221). -/
def State.setBvData (s : State) (r : List Bool) : State :=
  { s with bvData := Store.writeList s.bvData 0 r, bvDlen := r.length }

/-- `BV_STAT[0 .. len(r)) <- r; BV_SLEN <- len(r)` (R161, R198, R221). -/
def State.setBvStat (s : State) (r : List Bool) : State :=
  { s with bvStat := Store.writeList s.bvStat 0 r, bvSlen := r.length }

/-- CNT_FRAMES <- (CNT_FRAMES + 1) mod 2^16 (R53). -/
def State.countFrame (s : State) : State := { s with cntFrames := s.cntFrames + 1 }

/-- CNT_CRCERR <- (CNT_CRCERR + 1) mod 2^16 (R54). -/
def State.countCrcerr (s : State) : State := { s with cntCrcerr := s.cntCrcerr + 1 }

/-- CNT_ORPHAN <- (CNT_ORPHAN + 1) mod 2^16 (R55, R239). -/
def State.countOrphan (s : State) : State := { s with cntOrphan := s.cntOrphan + 1 }

/-- STATUS.LENOOC <- 1 when `b` (R234); unchanged otherwise. -/
def State.flagLenooc (s : State) (b : Bool) : State :=
  { s with status := { s.status with lenooc := s.status.lenooc || b } }

/-- `WriteFields(out)` (R180): the first P_FIELD_CAP records, NFIELDS, and FLDOVF when records were omitted. -/
def State.writeFields (s : State) (out : List FieldRec) : State :=
  { s with
    ft := Store.writeList s.ft 0 (out.take s.cfg.fieldCap)
    nfields := min out.length s.cfg.fieldCap
    status := { s.status with fldovf := s.status.fldovf || decide (s.cfg.fieldCap < out.length) } }

/-! ### Valid contents -/

/-- RXBUF[0 .. RXLEN) (R40). -/
def State.rxBytes (s : State) : List Byte := Store.readList s.rxbuf 0 s.rxlen

/-- TXBUF[0 .. TXLEN) (R41). -/
def State.txBytes (s : State) : List Byte := Store.readList s.txbuf 0 s.txlen

/-- FDATA[0 .. F_DLEN) (R45). -/
def State.dataBytes (s : State) : List Byte := Store.readList s.fdata 0 s.fDlen.toNat

/-- FOPT[0 .. F_OLEN) (R46). -/
def State.optBytes (s : State) : List Byte := Store.readList s.fopt 0 s.fOlen.toNat

/-- BV_DATA[0 .. BV_DLEN) (R47). -/
def State.dataBits (s : State) : List Bool := Store.readList s.bvData 0 s.bvDlen

/-- BV_STAT[0 .. BV_SLEN) (R48). -/
def State.statBits (s : State) : List Bool := Store.readList s.bvStat 0 s.bvSlen

/-- CHAIN_OCC: the number of slots with VALID = 1 (R52). -/
def State.chainOcc (s : State) : Nat := s.chain.countP (·.isSome)

/-! ### Byte buffers by BSEL -/

/-- The buffers BSEL names (R103). -/
inductive Buffer where
  | fdata
  | fopt
  | rxbuf
  | txbuf
deriving DecidableEq, Repr

/-- `Buf(B)` (R150). -/
def State.buffer (s : State) : Buffer → Memory
  | .fdata => s.fdata
  | .fopt => s.fopt
  | .rxbuf => s.rxbuf
  | .txbuf => s.txbuf

/-- `ValidLen(B)` (R150). -/
def State.validLen (s : State) : Buffer → Nat
  | .fdata => pDataCap
  | .fopt => pOptCap
  | .rxbuf => s.rxlen
  | .txbuf => s.txlen

/-- `Buf(B)[a .. a+n)`, checked against `ValidLen(B)` without wrap-around (R150); `none` where the check fails. -/
def State.bufRead (s : State) (b : Buffer) (a n : Nat) : Option (List Byte) :=
  if s.validLen b < a + n then none else some (Store.readList (α := Byte) (s.buffer b) a n)

/-- `FDATA[a ..) <- bytes`. -/
def State.writeFdata (s : State) (a : Nat) (bytes : List Byte) : State :=
  { s with fdata := Store.writeList s.fdata a bytes }

/-- `FOPT[a ..) <- bytes`. -/
def State.writeFopt (s : State) (a : Nat) (bytes : List Byte) : State :=
  { s with fopt := Store.writeList s.fopt a bytes }

/-! ### The end of a command -/

/-- The 8-bit code of R250. -/
def ResultCode.code : ResultCode → Byte
  | .ok => 0x00
  | .incomplete => 0x01
  | .crcMismatch => 0x02
  | .notFound => 0x03
  | .unknownField => 0x04
  | .chainPending => 0x05
  | .chainOrphan => 0x06
  | .chainFull => 0x07
  | .chainTooLong => 0x08
  | .malformed => 0x09
  | .badDescriptor => 0x0A
  | .illegalOpcode => 0x80
  | .badArg => 0x81
  | .unsupportedType => 0x82
  | .unsupportedCategory => 0x83
  | .badAddrLen => 0x84
  | .capacity => 0x86

/-- Codes with bit 7 set are fatal (R250). -/
def ResultCode.isFatal (c : ResultCode) : Bool := c.code.msb

/-- The command end (R252): RESULT, DONE, FATAL (set by a fatal code, else unchanged) and BUSY. -/
def Status.commandEnd (st : Status) (c : ResultCode) : Status :=
  { st with result := c, done := true, fatal := st.fatal || c.isFatal, busy := false }

/-- `finish(code)` (R253): the command's writes stand, then the command end. -/
def State.finish (s : State) (c : ResultCode) : State := { s with status := s.status.commandEnd c }

/-- `raise Fatal(code)` (R254), the block's exception: `s` is the state the command started from, so that every change
the command made is discarded; then the command end with the fatal code. -/
def State.raiseFatal (s : State) (c : ResultCode) : State := s.finish c

/-! ### Reset -/

/-- Hardware reset and soft reset, one effect (R280, R281, R282): every block register, buffer and table takes its reset
value. The configuration is no state (R30), and the host agent and the draw counter are the model's own. -/
def State.blockReset (s : State) : State :=
  { State.resetWith s.cfg with host := s.host, draws := s.draws }

end Sys2Proof.Machine
end

