-- ==== Sys2Proof/Machine/Flags.lean ====
section
/-! DEFINITION. Flag and field layouts: the words the host reads from STATUS, CTRL, PSEL, V_FLAGS, V_UTE, V_CHAIN and a
field record, the write-1-to-clear rule of STATUS (spec/10_state.md R33, R34, R49, R50, R62, R67, R68), and the
interrupt line (spec/60_exceptions.md R258). Every reserved bit reads 0. -/

namespace Sys2Proof.Machine

/-- CTRL as read (R33): SRST and the reserved bits read 0. -/
def Ctrl.word (c : Ctrl) : Word := (0#30 ++ BitVec.ofBool c.ieErr ++ BitVec.ofBool c.ieDone : BitVec 32)

/-- STATUS as read (R34). -/
def Status.word (st : Status) : Word :=
  (0#16 ++ st.result.code ++ 0#1 ++ BitVec.ofBool st.fldovf ++ BitVec.ofBool st.lenooc ++ BitVec.ofBool st.busywr
    ++ BitVec.ofBool st.rxovf ++ BitVec.ofBool st.fatal ++ BitVec.ofBool st.done ++ BitVec.ofBool st.busy : BitVec 32)

/-- A host write of `w` to STATUS (R34): each W1C bit k with w[k] = 1 is cleared; BUSY and RESULT ignore writes. -/
def Status.write1c (st : Status) (w : Word) : Status :=
  { st with
    done := st.done && !w.getLsbD 1
    fatal := st.fatal && !w.getLsbD 2
    rxovf := st.rxovf && !w.getLsbD 3
    busywr := st.busywr && !w.getLsbD 4
    lenooc := st.lenooc && !w.getLsbD 5
    fldovf := st.fldovf && !w.getLsbD 6 }

/-- PSEL as read (R49): VALID, ENTRY, BLOCK. -/
def Psel.word (p : Psel) : Word := (BitVec.ofBool p.valid ++ p.entry ++ p.block : BitVec 32)

/-- `1<<31 | x<<16 | y` (R173, R202). -/
def pselOf (x y : Nat) : Psel := { valid := true, entry := BitVec.ofNat 15 x, block := BitVec.ofNat 16 y }

/-- The code of a variant (R56). -/
def Variant.code : Variant → BitVec 3
  | .generic => 0
  | .radio => 1
  | .ute => 2
  | .response => 3
  | .event => 4
  | .msc => 5
  | .chained => 6
  | .noPacket => 7

/-- V_VARIANT as read, and the variant a command writes to a RES register (R56, R191, R192). -/
def Variant.word (v : Variant) : Word := v.code.setWidth 32

/-- V_FLAGS as read (R62). -/
def VFlags.word (f : VFlags) : Word :=
  (0#23 ++ BitVec.ofBool f.manufValid ++ BitVec.ofBool f.degraded ++ BitVec.ofBool f.cmdValid ++ BitVec.ofBool f.ftValid
    ++ BitVec.ofBool f.respExpected ++ BitVec.ofBool f.unidir ++ BitVec.ofBool f.profileFound
    ++ BitVec.ofBool f.containsEep ++ BitVec.ofBool f.learn : BitVec 32)

/-- V_UTE as read (R67). -/
def View.uteWord (v : View) : Word := (0#8 ++ v.uteRorg ++ v.uteChannel ++ 0#6 ++ v.uteReq : BitVec 32)

/-- V_CHAIN as read (R68). -/
def View.chainWord (v : View) : Word :=
  (0#22 ++ BitVec.ofBool v.chainValid ++ BitVec.ofBool v.chainProp ++ v.chainSeq ++ v.chainIdx : BitVec 32)

/-- The KIND code of a field record (R50). -/
def kindCode : FieldKind → BitVec 2
  | .value => 0
  | .enum => 1
  | .status => 2

/-- Word `w` of a field record (R50). -/
def FieldRec.word (r : FieldRec) (w : Nat) : Word :=
  match w with
  | 0 => (0#11 ++ BitVec.ofBool r.scaled ++ r.fmatch ++ kindCode r.kind ++ r.shortcut : BitVec 32)
  | 1 => r.raw.extractLsb' 0 32
  | 2 => r.raw.extractLsb' 32 32
  | 3 => (r.desc ++ r.item : BitVec 32)
  | 4 => r.display
  | _ => 0

/-- The interrupt line (R258): a function of the state, at every instant. -/
def State.irq (s : State) : Bool := (s.status.done && s.ctrl.ieDone) || (s.status.fatal && s.ctrl.ieErr)

end Sys2Proof.Machine
end

