-- ==== Sys2Proof/Machine/Operands.lean ====
section
/-! DEFINITION. Operand forms: the buffer select (spec/30_encoding.md R103, R107), byte and length fields of an ARGn
register (R101), the profile request (spec/43_packet_model.md R193) and the optional discriminators (R12). -/

namespace Sys2Proof.Machine

/-- The buffer a BSEL value names; `none` for the reserved values 4..15 (R103). -/
def bufferOf (bsel : BitVec 4) : Option Buffer :=
  match bsel.toNat with
  | 0 => some .fdata
  | 1 => some .fopt
  | 2 => some .rxbuf
  | 3 => some .txbuf
  | _ => none

/-- A byte operand: bits [8k+7 : 8k] of an argument register (R101). -/
def byteArg (w : Word) (k : Nat) : Byte := w.extractLsb' (8 * k) 8

/-- A 4-bit length operand: bits [lo+3 : lo] of an argument register (R101). -/
def lenArg (w : Word) (lo : Nat) : BitVec 4 := w.extractLsb' lo 4

/-- A discriminator that a flag bit makes present (R12, R107): 0 is a present value. -/
def optArg (present : Bool) (b : Byte) : Option Byte := if present then some b else none

/-- The request record of R193. -/
structure Req where
  prof : Bool
  func : Byte
  ptype : Byte
  dir : Option Byte
  cmd : Option Byte
deriving DecidableEq, Repr

/-- The request of PARSE and RECV (R193): FLG[0..2] and ARG0. -/
def reqOfArg (prof hasDir hasCmd : Bool) (arg0 : Word) : Req where
  prof := prof
  func := byteArg arg0 0
  ptype := byteArg arg0 1
  dir := optArg hasDir (byteArg arg0 2)
  cmd := optArg hasCmd (byteArg arg0 3)

/-- The source vector of BITS_TO_INT and BITS_PACK, cut to its length (R163, R165). -/
def State.sourceBits (s : State) (stat : Bool) : List Bool := if stat then s.statBits else s.dataBits

/-- The named value k of NV: (SHORTCUT, VALUE) (R51). -/
def State.namedValue (s : State) (k : Nat) : BitVec 16 × Nat :=
  ((Store.read s.nv (4 * k)).extractLsb' 0 16,
    (Store.read s.nv (4 * k + 1)).toNat + 2 ^ 32 * (Store.read s.nv (4 * k + 2)).toNat)

/-- `[(NV[k].SHORTCUT, NV[k].VALUE) | k in 0 .. n-1]` (R179, R219). -/
def State.namedValues (s : State) (n : Nat) : List (BitVec 16 × Nat) := (List.range n).map s.namedValue

end Sys2Proof.Machine
end

