-- ==== Sys2Proof/Machine/FrameCodec.lean ====
section
/-! DEFINITION. Checksum Unit and Frame Codec (spec/40_checksum_frame.md): NOP, CRC8, RX_FLUSH, FRAME_DECODE,
FRAME_ENCODE. -/

namespace Sys2Proof.Machine

/-! ### Checksum unit -/

/-- One of the eight shifts of R140. -/
def crcShift (c : Byte) : Byte := if c.msb then (c <<< 1) ^^^ pCrcPoly else c <<< 1

/-- R140's loop body for one input byte. -/
def crcByte (c b : Byte) : Byte :=
  crcShift (crcShift (crcShift (crcShift (crcShift (crcShift (crcShift (crcShift (c ^^^ b))))))))

/-- `CRC8(b)` (R140). -/
def crc8 (b : List Byte) : Byte := b.foldl crcByte 0

/-- The data-checksum input `DCI(t, d, o)` (R142). -/
def dci (dcrcType : Bool) (t : Byte) (d o : List Byte) : List Byte := (if dcrcType then [t] else []) ++ d ++ o

/-! ### Frames -/

/-- The contents of a frame: type byte, data, optional (R108). -/
structure Frame where
  ftype : Byte
  data : List Byte
  opt : List Byte
deriving DecidableEq, Repr

/-- What `FrameDecode` returns (R143). `status` is OK, INCOMPLETE or CRC_MISMATCH; `failAt` is `where`. -/
structure DecodeResult where
  status : ResultCode
  rem : List Byte
  frame : Option Frame
  failAt : Nat
  skipped : Nat
deriving DecidableEq, Repr

/-- `FrameDecode(buf)` on the buffer aligned at its first marker, `k` bytes dropped (R143). -/
def frameDecodeAligned (dcrcType : Bool) (k : Nat) (a : List Byte) : DecodeResult :=
  if a.length < 4 then { status := .incomplete, rem := a, frame := none, failAt := 0, skipped := k }
  else
    let dlen := (a.getD 1 0).toNat * 256 + (a.getD 2 0).toNat
    let olen := (a.getD 3 0).toNat
    let n := 6 + dlen + olen + 1
    if a.length < n then { status := .incomplete, rem := a, frame := none, failAt := 0, skipped := k }
    else
      let msg := slice a 0 n
      let rem := slice a n a.length
      if msg.getD 5 0 ≠ crc8 (slice msg 1 5) then
        { status := .crcMismatch, rem := rem, frame := none, failAt := 1, skipped := k }
      else
        let t := msg.getD 4 0
        let d := slice msg 6 (6 + dlen)
        let o := slice msg (6 + dlen) (6 + dlen + olen)
        if msg.getD (n - 1) 0 ≠ crc8 (dci dcrcType t d o) then
          { status := .crcMismatch, rem := rem, frame := none, failAt := 2, skipped := k }
        else
          { status := .ok, rem := rem, frame := some { ftype := t, data := d, opt := o }, failAt := 0, skipped := k }

/-- `FrameDecode(buf)` (R143): with no marker the buffer is returned unchanged; bytes before the first are dropped. -/
def frameDecode (dcrcType : Bool) (buf : List Byte) : DecodeResult :=
  match buf.findIdx? (· == pMarker) with
  | none => { status := .incomplete, rem := buf, frame := none, failAt := 0, skipped := 0 }
  | some k => frameDecodeAligned dcrcType k (slice buf k buf.length)

/-- The four header bytes of a frame (R145): len_hi, len_lo, opt_len, type. -/
def frameHeader (t : Byte) (d o : List Byte) : List Byte :=
  [BitVec.ofNat 8 (d.length / 256), BitVec.ofNat 8 (d.length % 256), BitVec.ofNat 8 o.length, t]

/-- `FrameEncode(t, d, o)` (R145). -/
def frameEncode (dcrcType : Bool) (t : Byte) (d o : List Byte) : List Byte :=
  [pMarker] ++ frameHeader t d o ++ [crc8 (frameHeader t d o)] ++ d ++ o ++ [crc8 (dci dcrcType t d o)]

/-- The writes FRAME_DECODE and RECV share (R144, R213): RES0, RES1 and the receive buffer after `FrameDecode`. -/
def State.consumeRx (s : State) (r : DecodeResult) : State :=
  ((s.setRes0 (BitVec.ofNat 32 (s.rxlen - r.rem.length))).setRes1 (BitVec.ofNat 32 r.failAt)).setRx r.rem

/-- The CNT_CRCERR rule of R144 and R213. -/
def State.countMismatch (s : State) (c : ResultCode) : State := if c = .crcMismatch then s.countCrcerr else s

/-! ### Commands -/

/-- NOP (R149). -/
def execNop (s : State) : Host.Outcome State Fault Refusal := .next (s.finish .ok)

/-- CRC8 (R141). -/
def execCrc8 (bsel : BitVec 4) (s : State) : Host.Outcome State Fault Refusal :=
  .next <|
    match bufferOf bsel with
    | none => s.raiseFatal .badArg
    | some b =>
      match s.bufRead b s.arg0.toNat s.arg1.toNat with
      | none => s.raiseFatal .badArg
      | some bytes => (s.setRes0 (zextByte (crc8 bytes))).finish .ok

/-- RX_FLUSH (R148). -/
def execRxFlush (s : State) : Host.Outcome State Fault Refusal :=
  .next ((s.setRes0 (BitVec.ofNat 32 s.rxlen)).flushRx.finish .ok)

/-- FRAME_DECODE (R144). -/
def execFrameDecode (s : State) : Host.Outcome State Fault Refusal :=
  let r := frameDecode s.cfg.dcrcType s.rxBytes
  let s1 := s.consumeRx r
  let s2 :=
    match r.frame with
    | some f => (s1.loadFrame f.ftype f.data f.opt).countFrame
    | none => s1
  .next ((s2.countMismatch r.status).finish r.status)

/-- FRAME_ENCODE (R146). -/
def execFrameEncode (s : State) : Host.Outcome State Fault Refusal :=
  let f := frameEncode s.cfg.dcrcType s.fType s.dataBytes s.optBytes
  .next (((s.setTx f).setRes0 (BitVec.ofNat 32 f.length)).finish .ok)

end Sys2Proof.Machine
end

