-- ==== Sys2Proof/Machine/BitCodec.lean ====
section
/-! DEFINITION. Bit Codec (spec/41_bit_codec.md): BytesToBits, BitsToInt, BitsToBytes, and the commands BITS_UNPACK,
BITS_TO_INT, BITS_PACK. -/

namespace Sys2Proof.Machine

/-- `bits_n(v)`: the low `n` bits of `v`, most significant first (R10). -/
def bitsOf : Nat → Nat → List Bool
  | 0, _ => []
  | n + 1, v => v.testBit n :: bitsOf n v

/-- `bitlen(v)`: the least L with v < 2^L (R10). -/
def bitlen (v : Nat) : Nat := if v = 0 then 0 else Nat.log2 v + 1

/-- `int(s)` and `BitsToInt(s)` (R10, R162): on unpacked bytes it is their big-endian integer (R166). -/
def bitsToInt (b : List Bool) : Nat := b.foldl (fun a x => 2 * a + x.toNat) 0

/-- `L`, the length of `BytesToBits(b, W)` (R160): no 1 bit is dropped. -/
def unpackLen (b : List Byte) (w : Nat) : Nat := max w (bitlen (combine b))

/-- `BytesToBits(b, W)` (R160). R166's laws tie it to `bitsToInt` and `bitsToBytes`. -/
def bytesToBits (b : List Byte) (w : Nat) : List Bool := bitsOf (unpackLen b w) (combine b)

/-- Byte `j` of `BitsToBytes(s, m)` (R164): positions past the end read 0. -/
def packByte (b : List Bool) (j : Nat) : Byte :=
  BitVec.ofNat 8 (bitsToInt ((List.range 8).map fun i => b.getD (8 * j + i) false))

/-- `BitsToBytes(s, m)` (R164), the inverse of `bytesToBits` on whole bytes (R166). -/
def bitsToBytes (b : List Bool) (m : Nat) : List Byte := (List.range m).map (packByte b)

/-- BITS_UNPACK (R161). -/
def execBitsUnpack (bsel : BitVec 4) (stat : Bool) (s : State) : Host.Outcome State Fault Refusal :=
  .next <|
    match bufferOf bsel with
    | none => s.raiseFatal .badArg
    | some b =>
      match s.bufRead b s.arg0.toNat s.arg1.toNat with
      | none => s.raiseFatal .badArg
      | some bytes =>
        let len := unpackLen bytes s.arg2.toNat
        if (if stat then pBsCap else pBvCap) < len then s.raiseFatal .capacity
        else
          let r := bytesToBits bytes s.arg2.toNat
          ((if stat then s.setBvStat r else s.setBvData r).setRes0 (BitVec.ofNat 32 len)).finish .ok

/-- BITS_TO_INT (R163). -/
def execBitsToInt (stat : Bool) (s : State) : Host.Outcome State Fault Refusal :=
  let v := s.sourceBits stat
  .next <|
    if v.length < s.arg0.toNat + s.arg1.toNat then s.raiseFatal .badArg
    else
      let x := bitsToInt (slice v s.arg0.toNat (s.arg0.toNat + s.arg1.toNat))
      (((s.setRes0 (BitVec.ofNat 32 (x % 2 ^ 32))).setRes1 (BitVec.ofNat 32 (x / 2 ^ 32 % 2 ^ 32))).setRes2
        (if 2 ^ 64 ≤ x then 1 else 0)).finish .ok

/-- BITS_PACK (R165): only FDATA and FOPT may be written. -/
def execBitsPack (bsel : BitVec 4) (stat : Bool) (s : State) : Host.Outcome State Fault Refusal :=
  let p := s.arg0.toNat
  let m := s.arg1.toNat
  let v := s.sourceBits stat
  let bytes := bitsToBytes (slice v s.arg2.toNat v.length) m
  .next <|
    match bufferOf bsel with
    | some .fdata =>
      if pDataCap < p + m then s.raiseFatal .badArg else ((s.writeFdata p bytes).setRes0 s.arg1).finish .ok
    | some .fopt =>
      if pOptCap < p + m then s.raiseFatal .badArg else ((s.writeFopt p bytes).setRes0 s.arg1).finish .ok
    | _ => s.raiseFatal .badArg

end Sys2Proof.Machine
end

