-- ==== Sys2Proof/Machine/FieldCodec.lean ====
section
/-! DEFINITION. Profile Resolver and Field Codec (spec/42_field_codec.md): FindProfile, FieldDecode, FieldEncode, and
the commands FIND_PROFILE, FIELD_DECODE, FIELD_ENCODE. -/

namespace Sys2Proof.Machine

/-- What `FindProfile` returns (R172): entry and block index, or the hierarchy level that failed. -/
inductive Found where
  | block (x y : Nat)
  | missing (level : Nat)
deriving DecidableEq, Repr

/-- A discriminator that is absent on either side matches (R172). -/
def discMatches (want have_ : Option Byte) : Bool :=
  decide (want = none) || decide (have_ = none) || decide (have_ = want)

/-- The indexed candidates whose block fits the discriminators (R172). -/
def blockCandidates (e : Profile) (dir cmd : Option Byte) : List (DataBlock × Nat) :=
  e.blocks.zipIdx.filter fun p => discMatches cmd p.1.command && discMatches dir p.1.direction

/-- `FindProfile(c, f, t, dir?, cmd?)` (R172). -/
def findProfile (cat : List Profile) (c f t : Byte) (dir cmd : Option Byte) : Found :=
  let x1 := cat.zipIdx.filter fun p => p.1.rorg == c
  if x1.isEmpty then .missing 1
  else
    let x2 := x1.filter fun p => p.1.func == f
    if x2.isEmpty then .missing 2
    else
      match x2.filter fun p => p.1.ptype == t with
      | [] => .missing 3
      | (e, x) :: _ =>
        match blockCandidates e dir cmd with
        | [] => .missing 4
        | (_, y) :: _ => .block x y

/-- `CATALOG.E[x].B[y]`, `none` where no such block exists. -/
def catalogBlock (cat : List Profile) (x y : Nat) : Option DataBlock := (cat[x]?).bind fun e => e.blocks[y]?

/-- The block PSEL selects; `none` when VALID = 0. DESIGN CHOICE (assumption 8), safe: also `none` for a PSEL that
points outside the catalog, which no run reaches. -/
def State.selected (s : State) : Option DataBlock :=
  if s.psel.valid then catalogBlock s.cfg.catalog s.psel.entry.toNat s.psel.block.toNat else none

/-! ### Decode -/

/-- `EnumMatch(F, raw)` (R175): items before ranges, lower index first. -/
def enumMatch (F : FieldDesc) (raw : Nat) : Option (BitVec 2 × Nat) :=
  match F.items.findIdx? (fun e => e.value == raw) with
  | some j => some (1, j)
  | none =>
    match F.ranges.findIdx? (fun r => decide (r.start ≤ raw) && decide (raw ≤ r.stop)) with
    | some j => some (2, j)
    | none => none

/-- The descriptor's bit range lies in a vector of `len` bits and its size is 1..64 (R174, R178). -/
def descFits (F : FieldDesc) (len : Nat) : Bool :=
  decide (F.size ≠ 0) && decide (F.size ≤ pIntBits) && decide (F.offset + F.size ≤ len)

/-- The vector a descriptor reads or writes (R171). -/
def descVector (F : FieldDesc) (vd vs : List Bool) : List Bool :=
  match F.src with
  | .data => vd
  | .status => vs

/-- The body of R174's loop for descriptor `i`: a record, or nothing where the field is missing or unmapped. -/
def decodeField (vd vs : List Bool) (F : FieldDesc) (i : Nat) : Option FieldRec :=
  let v := descVector F vd vs
  if !descFits F v.length then none
  else
    let raw := bitsToInt (slice v F.offset (F.offset + F.size))
    match F.kind with
    | .enum =>
      match enumMatch F raw with
      | none => none
      | some (m, j) =>
        some
          { shortcut := F.shortcut, kind := .enum, fmatch := m, raw := BitVec.ofNat 64 raw, item := BitVec.ofNat 16 j
            desc := BitVec.ofNat 16 i, scaled := false, display := 0 }
    | .value =>
      some
        { shortcut := F.shortcut, kind := .value, fmatch := 0, raw := BitVec.ofNat 64 raw, item := 0
          desc := BitVec.ofNat 16 i, scaled := F.scale.isSome
          display := if F.scale.isSome then Config.scale F raw else 0 }
    | .status =>
      some
        { shortcut := F.shortcut, kind := .status, fmatch := 0, raw := BitVec.ofNat 64 raw, item := 0
          desc := BitVec.ofNat 16 i, scaled := false, display := 0 }

/-- `FieldDecode(blk, VD, VS)` (R174): the records in document order. -/
def fieldDecode (blk : DataBlock) (vd vs : List Bool) : List FieldRec :=
  blk.fields.zipIdx.filterMap fun p => decodeField vd vs p.1 p.2

/-! ### Encode -/

/-- The first descriptor of the block with a shortcut (R178). -/
def descriptorOf (blk : DataBlock) (sc : BitVec 16) : Option FieldDesc := blk.fields.find? fun F => F.shortcut == sc

/-- The check phase of R178 from pair `k` on: the first pair that is rejected, and why. -/
def encodeCheck (blk : DataBlock) (vd vs : List Bool) : Nat → List (BitVec 16 × Nat) → Option (ResultCode × Nat)
  | _, [] => none
  | k, p :: rest =>
    match descriptorOf blk p.1 with
    | none => some (.unknownField, k)
    | some F => if descFits F (descVector F vd vs).length then encodeCheck blk vd vs (k + 1) rest else some (.badDescriptor, k)

/-- `v[off .. off+len(bs)) <- bs` on a bit sequence (R11). -/
def overwrite (v : List Bool) (off : Nat) (bs : List Bool) : List Bool :=
  v.take off ++ bs ++ v.drop (off + bs.length)

/-- The body of R178's write phase: one pair. -/
def encodeOne (blk : DataBlock) (vv : List Bool × List Bool) (p : BitVec 16 × Nat) : List Bool × List Bool :=
  match descriptorOf blk p.1 with
  | none => vv
  | some F =>
    let bs := bitsOf F.size (p.2 % 2 ^ F.size)
    match F.src with
    | .data => (overwrite vv.1 F.offset bs, vv.2)
    | .status => (vv.1, overwrite vv.2 F.offset bs)

/-- The write phase of R178, in list order: the later pair's bits win. -/
def encodeWrite (blk : DataBlock) (vd vs : List Bool) (nv : List (BitVec 16 × Nat)) : List Bool × List Bool :=
  nv.foldl (encodeOne blk) (vd, vs)

/-- What `FieldEncode` returns (R178). -/
inductive Encoded where
  | done (vd vs : List Bool)
  | rejected (code : ResultCode) (bad : Nat)
deriving DecidableEq, Repr

/-- `FieldEncode(blk, VD, VS, nv)` (R178): a rejected encode writes nothing. -/
def fieldEncode (blk : DataBlock) (vd vs : List Bool) (nv : List (BitVec 16 × Nat)) : Encoded :=
  match encodeCheck blk vd vs 0 nv with
  | some (c, k) => .rejected c k
  | none => .done (encodeWrite blk vd vs nv).1 (encodeWrite blk vd vs nv).2

/-! ### Commands -/

/-- FIND_PROFILE (R173). -/
def execFindProfile (hasDir hasCmd : Bool) (s : State) : Host.Outcome State Fault Refusal :=
  .next <|
    match
      findProfile s.cfg.catalog (byteArg s.arg0 0) (byteArg s.arg0 1) (byteArg s.arg0 2)
        (optArg hasDir (byteArg s.arg1 0)) (optArg hasCmd (byteArg s.arg1 1))
    with
    | .block x y => ((s.setRes0 0).setPsel (pselOf x y)).finish .ok
    | .missing lvl => ((s.setRes0 (BitVec.ofNat 32 lvl)).setPsel Psel.invalid).finish .notFound

/-- NFIELDS <- 0 (R177). -/
def State.noFields (s : State) : State := { s with nfields := 0 }

/-- FIELD_DECODE (R177). -/
def execFieldDecode (s : State) : Host.Outcome State Fault Refusal :=
  .next <|
    match s.selected with
    | none => (s.noFields.setRes0 0).finish .notFound
    | some blk =>
      let s1 := s.writeFields (fieldDecode blk s.dataBits s.statBits)
      (s1.setRes0 (BitVec.ofNat 32 s1.nfields)).finish .ok

/-- BV_DATA[0 .. len) <- vd; BV_STAT[0 .. len) <- vs; the lengths stay (R179: an encode never changes them). -/
def State.writeBits (s : State) (vd vs : List Bool) : State :=
  { s with bvData := Store.writeList s.bvData 0 vd, bvStat := Store.writeList s.bvStat 0 vs }

/-- FIELD_ENCODE (R179). -/
def execFieldEncode (n : BitVec 16) (s : State) : Host.Outcome State Fault Refusal :=
  .next <|
    if s.cfg.nvCap < n.toNat then s.raiseFatal .badArg
    else
      match s.selected with
      | none => (s.setRes0 0).finish .notFound
      | some blk =>
        match fieldEncode blk s.dataBits s.statBits (s.namedValues n.toNat) with
        | .rejected c bad => (s.setRes0 (BitVec.ofNat 32 bad)).finish c
        | .done vd vs => ((s.setRes0 0).writeBits vd vs).finish .ok

end Sys2Proof.Machine
end

