-- ==== Sys2Proof/Machine/PacketModel.lean ====
section
/-! DEFINITION. Packet Model, first part (spec/43_packet_model.md R190 to R206): dispatch, the parse of every variant
but the chained one, and the command DISPATCH. -/

namespace Sys2Proof.Machine

/-- `Dispatch(t, d)` (R190): the first test that holds, in this order. -/
def dispatchOf (cfg : Cfg) (t : Byte) (d : List Byte) : Variant :=
  match d with
  | [] => .generic
  | c :: _ =>
    if c = pRorgUte then .ute
    else if c = pRorgCdm ∨ c = cfg.rorgCdmProp then .chained
    else if t = pTypeResponse then .response
    else if t = pTypeEvent then .event
    else if t = pTypeRadio then (if c = pRorgMsc then .msc else .radio)
    else .generic

/-- DISPATCH (R191). -/
def execDispatch (s : State) : Host.Outcome State Fault Refusal :=
  .next ((s.setRes0 (dispatchOf s.cfg s.fType s.dataBytes).word).finish .ok)

/-! ### Parse: the variants without fields -/

/-- The category byte of a packet, 0 when it has no data byte (R58, R195). -/
def category (d : List Byte) : Byte := d.getD 0 0

/-- `ParseGeneric(t, d)` (R195). -/
def parseGeneric (t : Byte) (d : List Byte) (s : State) : State × ResultCode :=
  (s.setView { s.view with variant := .generic, ptype := t, rorg := category d }, .ok)

/-- `ParseCode(v, t, d)` (R196). -/
def parseCode (v : Variant) (t : Byte) (d : List Byte) (s : State) : State × ResultCode :=
  (s.setView { s.view with variant := v, ptype := t, rorg := category d, code := category d }, .ok)

/-- `Degrade(t, d)` (R200). -/
def degrade (t : Byte) (d : List Byte) (s : State) : State × ResultCode :=
  (s.setView
      { s.view with
        variant := .generic, ptype := t, rorg := category d, flags := { s.view.flags with degraded := true } },
    .malformed)

/-! ### Radio-class parse -/

/-- The sender id bytes `d[len-5 .. len-1)` (R110, R197). -/
def senderBytes (d : List Byte) : List Byte := slice d (d.length - 5) (d.length - 1)

/-- Four address bytes packed into a word, the first byte most significant (R60, R84). -/
def addrWord (b : List Byte) : Word := BitVec.ofNat 32 (combine b)

/-- The signal level `-(o[5])` in 32-bit two's complement (R59, R10). -/
def dbmWord (o : List Byte) : Word := -zextByte (o.getD 5 0)

/-- The fixed-offset attributes of a radio telegram (R197). -/
def radioAttributes (t : Byte) (d o : List Byte) (v : View) : View :=
  { v with
    ptype := t
    rorg := category d
    sender := addrWord (senderBytes d)
    statb := d.getD (d.length - 1) 0
    dest := addrWord (slice o 1 5)
    dbm := dbmWord o }

/-- `LoadBits(d)` (R198). -/
def State.loadBits (s : State) (d : List Byte) : State :=
  (s.setBvData (bytesToBits (slice d 1 (1 + (d.length - 6))) (8 * (d.length - 6)))).setBvStat
    (bytesToBits [d.getD (d.length - 1) 0] 8)

/-- `int(B[i .. j))`. -/
def bitsField (b : List Bool) (i j : Nat) : Nat := bitsToInt (slice b i j)

/-- V_FLAGS.LEARN <- x. -/
def View.setLearn (v : View) (x : Bool) : View := { v with flags := { v.flags with learn := x } }

/-- R206, rows P_RORG_1BS and P_RORG_4BS (first): LEARN <- 1 - B[8U-4], DB0.3, when U >= 1. -/
def learnRow (c : Byte) (u : Nat) (b : List Bool) (v : View) : View :=
  if c ∈ pLearnBitRorgs ∧ 1 ≤ u then v.setLearn (!b.getD (8 * u - 4) false) else v

/-- R206, row P_RORG_4BS (second): CONTAINS_EEP <- B[8U-8], DB0.7, when U >= 3 and LEARN = 1. -/
def eepRow (c : Byte) (u : Nat) (b : List Bool) (v : View) : View :=
  if c = pRorg4bs ∧ 3 ≤ u ∧ v.flags.learn = true then
    { v with flags := { v.flags with containsEep := b.getD (8 * u - 8) false } }
  else v

/-- R206, row P_RORG_4BS (third): the teach-in identity, when U >= 3, LEARN = 1 and CONTAINS_EEP = 1. -/
def identityRow (c : Byte) (u : Nat) (b : List Bool) (v : View) : View :=
  if c = pRorg4bs ∧ 3 ≤ u ∧ v.flags.learn = true ∧ v.flags.containsEep = true then
    { v with
      func := BitVec.ofNat 8 (bitsField b 0 6)
      vtype := BitVec.ofNat 8 (bitsField b 6 13)
      manuf := BitVec.ofNat 11 (bitsField b 13 24)
      flags := { v.flags with ftValid := true, manufValid := true } }
  else v

/-- R206, row P_RORG_MSC: the manufacturer id, when U >= 2. -/
def mscRow (c : Byte) (u : Nat) (b : List Bool) (v : View) : View :=
  if c = pRorgMsc ∧ 2 ≤ u then
    { v with manuf := BitVec.ofNat 11 (bitsField b 0 11), flags := { v.flags with manufValid := true } }
  else v

/-- R206, row P_RORG_UTE (U >= 7 by R197). -/
def uteRow (c : Byte) (d : List Byte) (b : List Bool) (v : View) : View :=
  if c = pRorgUte then
    { v with
      uteReq := BitVec.ofNat 2 (bitsField b 2 4)
      manuf := BitVec.ofNat 11 (bitsToInt (slice b 29 32 ++ slice b 16 24))
      uteChannel := d.getD 2 0
      vtype := d.getD 5 0
      func := d.getD 6 0
      uteRorg := d.getD 7 0
      flags :=
        { v.flags with
          unidir := !b.getD 0 false, respExpected := !b.getD 1 false, manufValid := true, ftValid := true } }
  else v

/-- `SubFields(v, d, U)` (R206): the rows of the packet's category, in the table's order. (The VLD row has no output of
its own: its command entry is read by `commandOf`.) -/
def subFields (d : List Byte) (u : Nat) (b : List Bool) (v : View) : View :=
  let c := category d
  uteRow c d b (mscRow c u b (identityRow c u b (eepRow c u b (learnRow c u b v))))

/-- The command `Command(c, U, req)` returns (R201): the host's, else the category's command entry, else none. -/
def commandOf (c : Byte) (u : Nat) (b : List Bool) (req : Req) : Option Byte :=
  match req.cmd with
  | some x => some x
  | none =>
    match commandEntry c with
    | some (q, w) => if q + w ≤ 8 * u then some (BitVec.ofNat 8 (bitsField b q (q + w))) else none
    | none => none

/-- The view writes of `Command` (R201): V_CMD and CMD_VALID when there is a command. -/
def View.withCommand (v : View) (cmd : Option Byte) : View :=
  match cmd with
  | some x => { v with cmd := x, flags := { v.flags with cmdValid := true } }
  | none => v

/-- V_FUNC and V_VTYPE from the request when the telegram gave none (R202, R63). -/
def View.withRequest (v : View) (req : Req) : View :=
  if v.flags.ftValid then v else { v with func := req.func, vtype := req.ptype }

/-- `FieldStep(c, cmd, req)` (R202). -/
def fieldStep (c : Byte) (cmd : Option Byte) (req : Req) (s : State) : State :=
  if req.prof then
    let s1 := s.setView (s.view.withRequest req)
    match findProfile s.cfg.catalog c req.func req.ptype req.dir cmd with
    | .missing _ => s1
    | .block x y =>
      let recs :=
        match catalogBlock s.cfg.catalog x y with
        | some blk => fieldDecode blk s.dataBits s.statBits
        | none => []
      let s2 := (s1.setPsel (pselOf x y)).writeFields recs
      s2.setView { s2.view with flags := { s2.view.flags with profileFound := true } }
  else s

/-- The lengths R197 asks of a radio-class packet. -/
def radioTooShort (v : Variant) (d o : List Byte) : Bool :=
  decide (d.length < 6) || decide (o.length < 6) || (decide (v = .ute) && decide (d.length < 13))

/-- `ParseRadio(v, t, d, o, req)` (R197) once the lengths hold. -/
def parseRadioFull (v : Variant) (t : Byte) (d o : List Byte) (req : Req) (s : State) : State :=
  let u := d.length - 6
  let s1 := (s.setView (radioAttributes t d o s.view)).loadBits d
  let s2 := s1.setView (subFields d u s1.dataBits (s1.view.setLearn true))
  let cmd := commandOf (category d) u s2.dataBits req
  let s3 := fieldStep (category d) cmd req (s2.setView (s2.view.withCommand cmd))
  s3.setView { s3.view with variant := v }

/-- `ParseRadio(v, t, d, o, req)` (R197). -/
def parseRadio (v : Variant) (t : Byte) (d o : List Byte) (req : Req) (s : State) : State × ResultCode :=
  if radioTooShort v d o then degrade t d s else (parseRadioFull v t d o req s, .ok)

/-- PSEL <- 0 when a profile is requested (R194). -/
def State.dropProfile (s : State) (req : Req) : State := if req.prof then s.setPsel Psel.invalid else s

/-- `Parse(t, d, o, req)` (R194); `chained` is what it does with a packet that dispatches CHAINED. -/
def parseWith (chained : State → State × ResultCode) (t : Byte) (d o : List Byte) (req : Req) (s : State) :
    State × ResultCode :=
  let s1 := s.clearView.dropProfile req
  match dispatchOf s.cfg t d with
  | .generic => parseGeneric t d s1
  | .response => parseCode .response t d s1
  | .event => parseCode .event t d s1
  | .radio => parseRadio .radio t d o req s1
  | .msc => parseRadio .msc t d o req s1
  | .ute => parseRadio .ute t d o req s1
  | .chained => chained s1
  | .noPacket => parseGeneric t d s1

end Sys2Proof.Machine
end

