-- ==== Sys2Proof/Machine/Chain.lean ====
section
/-! DEFINITION. Chain Reassembly (spec/44_chain.md), the whole of Parse, and the command CHAIN_FLUSH. -/

namespace Sys2Proof.Machine

/-! ### Fragments -/

/-- `digits(b)` (R234). -/
def digits (b : Byte) : Nat := if b.toNat < 10 then 1 else if b.toNat < 100 then 2 else 3

/-- `DecLen(a, b)` (R234): the decimal concatenation. -/
def decLen (a b : Byte) : Nat := a.toNat * 10 ^ digits b + b.toNat

/-- The declared length of a first fragment (R233, R234). -/
def declaredLen (prop : Bool) (d : List Byte) : Nat :=
  if prop then decLen (d.getD 2 0) (d.getD 3 0) else combine (slice d 2 4)

/-- A proprietary length byte is out of the observed contract (R234). -/
def lenOutOfContract (prop : Bool) (d : List Byte) : Bool :=
  prop && (decide (100 ≤ (d.getD 2 0).toNat) || decide (100 ≤ (d.getD 3 0).toNat))

/-- Fragment index, `d[1][3:0]` (R232). -/
def fragIdx (d : List Byte) : BitVec 4 := (d.getD 1 0).extractLsb' 0 4

/-- Sequence number, `d[1][7:4]` (R232). -/
def fragSeq (d : List Byte) : BitVec 4 := (d.getD 1 0).extractLsb' 4 4

/-- R231's minimum lengths. -/
def fragTooShort (d : List Byte) : Bool :=
  decide (d.length < 2) || (decide (fragIdx d = 0) && decide (d.length < 9)) ||
    (decide (fragIdx d ≠ 0) && decide (d.length < 7))

/-- The payload chunk of a first fragment (R235). -/
def firstChunk (d : List Byte) : List Byte := slice d 4 (d.length - 5)

/-- The payload chunk of a continuation (R235). -/
def nextChunk (d : List Byte) : List Byte := slice d 2 (d.length - 5)

/-- The fragment view (R242). -/
def fragmentView (prop : Bool) (t : Byte) (d o : List Byte) (v : View) : View :=
  { v with
    variant := .chained
    ptype := t
    rorg := category d
    sender := addrWord (senderBytes d)
    statb := d.getD (d.length - 1) 0
    dest := if 6 ≤ o.length then addrWord (slice o 1 5) else 0
    dbm := if 6 ≤ o.length then dbmWord o else 0
    chainIdx := fragIdx d
    chainSeq := fragSeq d
    chainProp := prop
    chainValid := true }

/-! ### Slots -/

/-- The slot is valid and holds the key (R70, R236). -/
def holdsKey (snd : Word) (seq : BitVec 4) (slot : Option ChainSlot) : Bool :=
  match slot with
  | some c => decide (c.sender = snd) && decide (c.seq = seq)
  | none => false

/-- The valid slot with SENDER = snd and SEQ = seq, if any. -/
def findKey (ct : List (Option ChainSlot)) (snd : Word) (seq : BitVec 4) : Option Nat :=
  ct.findIdx? (holdsKey snd seq)

/-- The lowest-numbered slot with VALID = 0, if any (R236). -/
def findFree (ct : List (Option ChainSlot)) : Option Nat := ct.findIdx? (·.isNone)

/-- The slot a first fragment takes: its key's own, else the lowest free one (R236). -/
def slotFor (ct : List (Option ChainSlot)) (snd : Word) (seq : BitVec 4) : Option Nat :=
  match findKey ct snd seq with
  | some i => some i
  | none => findFree ct

/-- `FirstFragment(snd, seq, DECL, ch, o)` (R236, R237). -/
def firstFragment (snd : Word) (seq : BitVec 4) (decl : Nat) (ch o : List Byte) (s : State) : State × ResultCode :=
  if s.cfg.chainMaxLen < decl then (s, .chainTooLong)
  else
    match slotFor s.chain snd seq with
    | none => (s, .chainFull)
    | some i =>
      (s.setChain (s.chain.set i (some { sender := snd, seq := seq, decl := decl, acc := ch.take decl, opt := o })),
        .chainPending)

/-- The slot after a continuation's chunk: only bytes below DECL are kept (R238). -/
def ChainSlot.append (c : ChainSlot) (ch : List Byte) : ChainSlot :=
  { c with acc := c.acc ++ ch.take (c.decl - c.acc.length) }

/-- The data field of the synthetic packet (R240, R241). -/
def syntheticData (c : ChainSlot) : List Byte := [pRorgMsc] ++ slice c.acc 0 c.decl ++ bytes4 c.sender ++ [0x00]

/-- The re-entered Parse of R241: the synthetic packet dispatches MSC, so the chained case is not met under R6's
constraint on the configuration. DEDUCED (assumption 9), safe: outside that constraint the case degrades. -/
def parseSynthetic (d o : List Byte) (req : Req) (s : State) : State × ResultCode :=
  parseWith (degrade pTypeRadio d) pTypeRadio d o req s

/-- `Complete(s, t, req)` (R241): slot `i`, holding `c`, is removed and its packet re-enters Parse. -/
def complete (i : Nat) (c : ChainSlot) (req : Req) (s : State) : State × ResultCode :=
  let s1 := s.setChain (s.chain.set i none)
  let s2 := s1.loadFrame pTypeRadio (syntheticData c) c.opt
  let r := parseSynthetic (syntheticData c) c.opt req s2
  (r.1.setView
      { r.1.view with
        variant := .chained
        chainIdx := s.view.chainIdx
        chainSeq := s.view.chainSeq
        chainProp := s.view.chainProp
        chainValid := s.view.chainValid },
    r.2)

/-- `Continue(s, ch, t, req)` (R238): slot `i`, holding `c`. -/
def continueChain (i : Nat) (c : ChainSlot) (ch : List Byte) (req : Req) (s : State) : State × ResultCode :=
  let c' := c.append ch
  let s1 := s.setChain (s.chain.set i (some c'))
  if c'.acc.length = c'.decl then complete i c' req s1 else (s1, .chainPending)

/-- The valid slot holding a key, with its contents. -/
def slotWithKey (ct : List (Option ChainSlot)) (snd : Word) (seq : BitVec 4) : Option (Nat × ChainSlot) :=
  (findKey ct snd seq).bind fun i => (ct[i]?.join).map fun c => (i, c)

/-- `ChainFeed(t, d, o, req)` (R245). -/
def chainFeed (t : Byte) (d o : List Byte) (req : Req) (s : State) : State × ResultCode :=
  if fragTooShort d then degrade t d s
  else
    let prop := decide (category d = s.cfg.rorgCdmProp)
    let snd := addrWord (senderBytes d)
    let s1 := s.setView (fragmentView prop t d o s.view)
    if fragIdx d = 0 then
      firstFragment snd (fragSeq d) (declaredLen prop d) (firstChunk d) o (s1.flagLenooc (lenOutOfContract prop d))
    else
      match slotWithKey s1.chain snd (fragSeq d) with
      | none => (s1.countOrphan, .chainOrphan)
      | some (i, c) => continueChain i c (nextChunk d) req s1

/-- `Parse(t, d, o, req)` (R194). -/
def parsePacket (t : Byte) (d o : List Byte) (req : Req) (s : State) : State × ResultCode :=
  parseWith (chainFeed t d o req) t d o req s

/-- Every slot VALID <- 0 (R244). -/
def State.flushChains (s : State) : State := s.setChain (s.chain.map fun _ => none)

/-- CHAIN_FLUSH (R244). DESIGN CHOICE (assumption 26), unsafe: R6 does not bound the number of slots, and RES0 keeps the
low 32 bits of the number in use. -/
def execChainFlush (s : State) : Host.Outcome State Fault Refusal :=
  .next ((s.setRes0 (BitVec.ofNat 32 s.chainOcc)).flushChains.finish .ok)

end Sys2Proof.Machine
end

