-- ==== Sys2Proof/Machine/Receive.lean ====
section
/-! DEFINITION. Packet Model, second part (spec/43_packet_model.md R192, R213 to R222): the commands PARSE, RECV and
CREATE. -/

namespace Sys2Proof.Machine

/-- PARSE (R192). -/
def execParse (prof hasDir hasCmd : Bool) (s : State) : Host.Outcome State Fault Refusal :=
  let r := parsePacket s.fType s.dataBytes s.optBytes (reqOfArg prof hasDir hasCmd s.arg0) s
  .next ((r.1.setRes0 r.1.view.variant.word).finish r.2)

/-- RECV (R213). -/
def execRecv (prof hasDir hasCmd : Bool) (s : State) : Host.Outcome State Fault Refusal :=
  let req := reqOfArg prof hasDir hasCmd s.arg0
  let r := frameDecode s.cfg.dcrcType s.rxBytes
  let s1 := (s.consumeRx r).countMismatch r.status
  .next <|
    match r.frame with
    | none => (s1.clearView.setRes2 7).finish r.status
    | some f =>
      let p := parsePacket f.ftype f.data f.opt req (s1.countFrame.loadFrame f.ftype f.data f.opt)
      (p.1.setRes2 p.1.view.variant.word).finish p.2

/-! ### CREATE -/

/-- CREATE's operands (R214). -/
structure CreateArgs where
  learn : Bool
  ptype : Byte
  cat : Byte
  func : Byte
  vtype : Byte
  dir : Option Byte
  cmd : Option Byte
  sl : BitVec 4
  dl : BitVec 4
  snd : Word
  dst : Word
  n : Nat
deriving DecidableEq, Repr

/-- The operands from the command word and ARG0..ARG3 (R107, R214). -/
def createArgs (learn hasDir hasCmd : Bool) (n : BitVec 16) (s : State) : CreateArgs where
  learn := learn
  ptype := byteArg s.arg0 0
  cat := byteArg s.arg0 1
  func := byteArg s.arg0 2
  vtype := byteArg s.arg0 3
  dir := optArg hasDir (byteArg s.arg1 0)
  cmd := optArg hasCmd (byteArg s.arg1 1)
  sl := lenArg s.arg1 16
  dl := lenArg s.arg1 20
  snd := s.arg2
  dst := s.arg3
  n := n.toNat

/-- CREATE's validation (R215): the first failure, in this order. -/
def createFatal (cfg : Cfg) (a : CreateArgs) : Option ResultCode :=
  if a.ptype ≠ pTypeRadio then some .unsupportedType
  else if a.cat ∉ pCreateRorgs then some .unsupportedCategory
  else if ¬((a.sl = 0 ∨ a.sl = 4) ∧ (a.dl = 0 ∨ a.dl = 4)) then some .badAddrLen
  else if cfg.nvCap < a.n then some .badArg
  else none

/-- An address operand, or its placeholder when its length is 0 (R216). -/
def addressOf (len : BitVec 4) (w : Word) (placeholder : List Byte) : List Byte :=
  if len = 4 then bytes4 w else placeholder

/-- The user-data length U (R218). -/
def userLen (c : Byte) (blk : DataBlock) : Nat :=
  match pFixedUlen c with
  | some u => u
  | none =>
    match blk.bits with
    | some b => (b.toNat + 7) / 8
    | none => 1

/-- `cp`, the command pair CREATE prepends (R219). -/
def commandPair (cfg : Cfg) (blk : DataBlock) (cmd : Option Byte) : List (BitVec 16 × Nat) :=
  match cmd with
  | some x => if (descriptorOf blk cfg.shortcutCmd).isSome then [(cfg.shortcutCmd, x.toNat)] else []
  | none => []

/-- RES0 of a rejected field write (R219). -/
def createBad (cpLen bad : Nat) : Word := if cpLen ≤ bad then BitVec.ofNat 32 (bad - cpLen) else 0xFFFFFFFF

/-- The learn-bit convention (R220): DB0.3 <- 1 in a data telegram of a category with a learn bit. -/
def applyLearnBit (c : Byte) (learn : Bool) (u : List Byte) : List Byte :=
  if c ∈ pLearnBitRorgs ∧ learn = false ∧ 1 ≤ u.length then
    u.set (u.length - 1) (u.getD (u.length - 1) 0 ||| 0x08)
  else u

/-- The data field of the built telegram (R220). -/
def createData (a : CreateArgs) (u : Nat) (vd vs : List Bool) : List Byte :=
  [a.cat] ++ applyLearnBit a.cat a.learn (bitsToBytes vd u) ++ addressOf a.sl a.snd pDefaultSender ++
    [(bitsToBytes vs 1).getD 0 0]

/-- The optional field of the built telegram (R220). -/
def createOpt (a : CreateArgs) : List Byte :=
  [pSubtelTx] ++ addressOf a.dl a.dst pDefaultDest ++ [pDbmTx, pSecNone]

/-- CREATE's build (R221). -/
def State.buildTelegram (s : State) (d o : List Byte) (vd vs : List Bool) : State :=
  (((s.setTx (frameEncode s.cfg.dcrcType pTypeRadio d o)).loadFrame pTypeRadio d o).setBvData vd).setBvStat vs

/-- The request of CREATE's round-trip parse (R222). -/
def CreateArgs.request (a : CreateArgs) : Req :=
  { prof := true, func := a.func, ptype := a.vtype, dir := a.dir, cmd := a.cmd }

/-- CREATE's round trip (R222): the built frame decoded from TXBUF and parsed; no receive state changes (R209). -/
def State.roundTrip (s : State) (req : Req) : State :=
  match (frameDecode s.cfg.dcrcType s.txBytes).frame with
  | some f => (parsePacket f.ftype f.data f.opt req s).1
  | none => s

/-- CREATE after its validation (R216 to R222). -/
def createValid (a : CreateArgs) (s : State) : State :=
  match findProfile s.cfg.catalog a.cat a.func a.vtype a.dir a.cmd with
  | .missing lvl => (s.setRes0 (BitVec.ofNat 32 lvl)).finish .notFound
  | .block x y =>
    let blk := (catalogBlock s.cfg.catalog x y).getD default
    let u := userLen a.cat blk
    let cp := commandPair s.cfg blk a.cmd
    match fieldEncode blk (List.replicate (8 * u) false) (List.replicate 8 false) (cp ++ s.namedValues a.n) with
    | .rejected c bad => (s.setRes0 (createBad cp.length bad)).finish c
    | .done vd vs =>
      let s1 := (s.buildTelegram (createData a u vd vs) (createOpt a) vd vs).roundTrip a.request
      (s1.setRes0 (BitVec.ofNat 32 s1.txlen)).finish .ok

/-- CREATE (R214). -/
def execCreate (learn hasDir hasCmd : Bool) (n : BitVec 16) (s : State) : Host.Outcome State Fault Refusal :=
  let a := createArgs learn hasDir hasCmd n s
  .next <|
    match createFatal s.cfg a with
    | some c => s.raiseFatal c
    | none => createValid a s

end Sys2Proof.Machine
end

