-- ==== Sys2Proof/Machine/Dispatch.lean ====
section
/-! DEFINITION. The dispatch of a decoded command to its meaning, one arm per row of spec/opcode_table.json. -/

namespace Sys2Proof.Machine

def exec (i : Instr) (s : State) : Host.Outcome State Fault Refusal :=
  match i with
  | .nop => Sys2Proof.Machine.execNop s
  | .crc8 bsel => Sys2Proof.Machine.execCrc8 bsel s
  | .rxFlush => Sys2Proof.Machine.execRxFlush s
  | .frameDecode => Sys2Proof.Machine.execFrameDecode s
  | .frameEncode => Sys2Proof.Machine.execFrameEncode s
  | .bitsUnpack bsel stat => Sys2Proof.Machine.execBitsUnpack bsel stat s
  | .bitsToInt stat => Sys2Proof.Machine.execBitsToInt stat s
  | .bitsPack bsel stat => Sys2Proof.Machine.execBitsPack bsel stat s
  | .findProfile hasDir hasCmd => Sys2Proof.Machine.execFindProfile hasDir hasCmd s
  | .fieldDecode => Sys2Proof.Machine.execFieldDecode s
  | .fieldEncode n => Sys2Proof.Machine.execFieldEncode n s
  | .dispatch => Sys2Proof.Machine.execDispatch s
  | .parse prof hasDir hasCmd => Sys2Proof.Machine.execParse prof hasDir hasCmd s
  | .recv prof hasDir hasCmd => Sys2Proof.Machine.execRecv prof hasDir hasCmd s
  | .create learn hasDir hasCmd n => Sys2Proof.Machine.execCreate learn hasDir hasCmd n s
  | .chainFlush => Sys2Proof.Machine.execChainFlush s

end Sys2Proof.Machine
end

