-- ==== Sys2Proof/Machine/HostBus.lean ====
section
/-! DEFINITION. The host bus (spec/20_memory.md R80 to R91): the address map, the registers by offset
(spec/10_state.md), and what one read or write access does. -/

namespace Sys2Proof.Machine

/-- The host-visible registers (R31 to R68). -/
inductive Reg where
  | id | version | ctrl | status | cmd
  | arg0 | arg1 | arg2 | arg3
  | res0 | res1 | res2
  | rxpush | rxlen | txlen
  | fType | fDlen | fOlen
  | bvDlen | bvSlen | psel | nfields
  | chainOcc | cntFrames | cntCrcerr | cntOrphan
  | vVariant | vType | vRorg | vStatb | vDbm | vSender | vDest | vFlags | vFunc | vVtype | vManuf | vCmd | vCode
  | vUte | vChain
deriving DecidableEq, Repr

/-- A register's byte offset in the host address space (R31 to R68, R82). -/
def Reg.offset : Reg → Nat
  | .id => 0x000
  | .version => 0x004
  | .ctrl => 0x008
  | .status => 0x00C
  | .cmd => 0x010
  | .arg0 => 0x014
  | .arg1 => 0x018
  | .arg2 => 0x01C
  | .arg3 => 0x020
  | .res0 => 0x024
  | .res1 => 0x028
  | .res2 => 0x02C
  | .rxpush => 0x030
  | .rxlen => 0x034
  | .txlen => 0x038
  | .fType => 0x03C
  | .fDlen => 0x040
  | .fOlen => 0x044
  | .bvDlen => 0x048
  | .bvSlen => 0x04C
  | .psel => 0x050
  | .nfields => 0x054
  | .chainOcc => 0x058
  | .cntFrames => 0x05C
  | .cntCrcerr => 0x060
  | .cntOrphan => 0x064
  | .vVariant => 0x080
  | .vType => 0x084
  | .vRorg => 0x088
  | .vStatb => 0x08C
  | .vDbm => 0x090
  | .vSender => 0x094
  | .vDest => 0x098
  | .vFlags => 0x09C
  | .vFunc => 0x0A0
  | .vVtype => 0x0A4
  | .vManuf => 0x0A8
  | .vCmd => 0x0AC
  | .vCode => 0x0B0
  | .vUte => 0x0B4
  | .vChain => 0x0B8

/-- Every register, in the order of its offset. -/
def allRegs : List Reg :=
  [.id, .version, .ctrl, .status, .cmd, .arg0, .arg1, .arg2, .arg3, .res0, .res1, .res2, .rxpush, .rxlen, .txlen,
    .fType, .fDlen, .fOlen, .bvDlen, .bvSlen, .psel, .nfields, .chainOcc, .cntFrames, .cntCrcerr, .cntOrphan]
  ++ [.vVariant, .vType, .vRorg, .vStatb, .vDbm, .vSender, .vDest, .vFlags, .vFunc, .vVtype, .vManuf, .vCmd, .vCode,
    .vUte, .vChain]

/-- The register at an offset, if any. -/
def regAt (a : Nat) : Option Reg := allRegs.find? fun r => r.offset == a

/-- What a mapped address selects (R82). -/
inductive Target where
  | reg (r : Reg)
  /-- RXBUF byte i -/
  | rxbuf (i : Nat)
  /-- FDATA byte i -/
  | fdata (i : Nat)
  /-- FOPT byte i -/
  | fopt (i : Nat)
  /-- TXBUF byte i -/
  | txbuf (i : Nat)
  /-- BV_DATA bits 32k .. 32k+31 -/
  | bvData (k : Nat)
  /-- BV_STAT -/
  | bvStat
  /-- field entry i, word w -/
  | field (i w : Nat)
  /-- named-value entry i, word w -/
  | nv (i w : Nat)
deriving DecidableEq, Repr

/-- The words of the BV_DATA window (R82). -/
def bvWords : Nat := 16384

/-- The target if the index is below the bound, else unmapped (R82). -/
def bounded (i cap : Nat) (t : Target) : Option Target := if i < cap then some t else none

/-- The host address map (R82) at a word-aligned address: `none` where it is unmapped. -/
def mapAddr (cfg : Cfg) (a : Nat) : Option Target :=
  if a < 0x100000 then (regAt a).map .reg
  else if a < 0x200000 then bounded ((a - 0x100000) / 4) cfg.rxbufCap (.rxbuf ((a - 0x100000) / 4))
  else if a < 0x300000 then bounded ((a - 0x200000) / 4) pDataCap (.fdata ((a - 0x200000) / 4))
  else if a < 0x400000 then bounded ((a - 0x300000) / 4) pOptCap (.fopt ((a - 0x300000) / 4))
  else if a < 0x500000 then bounded ((a - 0x400000) / 4) pTxCap (.txbuf ((a - 0x400000) / 4))
  else if a < 0x600000 then bounded ((a - 0x500000) / 4) bvWords (.bvData ((a - 0x500000) / 4))
  else if a < 0x700000 then (if a = 0x600000 then some .bvStat else none)
  else if a < 0x800000 then
    bounded ((a - 0x700000) / 32) cfg.fieldCap (.field ((a - 0x700000) / 32) ((a - 0x700000) % 32 / 4))
  else if a < 0x900000 then
    bounded ((a - 0x800000) / 16) cfg.nvCap (.nv ((a - 0x800000) / 16) ((a - 0x800000) % 16 / 4))
  else none

/-- An access is accepted only at size 4, word-aligned and mapped (R81); otherwise it is a bus error (R83). -/
def accept (cfg : Cfg) (a n : Nat) : Option Target := if n = 4 ∧ a % 4 = 0 then mapAddr cfg a else none

/-! ### Reads -/

/-- A bit field of a bit array as a word, first bit most significant (R84); bits past the capacity read 0. -/
def bitsWord (m : Bits) (cap start n : Nat) : Word :=
  BitVec.ofNat 32
    (bitsToInt ((List.range 32).map fun j =>
      if j < n ∧ start + j < cap then Store.read m (start + j) else false))

/-- The value a register reads as (R31 to R68); WO registers read 0 (R88). -/
def readReg (s : State) : Reg → Word
  | .id => 0x45535033
  | .version => 0x00000001
  | .ctrl => s.ctrl.word
  | .status => s.status.word
  | .cmd => 0
  | .arg0 => s.arg0
  | .arg1 => s.arg1
  | .arg2 => s.arg2
  | .arg3 => s.arg3
  | .res0 => s.res0
  | .res1 => s.res1
  | .res2 => s.res2
  | .rxpush => 0
  | .rxlen => (BitVec.ofNat 18 s.rxlen).setWidth 32
  | .txlen => (BitVec.ofNat 17 s.txlen).setWidth 32
  | .fType => s.fType.setWidth 32
  | .fDlen => s.fDlen.setWidth 32
  | .fOlen => s.fOlen.setWidth 32
  | .bvDlen => (BitVec.ofNat 20 s.bvDlen).setWidth 32
  | .bvSlen => (BitVec.ofNat 4 s.bvSlen).setWidth 32
  | .psel => s.psel.word
  | .nfields => (BitVec.ofNat 16 s.nfields).setWidth 32
  | .chainOcc => (BitVec.ofNat 16 s.chainOcc).setWidth 32
  | .cntFrames => s.cntFrames.setWidth 32
  | .cntCrcerr => s.cntCrcerr.setWidth 32
  | .cntOrphan => s.cntOrphan.setWidth 32
  | .vVariant => s.view.variant.word
  | .vType => s.view.ptype.setWidth 32
  | .vRorg => s.view.rorg.setWidth 32
  | .vStatb => s.view.statb.setWidth 32
  | .vDbm => s.view.dbm
  | .vSender => s.view.sender
  | .vDest => s.view.dest
  | .vFlags => s.view.flags.word
  | .vFunc => s.view.func.setWidth 32
  | .vVtype => s.view.vtype.setWidth 32
  | .vManuf => s.view.manuf.setWidth 32
  | .vCmd => s.view.cmd.setWidth 32
  | .vCode => s.view.code.setWidth 32
  | .vUte => s.view.uteWord
  | .vChain => s.view.chainWord

/-- The word an accepted read of an idle block returns (R84, R87): RXBUF, TXBUF and FT read 0 past their valid
lengths. -/
def readTarget (s : State) : Target → Word
  | .reg r => readReg s r
  | .rxbuf i => if i < s.rxlen then zextByte (Store.read (α := Byte) s.rxbuf i) else 0
  | .fdata i => zextByte (Store.read (α := Byte) s.fdata i)
  | .fopt i => zextByte (Store.read (α := Byte) s.fopt i)
  | .txbuf i => if i < s.txlen then zextByte (Store.read (α := Byte) s.txbuf i) else 0
  | .bvData k => bitsWord s.bvData pBvCap (32 * k) 32
  | .bvStat => bitsWord s.bvStat pBsCap 0 8
  | .field i w => if i < s.nfields then (Store.read s.ft i).word w else 0
  | .nv i w => Store.read s.nv (4 * i + w)

/-- The registers a read of which returns its value even while BUSY = 1 (R91). -/
def Target.stable : Target → Bool
  | .reg .id | .reg .version | .reg .ctrl | .reg .status => true
  | _ => false

/-- An accepted read (R89, R91): no side effect on the block; while BUSY = 1 an unstable target returns a fresh draw. -/
def acceptedRead (s : State) (t : Target) : State × Word :=
  if s.status.busy && !t.stable then ({ s with draws := s.draws + 1 }, Config.busyRead s.draws)
  else (s, readTarget s t)

/-! ### Writes -/

/-- A write of the implemented bits of a bit-vector window word (R84): word bit 31-j goes to bit `start + j`, for `n`
bits below the capacity. -/
def writeBitsWord (m : Bits) (cap start n : Nat) (w : Word) : Bits :=
  Store.writeList m start ((bitsOf 32 w.toNat).take (min n (cap - start)))

/-- A host write to CTRL (R33, R282): SRST resets the block and stores nothing; otherwise the two enables. -/
def writeCtrl (s : State) (w : Word) : State :=
  if w.getLsbD 31 then s.blockReset
  else { s with ctrl := { ieDone := w.getLsbD 0, ieErr := w.getLsbD 1 } }

/-- A host write to CMD when idle (R35): the word is latched and BUSY set. The delay to the block step is drawn. -/
def writeCmd (s : State) (w : Word) : State :=
  { s with
    cmdl := w
    status := { s.status with busy := true }
    delay := Config.commandDelay s.draws
    draws := s.draws + 1 }

/-- A host write to RXPUSH when idle (R39). -/
def pushRx (s : State) (w : Word) : State :=
  if s.rxlen < s.cfg.rxbufCap then
    { s with rxbuf := Store.write (α := Byte) s.rxbuf s.rxlen (w.extractLsb' 0 8), rxlen := s.rxlen + 1 }
  else { s with status := { s.status with rxovf := true } }

/-- A host write to a register of an idle block (R31 to R68, R88): RO registers ignore writes. -/
def writeReg (s : State) (r : Reg) (w : Word) : State :=
  match r with
  | .ctrl => writeCtrl s w
  | .status => { s with status := s.status.write1c w }
  | .cmd => writeCmd s w
  | .arg0 => { s with arg0 := w }
  | .arg1 => { s with arg1 := w }
  | .arg2 => { s with arg2 := w }
  | .arg3 => { s with arg3 := w }
  | .rxpush => pushRx s w
  | .fType => { s with fType := w.extractLsb' 0 8 }
  | .fDlen => { s with fDlen := w.extractLsb' 0 16 }
  | .fOlen => { s with fOlen := w.extractLsb' 0 8 }
  | .bvDlen => if (w.extractLsb' 0 20).toNat ≤ pBvCap then { s with bvDlen := (w.extractLsb' 0 20).toNat } else s
  | .bvSlen => if (w.extractLsb' 0 4).toNat ≤ pBsCap then { s with bvSlen := (w.extractLsb' 0 4).toNat } else s
  | .id | .version | .res0 | .res1 | .res2 | .rxlen | .txlen | .psel | .nfields | .chainOcc | .cntFrames | .cntCrcerr
  | .cntOrphan | .vVariant | .vType | .vRorg | .vStatb | .vDbm | .vSender | .vDest | .vFlags | .vFunc | .vVtype
  | .vManuf | .vCmd | .vCode | .vUte | .vChain => s

/-- An accepted write to an idle block (R87, R88): RO windows ignore it. -/
def writeTarget (s : State) (t : Target) (w : Word) : State :=
  match t with
  | .reg r => writeReg s r w
  | .fdata i => { s with fdata := Store.write (α := Byte) s.fdata i (w.extractLsb' 0 8) }
  | .fopt i => { s with fopt := Store.write (α := Byte) s.fopt i (w.extractLsb' 0 8) }
  | .bvData k => { s with bvData := writeBitsWord s.bvData pBvCap (32 * k) 32 w }
  | .bvStat => { s with bvStat := writeBitsWord s.bvStat pBsCap 0 8 w }
  | .nv i k => { s with nv := Store.write s.nv (4 * i + k) w }
  | .rxbuf _ | .txbuf _ | .field _ _ => s

/-- The registers a write of which acts normally while BUSY = 1 (R91). -/
def Target.liveWrite : Target → Bool
  | .reg .ctrl | .reg .status => true
  | _ => false

/-- An accepted write (R91): while BUSY = 1 every write but those to STATUS and CTRL is dropped and sets BUSYWR. -/
def acceptedWrite (s : State) (t : Target) (w : Word) : State :=
  if s.status.busy && !t.liveWrite then { s with status := { s.status with busywr := true } } else writeTarget s t w

/-! ### Accesses by the host agent -/

/-- The host sees the bus's answer. -/
def State.respond (s : State) (r : BusResponse) : State := { s with host := { s.host with resp := r } }

/-- The host sees the word a read returned: it becomes RD, the value of the most recent `rd` (R114). -/
def State.respondData (s : State) (w : Word) : State := { s with host := { s.host with resp := .data w, rd := w } }

/-- `MemWrite(a, n, v)` (R81, R83). -/
def memWrite (s : State) (a n : Nat) (v : Word) : State :=
  match accept s.cfg a n with
  | none => s.respond .busError
  | some t => (acceptedWrite s t v).respond .ack

/-- `MemRead(a, n)` (R81, R83): a bus error returns no data. -/
def memRead (s : State) (a n : Nat) : State :=
  match accept s.cfg a n with
  | none => s.respond .busError
  | some t =>
    let r := acceptedRead s t
    r.1.respondData r.2

end Sys2Proof.Machine
end

