-- ==== Sys2Proof/Machine/Sequencer.lean ====
section
/-! DEFINITION. The two agents (spec/00_scope.md R13): the block's sequencer, which runs the command in CMDL in one
atomic step (spec/10_state.md R36, spec/20_memory.md R90), and the host, which runs its program's next line
(spec/30_encoding.md R114); and which of them moves (spec/70_reset_and_hazards.md R296). -/

namespace Sys2Proof.Machine

/-- The line the host is at; `none` where its program has ended. -/
def hostLine (s : State) : Option HostLine := s.host.prog[s.host.pc]?

/-- The host issues nothing more: `halt`, or the end of the program. -/
def hostIdle (s : State) : Bool :=
  match hostLine s with
  | none => true
  | some .halt => true
  | some _ => false

/-- The block moves: a command is pending, and the drawn number of host steps has passed or the host has no more
(R36, R296). -/
def blockTurn (s : State) : Bool := s.status.busy && (hostIdle s || s.delay == 0)

/-- The instruction the block fetches: the command word in CMDL (R36, R94). -/
def fetchWord (s : State) : Word := s.cmdl

/-- The block step (R36, R90): the decoded command runs to its end; an illegal opcode ends fatal (R255). -/
def blockStep (s : State) : Host.Outcome State Fault Refusal :=
  match decode (fetchWord s) with
  | .ok i => exec i s
  | .error .illegalOpcode => .next (s.raiseFatal .illegalOpcode)

/-- The host goes on to its next line, one host step nearer to the block step. -/
def State.advanceHost (s : State) : State :=
  { s with host := { s.host with pc := s.host.pc + 1 }, delay := s.delay - 1 }

/-- The host goes on at line `p`. -/
def State.branchHost (s : State) (p : Nat) : State :=
  { s with host := { s.host with pc := p }, delay := s.delay - 1 }

/-- The line that defines a label. -/
def labelLine (prog : List HostLine) (l : Nat) : Option Nat := prog.findIdx? fun x => x == .label l

/-- A branch to a label (R114). -/
def gotoLabel (s : State) (l : Nat) : Host.Outcome State Fault Refusal :=
  match labelLine s.host.prog l with
  | some p => .next (s.branchHost p)
  | none => .fault .undefinedLabel

/-- RD[hi:lo] (R114). -/
def rdField (s : State) (hi lo : Nat) : Nat := s.host.rd.toNat / 2 ^ lo % 2 ^ (hi + 1 - lo)

/-- A line of the host program (R114): one host step. -/
def runLine (s : State) : HostLine → Host.Outcome State Fault Refusal
  | .write a n v => .next (memWrite s.advanceHost a n v)
  | .read a n => .next (memRead s.advanceHost a n)
  | .label _ => .next s.advanceHost
  | .ifEq hi lo v l => if rdField s hi lo = v then gotoLabel s l else .next s.advanceHost
  | .ifNe hi lo v l => if rdField s hi lo ≠ v then gotoLabel s l else .next s.advanceHost
  | .goto l => gotoLabel s l
  | .halt => .next s
  | .hardReset => .next s.advanceHost.blockReset

/-- The host step. A host with nothing to issue leaves the block idle, which keeps all its state (R270). -/
def hostStep (s : State) : Host.Outcome State Fault Refusal :=
  match hostLine s with
  | none => .next s
  | some line => runLine s line

/-- Put a command word where the block fetches: it is pending and the block moves next (R35, R36). -/
def State.pendingCommand (s : State) (w : Word) : State :=
  { s with cmdl := w, status := { s.status with busy := true }, delay := 0 }

end Sys2Proof.Machine
end

