-- ==== Sys2Proof/Machine/Step.lean ====
section
/-! DEFINITION. One step of the machine: the block's or the host's. -/

namespace Sys2Proof.Machine

/-- One step (spec/20_memory.md R92): a single total order of host steps and command steps. -/
def step (s : State) : Host.Outcome State Fault Refusal := if blockTurn s then blockStep s else hostStep s

/-- `s` with a table row's word latched as the pending command, so that the next step runs it. -/
def State.withFetchWord (s : State) (nbits w : Nat) : State := s.pendingCommand (tableWord nbits w)

end Sys2Proof.Machine
end

