-- ==== Sys2Proof/Machine/Assembly.lean ====
section
/-! DEFINITION. The assembly of host bus operations (spec/30_encoding.md R114, R115) as functions that write host
program lines: names stand for addresses, and a pseudo-instruction is its expansion. -/

namespace Sys2Proof.Machine

/-- The windows an assembly line names (R114), with their index. -/
inductive WinRef where
  | rxbuf (i : Nat)
  | fdata (i : Nat)
  | fopt (i : Nat)
  | txbuf (i : Nat)
  | bvd (k : Nat)
  | bvs
  | ft (i w : Nat)
  | nv (i w : Nat)
deriving DecidableEq, Repr

/-- The address of a window reference (R82). -/
def winAddr : WinRef → Nat
  | .rxbuf i => 0x100000 + 4 * i
  | .fdata i => 0x200000 + 4 * i
  | .fopt i => 0x300000 + 4 * i
  | .txbuf i => 0x400000 + 4 * i
  | .bvd k => 0x500000 + 4 * k
  | .bvs => 0x600000
  | .ft i w => 0x700000 + 32 * i + 4 * w
  | .nv i w => 0x800000 + 16 * i + 4 * w

/-- `wr NAME, value`. -/
def asmWr (r : Reg) (v : Word) : HostLine := .write r.offset 4 v

/-- `wr WIN[i], value`. -/
def asmWrWin (x : WinRef) (v : Word) : HostLine := .write (winAddr x) 4 v

/-- `rd NAME`. -/
def asmRd (r : Reg) : HostLine := .read r.offset 4

/-- `rd WIN[i]`. -/
def asmRdWin (x : WinRef) : HostLine := .read (winAddr x) 4

/-- The word of `cmd`: imm<<16 | FLG<<12 | BSEL<<8 | OPC (R114). -/
def cmdWord (imm : BitVec 16) (flg bsel : BitVec 4) (opc : Byte) : Word := imm ++ flg ++ bsel ++ opc

/-- `cmd` with a command of the set. -/
def asmCmd (i : Instr) : HostLine := asmWr .cmd (encode i)

/-- `wait` (R115), with `l` its fresh label. -/
def asmWait (l : Nat) : List HostLine := [.label l, asmRd .status, .ifEq 0 0 1 l]

/-- `exec MNEM...` (R115). -/
def asmExec (i : Instr) (l : Nat) : List HostLine := asmCmd i :: asmWait l

/-- `push b0, ..., bk` (R115). -/
def asmPush (bytes : List Byte) : List HostLine := bytes.map fun b => asmWr .rxpush (zextByte b)

/-- `ack` (R115): clears the six W1C bits. -/
def asmAck : HostLine := asmWr .status 0x7E

/-- `wbytes WIN, i, b0 ... bk` (R115), `win` giving the window's reference at an index. -/
def asmWbytes (win : Nat → WinRef) (i : Nat) (bytes : List Byte) : List HostLine :=
  bytes.zipIdx.map fun p => asmWrWin (win (i + p.2)) (zextByte p.1)

/-- `setf t, dl, ol` (R115). -/
def asmSetf (t dl ol : Word) : List HostLine := [asmWr .fType t, asmWr .fDlen dl, asmWr .fOlen ol]

end Sys2Proof.Machine
end

