-- ==== Sys2Proof/Safety.lean ====
section
/-! DEFINITION. What a safe run keeps: the invariant `State.Inv` of the block (the ranges and forms spec/10_state.md gives
every piece of state, under R6's constraints on the configuration), and the terms the statements use. -/

namespace Sys2Proof

/-- The block fits the discriminators: a block that is not specific to one matches any (R172). -/
def DataBlock.fits (b : DataBlock) (dir cmd : Option Byte) : Prop :=
  (cmd = none ∨ b.command = none ∨ b.command = cmd) ∧ (dir = none ∨ b.direction = none ∨ b.direction = dir)

/-- The profile has the three keys (R172). -/
def Profile.hasKeys (e : Profile) (c f t : Byte) : Prop := e.rorg = c ∧ e.func = f ∧ e.ptype = t

end Sys2Proof

namespace Sys2Proof.Machine

/-- A chain slot as R71 has it: ACCLEN ≤ DECL ≤ P_CHAIN_MAX_LEN and OPTLEN ≤ 255; a free slot is always so. -/
def slotOk (cfg : Cfg) : Option ChainSlot → Bool
  | none => true
  | some c => decide (c.acc.length ≤ c.decl) && decide (c.decl ≤ cfg.chainMaxLen) && decide (c.opt.length ≤ pOptCap)

/-- Two slots do not both hold one key (R70). -/
def keysDiffer : Option ChainSlot → Option ChainSlot → Bool
  | some c, some c' => !(decide (c.sender = c'.sender) && decide (c.seq = c'.seq))
  | _, _ => true

/-- A field record as R50 has it: MATCH 1 or 2 for an ENUM and 0 for the other kinds, ITEM 0 when MATCH is 0, a SCALE
result for a VALUE alone, and DISPLAY 0 without one. (KIND 3 has no constructor.) -/
structure FieldRec.Ok (r : FieldRec) : Prop where
  matched : r.kind = .enum → r.fmatch = 1 ∨ r.fmatch = 2
  unmatched : r.kind ≠ .enum → r.fmatch = 0 ∧ r.item = 0
  scaled : r.scaled = true → r.kind = .value
  display : r.scaled = false → r.display = 0

/-- The packet view as R56 to R68 have it: what each register reads when the packet does not set it. -/
structure View.Inv (v : View) : Prop where
  /-- NONE shows nothing (R69, R281). -/
  nothing : v.variant = .noPacket → v = View.cleared
  /-- R58 to R63, R195, R196, R200: packets without a radio view, whose one flag is DEGRADED. -/
  plain : v.variant = .generic ∨ v.variant = .response ∨ v.variant = .event →
    v.sender = 0 ∧ v.dest = 0 ∧ v.dbm = 0 ∧ v.statb = 0 ∧ v.func = 0 ∧ v.vtype = 0 ∧
      v.flags = { View.cleared.flags with degraded := v.flags.degraded }
  /-- R62, R206: a 4BS teach-in with its profile identity is a learn telegram, and gives all of it. -/
  identity : v.flags.containsEep = true →
    v.rorg = pRorg4bs ∧ v.flags.learn = true ∧ v.flags.ftValid = true ∧ v.flags.manufValid = true
  /-- R63, R206: V_FUNC and V_VTYPE come from such a teach-in or from a UTE telegram alone. -/
  telegram : v.flags.ftValid = true → v.flags.containsEep = true ∨ v.variant = .ute
  /-- R64, R206: V_MANUF comes from these or from an MSC telegram alone. -/
  maker : v.flags.manufValid = true → v.flags.containsEep = true ∨ v.rorg = pRorgMsc ∨ v.variant = .ute
  /-- R190, R206: a UTE view has its category and its whole identity. -/
  uteIdentity : v.variant = .ute → v.rorg = pRorgUte ∧ v.flags.ftValid = true ∧ v.flags.manufValid = true
  /-- R64 -/
  manuf : v.flags.manufValid = false → v.manuf = 0
  /-- R65 -/
  cmd : v.flags.cmdValid = false → v.cmd = 0
  /-- R66 -/
  code : ¬(v.variant = .response ∨ v.variant = .event) → v.code = 0
  /-- R66: the code is data byte 0, which V_RORG shows (R58). -/
  codeShown : v.variant = .response ∨ v.variant = .event → v.code = v.rorg
  /-- R67, R62 -/
  ute : v.variant ≠ .ute →
    v.uteReq = 0 ∧ v.uteChannel = 0 ∧ v.uteRorg = 0 ∧ v.flags.unidir = false ∧ v.flags.respExpected = false
  /-- R68 -/
  chain : v.variant ≠ .chained → v.chainIdx = 0 ∧ v.chainSeq = 0 ∧ v.chainProp = false ∧ v.chainValid = false
  /-- R242, R241: a CHAINED view always shows a control byte. -/
  chained : v.variant = .chained → v.chainValid = true
  /-- R200: a degraded view decoded nothing. -/
  degraded : v.flags.degraded = true →
    (v.variant = .generic ∨ v.variant = .chained) ∧ v.flags.profileFound = false ∧ v.flags.learn = false

/-- The invariant every step keeps, from every state that meets it. -/
structure State.Inv (s : State) : Prop where
  /-- R6, R170, R171 -/
  cfgLegal : s.cfg.legal = true
  /-- R40 -/
  rxbufWf : Memory.wf s.rxbuf = true
  rxbufBelow : Store.below s.cfg.rxbufCap s.rxbuf = true
  rxlenLe : s.rxlen ≤ s.cfg.rxbufCap
  /-- R41 -/
  txbufWf : Memory.wf s.txbuf = true
  txbufBelow : Store.below pTxCap s.txbuf = true
  txlenRange : s.txlen = 0 ∨ 7 ≤ s.txlen ∧ s.txlen ≤ pTxCap
  /-- R45 -/
  fdataWf : Memory.wf s.fdata = true
  fdataBelow : Store.below pDataCap s.fdata = true
  /-- R46 -/
  foptWf : Memory.wf s.fopt = true
  foptBelow : Store.below pOptCap s.fopt = true
  /-- R47 -/
  bvDataWf : Store.wf s.bvData = true
  bvDataBelow : Store.below pBvCap s.bvData = true
  bvDlenLe : s.bvDlen ≤ pBvCap
  /-- R48 -/
  bvStatWf : Store.wf s.bvStat = true
  bvStatBelow : Store.below pBsCap s.bvStat = true
  bvSlenLe : s.bvSlen ≤ pBsCap
  /-- R49: a valid PSEL selects a block of the catalog; an invalid one reads 0. -/
  pselBlock : s.psel.valid = true →
    (catalogBlock s.cfg.catalog s.psel.entry.toNat s.psel.block.toNat).isSome = true
  pselZero : s.psel.valid = false → s.psel.entry = 0 ∧ s.psel.block = 0
  /-- R50 -/
  ftWf : Store.wf s.ft = true
  ftBelow : Store.below s.cfg.fieldCap s.ft = true
  nfieldsLe : s.nfields ≤ s.cfg.fieldCap
  ftRecords : ∀ i, (Store.read s.ft i).Ok
  /-- R51 -/
  nvWf : Store.wf s.nv = true
  nvBelow : Store.below (4 * s.cfg.nvCap) s.nv = true
  /-- R70, R71 -/
  chainLen : s.chain.length = s.cfg.chainSlots
  chainSlotsOk : ∀ x ∈ s.chain, slotOk s.cfg x = true
  chainKeys : s.chain.Pairwise fun x y => keysDiffer x y = true
  /-- R56 to R68 -/
  viewInv : s.view.Inv

/-! ### Terms the statements use -/

/-- STATUS after a command ends with a code that is not fatal (R252): FATAL keeps its value. -/
def Status.endedOk (st : Status) (c : ResultCode) : Status := { st with result := c, done := true, busy := false }

/-- STATUS after a fatal end (R252, R254). -/
def Status.endedFatal (st : Status) (c : ResultCode) : Status :=
  { st with result := c, done := true, fatal := true, busy := false }

/-- The bits of the command word an instruction's row of R107 uses: OPC, and the BSEL, FLG and IMM16 fields it
names. -/
def usedBits : Instr → Word
  | .nop => 0x000000FF
  | .crc8 _ => 0x00000FFF
  | .rxFlush => 0x000000FF
  | .frameDecode => 0x000000FF
  | .frameEncode => 0x000000FF
  | .bitsUnpack _ _ => 0x00001FFF
  | .bitsToInt _ => 0x000010FF
  | .bitsPack _ _ => 0x00001FFF
  | .findProfile _ _ => 0x000060FF
  | .fieldDecode => 0x000000FF
  | .fieldEncode _ => 0xFFFF00FF
  | .dispatch => 0x000000FF
  | .parse _ _ _ => 0x000070FF
  | .recv _ _ _ => 0x000070FF
  | .create _ _ _ _ => 0xFFFF70FF
  | .chainFlush => 0x000000FF

/-- The decimal digits of a byte's decimal string, least significant first, with no leading zero (R234). -/
def decDigits (b : Byte) : List Nat := if b = 0 then [0] else Nat.digits 10 b.toNat

/-- Byte `k` of a byte array, as the block stores it: the model's read of one byte of memory. -/
def Memory.byte (m : Memory) (k : Nat) : Byte := Store.read (α := Byte) m k

/-- The codes R250 lets each command write. -/
def codesOf : Instr → List ResultCode
  | .nop | .rxFlush | .frameEncode | .dispatch | .chainFlush => [.ok]
  | .crc8 _ | .bitsToInt _ | .bitsPack _ _ => [.ok, .badArg]
  | .frameDecode => [.ok, .incomplete, .crcMismatch]
  | .bitsUnpack _ _ => [.ok, .badArg, .capacity]
  | .findProfile _ _ | .fieldDecode => [.ok, .notFound]
  | .fieldEncode _ => [.ok, .notFound, .unknownField, .badDescriptor, .badArg]
  | .parse _ _ _ => [.ok, .chainPending, .chainOrphan, .chainFull, .chainTooLong, .malformed]
  | .recv _ _ _ =>
    [.ok, .incomplete, .crcMismatch, .chainPending, .chainOrphan, .chainFull, .chainTooLong, .malformed]
  | .create _ _ _ _ =>
    [.ok, .notFound, .unknownField, .badDescriptor, .badArg, .unsupportedType, .unsupportedCategory, .badAddrLen]

/-- The block may take its step: a command is pending, and the host steps drawn for it have passed, or the host has
nothing more to issue (R36, R296). -/
def State.mayRun (s : State) : Prop := s.status.busy = true ∧ (s.delay = 0 ∨ hostIdle s = true)

/-- The F registers hold a packet of the radio-class variant `v`, long enough for it (R190, R197). -/
def State.holdsRadio (s : State) (v : Variant) : Prop :=
  (v = .radio ∨ v = .msc ∨ v = .ute) ∧ dispatchOf s.cfg s.fType s.dataBytes = v ∧
    6 ≤ s.fDlen.toNat ∧ 6 ≤ s.fOlen.toNat ∧ (v = .ute → 13 ≤ s.fDlen.toNat)

/-- The F registers hold a chained fragment long enough for its index (R190, R231). -/
def State.holdsFragment (s : State) : Prop :=
  dispatchOf s.cfg s.fType s.dataBytes = .chained ∧
    (fragIdx s.dataBytes = 0 → 9 ≤ s.fDlen.toNat) ∧ (fragIdx s.dataBytes ≠ 0 → 7 ≤ s.fDlen.toNat)

/-- The sender of the fragment the F registers hold (R235). -/
def State.fragSender (s : State) : Word := addrWord (senderBytes s.dataBytes)

/-- The fragment uses the proprietary framing (R242). -/
def State.fragProp (s : State) : Bool := decide (s.dataBytes.getD 0 0 = s.cfg.rorgCdmProp)

/-- The view of the fragment the F registers hold (R242). -/
def State.fragView (s : State) : View := fragmentView s.fragProp s.fType s.dataBytes s.optBytes View.cleared

/-- The slot holds the key of the fragment the F registers hold (R236). -/
def State.fragKey (s : State) (c : ChainSlot) : Prop := c.sender = s.fragSender ∧ c.seq = fragSeq s.dataBytes

/-- PSEL after `if req.prof = 1 then PSEL <- 0` (R194). -/
def State.pselAfter (s : State) (prof : Bool) : Psel := if prof then { valid := false, entry := 0, block := 0 } else s.psel

/-- CREATE's operands pass R215's checks. -/
def CreateArgs.valid (cfg : Cfg) (a : CreateArgs) : Prop :=
  a.ptype = 0x01 ∧ (a.cat = 0xF6 ∨ a.cat = 0xD5 ∨ a.cat = 0xA5 ∨ a.cat = 0xD2) ∧
    ((a.sl = 0 ∨ a.sl = 4) ∧ (a.dl = 0 ∨ a.dl = 4)) ∧ a.n ≤ cfg.nvCap

end Sys2Proof.Machine
end

