-- ==== Sys2Proof/Certificates/Slice0/Obligations.lean ====
section
/-! DEFINITION. The statements for the provers. Each docstring names the rules of spec/ it formalises; where a clause
rests on a value or a behaviour the model chose, it says so and names the assumption. -/

open Sys2Proof Sys2Proof.Machine

/-! ### Encoding -/

/-- Every command, with every operand at every value its encoding admits, comes back from its encoding (R100 to R107). -/
def Obligations.DecodeEncodeAgree : Prop := ∀ i : Instr, decode (encode i) = .ok i

/-- The bits a command's row of R107 uses are all read, and no other bit matters: encoding what a word decodes to gives
the word with every other bit 0 (R100, R101, R104, R107). -/
def Obligations.DecodeReadsUsedBits : Prop :=
  ∀ (w : Word) (i : Instr), decode w = .ok i → encode i = w &&& usedBits i

/-- R102: OPC alone selects the command; 0x10 to 0xFF select none (R104). -/
def Obligations.OpcodeSelectsCommand : Prop :=
  ∀ w : Word,
    (w &&& 0xFF = 0x00 → decode w = .ok .nop) ∧
    (w &&& 0xFF = 0x01 → ∃ b, decode w = .ok (.crc8 b)) ∧
    (w &&& 0xFF = 0x02 → decode w = .ok .rxFlush) ∧
    (w &&& 0xFF = 0x03 → decode w = .ok .frameDecode) ∧
    (w &&& 0xFF = 0x04 → decode w = .ok .frameEncode) ∧
    (w &&& 0xFF = 0x05 → ∃ b f, decode w = .ok (.bitsUnpack b f)) ∧
    (w &&& 0xFF = 0x06 → ∃ f, decode w = .ok (.bitsToInt f)) ∧
    (w &&& 0xFF = 0x07 → ∃ b f, decode w = .ok (.bitsPack b f)) ∧
    (w &&& 0xFF = 0x08 → ∃ f g, decode w = .ok (.findProfile f g)) ∧
    (w &&& 0xFF = 0x09 → decode w = .ok .fieldDecode) ∧
    (w &&& 0xFF = 0x0A → ∃ n, decode w = .ok (.fieldEncode n)) ∧
    (w &&& 0xFF = 0x0B → decode w = .ok .dispatch) ∧
    (w &&& 0xFF = 0x0C → ∃ f g h, decode w = .ok (.parse f g h)) ∧
    (w &&& 0xFF = 0x0D → ∃ f g h, decode w = .ok (.recv f g h)) ∧
    (w &&& 0xFF = 0x0E → ∃ f g h n, decode w = .ok (.create f g h n)) ∧
    (w &&& 0xFF = 0x0F → decode w = .ok .chainFlush) ∧
    (0x10 ≤ (w &&& 0xFF).toNat → decode w = .error .illegalOpcode)

/-- Words written out from R100, R102, R107 and R114 decode to the command they stand for: `cmd CRC8.RX`,
`cmd BITS_UNPACK.FO +S`, `cmd BITS_PACK.FO`, `cmd FIND_PROFILE +C`, `cmd FIELD_ENCODE #3`, `cmd PARSE +P +D`,
`cmd RECV +P`, `cmd CREATE +L +C #258`. -/
def Obligations.SpecWordsDecode : Prop :=
  decode 0x00000201 = .ok (.crc8 2) ∧ decode 0x00001105 = .ok (.bitsUnpack 1 true) ∧
    decode 0x00000107 = .ok (.bitsPack 1 false) ∧ decode 0x00004008 = .ok (.findProfile false true) ∧
    decode 0x0003000A = .ok (.fieldEncode 3) ∧ decode 0x0000300C = .ok (.parse true true false) ∧
    decode 0x0000100D = .ok (.recv true false false) ∧ decode 0x0102500E = .ok (.create true false true 258)

/-! ### Steps -/

/-- A step of the block runs the command the pending word decodes to (R36, R90), and nothing is added around it; so does
the step after a word is placed where the block fetches (`withFetchWord` is the model's, assumption 6). -/
def Obligations.StepRunsDecodedCommand : Prop :=
  (∀ (s : State) (i : Instr), s.mayRun → decode s.cmdl = .ok i → step s = exec i s) ∧
    ∀ (s : State) (nbits w : Nat) (i : Instr), decodeTableWord nbits w = some i →
      step (s.withFetchWord nbits w) = exec i (s.withFetchWord nbits w)

/-- R255: a word with an illegal opcode is accepted at the CMD write, and its step ends fatal ILLEGAL_OPCODE. -/
def Obligations.IllegalOpcodeEndsFatal : Prop :=
  (∀ (s : State) (w : Word), s.status.busy = false →
      (memWrite s 0x010 4 w).cmdl = w ∧ (memWrite s 0x010 4 w).status = { s.status with busy := true }) ∧
    ∀ s : State, s.mayRun → 0x10 ≤ (s.cmdl &&& 0xFF).toNat →
      step s = .next { s with status := s.status.endedFatal .illegalOpcode }

/-- R296's fairness in the model: a pending command ends (or a reset drops it) within the number of steps drawn for it,
unless the host's program has no meaning. The bound is the model's own field `delay` (assumption 4). -/
def Obligations.PendingCommandEnds : Prop :=
  ∀ s : State, s.status.busy = true →
    ∃ k ≤ s.delay + 1,
      (∃ t : State, Host.Core.run Sys2Proof.core k s = .next t ∧ t.status.busy = false) ∨
        Host.Core.run Sys2Proof.core k s = .fault Fault.undefinedLabel

/-! ### The end of a command -/

/-- R252: every command ends, with its code in RESULT, DONE set, FATAL set by a code with bit 7 set and unchanged
otherwise, and BUSY cleared. R262: it clears no condition flag, and sets neither RXOVF nor BUSYWR. -/
def Obligations.EveryCommandEnds : Prop :=
  ∀ (i : Instr) (s : State), ∃ t, exec i s = .next t ∧
    t.status.done = true ∧ t.status.busy = false ∧
    t.status.fatal = (s.status.fatal || t.status.result.code.getLsbD 7) ∧
    t.status.rxovf = s.status.rxovf ∧ t.status.busywr = s.status.busywr ∧
    (s.status.lenooc = true → t.status.lenooc = true) ∧ (s.status.fldovf = true → t.status.fldovf = true)

/-- R254: a fatal end changes STATUS.RESULT, DONE, FATAL and BUSY, and nothing else. -/
def Obligations.FatalEndChangesOnlyStatus : Prop :=
  ∀ s t : State, blockStep s = .next t → t.status.result.code.getLsbD 7 = true →
    t = { s with status := s.status.endedFatal t.status.result }

/-- The codes R250's table lets each command write are the only ones it ends with; the number of each code. -/
def Obligations.ResultCodesByCommand : Prop :=
  (∀ (i : Instr) (s t : State), exec i s = .next t → t.status.result ∈ codesOf i) ∧
    ∀ c : ResultCode, c.code =
      match c with
      | .ok => 0x00 | .incomplete => 0x01 | .crcMismatch => 0x02 | .notFound => 0x03 | .unknownField => 0x04
      | .chainPending => 0x05 | .chainOrphan => 0x06 | .chainFull => 0x07 | .chainTooLong => 0x08
      | .malformed => 0x09 | .badDescriptor => 0x0A | .illegalOpcode => 0x80 | .badArg => 0x81
      | .unsupportedType => 0x82 | .unsupportedCategory => 0x83 | .badAddrLen => 0x84 | .capacity => 0x86

/-- No command writes an operand register, the named-value table, CTRL, the latch or the configuration (R37, R51, R33,
R36, R30), nor the model's own host, delay and draw fields. -/
def Obligations.CommandsLeaveOperands : Prop :=
  ∀ (i : Instr) (s t : State), exec i s = .next t →
    t.cfg = s.cfg ∧ t.ctrl = s.ctrl ∧ t.cmdl = s.cmdl ∧
    t.arg0 = s.arg0 ∧ t.arg1 = s.arg1 ∧ t.arg2 = s.arg2 ∧ t.arg3 = s.arg3 ∧
    t.nv = s.nv ∧ t.host = s.host ∧ t.delay = s.delay ∧ t.draws = s.draws

/-- R258: IRQ is a level: DONE under IE_DONE, or FATAL under IE_ERR, as the two registers read. A command's end raises it
when DONE or a set FATAL is enabled, and never lowers it (R260); an end that is not fatal leaves it low with IE_DONE = 0
and FATAL = 0; an `ack` lowers it (R259, R115); with both enables off it is low. -/
def Obligations.IrqIsALevel : Prop :=
  (∀ s : State, s.irq =
      ((readReg s .status).getLsbD 1 && (readReg s .ctrl).getLsbD 0 ||
        (readReg s .status).getLsbD 2 && (readReg s .ctrl).getLsbD 1)) ∧
    (∀ (i : Instr) (s t : State), exec i s = .next t →
      (s.ctrl.ieDone = true → t.irq = true) ∧
      (s.ctrl.ieErr = true → t.status.result.code.getLsbD 7 = true → t.irq = true) ∧
      (s.irq = true → t.irq = true) ∧
      (s.ctrl.ieDone = false → s.status.fatal = false → t.status.result.code.getLsbD 7 = false → t.irq = false) ∧
      (s.ctrl.ieDone = false → s.ctrl.ieErr = false → t.irq = false)) ∧
    ∀ s : State, (memWrite s 0x00C 4 0x7E).irq = false ∧
      (memWrite s 0x008 4 0).irq = false ∧ (memWrite s 0x008 4 0x80000000).irq = false

/-! ### Invariants and reset -/

/-- The invariant of the block's state holds after reset, in every legal configuration. -/
def Obligations.ResetMeetsInv : Prop :=
  (∀ cfg : Cfg, cfg.legal = true → (State.resetWith cfg).Inv) ∧ State.reset.Inv

/-- The invariant is kept by every step, of the block or of the host, from every state that meets it. -/
def Obligations.StepKeepsInv : Prop :=
  ∀ s t : State, s.Inv → step s = .next t → t.Inv

/-- R281, the reset state: what every register reads, what every buffer and table holds. That a reset keeps the host agent
and the draw counter and clears the delay, the first clause, is the model's choice (assumption 20). -/
def Obligations.ResetState : Prop :=
  ∀ s : State,
    s.blockReset = { State.resetWith s.cfg with host := s.host, draws := s.draws } ∧
    (∀ r : Reg, readReg s.blockReset r =
      if r = .id then 0x45535033 else if r = .version then 1 else if r = .vVariant then 7 else 0) ∧
    s.blockReset.cmdl = 0 ∧ s.blockReset.status.busy = false ∧
    (∀ a, s.blockReset.rxbuf.byte a = 0 ∧ s.blockReset.txbuf.byte a = 0 ∧ s.blockReset.fdata.byte a = 0 ∧
      s.blockReset.fopt.byte a = 0) ∧
    (∀ a, Store.read s.blockReset.bvData a = false ∧ Store.read s.blockReset.bvStat a = false) ∧
    (∀ i w, (Store.read s.blockReset.ft i).word w = 0 ∧ Store.read s.blockReset.nv i = 0) ∧
    s.blockReset.chain.length = s.cfg.chainSlots ∧ (∀ x ∈ s.blockReset.chain, x = none) ∧
    s.blockReset.irq = false

/-- R282 and R33: a host write to CTRL with bit 31 set resets the block, whether BUSY is 0 or 1, and stores nothing; one
with bit 31 clear stores the two enables; CTRL reads them in bits 0 and 1 and 0 elsewhere. R280: hardware reset has the
same effect as soft reset. That it is a line of the host's program, and what a reset leaves of the model's own fields, is
the model's choice (assumptions 13, 14 and 20). -/
def Obligations.CtrlWriteResetsOrEnables : Prop :=
  (∀ (s : State) (k : Nat), (readReg s .ctrl).getLsbD k =
    if k = 0 then s.ctrl.ieDone else if k = 1 then s.ctrl.ieErr else false) ∧
  ∀ (s : State) (w : Word),
    (w.getLsbD 31 = true → memWrite s 0x008 4 w = s.blockReset.respond .ack) ∧
    (w.getLsbD 31 = false →
      memWrite s 0x008 4 w =
        { s with
          ctrl := { ieDone := w.getLsbD 0, ieErr := w.getLsbD 1 }, host := { s.host with resp := .ack } }) ∧
    runLine s .hardReset = .next s.advanceHost.blockReset

/-! ### The host bus -/

/-- R83: an access that is not accepted (R81) gets a bus error and changes nothing; only the host sees it. That the host
then keeps RD and goes on is the model's choice (assumption 11). R89: a read has no side effect on the block (the host's
own record of the answer, and the model's draw counter, are no part of it), and reading an idle block again gives the same
answer. R92, R87: an accepted read of an idle block answers the word its target holds. R31, R32, R35 to R55: the
word a register outside the view holds (that RXLEN and CHAIN_OCC read the low bits of a number too large for them is the
model's choice, assumptions 16 and 17; STATUS and CTRL are in `StatusWrite1ToClear` and `CtrlWriteResetsOrEnables`). -/
def Obligations.BusErrorsAndReads : Prop :=
  (∀ (s : State) (a n : Nat) (v : Word), ¬(n = 4 ∧ a % 4 = 0 ∧ ∃ t, mapAddr s.cfg a = some t) →
    memWrite s a n v = { s with host := { s.host with resp := .busError } } ∧
      memRead s a n = { s with host := { s.host with resp := .busError } }) ∧
  (∀ (s : State) (a n : Nat),
    memRead s a n = { s with host := (memRead s a n).host, draws := (memRead s a n).draws } ∧
      (s.status.busy = false →
        (memRead s a n).draws = s.draws ∧ memRead (memRead s a n) a n = memRead s a n)) ∧
  (∀ (s : State) (a : Nat) (t : Target), s.status.busy = false → a % 4 = 0 → mapAddr s.cfg a = some t →
    memRead s a 4 = s.respondData (readTarget s t)) ∧
  ∀ s : State, (∀ r : Reg, readTarget s (.reg r) = readReg s r) ∧
    readReg s .id = 0x45535033 ∧ readReg s .version = 1 ∧ readReg s .cmd = 0 ∧ readReg s .rxpush = 0 ∧
    readReg s .arg0 = s.arg0 ∧ readReg s .arg1 = s.arg1 ∧ readReg s .arg2 = s.arg2 ∧ readReg s .arg3 = s.arg3 ∧
    readReg s .res0 = s.res0 ∧ readReg s .res1 = s.res1 ∧ readReg s .res2 = s.res2 ∧
    (readReg s .rxlen).toNat = s.rxlen % 2 ^ 18 ∧ (readReg s .txlen).toNat = s.txlen % 2 ^ 17 ∧
    (readReg s .fType).toNat = s.fType.toNat ∧ (readReg s .fDlen).toNat = s.fDlen.toNat ∧
    (readReg s .fOlen).toNat = s.fOlen.toNat ∧
    (readReg s .bvDlen).toNat = s.bvDlen % 2 ^ 20 ∧ (readReg s .bvSlen).toNat = s.bvSlen % 2 ^ 4 ∧
    (readReg s .psel).toNat =
      2 ^ 31 * (if s.psel.valid then 1 else 0) + 2 ^ 16 * s.psel.entry.toNat + s.psel.block.toNat ∧
    (readReg s .nfields).toNat = s.nfields % 2 ^ 16 ∧
    (readReg s .chainOcc).toNat = (s.chain.filter (·.isSome)).length % 2 ^ 16 ∧
    (readReg s .cntFrames).toNat = s.cntFrames.toNat ∧ (readReg s .cntCrcerr).toNat = s.cntCrcerr.toNat ∧
    (readReg s .cntOrphan).toNat = s.cntOrphan.toNat

/-- R82, the address map, with the offset R31 to R68 give each register: every register, window byte, window word and
table word answers at its address, the six word offsets of the register block that have no register are unmapped, and no
other word-aligned address is mapped. -/
def Obligations.AddressMap : Prop :=
  (Reg.offset .id = 0x000 ∧ Reg.offset .version = 0x004 ∧ Reg.offset .ctrl = 0x008 ∧ Reg.offset .status = 0x00C ∧
    Reg.offset .cmd = 0x010 ∧ Reg.offset .arg0 = 0x014 ∧ Reg.offset .arg1 = 0x018 ∧ Reg.offset .arg2 = 0x01C ∧
    Reg.offset .arg3 = 0x020 ∧ Reg.offset .res0 = 0x024 ∧ Reg.offset .res1 = 0x028 ∧ Reg.offset .res2 = 0x02C ∧
    Reg.offset .rxpush = 0x030 ∧ Reg.offset .rxlen = 0x034 ∧ Reg.offset .txlen = 0x038 ∧ Reg.offset .fType = 0x03C ∧
    Reg.offset .fDlen = 0x040 ∧ Reg.offset .fOlen = 0x044 ∧ Reg.offset .bvDlen = 0x048 ∧ Reg.offset .bvSlen = 0x04C ∧
    Reg.offset .psel = 0x050 ∧ Reg.offset .nfields = 0x054 ∧ Reg.offset .chainOcc = 0x058 ∧
    Reg.offset .cntFrames = 0x05C ∧ Reg.offset .cntCrcerr = 0x060 ∧ Reg.offset .cntOrphan = 0x064 ∧
    Reg.offset .vVariant = 0x080 ∧ Reg.offset .vType = 0x084 ∧ Reg.offset .vRorg = 0x088 ∧
    Reg.offset .vStatb = 0x08C ∧ Reg.offset .vDbm = 0x090 ∧ Reg.offset .vSender = 0x094 ∧ Reg.offset .vDest = 0x098 ∧
    Reg.offset .vFlags = 0x09C ∧ Reg.offset .vFunc = 0x0A0 ∧ Reg.offset .vVtype = 0x0A4 ∧
    Reg.offset .vManuf = 0x0A8 ∧ Reg.offset .vCmd = 0x0AC ∧ Reg.offset .vCode = 0x0B0 ∧ Reg.offset .vUte = 0x0B4 ∧
    Reg.offset .vChain = 0x0B8) ∧
  ∀ cfg : Cfg, cfg.legal = true →
    (∀ r : Reg, mapAddr cfg r.offset = some (.reg r)) ∧
    (∀ a, 0x068 ≤ a → a ≤ 0x07C → mapAddr cfg a = none) ∧
    (∀ i < cfg.rxbufCap, mapAddr cfg (0x100000 + 4 * i) = some (.rxbuf i)) ∧
    (∀ i < 65535, mapAddr cfg (0x200000 + 4 * i) = some (.fdata i)) ∧
    (∀ i < 255, mapAddr cfg (0x300000 + 4 * i) = some (.fopt i)) ∧
    (∀ i < 65797, mapAddr cfg (0x400000 + 4 * i) = some (.txbuf i)) ∧
    (∀ k < 16384, mapAddr cfg (0x500000 + 4 * k) = some (.bvData k)) ∧
    mapAddr cfg 0x600000 = some .bvStat ∧
    (∀ i < cfg.fieldCap, ∀ w < 8, mapAddr cfg (0x700000 + 32 * i + 4 * w) = some (.field i w)) ∧
    (∀ i < cfg.nvCap, ∀ w < 4, mapAddr cfg (0x800000 + 16 * i + 4 * w) = some (.nv i w)) ∧
    ∀ (a : Nat) (t : Target), a % 4 = 0 → mapAddr cfg a = some t →
      (∃ r : Reg, a = r.offset ∧ a ≤ 0xB8) ∨ (∃ i < cfg.rxbufCap, a = 0x100000 + 4 * i) ∨
      (∃ i < 65535, a = 0x200000 + 4 * i) ∨ (∃ i < 255, a = 0x300000 + 4 * i) ∨
      (∃ i < 65797, a = 0x400000 + 4 * i) ∨ (∃ k < 16384, a = 0x500000 + 4 * k) ∨ a = 0x600000 ∨
      (∃ i < cfg.fieldCap, ∃ w < 8, a = 0x700000 + 32 * i + 4 * w) ∨
      ∃ i < cfg.nvCap, ∃ w < 4, a = 0x800000 + 16 * i + 4 * w

/-- R91: while BUSY = 1 a write to STATUS or CTRL acts as at any other time, every other accepted write is dropped and
sets BUSYWR, ID, VERSION, CTRL and STATUS read their values, and any other mapped address reads a draw. The draw is the
free value `Config.busyRead` and its counter the model's own (assumption 3); that a write to a read-only target sets
BUSYWR, which R91's list does not name, is the model's reading (assumption 15). -/
def Obligations.BusyAccess : Prop :=
  ∀ (s : State) (a : Nat) (t : Target) (v : Word), s.status.busy = true → a % 4 = 0 → mapAddr s.cfg a = some t →
    (t = .reg .status ∨ t = .reg .ctrl → memWrite s a 4 v = (writeTarget s t v).respond .ack) ∧
    (t ≠ .reg .status → t ≠ .reg .ctrl →
      memWrite s a 4 v =
        { s with status := { s.status with busywr := true }, host := { s.host with resp := .ack } }) ∧
    (∀ r : Reg, t = .reg r → r = .id ∨ r = .version ∨ r = .ctrl ∨ r = .status →
      memRead s a 4 = s.respondData (readReg s r)) ∧
    (t ≠ .reg .id → t ≠ .reg .version → t ≠ .reg .ctrl → t ≠ .reg .status →
      ∃ x, memRead s a 4 = { s with draws := s.draws + 1 }.respondData x)

/-- R34, R259: writing `w` to STATUS clears each W1C bit `k` with `w[k] = 1` and leaves every other bit, as the register
reads; it changes nothing else, whether BUSY is 0 or 1. The place of each flag and of RESULT in the word read. -/
def Obligations.StatusWrite1ToClear : Prop :=
  (∀ (s : State) (k : Nat), (readReg s .status).getLsbD k =
    if k = 0 then s.status.busy else if k = 1 then s.status.done else if k = 2 then s.status.fatal
    else if k = 3 then s.status.rxovf else if k = 4 then s.status.busywr else if k = 5 then s.status.lenooc
    else if k = 6 then s.status.fldovf else if 8 ≤ k ∧ k < 16 then s.status.result.code.getLsbD (k - 8) else false) ∧
  ∀ (s : State) (w : Word),
    memWrite s 0x00C 4 w =
        { s with status := (memWrite s 0x00C 4 w).status, host := { s.host with resp := .ack } } ∧
      readReg (memWrite s 0x00C 4 w) .status = readReg s .status &&& ~~~(w &&& 0x7E)

/-- R35: a write to CMD of an idle block latches the word and sets BUSY, and nothing else changes at the write but the
model's own delay and draw counter, which are its choice (assumption 4); while BUSY = 1 it is ignored and sets BUSYWR. CMD reads 0. -/
def Obligations.CmdWriteLatches : Prop :=
  ∀ (s : State) (w : Word),
    (s.status.busy = false →
      memWrite s 0x010 4 w =
          { s with
            cmdl := w, status := { s.status with busy := true }, host := { s.host with resp := .ack }
            delay := (memWrite s 0x010 4 w).delay, draws := s.draws + 1 } ∧
        memRead s 0x010 4 = s.respondData 0) ∧
    (s.status.busy = true →
      memWrite s 0x010 4 w =
        { s with status := { s.status with busywr := true }, host := { s.host with resp := .ack } })

/-- R39: a pushed byte goes to RXBUF[RXLEN] while there is room, and is dropped with RXOVF when there is none; bits above
7 are ignored; while BUSY = 1 the write is ignored and sets BUSYWR. RXPUSH reads 0. -/
def Obligations.RxPushAppendsOrDrops : Prop :=
  ∀ (s : State) (w : Word), s.Inv →
    (s.status.busy = false → s.rxlen < s.cfg.rxbufCap →
      memWrite s 0x030 4 w =
          { s with
            rxbuf := (memWrite s 0x030 4 w).rxbuf, rxlen := s.rxlen + 1, host := { s.host with resp := .ack } } ∧
        (memWrite s 0x030 4 w).rxBytes = s.rxBytes ++ [w.extractLsb' 0 8] ∧
        ∀ k, k ≠ s.rxlen → (memWrite s 0x030 4 w).rxbuf.byte k = s.rxbuf.byte k) ∧
    (s.status.busy = false → s.rxlen = s.cfg.rxbufCap →
      memWrite s 0x030 4 w =
        { s with status := { s.status with rxovf := true }, host := { s.host with resp := .ack } }) ∧
    (s.status.busy = true →
      memWrite s 0x030 4 w =
        { s with status := { s.status with busywr := true }, host := { s.host with resp := .ack } }) ∧
    (s.status.busy = false → memRead s 0x030 4 = s.respondData 0)

/-- Writes to the other registers of an idle block (R37, R42 to R44, R47, R48): each stores the bits its register
implements and nothing else; a length above its vector's capacity is ignored; a read-only register ignores the write
(R88). -/
def Obligations.RegisterWrites : Prop :=
  ∀ (s : State) (w : Word), s.status.busy = false →
    memWrite s 0x014 4 w = { s with arg0 := w, host := { s.host with resp := .ack } } ∧
    memWrite s 0x018 4 w = { s with arg1 := w, host := { s.host with resp := .ack } } ∧
    memWrite s 0x01C 4 w = { s with arg2 := w, host := { s.host with resp := .ack } } ∧
    memWrite s 0x020 4 w = { s with arg3 := w, host := { s.host with resp := .ack } } ∧
    memWrite s 0x03C 4 w = { s with fType := w.extractLsb' 0 8, host := { s.host with resp := .ack } } ∧
    memWrite s 0x040 4 w = { s with fDlen := w.extractLsb' 0 16, host := { s.host with resp := .ack } } ∧
    memWrite s 0x044 4 w = { s with fOlen := w.extractLsb' 0 8, host := { s.host with resp := .ack } } ∧
    memWrite s 0x048 4 w =
      { s with
        bvDlen := if w.toNat % 2 ^ 20 ≤ 524280 then w.toNat % 2 ^ 20 else s.bvDlen
        host := { s.host with resp := .ack } } ∧
    memWrite s 0x04C 4 w =
      { s with
        bvSlen := if w.toNat % 2 ^ 4 ≤ 8 then w.toNat % 2 ^ 4 else s.bvSlen
        host := { s.host with resp := .ack } } ∧
    ∀ a ∈ [0x000, 0x004, 0x024, 0x028, 0x02C, 0x034, 0x038, 0x050, 0x054, 0x058, 0x05C, 0x060, 0x064, 0x080, 0x084,
        0x088, 0x08C, 0x090, 0x094, 0x098, 0x09C, 0x0A0, 0x0A4, 0x0A8, 0x0AC, 0x0B0, 0x0B4, 0x0B8],
      memWrite s a 4 w = { s with host := { s.host with resp := .ack } }

/-- R84: a word written to the BV_DATA window puts word bit 31-j at bit 32k+j, for the bits below the capacity, and
leaves every other bit; read back, the word shows those bits and 0 past the capacity. So for BV_STAT and its eight
bits. The windows show storage whatever BV_DLEN and BV_SLEN are. -/
def Obligations.BitWindowsPackMsbFirst : Prop :=
  (∀ (s : State) (k j : Nat), j < 32 →
    (readTarget s (.bvData k)).getLsbD (31 - j) =
        (decide (32 * k + j < 524280) && Store.read s.bvData (32 * k + j)) ∧
      (readTarget s .bvStat).getLsbD (31 - j) = (decide (j < 8) && Store.read s.bvStat j)) ∧
  ∀ (s : State) (w : Word), s.Inv → s.status.busy = false →
    (∀ k < 16384, ∃ t, memWrite s (0x500000 + 4 * k) 4 w = t ∧
      t = { s with bvData := t.bvData, host := { s.host with resp := .ack } } ∧
      (∀ j < 32, 32 * k + j < 524280 → Store.read t.bvData (32 * k + j) = w.getLsbD (31 - j)) ∧
      (∀ x, x < 32 * k ∨ 32 * k + 32 ≤ x → Store.read t.bvData x = Store.read s.bvData x) ∧
      ∀ j < 32, (readTarget t (.bvData k)).getLsbD (31 - j) =
        (decide (32 * k + j < 524280) && w.getLsbD (31 - j))) ∧
    ∃ t, memWrite s 0x600000 4 w = t ∧
      t = { s with bvStat := t.bvStat, host := { s.host with resp := .ack } } ∧
      (∀ j < 8, Store.read t.bvStat j = w.getLsbD (31 - j)) ∧
      ∀ j < 32, (readTarget t .bvStat).getLsbD (31 - j) = (decide (j < 8) && w.getLsbD (31 - j))

/-- R87, R84: a byte written to the FDATA or FOPT window is stored in its low eight bits and read back zero-extended, a
word written to NV is stored whole, and every other byte and word keeps its value; a write to a read-only window is
ignored; RXBUF, TXBUF and field entries read 0 past their valid lengths, and every window its stored byte or word
elsewhere. -/
def Obligations.WindowAccess : Prop :=
  (∀ (s : State) (i j : Nat),
    (readTarget s (.fdata i)).toNat = (s.fdata.byte i).toNat ∧ (readTarget s (.fopt i)).toNat = (s.fopt.byte i).toNat ∧
    (i < s.rxlen → (readTarget s (.rxbuf i)).toNat = (s.rxbuf.byte i).toNat) ∧
    (i < s.txlen → (readTarget s (.txbuf i)).toNat = (s.txbuf.byte i).toNat) ∧
    (i < s.nfields → readTarget s (.field i j) = (Store.read s.ft i).word j) ∧
    readTarget s (.nv i j) = Store.read s.nv (4 * i + j)) ∧
  ∀ (s : State) (w : Word), s.Inv → s.status.busy = false →
    (∀ i < 65535, ∃ t, memWrite s (0x200000 + 4 * i) 4 w = t ∧
      t = { s with fdata := t.fdata, host := { s.host with resp := .ack } } ∧
      readTarget t (.fdata i) = w &&& 0xFF ∧ ∀ k, k ≠ i → t.fdata.byte k = s.fdata.byte k) ∧
    (∀ i < 255, ∃ t, memWrite s (0x300000 + 4 * i) 4 w = t ∧
      t = { s with fopt := t.fopt, host := { s.host with resp := .ack } } ∧
      readTarget t (.fopt i) = w &&& 0xFF ∧ ∀ k, k ≠ i → t.fopt.byte k = s.fopt.byte k) ∧
    (∀ i < s.cfg.nvCap, ∀ j < 4, ∃ t, memWrite s (0x800000 + 16 * i + 4 * j) 4 w = t ∧
      t = { s with nv := t.nv, host := { s.host with resp := .ack } } ∧
      readTarget t (.nv i j) = w ∧ ∀ k, k ≠ 4 * i + j → Store.read t.nv k = Store.read s.nv k) ∧
    (∀ i < s.cfg.rxbufCap, memWrite s (0x100000 + 4 * i) 4 w = { s with host := { s.host with resp := .ack } }) ∧
    (∀ i < 65797, memWrite s (0x400000 + 4 * i) 4 w = { s with host := { s.host with resp := .ack } }) ∧
    (∀ i < s.cfg.fieldCap, ∀ j < 8,
      memWrite s (0x700000 + 32 * i + 4 * j) 4 w = { s with host := { s.host with resp := .ack } }) ∧
    (∀ i, s.rxlen ≤ i → readTarget s (.rxbuf i) = 0) ∧ (∀ i, s.txlen ≤ i → readTarget s (.txbuf i) = 0) ∧
    ∀ i j, s.nfields ≤ i → readTarget s (.field i j) = 0

/-! ### Checksum unit and frame codec -/

/-- R140, the CRC-8: its pseudocode byte by byte and shift by shift, its corner cases and example, that it is linear over
XOR, that appending the checksum gives residue 0, and that every single-bit change shows. -/
def Obligations.CrcLaws : Prop :=
  crc8 [] = 0 ∧
  (∀ (b : List Byte) (x : Byte), crc8 (b ++ [x]) =
    (fun c : Byte => if c.getLsbD 7 = true then (c <<< 1) ^^^ 0x07 else c <<< 1)^[8] (crc8 b ^^^ x)) ∧
  crc8 [0x00] = 0x00 ∧ crc8 [0x01] = 0x07 ∧ crc8 [0x00, 0x07, 0x07, 0x01] = 0x7A ∧
  (∀ a b : List Byte, a.length = b.length → crc8 (List.zipWith (· ^^^ ·) a b) = crc8 a ^^^ crc8 b) ∧
  (∀ b : List Byte, crc8 (b ++ [crc8 b]) = 0) ∧
  ∀ (a : List Byte) (x : Byte) (b : List Byte), ∀ j < 8,
    crc8 (a ++ [x ^^^ BitVec.twoPow 8 j] ++ b) ≠ crc8 (a ++ [x] ++ b)

/-- R149, R148 and R244 (that RES0 keeps the low 32 bits of a count of 2^32 slots or more is the model's choice,
assumption 26). NOP ends OK and writes nothing beyond the command end. RX_FLUSH writes RXLEN to RES0 and clears
it; the stored bytes stay but read as 0. CHAIN_FLUSH writes the number of slots in use to RES0 and frees every slot, so
that CHAIN_OCC reads 0. None changes anything else. -/
def Obligations.NopAndFlushes : Prop :=
  ((∀ w : Word, w &&& 0xFF = 0 → decode w = .ok .nop) ∧
    ∀ s : State, exec .nop s = .next { s with status := s.status.endedOk .ok }) ∧
  ((∀ w : Word, w &&& 0xFF = 2 → decode w = .ok .rxFlush) ∧
    ∀ s : State, ∃ t, exec .rxFlush s = .next t ∧
      t = { s with res0 := BitVec.ofNat 32 s.rxlen, rxlen := 0, status := s.status.endedOk .ok } ∧
      (∀ k, t.rxbuf.byte k = s.rxbuf.byte k) ∧ ∀ i, readTarget t (.rxbuf i) = 0) ∧
  (∀ w : Word, w &&& 0xFF = 0x0F → decode w = .ok .chainFlush) ∧
  ∀ s : State, ∃ t, exec .chainFlush s = .next t ∧
    t = { s with
          res0 := BitVec.ofNat 32 (s.chain.filter (·.isSome)).length, chain := List.replicate s.chain.length none
          status := s.status.endedOk .ok } ∧
    readReg t .chainOcc = 0

/-- R141, R103 and R150. CRC8 writes the checksum of the range to RES0, and nothing else beyond the command end; a reserved
BSEL, or a range that passes the valid length, is fatal BAD_ARG. The buffers BSEL names, and the valid length of each. -/
def Obligations.Crc8Checksums : Prop :=
  ((∀ w : Word, w &&& 0xFF = 1 → decode w = .ok (.crc8 (w.extractLsb' 8 4))) ∧
  ∀ (s : State) (bsel : BitVec 4),
    (∀ b, bufferOf bsel = some b → s.arg0.toNat + s.arg1.toNat ≤ s.validLen b →
      exec (.crc8 bsel) s =
        .next
          { s with
            res0 := (crc8 (Store.readList (α := Byte) (s.buffer b) s.arg0.toNat s.arg1.toNat)).setWidth 32
            status := s.status.endedOk .ok }) ∧
    (∀ b, bufferOf bsel = some b → s.validLen b < s.arg0.toNat + s.arg1.toNat →
      exec (.crc8 bsel) s = .next { s with status := s.status.endedFatal .badArg }) ∧
    (4 ≤ bsel.toNat → exec (.crc8 bsel) s = .next { s with status := s.status.endedFatal .badArg })) ∧
  ∀ s : State,
    (∃ b, bufferOf 0 = some b ∧ s.buffer b = s.fdata ∧ s.validLen b = 65535) ∧
    (∃ b, bufferOf 1 = some b ∧ s.buffer b = s.fopt ∧ s.validLen b = 255) ∧
    (∃ b, bufferOf 2 = some b ∧ s.buffer b = s.rxbuf ∧ s.validLen b = s.rxlen) ∧
    (∃ b, bufferOf 3 = some b ∧ s.buffer b = s.txbuf ∧ s.validLen b = s.txlen) ∧
    ∀ x : BitVec 4, 4 ≤ x.toNat → bufferOf x = none

/-- R143, `FrameDecode`: with no marker the buffer comes back unchanged; bytes before the first marker are dropped; then
the lengths, the header checksum and the data checksum decide, in this order. -/
def Obligations.FrameDecodeCases : Prop :=
  ∀ (p : Bool) (buf : List Byte),
    ((∀ x ∈ buf, x ≠ 0x55) →
      frameDecode p buf = { status := .incomplete, rem := buf, frame := none, failAt := 0, skipped := 0 }) ∧
    ∀ junk a : List Byte, (∀ x ∈ junk, x ≠ 0x55) → a.head? = some 0x55 → buf = junk ++ a →
      (a.length < 4 →
        frameDecode p buf =
          { status := .incomplete, rem := a, frame := none, failAt := 0, skipped := junk.length }) ∧
      (4 ≤ a.length → ∀ dlen olen n : Nat,
        dlen = (a.getD 1 0).toNat * 256 + (a.getD 2 0).toNat → olen = (a.getD 3 0).toNat → n = 6 + dlen + olen + 1 →
        (a.length < n →
          frameDecode p buf =
            { status := .incomplete, rem := a, frame := none, failAt := 0, skipped := junk.length }) ∧
        (n ≤ a.length →
          (a.getD 5 0 ≠ crc8 [a.getD 1 0, a.getD 2 0, a.getD 3 0, a.getD 4 0] →
            frameDecode p buf =
              { status := .crcMismatch, rem := a.drop n, frame := none, failAt := 1, skipped := junk.length }) ∧
          (a.getD 5 0 = crc8 [a.getD 1 0, a.getD 2 0, a.getD 3 0, a.getD 4 0] → ∀ d o : List Byte,
            d = (a.drop 6).take dlen → o = (a.drop (6 + dlen)).take olen →
            (a.getD (n - 1) 0 ≠ crc8 (dci p (a.getD 4 0) d o) →
              frameDecode p buf =
                { status := .crcMismatch, rem := a.drop n, frame := none, failAt := 2, skipped := junk.length }) ∧
            (a.getD (n - 1) 0 = crc8 (dci p (a.getD 4 0) d o) →
              frameDecode p buf =
                { status := .ok, rem := a.drop n, frame := some { ftype := a.getD 4 0, data := d, opt := o }
                  failAt := 0, skipped := junk.length }))))

/-- R142: the data checksum's input has the type byte when P_DCRC_TYPE is 1 and not when it is 0, and the header
checksum is over the four header bytes. R145, `FrameEncode`: its layout and length, and the round trip: decoding an
encoded frame with any bytes after it gives the frame and those bytes. -/
def Obligations.FrameRoundTrip : Prop :=
  (∀ (t : Byte) (d o : List Byte), dci true t d o = [t] ++ d ++ o ∧ dci false t d o = d ++ o) ∧
  ∀ (p : Bool) (t : Byte) (d o r : List Byte), d.length ≤ 65535 → o.length ≤ 255 →
    (∀ h : List Byte,
      h = [BitVec.ofNat 8 (d.length / 256), BitVec.ofNat 8 (d.length % 256), BitVec.ofNat 8 o.length, t] →
      frameEncode p t d o = [0x55] ++ h ++ [crc8 h] ++ d ++ o ++ [crc8 (dci p t d o)]) ∧
    (frameEncode p t d o).length = 6 + d.length + o.length + 1 ∧
    frameDecode p (frameEncode p t d o ++ r) =
      { status := .ok, rem := r, frame := some { ftype := t, data := d, opt := o }, failAt := 0, skipped := 0 }

/-- Nothing but an encoded frame decodes (R143, R145, R108): a buffer that decodes OK is bytes without a marker, then the
encoding of the frame it gave, then the remainder. -/
def Obligations.OnlyFramesDecode : Prop :=
  ∀ (p : Bool) (buf : List Byte) (f : Frame), (frameDecode p buf).frame = some f →
    (frameDecode p buf).status = .ok ∧ f.data.length ≤ 65535 ∧ f.opt.length ≤ 255 ∧
    ∃ junk : List Byte, (∀ x ∈ junk, x ≠ 0x55) ∧ junk.length = (frameDecode p buf).skipped ∧
      buf = junk ++ frameEncode p f.ftype f.data f.opt ++ (frameDecode p buf).rem

/-- R144, FRAME_DECODE: what it removes from RXBUF, what it writes to RES0 and RES1, the F registers and buffers on OK
and their old values otherwise, and the two counters; every other byte and register keeps its value. -/
def Obligations.FrameDecodeCommand : Prop :=
  (∀ w : Word, w &&& 0xFF = 3 → decode w = .ok .frameDecode) ∧
  ∀ s : State, s.Inv → ∀ r, r = frameDecode s.cfg.dcrcType s.rxBytes →
    ∃ t, exec .frameDecode s = .next t ∧
      t = { s with
            res0 := BitVec.ofNat 32 (s.rxlen - r.rem.length), res1 := BitVec.ofNat 32 r.failAt
            rxbuf := t.rxbuf, rxlen := r.rem.length
            fType := t.fType, fDlen := t.fDlen, fOlen := t.fOlen, fdata := t.fdata, fopt := t.fopt
            cntFrames := if r.status = .ok then s.cntFrames + 1 else s.cntFrames
            cntCrcerr := if r.status = .crcMismatch then s.cntCrcerr + 1 else s.cntCrcerr
            status := s.status.endedOk r.status } ∧
      t.rxBytes = r.rem ∧ (∀ k, r.rem.length ≤ k → t.rxbuf.byte k = s.rxbuf.byte k) ∧
      (r.status ≠ .ok →
        t.fType = s.fType ∧ t.fDlen = s.fDlen ∧ t.fOlen = s.fOlen ∧ t.fdata = s.fdata ∧ t.fopt = s.fopt) ∧
      (r.status = .ok → ∃ f, r.frame = some f ∧
        t.fType = f.ftype ∧ t.fDlen.toNat = f.data.length ∧ t.fOlen.toNat = f.opt.length ∧
        t.dataBytes = f.data ∧ t.optBytes = f.opt ∧
        (∀ k, f.data.length ≤ k → t.fdata.byte k = s.fdata.byte k) ∧
        ∀ k, f.opt.length ≤ k → t.fopt.byte k = s.fopt.byte k)

/-- R146, FRAME_ENCODE: the frame of the F registers stands in TXBUF, its length in TXLEN and RES0; bytes past the new
TXLEN keep their storage but read as 0. -/
def Obligations.FrameEncodeCommand : Prop :=
  (∀ w : Word, w &&& 0xFF = 4 → decode w = .ok .frameEncode) ∧
  ∀ s : State, s.Inv → ∃ t, exec .frameEncode s = .next t ∧
    t = { s with
          txbuf := t.txbuf, txlen := 7 + s.fDlen.toNat + s.fOlen.toNat
          res0 := BitVec.ofNat 32 (7 + s.fDlen.toNat + s.fOlen.toNat), status := s.status.endedOk .ok } ∧
    t.txBytes = frameEncode s.cfg.dcrcType s.fType s.dataBytes s.optBytes ∧
    (∀ k, t.txlen ≤ k → t.txbuf.byte k = s.txbuf.byte k) ∧ ∀ k, t.txlen ≤ k → readTarget t (.txbuf k) = 0

/-! ### Bit codec -/

/-- R8, R10 and R162: a byte after a sequence multiplies its integer by 256 and adds the byte, and a bit after a sequence
doubles its integer and adds the bit, from 0 for the empty one. R160: the vector `BytesToBits` gives is as long as the width or as the value needs, its integer is the bytes'
big-endian integer, so no 1 bit is lost; with room for every bit it is zeros and then each byte, most significant bit
first. R164: `BitsToBytes` gives the asked count of bytes, bit 7 - i of byte j is bit 8j + i of the sequence, and positions
past its end read 0. Then R166's symmetry laws of the codec. -/
def Obligations.BitCodecLaws : Prop :=
  (combine [] = 0 ∧ ∀ (b : List Byte) (x : Byte), combine (b ++ [x]) = combine b * 256 + x.toNat) ∧
  (bitsToInt [] = 0 ∧ ∀ (v : List Bool) (x : Bool), bitsToInt (v ++ [x]) = 2 * bitsToInt v + if x then 1 else 0) ∧
  (∀ (b : List Byte) (w : Nat),
    (bytesToBits b w).length = max w (bitlen (combine b)) ∧ bitsToInt (bytesToBits b w) = combine b ∧
    (8 * b.length ≤ w →
      bytesToBits b w =
        List.replicate (w - 8 * b.length) false ++
          b.flatMap fun x => (List.range 8).map fun k => x.getLsbD (7 - k)) ∧
    (∀ v L, bitlen v ≤ L ↔ v < 2 ^ L)) ∧
  (∀ (v : List Bool) (m : Nat), (bitsToBytes v m).length = m ∧
    ∀ j < m, ∀ i < 8, ((bitsToBytes v m).getD j 0).getLsbD (7 - i) = v.getD (8 * j + i) false) ∧
  (∀ b : List Byte, bitsToInt (bytesToBits b (8 * b.length)) = combine b) ∧
  (∀ b : List Byte, bitsToBytes (bytesToBits b (8 * b.length)) b.length = b) ∧
  ∀ v : List Bool, v.length % 8 = 0 → bytesToBits (bitsToBytes v (v.length / 8)) v.length = v

/-- R161, BITS_UNPACK: the unpacked bits stand in the target vector with its new length, RES0 holds that length, and no
other bit, byte or register changes; its three fatal ends, BAD_ARG before CAPACITY. -/
def Obligations.BitsUnpackCommand : Prop :=
  (∀ w : Word, w &&& 0xFF = 5 → decode w = .ok (.bitsUnpack (w.extractLsb' 8 4) (w.getLsbD 12))) ∧
  ∀ (s : State) (bsel : BitVec 4), s.Inv →
    (∀ stat, 4 ≤ bsel.toNat → exec (.bitsUnpack bsel stat) s = .next { s with status := s.status.endedFatal .badArg }) ∧
    ∀ b, bufferOf bsel = some b →
      (∀ stat, s.validLen b < s.arg0.toNat + s.arg1.toNat →
        exec (.bitsUnpack bsel stat) s = .next { s with status := s.status.endedFatal .badArg }) ∧
      (s.arg0.toNat + s.arg1.toNat ≤ s.validLen b → ∀ r,
        r = bytesToBits (Store.readList (α := Byte) (s.buffer b) s.arg0.toNat s.arg1.toNat) s.arg2.toNat →
        (524280 < r.length →
          exec (.bitsUnpack bsel false) s = .next { s with status := s.status.endedFatal .capacity }) ∧
        (8 < r.length →
          exec (.bitsUnpack bsel true) s = .next { s with status := s.status.endedFatal .capacity }) ∧
        (r.length ≤ 524280 → ∃ t, exec (.bitsUnpack bsel false) s = .next t ∧
          t = { s with
                bvData := t.bvData, bvDlen := r.length, res0 := BitVec.ofNat 32 r.length
                status := s.status.endedOk .ok } ∧
          t.dataBits = r ∧ ∀ x, r.length ≤ x → Store.read t.bvData x = Store.read s.bvData x) ∧
        (r.length ≤ 8 → ∃ t, exec (.bitsUnpack bsel true) s = .next t ∧
          t = { s with
                bvStat := t.bvStat, bvSlen := r.length, res0 := BitVec.ofNat 32 r.length
                status := s.status.endedOk .ok } ∧
          t.statBits = r ∧ ∀ x, r.length ≤ x → Store.read t.bvStat x = Store.read s.bvStat x))

/-- R163, BITS_TO_INT: the low 64 bits of the integer of the bit range stand in RES0 and RES1, and RES2 says whether a 1
bit above bit 63 was lost; a range that passes the vector's length is fatal BAD_ARG. -/
def Obligations.BitsToIntCommand : Prop :=
  (∀ w : Word, w &&& 0xFF = 6 → decode w = .ok (.bitsToInt (w.getLsbD 12))) ∧
  ∀ (s : State) (stat : Bool) (v : List Bool), v = (if stat then s.statBits else s.dataBits) →
    (v.length < s.arg0.toNat + s.arg1.toNat →
      exec (.bitsToInt stat) s = .next { s with status := s.status.endedFatal .badArg }) ∧
    (s.arg0.toNat + s.arg1.toNat ≤ v.length → ∀ x, x = bitsToInt ((v.drop s.arg0.toNat).take s.arg1.toNat) →
      ∃ t, exec (.bitsToInt stat) s = .next t ∧
        t = { s with res0 := t.res0, res1 := t.res1, res2 := t.res2, status := s.status.endedOk .ok } ∧
        t.res0.toNat + 2 ^ 32 * t.res1.toNat = x % 2 ^ 64 ∧ t.res2 = if x < 2 ^ 64 then 0 else 1)

/-- R165, BITS_PACK: the packed bytes stand in FDATA or FOPT at the destination, RES0 holds the count, and no other byte
or register changes (F_DLEN and F_OLEN among them); another BSEL or a range past the capacity is fatal BAD_ARG. -/
def Obligations.BitsPackCommand : Prop :=
  (∀ w : Word, w &&& 0xFF = 7 → decode w = .ok (.bitsPack (w.extractLsb' 8 4) (w.getLsbD 12))) ∧
  ∀ (s : State) (stat : Bool), s.Inv →
    (∀ bsel : BitVec 4, 2 ≤ bsel.toNat →
      exec (.bitsPack bsel stat) s = .next { s with status := s.status.endedFatal .badArg }) ∧
    (65535 < s.arg0.toNat + s.arg1.toNat →
      exec (.bitsPack 0 stat) s = .next { s with status := s.status.endedFatal .badArg }) ∧
    (255 < s.arg0.toNat + s.arg1.toNat →
      exec (.bitsPack 1 stat) s = .next { s with status := s.status.endedFatal .badArg }) ∧
    ∀ bytes : List Byte,
      bytes = bitsToBytes ((if stat then s.statBits else s.dataBits).drop s.arg2.toNat) s.arg1.toNat →
      (s.arg0.toNat + s.arg1.toNat ≤ 65535 → ∃ t, exec (.bitsPack 0 stat) s = .next t ∧
        t = { s with fdata := t.fdata, res0 := s.arg1, status := s.status.endedOk .ok } ∧
        (∀ j < s.arg1.toNat, t.fdata.byte (s.arg0.toNat + j) = bytes.getD j 0) ∧
        ∀ k, k < s.arg0.toNat ∨ s.arg0.toNat + s.arg1.toNat ≤ k → t.fdata.byte k = s.fdata.byte k) ∧
      (s.arg0.toNat + s.arg1.toNat ≤ 255 → ∃ t, exec (.bitsPack 1 stat) s = .next t ∧
        t = { s with fopt := t.fopt, res0 := s.arg1, status := s.status.endedOk .ok } ∧
        (∀ j < s.arg1.toNat, t.fopt.byte (s.arg0.toNat + j) = bytes.getD j 0) ∧
        ∀ k, k < s.arg0.toNat ∨ s.arg0.toNat + s.arg1.toNat ≤ k → t.fopt.byte k = s.fopt.byte k)

/-! ### Profiles and fields -/

/-- R172, `FindProfile`: a block found is the first fitting block of the first profile with the keys; otherwise the level
is the first of the hierarchy at which nothing is left. -/
def Obligations.FindProfileSearch : Prop :=
  ∀ (cat : List Profile) (c f t : Byte) (dir cmd : Option Byte),
    (∀ x y, findProfile cat c f t dir cmd = .block x y →
      ∃ e b, cat[x]? = some e ∧ e.hasKeys c f t ∧ (∀ x' < x, ∀ e', cat[x']? = some e' → ¬e'.hasKeys c f t) ∧
        e.blocks[y]? = some b ∧ b.fits dir cmd ∧ ∀ y' < y, ∀ b', e.blocks[y']? = some b' → ¬b'.fits dir cmd) ∧
    (findProfile cat c f t dir cmd = .missing 1 ↔ ∀ e ∈ cat, e.rorg ≠ c) ∧
    (findProfile cat c f t dir cmd = .missing 2 ↔
      (∃ e ∈ cat, e.rorg = c) ∧ ∀ e ∈ cat, ¬(e.rorg = c ∧ e.func = f)) ∧
    (findProfile cat c f t dir cmd = .missing 3 ↔
      (∃ e ∈ cat, e.rorg = c ∧ e.func = f) ∧ ∀ e ∈ cat, ¬e.hasKeys c f t) ∧
    (findProfile cat c f t dir cmd = .missing 4 ↔
      ∃ (x : Nat) (e : Profile), cat[x]? = some e ∧ e.hasKeys c f t ∧
        (∀ x' < x, ∀ e', cat[x']? = some e' → ¬e'.hasKeys c f t) ∧ ∀ b ∈ e.blocks, ¬b.fits dir cmd) ∧
    ∀ l, findProfile cat c f t dir cmd = .missing l → 1 ≤ l ∧ l ≤ 4

/-- R173, FIND_PROFILE: PSEL selects the block found, as the register reads, with RES0 = 0 and OK; or PSEL reads 0, RES0
is the level that failed and the code NOT_FOUND. Nothing else changes. -/
def Obligations.FindProfileCommand : Prop :=
  (∀ w : Word, w &&& 0xFF = 8 → decode w = .ok (.findProfile (w.getLsbD 13) (w.getLsbD 14))) ∧
  ∀ (s : State) (hasDir hasCmd : Bool), s.Inv →
    ∀ r, r = findProfile s.cfg.catalog (s.arg0.extractLsb' 0 8) (s.arg0.extractLsb' 8 8) (s.arg0.extractLsb' 16 8)
      (if hasDir then some (s.arg1.extractLsb' 0 8) else none)
      (if hasCmd then some (s.arg1.extractLsb' 8 8) else none) →
    (∀ x y, r = .block x y → ∃ t, exec (.findProfile hasDir hasCmd) s = .next t ∧
      t = { s with res0 := 0, psel := t.psel, status := s.status.endedOk .ok } ∧
      readReg t .psel = BitVec.ofNat 32 (2 ^ 31 + 2 ^ 16 * x + y)) ∧
    ∀ l, r = .missing l → ∃ t, exec (.findProfile hasDir hasCmd) s = .next t ∧
      t = { s with res0 := BitVec.ofNat 32 l, psel := t.psel, status := s.status.endedOk .notFound } ∧
      readReg t .psel = 0

/-- R175, `EnumMatch`: the least item with the value, else the least range that holds it, else nothing. -/
def Obligations.EnumMatchPrecedence : Prop :=
  ∀ (F : FieldDesc) (raw : Nat),
    (∀ j, enumMatch F raw = some (1, j) ↔
      (∃ e, F.items[j]? = some e ∧ e.value = raw) ∧ ∀ j' < j, ∀ e, F.items[j']? = some e → e.value ≠ raw) ∧
    (∀ j, enumMatch F raw = some (2, j) ↔
      (∀ e ∈ F.items, e.value ≠ raw) ∧ (∃ e, F.ranges[j]? = some e ∧ e.start ≤ raw ∧ raw ≤ e.stop) ∧
        ∀ j' < j, ∀ e, F.ranges[j']? = some e → ¬(e.start ≤ raw ∧ raw ≤ e.stop)) ∧
    (enumMatch F raw = none ↔
      (∀ e ∈ F.items, e.value ≠ raw) ∧ ∀ e ∈ F.ranges, ¬(e.start ≤ raw ∧ raw ≤ e.stop)) ∧
    ∀ m j, enumMatch F raw = some (m, j) → m = 1 ∨ m = 2

/-- R174, `FieldDecode`: the records of a block in document order, one descriptor at a time: nothing for a descriptor
that does not fit its vector or an enum value that is not mapped, else one record that keeps the raw value. That ITEM and
DESC (R50) keep the low 16 bits of an index too large for them is the model's choice (assumption 18). -/
def Obligations.FieldDecodeRecords : Prop :=
  ∀ (blk : DataBlock) (vd vs : List Bool),
    fieldDecode { blk with fields := [] } vd vs = [] ∧
    ∀ (F : FieldDesc) (v : List Bool), v = (if F.src = .data then vd else vs) →
      ∃ out, fieldDecode { blk with fields := blk.fields ++ [F] } vd vs = fieldDecode blk vd vs ++ out ∧
        (F.size = 0 ∨ 64 < F.size ∨ v.length < F.offset + F.size → out = []) ∧
        (1 ≤ F.size → F.size ≤ 64 → F.offset + F.size ≤ v.length →
          ∀ raw, raw = bitsToInt ((v.drop F.offset).take F.size) →
          raw < 2 ^ 64 ∧
          (F.kind = .enum → enumMatch F raw = none → out = []) ∧
          (F.kind = .enum → ∀ m j, enumMatch F raw = some (m, j) →
            out = [{ shortcut := F.shortcut, kind := .enum, fmatch := m, raw := BitVec.ofNat 64 raw
                     item := BitVec.ofNat 16 j, desc := BitVec.ofNat 16 blk.fields.length
                     scaled := false, display := 0 }]) ∧
          (F.kind = .value → F.scale ≠ none →
            out = [{ shortcut := F.shortcut, kind := .value, fmatch := 0, raw := BitVec.ofNat 64 raw
                     item := 0, desc := BitVec.ofNat 16 blk.fields.length
                     scaled := true, display := Config.scale F raw }]) ∧
          (F.kind = .status ∨ F.kind = .value ∧ F.scale = none →
            out = [{ shortcut := F.shortcut, kind := F.kind, fmatch := 0, raw := BitVec.ofNat 64 raw
                     item := 0, desc := BitVec.ofNat 16 blk.fields.length
                     scaled := false, display := 0 }]))

/-- R177 and R180, FIELD_DECODE: with no block selected, no fields and NOT_FOUND; else the records of the selected block
stand in the field table up to its capacity, FLDOVF says whether some were omitted, and entries past NFIELDS keep their
storage but read as 0. The words a record reads as (R50). -/
def Obligations.FieldDecodeCommand : Prop :=
  (∀ (s : State) (k : Nat) (r : FieldRec) (word : Nat → Word), k < s.nfields → r = Store.read s.ft k →
    (∀ w, word w = readTarget s (.field k w)) →
    (word 0).extractLsb' 0 16 = r.shortcut ∧
    (word 0).extractLsb' 16 2 = (match r.kind with | .value => 0 | .enum => 1 | .status => 2) ∧
    (word 0).extractLsb' 18 2 = r.fmatch ∧ (word 0).getLsbD 20 = r.scaled ∧ (word 0).extractLsb' 21 11 = 0 ∧
    word 1 = r.raw.extractLsb' 0 32 ∧ word 2 = r.raw.extractLsb' 32 32 ∧
    (word 3).extractLsb' 0 16 = r.item ∧ (word 3).extractLsb' 16 16 = r.desc ∧ word 4 = r.display ∧
    ∀ w, 5 ≤ w → word w = 0) ∧
  (∀ w : Word, w &&& 0xFF = 9 → decode w = .ok .fieldDecode) ∧
  ∀ s : State, s.Inv →
    (s.psel.valid = false →
      exec .fieldDecode s = .next { s with nfields := 0, res0 := 0, status := s.status.endedOk .notFound }) ∧
    ∀ blk out, s.psel.valid = true → catalogBlock s.cfg.catalog s.psel.entry.toNat s.psel.block.toNat = some blk →
      out = fieldDecode blk s.dataBits s.statBits →
      ∃ t, exec .fieldDecode s = .next t ∧
        t = { s with
              ft := t.ft, nfields := min out.length s.cfg.fieldCap
              res0 := BitVec.ofNat 32 (min out.length s.cfg.fieldCap)
              status :=
                { s.status.endedOk .ok with
                  fldovf := s.status.fldovf || decide (s.cfg.fieldCap < out.length) } } ∧
        (∀ k < t.nfields, out[k]? = some (Store.read t.ft k)) ∧
        (∀ k, t.nfields ≤ k → Store.read t.ft k = Store.read s.ft k) ∧
        ∀ k w, t.nfields ≤ k → readTarget t (.field k w) = 0

/-- R178, `FieldEncode`. The check phase: a rejected encode names the first pair whose shortcut the block lacks, or whose
first descriptor does not fit its vector; otherwise every pair passed. The write phase: the vectors keep their lengths;
every bit outside the ranges of the fields named is left untouched; and bit `j` of a field named, most significant first,
is that bit of the value's low `size` bits, unless the field of a later pair covers it: then the later pair's bits win. -/
def Obligations.FieldEncodeChecksThenWrites : Prop :=
  (∀ (blk : DataBlock) (vd vs : List Bool) (nv : List (BitVec 16 × Nat)) (good bad : BitVec 16 × Nat → Prop),
    (∀ p, good p ↔ ∃ F, descriptorOf blk p.1 = some F ∧ F.size ≠ 0 ∧ F.size ≤ 64 ∧
      F.offset + F.size ≤ (if F.src = .data then vd else vs).length) →
    (∀ p, bad p ↔ ∀ F ∈ blk.fields, F.shortcut ≠ p.1) →
    (∀ c k, fieldEncode blk vd vs nv = .rejected c k →
      ∃ p, nv[k]? = some p ∧ (∀ k' < k, ∀ q, nv[k']? = some q → good q) ∧ ¬good p ∧
        (bad p → c = .unknownField) ∧ (¬bad p → c = .badDescriptor)) ∧
    ((∃ c k, fieldEncode blk vd vs nv = .rejected c k) ↔ ¬∀ p ∈ nv, good p) ∧
    ∀ (sc : BitVec 16) (F : FieldDesc), descriptorOf blk sc = some F ↔
      ∃ i : Nat, blk.fields[i]? = some F ∧ F.shortcut = sc ∧ ∀ i' < i, ∀ G, blk.fields[i']? = some G → G.shortcut ≠ sc) ∧
  ∀ (blk : DataBlock) (vd vs vd' vs' : List Bool) (nv : List (BitVec 16 × Nat)),
    fieldEncode blk vd vs nv = .done vd' vs' →
    vd'.length = vd.length ∧ vs'.length = vs.length ∧
    (∀ x, (∀ p ∈ nv, ∀ F, descriptorOf blk p.1 = some F → F.src = .data → x < F.offset ∨ F.offset + F.size ≤ x) →
      vd'[x]? = vd[x]?) ∧
    (∀ x, (∀ p ∈ nv, ∀ F, descriptorOf blk p.1 = some F → F.src = .status → x < F.offset ∨ F.offset + F.size ≤ x) →
      vs'[x]? = vs[x]?) ∧
    ∀ (k : Nat) (p : BitVec 16 × Nat) (F : FieldDesc), nv[k]? = some p → descriptorOf blk p.1 = some F →
      ∀ j < F.size,
      (∀ k' q G, k < k' → nv[k']? = some q → descriptorOf blk q.1 = some G → G.src = F.src →
        F.offset + j < G.offset ∨ G.offset + G.size ≤ F.offset + j) →
      (if F.src = .data then vd' else vs')[F.offset + j]? = some (p.2.testBit (F.size - 1 - j))

/-- R179, FIELD_ENCODE: a count above P_NV_CAP is fatal; with no block selected it is NOT_FOUND; a rejected pair writes
its index to RES0 and nothing else; otherwise the encoded vectors replace the valid bits, their lengths and every other
bit and register unchanged. -/
def Obligations.FieldEncodeCommand : Prop :=
  (∀ w : Word, w &&& 0xFF = 0x0A → decode w = .ok (.fieldEncode (w.extractLsb' 16 16))) ∧
  ∀ (s : State) (n : BitVec 16), s.Inv →
    (s.cfg.nvCap < n.toNat → exec (.fieldEncode n) s = .next { s with status := s.status.endedFatal .badArg }) ∧
    (n.toNat ≤ s.cfg.nvCap →
      (s.psel.valid = false →
        exec (.fieldEncode n) s = .next { s with res0 := 0, status := s.status.endedOk .notFound }) ∧
      ∀ blk, s.psel.valid = true →
        catalogBlock s.cfg.catalog s.psel.entry.toNat s.psel.block.toNat = some blk → ∀ nv : List (BitVec 16 × Nat),
        nv = (List.range n.toNat).map (fun k =>
          ((readTarget s (.nv k 0)).extractLsb' 0 16,
            (readTarget s (.nv k 1)).toNat + 2 ^ 32 * (readTarget s (.nv k 2)).toNat)) →
        (∀ c bad, fieldEncode blk s.dataBits s.statBits nv = .rejected c bad →
          exec (.fieldEncode n) s =
            .next { s with res0 := BitVec.ofNat 32 bad, status := s.status.endedOk c }) ∧
        ∀ vd vs, fieldEncode blk s.dataBits s.statBits nv = .done vd vs → ∃ t, exec (.fieldEncode n) s = .next t ∧
          t = { s with bvData := t.bvData, bvStat := t.bvStat, res0 := 0, status := s.status.endedOk .ok } ∧
          t.dataBits = vd ∧ t.statBits = vs ∧
          (∀ x, s.bvDlen ≤ x → Store.read t.bvData x = Store.read s.bvData x) ∧
          ∀ x, s.bvSlen ≤ x → Store.read t.bvStat x = Store.read s.bvStat x)

/-! ### Packet model -/

/-- R190 and R191, DISPATCH: the variant of the packet in the F registers, by the first test that holds, goes to RES0 and
nothing else changes. -/
def Obligations.DispatchCommand : Prop :=
  (∀ w : Word, w &&& 0xFF = 0x0B → decode w = .ok .dispatch) ∧
  (∀ (cfg : Cfg) (t : Byte), dispatchOf cfg t [] = .generic) ∧
  (∀ (cfg : Cfg) (t c : Byte) (u : List Byte),
    (c = 0xD4 → dispatchOf cfg t (c :: u) = .ute) ∧
    (c ≠ 0xD4 → c = 0x40 ∨ c = cfg.rorgCdmProp → dispatchOf cfg t (c :: u) = .chained) ∧
    (c ≠ 0xD4 → c ≠ 0x40 → c ≠ cfg.rorgCdmProp →
      (t = 0x02 → dispatchOf cfg t (c :: u) = .response) ∧
      (t = 0x04 → dispatchOf cfg t (c :: u) = .event) ∧
      (t = 0x01 → c = 0xD1 → dispatchOf cfg t (c :: u) = .msc) ∧
      (t = 0x01 → c ≠ 0xD1 → dispatchOf cfg t (c :: u) = .radio) ∧
      (t ≠ 0x01 → t ≠ 0x02 → t ≠ 0x04 → dispatchOf cfg t (c :: u) = .generic))) ∧
  ∀ s : State, exec .dispatch s =
    .next
      { s with
        res0 :=
          match dispatchOf s.cfg s.fType s.dataBytes with
          | .generic => 0 | .radio => 1 | .ute => 2 | .response => 3 | .event => 4 | .msc => 5 | .chained => 6
          | .noPacket => 7
        status := s.status.endedOk .ok }

/-- PARSE of a packet without fields (R192 to R196, R69): a GENERIC packet shows its type and category alone, a RESPONSE
or EVENT its code, which V_CODE reads (R66), as well; PSEL is dropped when a profile is requested; no other register, buffer or slot changes. -/
def Obligations.ParsePlainPackets : Prop :=
  (∀ s : State, (readReg s .vCode).toNat = s.view.code.toNat) ∧
  ∀ (s : State) (prof hasDir hasCmd : Bool),
    (dispatchOf s.cfg s.fType s.dataBytes = .generic →
      exec (.parse prof hasDir hasCmd) s =
        .next
          { s with
            view := { View.cleared with variant := .generic, ptype := s.fType, rorg := s.dataBytes.getD 0 0 }
            nfields := 0, psel := s.pselAfter prof, res0 := 0, status := s.status.endedOk .ok }) ∧
    (dispatchOf s.cfg s.fType s.dataBytes = .response →
      exec (.parse prof hasDir hasCmd) s =
        .next
          { s with
            view :=
              { View.cleared with
                variant := .response, ptype := s.fType, rorg := s.dataBytes.getD 0 0, code := s.dataBytes.getD 0 0 }
            nfields := 0, psel := s.pselAfter prof, res0 := 3, status := s.status.endedOk .ok }) ∧
    (dispatchOf s.cfg s.fType s.dataBytes = .event →
      exec (.parse prof hasDir hasCmd) s =
        .next
          { s with
            view :=
              { View.cleared with
                variant := .event, ptype := s.fType, rorg := s.dataBytes.getD 0 0, code := s.dataBytes.getD 0 0 }
            nfields := 0, psel := s.pselAfter prof, res0 := 4, status := s.status.endedOk .ok })

/-- R200: PARSE of a packet too short for its variant, radio-class (R197) or chained (R231), degrades: the generic view
with DEGRADED, no fields, MALFORMED, and neither the bit vectors nor the chain table touched. -/
def Obligations.ParseDegradesShortPackets : Prop :=
  ∀ (s : State) (prof hasDir hasCmd : Bool) (v : Variant), dispatchOf s.cfg s.fType s.dataBytes = v →
    ((v = .radio ∨ v = .msc ∨ v = .ute) ∧
        (s.fDlen.toNat < 6 ∨ s.fOlen.toNat < 6 ∨ v = .ute ∧ s.fDlen.toNat < 13) ∨
      v = .chained ∧
        (s.fDlen.toNat < 2 ∨ fragIdx s.dataBytes = 0 ∧ s.fDlen.toNat < 9 ∨
          fragIdx s.dataBytes ≠ 0 ∧ s.fDlen.toNat < 7)) →
    exec (.parse prof hasDir hasCmd) s =
      .next
        { s with
          view :=
            { View.cleared with
              variant := .generic, ptype := s.fType, rorg := s.dataBytes.getD 0 0
              flags := { View.cleared.flags with degraded := true } }
          nfields := 0, psel := s.pselAfter prof, res0 := 0, status := s.status.endedOk .malformed }

/-- R197 and R198: PARSE of a radio-class packet ends OK and shows its type, category, sender, status byte, destination
and signal level at the fixed offsets, loads the two bit vectors, and leaves every other register, buffer, counter and
chain slot. With no profile requested it runs no field decode. What the registers of these attributes read (R56 to
R61). -/
def Obligations.ParseRadioAttributes : Prop :=
  (∀ s : State,
    (readReg s .vVariant =
      match s.view.variant with
      | .generic => 0 | .radio => 1 | .ute => 2 | .response => 3 | .event => 4 | .msc => 5 | .chained => 6
      | .noPacket => 7) ∧
    (readReg s .vType).toNat = s.view.ptype.toNat ∧ (readReg s .vRorg).toNat = s.view.rorg.toNat ∧
    (readReg s .vStatb).toNat = s.view.statb.toNat ∧ readReg s .vDbm = s.view.dbm ∧
    readReg s .vSender = s.view.sender ∧ readReg s .vDest = s.view.dest) ∧
  ∀ (s : State) (prof hasDir hasCmd : Bool) (v : Variant) (d o : List Byte), s.Inv → s.holdsRadio v →
    d = s.dataBytes → o = s.optBytes →
    ∃ t, exec (.parse prof hasDir hasCmd) s = .next t ∧
      t = { s with
            view := t.view, nfields := t.nfields, ft := t.ft, psel := t.psel
            bvData := t.bvData, bvDlen := 8 * (d.length - 6), bvStat := t.bvStat, bvSlen := 8
            res0 := v.word, status := { s.status.endedOk .ok with fldovf := t.status.fldovf } } ∧
      t.view.variant = v ∧ t.view.ptype = s.fType ∧ some t.view.rorg = d[0]? ∧
      bytes4 t.view.sender = (d.drop (d.length - 5)).take 4 ∧ some t.view.statb = d[d.length - 1]? ∧
      bytes4 t.view.dest = (o.drop 1).take 4 ∧ t.view.dbm.toInt = -(((o.getD 5 0).toNat : Nat) : Int) ∧
      t.view.code = 0 ∧ t.view.chainValid = false ∧ t.view.flags.degraded = false ∧
      t.dataBits = bytesToBits ((d.drop 1).take (d.length - 6)) (8 * (d.length - 6)) ∧
      t.statBits = bytesToBits [t.view.statb] 8 ∧
      (∀ x, 8 * (d.length - 6) ≤ x → Store.read t.bvData x = Store.read s.bvData x) ∧
      (prof = false →
        t.psel = s.psel ∧ t.nfields = 0 ∧ t.ft = s.ft ∧ t.view.flags.profileFound = false ∧
          t.status.fldovf = s.status.fldovf)

/-- R201 and R206 (with R199's default), the sub-fields of a radio-class packet, said of its data bytes: the learn flag,
the 4BS teach-in identity, the manufacturer of an MSC packet, the UTE teach-in fields, and the command.
`u` is the number of user-data bytes, and byte `u` is DB0. That LEARN stays 1 for a UTE packet is the model's reading
of R199, R205 and R206 (assumption 25). What V_FLAGS, V_FUNC, V_VTYPE, V_MANUF, V_CMD and V_UTE read (R62 to R65, R67). -/
def Obligations.ParseSubFields : Prop :=
  (∀ s : State,
    (∀ k : Nat, (readReg s .vFlags).getLsbD k =
      if k = 0 then s.view.flags.learn else if k = 1 then s.view.flags.containsEep
      else if k = 2 then s.view.flags.profileFound else if k = 3 then s.view.flags.unidir
      else if k = 4 then s.view.flags.respExpected else if k = 5 then s.view.flags.ftValid
      else if k = 6 then s.view.flags.cmdValid else if k = 7 then s.view.flags.degraded
      else if k = 8 then s.view.flags.manufValid else false) ∧
    (readReg s .vFunc).toNat = s.view.func.toNat ∧ (readReg s .vVtype).toNat = s.view.vtype.toNat ∧
    (readReg s .vManuf).toNat = s.view.manuf.toNat ∧ (readReg s .vCmd).toNat = s.view.cmd.toNat ∧
    (readReg s .vUte).extractLsb' 0 2 = s.view.uteReq ∧ (readReg s .vUte).extractLsb' 2 6 = 0 ∧
    (readReg s .vUte).extractLsb' 8 8 = s.view.uteChannel ∧ (readReg s .vUte).extractLsb' 16 8 = s.view.uteRorg ∧
    (readReg s .vUte).extractLsb' 24 8 = 0) ∧
  ∀ (s t : State) (prof hasDir hasCmd : Bool) (v : Variant) (d : List Byte) (u : Nat) (c db0 : Byte),
    s.Inv → s.holdsRadio v → d = s.dataBytes → u = d.length - 6 → c = d.getD 0 0 → db0 = d.getD u 0 →
    exec (.parse prof hasDir hasCmd) s = .next t →
    (t.view.flags.learn = if (c = 0xD5 ∨ c = 0xA5) ∧ 1 ≤ u then !db0.getLsbD 3 else true) ∧
    (t.view.flags.containsEep =
      (decide (c = 0xA5) && decide (3 ≤ u) && !db0.getLsbD 3 && db0.getLsbD 7)) ∧
    (t.view.flags.ftValid = (t.view.flags.containsEep || decide (c = 0xD4))) ∧
    (t.view.flags.manufValid =
      (t.view.flags.containsEep || decide (c = 0xD1) && decide (2 ≤ u) || decide (c = 0xD4))) ∧
    (t.view.flags.containsEep = true →
      t.view.func.toNat = (d.getD 1 0).toNat / 4 ∧
      t.view.vtype.toNat = (d.getD 1 0).toNat % 4 * 32 + (d.getD 2 0).toNat / 8 ∧
      t.view.manuf.toNat = (d.getD 2 0).toNat % 8 * 256 + (d.getD 3 0).toNat) ∧
    (c = 0xD1 → 2 ≤ u → t.view.manuf.toNat = (d.getD 1 0).toNat * 8 + (d.getD 2 0).toNat / 32) ∧
    (c = 0xD4 →
      t.view.flags.unidir = (!(d.getD 1 0).getLsbD 7) ∧ t.view.flags.respExpected = (!(d.getD 1 0).getLsbD 6) ∧
      t.view.uteReq.toNat = (d.getD 1 0).toNat / 16 % 4 ∧ some t.view.uteChannel = d[2]? ∧
      t.view.manuf.toNat = (d.getD 4 0).toNat % 8 * 256 + (d.getD 3 0).toNat ∧
      some t.view.vtype = d[5]? ∧ some t.view.func = d[6]? ∧ some t.view.uteRorg = d[7]?) ∧
    (c ≠ 0xD4 → t.view.flags.unidir = false ∧ t.view.flags.respExpected = false ∧ t.view.uteWord = 0) ∧
    (t.view.flags.manufValid = false → t.view.manuf = 0) ∧ (t.view.flags.cmdValid = false → t.view.cmd = 0) ∧
    (t.view.flags.cmdValid = (hasCmd || decide (c = 0xD2) && decide (1 ≤ u))) ∧
    (hasCmd = true → t.view.cmd = s.arg0.extractLsb' 24 8) ∧
    (hasCmd = false → c = 0xD2 → 1 ≤ u → t.view.cmd.toNat = (d.getD 1 0).toNat % 16) ∧
    (t.view.flags.ftValid = false →
      t.view.func = (if prof then s.arg0.extractLsb' 0 8 else 0) ∧
        t.view.vtype = (if prof then s.arg0.extractLsb' 8 8 else 0))

/-- R193 and R202, the field step of a radio-class packet when a profile is requested: the block the keys resolve to is
selected and its records stand in the field table; a profile not found leaves PSEL 0 and no fields, and the result OK. -/
def Obligations.ParseFieldStep : Prop :=
  ∀ (s t : State) (hasDir hasCmd : Bool) (v : Variant) (r : Found), s.Inv → s.holdsRadio v →
    exec (.parse true hasDir hasCmd) s = .next t →
    r = findProfile s.cfg.catalog t.view.rorg (s.arg0.extractLsb' 0 8) (s.arg0.extractLsb' 8 8)
      (if hasDir then some (s.arg0.extractLsb' 16 8) else none)
      (if t.view.flags.cmdValid then some t.view.cmd else none) →
    (∀ l, r = .missing l →
      t.psel = { valid := false, entry := 0, block := 0 } ∧ t.nfields = 0 ∧ t.ft = s.ft ∧
        t.view.flags.profileFound = false ∧ t.status.fldovf = s.status.fldovf ∧ t.status.result = .ok) ∧
    ∀ x y, r = .block x y → ∃ blk out, catalogBlock s.cfg.catalog x y = some blk ∧
      out = fieldDecode blk t.dataBits t.statBits ∧
      readReg t .psel = BitVec.ofNat 32 (2 ^ 31 + 2 ^ 16 * x + y) ∧ t.nfields = min out.length s.cfg.fieldCap ∧
      (∀ k < t.nfields, out[k]? = some (Store.read t.ft k)) ∧
      (∀ k, t.nfields ≤ k → Store.read t.ft k = Store.read s.ft k) ∧
      t.status.fldovf = (s.status.fldovf || decide (s.cfg.fieldCap < out.length)) ∧
      t.view.flags.profileFound = true ∧ t.status.result = .ok

/-! ### Chain reassembly -/

/-- R234: the proprietary declared length is the integer of the two bytes' decimal strings, one after the other; the
rule's examples. R242, the view of a fragment: its type, category, sender, status byte and control byte, the destination
and signal level when the optional field reaches them, and nothing decoded. What V_CHAIN reads (R68). -/
def Obligations.FragmentFields : Prop :=
  (∀ s : State,
    (readReg s .vChain).extractLsb' 0 4 = s.view.chainIdx ∧ (readReg s .vChain).extractLsb' 4 4 = s.view.chainSeq ∧
    (readReg s .vChain).getLsbD 8 = s.view.chainProp ∧ (readReg s .vChain).getLsbD 9 = s.view.chainValid ∧
    (readReg s .vChain).extractLsb' 10 22 = 0) ∧
  ((∀ a b : Byte, decLen a b = Nat.ofDigits 10 (decDigits b ++ decDigits a) ∧ decLen a b ≤ 255255) ∧
    decLen 0x00 0x11 = 17 ∧ decLen 0x01 0x05 = 15 ∧ decLen 0x01 0x00 = 10 ∧ decLen 0x0C 0x22 = 1234 ∧
    decLen 0x64 0x00 = 1000) ∧
  ∀ (s : State) (d o : List Byte) (v : View), s.holdsFragment → d = s.dataBytes → o = s.optBytes → v = s.fragView →
    v.variant = .chained ∧ v.ptype = s.fType ∧ some v.rorg = d[0]? ∧
    bytes4 v.sender = (d.drop (d.length - 5)).take 4 ∧ some v.statb = d[d.length - 1]? ∧
    (6 ≤ o.length → bytes4 v.dest = (o.drop 1).take 4 ∧ v.dbm.toInt = -(((o.getD 5 0).toNat : Nat) : Int)) ∧
    (o.length < 6 → v.dest = 0 ∧ v.dbm = 0) ∧
    v.chainIdx.toNat = (d.getD 1 0).toNat % 16 ∧ v.chainSeq.toNat = (d.getD 1 0).toNat / 16 ∧
    v.chainProp = decide (d.getD 0 0 = s.cfg.rorgCdmProp) ∧ v.chainValid = true ∧
    v.flags = View.cleared.flags ∧ v.func = 0 ∧ v.vtype = 0 ∧ v.manuf = 0 ∧ v.cmd = 0 ∧ v.code = 0 ∧ v.uteWord = 0

/-- R236 and R237, PARSE of a first fragment: too long a declared length is dropped; a key that has a slot replaces its
contents; else the lowest free slot is taken; else the table is full. The slot keeps the first DECL bytes of the chunk
and the optional bytes. LENOOC is set before the checks (R234, R245). Nothing else changes but the view (R242). -/
def Obligations.FirstFragment : Prop :=
  ∀ (s : State) (prof hasDir hasCmd : Bool) (d : List Byte) (decl : Nat) (slot : ChainSlot), s.Inv →
    s.holdsFragment → d = s.dataBytes → fragIdx d = 0 →
    decl = (if s.fragProp then decLen (d.getD 2 0) (d.getD 3 0) else (d.getD 2 0).toNat * 256 + (d.getD 3 0).toNat) →
    slot = { sender := s.fragSender, seq := fragSeq d, decl := decl
             acc := (slice d 4 (d.length - 5)).take decl, opt := s.optBytes } →
    ∃ t code, exec (.parse prof hasDir hasCmd) s = .next t ∧
      t = { s with
            view := s.fragView, nfields := 0, psel := s.pselAfter prof, res0 := 6, chain := t.chain
            status :=
              { s.status.endedOk code with
                lenooc := s.status.lenooc ||
                  (s.fragProp && (decide (100 ≤ (d.getD 2 0).toNat) || decide (100 ≤ (d.getD 3 0).toNat))) } } ∧
      (s.cfg.chainMaxLen < decl → code = .chainTooLong ∧ t.chain = s.chain) ∧
      (decl ≤ s.cfg.chainMaxLen →
        (∀ i c, s.chain[i]? = some (some c) → s.fragKey c →
          code = .chainPending ∧ t.chain = s.chain.set i (some slot)) ∧
        ((∀ c, some c ∈ s.chain → ¬s.fragKey c) →
          (∀ i, s.chain[i]? = some none → (∀ j < i, s.chain[j]? ≠ some none) →
            code = .chainPending ∧ t.chain = s.chain.set i (some slot)) ∧
          (none ∉ s.chain → code = .chainFull ∧ t.chain = s.chain)))

/-- R239 and R238, PARSE of a continuation that does not complete its chain: with no slot for its key it is dropped as an
orphan and counted; else its chunk is appended to the slot. Nothing else changes but the view (R242). -/
def Obligations.Continuation : Prop :=
  ∀ (s : State) (prof hasDir hasCmd : Bool) (d : List Byte), s.Inv → s.holdsFragment → d = s.dataBytes →
    fragIdx d ≠ 0 →
    ((∀ c, some c ∈ s.chain → ¬s.fragKey c) →
      exec (.parse prof hasDir hasCmd) s =
        .next
          { s with
            view := s.fragView, nfields := 0, psel := s.pselAfter prof, res0 := 6
            cntOrphan := s.cntOrphan + 1, status := s.status.endedOk .chainOrphan }) ∧
    ∀ i c, s.chain[i]? = some (some c) → s.fragKey c →
      c.acc.length + (slice d 2 (d.length - 5)).length < c.decl →
      exec (.parse prof hasDir hasCmd) s =
        .next
          { s with
            view := s.fragView, nfields := 0, psel := s.pselAfter prof, res0 := 6
            chain := s.chain.set i (some { c with acc := c.acc ++ slice d 2 (d.length - 5) })
            status := s.status.endedOk .chainPending }

/-- R240 and R241, PARSE of the continuation that completes its chain: the slot is removed, the F registers hold the
synthetic frame, and the rest is what PARSE of that frame gives (an MSC parse, or the degraded view where the optional
bytes are too few), but for V_VARIANT and V_CHAIN, which show the completing fragment. -/
def Obligations.Completion : Prop :=
  ∀ (s : State) (prof hasDir hasCmd : Bool) (d : List Byte) (i : Nat) (c : ChainSlot), s.Inv → s.holdsFragment →
    d = s.dataBytes → fragIdx d ≠ 0 → s.chain[i]? = some (some c) → s.fragKey c →
    c.decl ≤ c.acc.length + (slice d 2 (d.length - 5)).length →
    ∃ m u, m = ({ s with chain := s.chain.set i none }).loadFrame 0x01
        ([0xD1] ++ (c.acc ++ slice d 2 (d.length - 5)).take c.decl ++ bytes4 c.sender ++ [0x00]) c.opt ∧
      m.dataBytes = [0xD1] ++ (c.acc ++ slice d 2 (d.length - 5)).take c.decl ++ bytes4 c.sender ++ [0x00] ∧
      m.optBytes = c.opt ∧
      exec (.parse prof hasDir hasCmd) m = .next u ∧
      (6 ≤ c.opt.length → u.view.variant = .msc ∧ u.status.result = .ok) ∧
      (c.opt.length < 6 →
        u.view =
            { View.cleared with
              variant := .generic, ptype := 0x01, rorg := 0xD1
              flags := { View.cleared.flags with degraded := true } } ∧
          u.status.result = .malformed) ∧
      exec (.parse prof hasDir hasCmd) s =
        .next
          { u with
            view :=
              { u.view with
                variant := .chained, chainIdx := s.fragView.chainIdx, chainSeq := s.fragView.chainSeq
                chainProp := s.fragView.chainProp, chainValid := true }
            res0 := 6 }

/-- R238, R240: whatever the chunks and their number, a slot keeps exactly the first DECL bytes of them in arrival order,
and is complete exactly when their total length reaches DECL. -/
def Obligations.ChainKeepsFirstDeclBytes : Prop :=
  ∀ (c : ChainSlot) (first : List Byte) (chunks : List (List Byte)), c.acc = first.take c.decl →
    (chunks.foldl ChainSlot.append c).acc = (first ++ chunks.flatten).take c.decl ∧
      ((chunks.foldl ChainSlot.append c).acc.length = c.decl ↔ c.decl ≤ (first ++ chunks.flatten).length) ∧
      chunks.foldl ChainSlot.append c = { c with acc := (chunks.foldl ChainSlot.append c).acc }

/-- R243, independence: PARSE of any packet leaves every slot whose key is not the fragment's as it is, and a
continuation with an entry gives the same next state, the table apart, whatever the other slots hold. -/
def Obligations.ChainsDoNotInterfere : Prop :=
  (∀ (s t : State) (prof hasDir hasCmd : Bool) (j : Nat) (c : ChainSlot),
    exec (.parse prof hasDir hasCmd) s = .next t → s.chain[j]? = some (some c) → ¬s.fragKey c →
    t.chain[j]? = some (some c)) ∧
  ∀ (s s' t : State) (prof hasDir hasCmd : Bool) (i i' : Nat) (c : ChainSlot), s.Inv → s'.Inv →
    s' = { s with chain := s'.chain } → fragIdx s.dataBytes ≠ 0 →
    s.chain[i]? = some (some c) → s'.chain[i']? = some (some c) → s.fragKey c →
    exec (.parse prof hasDir hasCmd) s = .next t →
    ∃ t', exec (.parse prof hasDir hasCmd) s' = .next t' ∧ t' = { t with chain := t'.chain } ∧
      t'.chain[i']? = t.chain[i]?

/-! ### RECV -/

/-- R213 and R211. RECV when no frame decodes does what FRAME_DECODE does (R144) and clears the view, with RES2 = 7; the F
registers, PSEL, the field table and the chain table stay. RECV of a frame that decodes is FRAME_DECODE followed by PARSE
with the same request, RES0 keeping the bytes removed and RES2 the variant shown. The steps it is compared with answer
next states, so RECV does. -/
def Obligations.RecvIsDecodeThenParse : Prop :=
  (∀ (s : State) (prof hasDir hasCmd : Bool), (frameDecode s.cfg.dcrcType s.rxBytes).frame = none →
    ∃ t, exec .frameDecode s = .next t ∧
      exec (.recv prof hasDir hasCmd) s = .next { t with view := View.cleared, nfields := 0, res2 := 7 } ∧
      t = { s with
            res0 := t.res0, res1 := t.res1, rxbuf := t.rxbuf, rxlen := t.rxlen, cntCrcerr := t.cntCrcerr
            status := t.status }) ∧
  ∀ (s : State) (prof hasDir hasCmd : Bool) (f : Frame), s.Inv →
    (frameDecode s.cfg.dcrcType s.rxBytes).frame = some f →
    ∃ t u, exec .frameDecode s = .next t ∧ exec (.parse prof hasDir hasCmd) t = .next u ∧
      exec (.recv prof hasDir hasCmd) s = .next { u with res0 := t.res0, res2 := u.res0 }

/-! ### CREATE -/

/-- R215 and R257: CREATE checks the packet type, the category, the address lengths and the count in this order, and each
failure is a fatal end. R217 and R219: a profile not found writes the level to RES0, a rejected field its index (or all
ones for the command CREATE supplies itself), and nothing else but STATUS changes. (`CreateBuilds` says what the operands,
`userLen`, `commandPair` and the named values are.) -/
def Obligations.CreateEndsEarly : Prop :=
  (∀ (s : State) (learn hasDir hasCmd : Bool) (n : BitVec 16) (pt c : Byte) (sl dl : BitVec 4),
    pt = s.arg0.extractLsb' 0 8 → c = s.arg0.extractLsb' 8 8 → sl = s.arg1.extractLsb' 16 4 →
    dl = s.arg1.extractLsb' 20 4 →
    (pt ≠ 0x01 →
      exec (.create learn hasDir hasCmd n) s = .next { s with status := s.status.endedFatal .unsupportedType }) ∧
    (pt = 0x01 →
      (c ≠ 0xF6 ∧ c ≠ 0xD5 ∧ c ≠ 0xA5 ∧ c ≠ 0xD2 →
        exec (.create learn hasDir hasCmd n) s =
          .next { s with status := s.status.endedFatal .unsupportedCategory }) ∧
      (c = 0xF6 ∨ c = 0xD5 ∨ c = 0xA5 ∨ c = 0xD2 →
        (¬((sl = 0 ∨ sl = 4) ∧ (dl = 0 ∨ dl = 4)) →
          exec (.create learn hasDir hasCmd n) s = .next { s with status := s.status.endedFatal .badAddrLen }) ∧
        ((sl = 0 ∨ sl = 4) ∧ (dl = 0 ∨ dl = 4) → s.cfg.nvCap < n.toNat →
          exec (.create learn hasDir hasCmd n) s = .next { s with status := s.status.endedFatal .badArg })))) ∧
  ∀ (s : State) (learn hasDir hasCmd : Bool) (n : BitVec 16) (a : CreateArgs),
    a = createArgs learn hasDir hasCmd n s → a.valid s.cfg →
    (∀ l, findProfile s.cfg.catalog a.cat a.func a.vtype a.dir a.cmd = .missing l →
      exec (.create learn hasDir hasCmd n) s =
        .next { s with res0 := BitVec.ofNat 32 l, status := s.status.endedOk .notFound }) ∧
    ∀ x y blk cp c bad, findProfile s.cfg.catalog a.cat a.func a.vtype a.dir a.cmd = .block x y →
      catalogBlock s.cfg.catalog x y = some blk → cp = commandPair s.cfg blk a.cmd →
      fieldEncode blk (List.replicate (8 * userLen a.cat blk) false) (List.replicate 8 false)
        (cp ++ s.namedValues n.toNat) = .rejected c bad →
      (c = .unknownField ∨ c = .badDescriptor) ∧
      exec (.create learn hasDir hasCmd n) s =
        .next
          { s with
            res0 := if cp.length ≤ bad then BitVec.ofNat 32 (bad - cp.length) else 0xFFFFFFFF
            status := s.status.endedOk c }

/-- CREATE's operands (R214), its user-data length (R218: the category's fixed length, else the block's bits in bytes
rounded up, else 1), the pair it prepends for a present command that the block has a field for (R219) and the host's named
values (R51). Then R216 to R222: the frame of the telegram stands in TXBUF, TXLEN and RES0 hold its length, the F registers hold
its contents, the bit vectors its user data and status byte, and the view what its parse shows; no receive state, counter
or chain slot changes (R209). The proprietary chained category is none CREATE accepts: outside that, the round trip would
feed the chain unit, where R222's inference that the parse is a RADIO parse does not hold (assumption 24). -/
def Obligations.CreateBuilds : Prop :=
  (∀ (s : State) (learn hasDir hasCmd : Bool) (n : BitVec 16), createArgs learn hasDir hasCmd n s =
    { learn := learn, ptype := s.arg0.extractLsb' 0 8, cat := s.arg0.extractLsb' 8 8
      func := s.arg0.extractLsb' 16 8, vtype := s.arg0.extractLsb' 24 8
      dir := if hasDir then some (s.arg1.extractLsb' 0 8) else none
      cmd := if hasCmd then some (s.arg1.extractLsb' 8 8) else none
      sl := s.arg1.extractLsb' 16 4, dl := s.arg1.extractLsb' 20 4, snd := s.arg2, dst := s.arg3, n := n.toNat }) ∧
  (∀ (s : State) (n : Nat), s.namedValues n = (List.range n).map fun k =>
    ((readTarget s (.nv k 0)).extractLsb' 0 16,
      (readTarget s (.nv k 1)).toNat + 2 ^ 32 * (readTarget s (.nv k 2)).toNat)) ∧
  (∀ (c : Byte) (blk : DataBlock),
    (c = 0xF6 ∨ c = 0xD5 → userLen c blk = 1) ∧ (c = 0xA5 → userLen c blk = 4) ∧
    (c ≠ 0xF6 → c ≠ 0xD5 → c ≠ 0xA5 →
      (∀ b, blk.bits = some b → b.toNat ≤ 8 * userLen c blk ∧ 8 * userLen c blk < b.toNat + 8) ∧
      (blk.bits = none → userLen c blk = 1))) ∧
  (∀ (cfg : Cfg) (blk : DataBlock), commandPair cfg blk none = [] ∧ ∀ x : Byte,
    ((∃ F ∈ blk.fields, F.shortcut = cfg.shortcutCmd) →
      commandPair cfg blk (some x) = [(cfg.shortcutCmd, x.toNat)]) ∧
    ((∀ F ∈ blk.fields, F.shortcut ≠ cfg.shortcutCmd) → commandPair cfg blk (some x) = [])) ∧
  ∀ (s : State) (learn hasDir hasCmd : Bool) (n : BitVec 16) (a : CreateArgs) (x y : Nat) (blk : DataBlock)
    (vd vs : List Bool) (d o user : List Byte), s.Inv →
    a = createArgs learn hasDir hasCmd n s → a.valid s.cfg → a.cat ≠ s.cfg.rorgCdmProp →
    findProfile s.cfg.catalog a.cat a.func a.vtype a.dir a.cmd = .block x y →
    catalogBlock s.cfg.catalog x y = some blk →
    fieldEncode blk (List.replicate (8 * userLen a.cat blk) false) (List.replicate 8 false)
      (commandPair s.cfg blk a.cmd ++ s.namedValues n.toNat) = .done vd vs →
    user.length = userLen a.cat blk →
    (∀ j < user.length, user.getD j 0 =
      (if (a.cat = 0xD5 ∨ a.cat = 0xA5) ∧ learn = false ∧ j + 1 = user.length then
        (bitsToBytes vd user.length).getD j 0 ||| 0x08
      else (bitsToBytes vd user.length).getD j 0)) →
    d = [a.cat] ++ user ++ (if a.sl = 4 then bytes4 s.arg2 else [0xDE, 0xAD, 0xBE, 0xEF]) ++ bitsToBytes vs 1 →
    o = [3] ++ (if a.dl = 4 then bytes4 s.arg3 else [0xFF, 0xFF, 0xFF, 0xFF]) ++ [0xFF, 0x00] →
    ∃ t, exec (.create learn hasDir hasCmd n) s = .next t ∧
      t = { s with
            txbuf := t.txbuf, txlen := 7 + d.length + 7, res0 := BitVec.ofNat 32 (7 + d.length + 7)
            fType := 0x01, fDlen := t.fDlen, fOlen := 7, fdata := t.fdata, fopt := t.fopt
            bvData := t.bvData, bvDlen := 8 * user.length, bvStat := t.bvStat, bvSlen := 8
            psel := t.psel, nfields := t.nfields, ft := t.ft, view := t.view
            status := { s.status.endedOk .ok with fldovf := t.status.fldovf } } ∧
      t.txBytes = frameEncode s.cfg.dcrcType 0x01 d o ∧ t.fDlen.toNat = d.length ∧ t.dataBytes = d ∧ t.optBytes = o ∧
      (∀ k, t.txlen ≤ k → t.txbuf.byte k = s.txbuf.byte k) ∧
      (∀ k, d.length ≤ k → t.fdata.byte k = s.fdata.byte k) ∧ (∀ k, 7 ≤ k → t.fopt.byte k = s.fopt.byte k) ∧
      (∀ k, 8 * user.length ≤ k → Store.read t.bvData k = Store.read s.bvData k) ∧
      t.dataBits = bytesToBits user (8 * user.length) ∧ t.statBits = vs ∧ t.view.variant = .radio ∧
      t.view.sender = (if a.sl = 4 then s.arg2 else 0xDEADBEEF) ∧
      t.view.dest = (if a.dl = 4 then s.arg3 else 0xFFFFFFFF)

/-- R222: the view after CREATE is what RECV gives for the same frame with the same request, in any state of the same
configuration that has received it; so are the selected block, the fields, the F registers and the bit vectors. (The
category is none the chain unit takes, as in `CreateBuilds`.) -/
def Obligations.CreateShowsWhatAReceiverSees : Prop :=
  ∀ (s t u : State) (learn hasDir hasCmd : Bool) (n : BitVec 16), s.Inv → u.Inv →
    exec (.create learn hasDir hasCmd n) s = .next t → t.status.result = .ok →
    s.arg0.extractLsb' 8 8 ≠ s.cfg.rorgCdmProp → u.cfg = s.cfg → u.rxBytes = t.txBytes →
    reqOfArg true hasDir hasCmd u.arg0 =
      { prof := true, func := s.arg0.extractLsb' 16 8, ptype := s.arg0.extractLsb' 24 8
        dir := if hasDir then some (s.arg1.extractLsb' 0 8) else none
        cmd := if hasCmd then some (s.arg1.extractLsb' 8 8) else none } →
    ∃ v, exec (.recv true hasDir hasCmd) u = .next v ∧ v.status.result = .ok ∧ v.rxlen = 0 ∧
      v.view = t.view ∧ v.psel = t.psel ∧ v.nfields = t.nfields ∧
      (∀ k < v.nfields, Store.read v.ft k = Store.read t.ft k) ∧
      v.fType = t.fType ∧ v.dataBytes = t.dataBytes ∧ v.optBytes = t.optBytes ∧
      v.dataBits = t.dataBits ∧ v.statBits = t.statBits
end

