-- ==== Sys2Proof/Laws/Bits.lean ====
section
/-! SUPPORT. The laws of bit and byte sequences as integers, and of the bit codec's two directions. -/

namespace Sys2Proof.Machine

@[simp] theorem length_bitsOf (n v : Nat) : (bitsOf n v).length = n := by
  induction n with
  | zero => rfl
  | succ n ih => simp [bitsOf, ih]

theorem foldl_bits (b : List Bool) (a : Nat) :
    b.foldl (fun a x => 2 * a + x.toNat) a = a * 2 ^ b.length + bitsToInt b := by
  induction b generalizing a with
  | nil => simp [bitsToInt]
  | cons x b ih =>
    have h0 : bitsToInt (x :: b) = x.toNat * 2 ^ b.length + bitsToInt b := by
      rw [← ih]
      simp [bitsToInt]
    rw [List.foldl_cons, ih, h0, List.length_cons]
    ring

@[simp] theorem bitsToInt_nil : bitsToInt [] = 0 := rfl

theorem bitsToInt_cons (x : Bool) (b : List Bool) : bitsToInt (x :: b) = x.toNat * 2 ^ b.length + bitsToInt b := by
  have := foldl_bits b x.toNat
  simpa [bitsToInt] using this

theorem bitsToInt_append (a b : List Bool) : bitsToInt (a ++ b) = bitsToInt a * 2 ^ b.length + bitsToInt b := by
  have := foldl_bits b (bitsToInt a)
  simpa [bitsToInt] using this

theorem bitsToInt_lt (b : List Bool) : bitsToInt b < 2 ^ b.length := by
  induction b with
  | nil => simp
  | cons x b ih =>
    rw [bitsToInt_cons, List.length_cons, Nat.pow_succ]
    cases x <;> simp <;> omega

@[simp] theorem bitsToInt_replicate_false (n : Nat) : bitsToInt (List.replicate n false) = 0 := by
  induction n with
  | zero => rfl
  | succ n ih => simp [List.replicate_succ, bitsToInt_cons, ih]

theorem bitsToInt_bitsOf (n v : Nat) : bitsToInt (bitsOf n v) = v % 2 ^ n := by
  induction n with
  | zero => simp [bitsOf, Nat.mod_one]
  | succ n ih =>
    rw [bitsOf, bitsToInt_cons, length_bitsOf, ih, Nat.mod_pow_succ, Nat.testBit_eq_decide_div_mod_eq]
    rcases Nat.mod_two_eq_zero_or_one (v / 2 ^ n) with h | h <;> simp [h]
    omega

/-- A bit sequence is determined by its length and its integer. -/
theorem bits_ext {a b : List Bool} (hl : a.length = b.length) (hi : bitsToInt a = bitsToInt b) : a = b := by
  induction a generalizing b with
  | nil => cases b with
    | nil => rfl
    | cons => simp at hl
  | cons x a ih =>
    cases b with
    | nil => simp at hl
    | cons y b =>
      have hl' : a.length = b.length := by simpa using hl
      rw [bitsToInt_cons, bitsToInt_cons, hl'] at hi
      have h1 := bitsToInt_lt a
      have h2 := bitsToInt_lt b
      rw [hl'] at h1
      cases x <;> cases y <;> simp at hi
      · rw [ih hl' hi]
      · omega
      · omega
      · rw [ih hl' (by omega)]

theorem bitsOf_bitsToInt (b : List Bool) : bitsOf b.length (bitsToInt b) = b := by
  apply bits_ext (by simp)
  rw [bitsToInt_bitsOf, Nat.mod_eq_of_lt (bitsToInt_lt b)]

theorem getElem_bitsOf (n v i : Nat) (h : i < (bitsOf n v).length) : (bitsOf n v)[i] = v.testBit (n - 1 - i) := by
  induction n generalizing i with
  | zero => simp [bitsOf] at h
  | succ n ih =>
    cases i with
    | zero => simp [bitsOf]
    | succ i =>
      have h' : i < (bitsOf n v).length := by simpa [bitsOf] using h
      simp only [bitsOf, List.getElem_cons_succ, ih i h']
      congr 1
      omega

theorem bitlen_le_iff (v L : Nat) : bitlen v ≤ L ↔ v < 2 ^ L := by
  unfold bitlen
  split
  · simp_all
  · rename_i h
    rw [Nat.add_one_le_iff, Nat.log2_lt h]

theorem lt_two_pow_bitlen (v : Nat) : v < 2 ^ bitlen v := (bitlen_le_iff v _).mp le_rfl

/-! ### Bytes -/

theorem foldl_bytes (b : List Byte) (a : Nat) :
    b.foldl (fun a x => a * 256 + x.toNat) a = a * 256 ^ b.length + combine b := by
  induction b generalizing a with
  | nil => simp [combine]
  | cons x b ih =>
    have h0 : combine (x :: b) = x.toNat * 256 ^ b.length + combine b := by
      rw [← ih]
      simp [combine]
    rw [List.foldl_cons, ih, h0, List.length_cons]
    ring

@[simp] theorem combine_nil : combine [] = 0 := rfl

theorem combine_cons (x : Byte) (b : List Byte) : combine (x :: b) = x.toNat * 256 ^ b.length + combine b := by
  have := foldl_bytes b x.toNat
  simpa [combine] using this

theorem combine_append (a b : List Byte) : combine (a ++ b) = combine a * 256 ^ b.length + combine b := by
  have := foldl_bytes b (combine a)
  simpa [combine] using this

theorem combine_lt (b : List Byte) : combine b < 256 ^ b.length := by
  induction b with
  | nil => simp
  | cons x b ih =>
    rw [combine_cons, List.length_cons, Nat.pow_succ]
    have := x.isLt
    have h : x.toNat + 1 ≤ 256 := by omega
    calc x.toNat * 256 ^ b.length + combine b < x.toNat * 256 ^ b.length + 256 ^ b.length := by omega
      _ = (x.toNat + 1) * 256 ^ b.length := by ring
      _ ≤ 256 * 256 ^ b.length := Nat.mul_le_mul_right _ h
      _ = 256 ^ b.length * 256 := by ring

theorem two_pow_eight_mul (n : Nat) : 2 ^ (8 * n) = 256 ^ n := by rw [Nat.pow_mul]

/-! ### The bit codec -/

@[simp] theorem length_bytesToBits (b : List Byte) (w : Nat) : (bytesToBits b w).length = max w (bitlen (combine b)) := by
  simp [bytesToBits, unpackLen]

/-- With room for every bit of the bytes, the vector is exactly as long as the width. -/
theorem length_bytesToBits_of_le (b : List Byte) (w : Nat) (h : 8 * b.length ≤ w) : (bytesToBits b w).length = w := by
  have h1 : bitlen (combine b) ≤ w := by
    rw [bitlen_le_iff]
    calc combine b < 256 ^ b.length := combine_lt b
      _ = 2 ^ (8 * b.length) := (two_pow_eight_mul _).symm
      _ ≤ 2 ^ w := Nat.pow_le_pow_right (by decide) h
  simp [h1]

theorem bitsToInt_bytesToBits (b : List Byte) (w : Nat) : bitsToInt (bytesToBits b w) = combine b := by
  rw [bytesToBits, bitsToInt_bitsOf]
  apply Nat.mod_eq_of_lt
  rw [← bitlen_le_iff]
  exact le_max_right _ _

/-- The eight bits of a byte, most significant first. -/
def byteBits (x : Byte) : List Bool := (List.range 8).map fun k => x.getLsbD (7 - k)

@[simp] theorem length_byteBits (x : Byte) : (byteBits x).length = 8 := by simp [byteBits]

theorem bitsToInt_byteBits (x : Byte) : bitsToInt (byteBits x) = x.toNat := by
  have : byteBits x = bitsOf 8 x.toNat := by
    simp [byteBits, bitsOf, List.range_succ, BitVec.getLsbD]
  rw [this, bitsToInt_bitsOf, Nat.mod_eq_of_lt x.isLt]

@[simp] theorem length_flatMap_byteBits (b : List Byte) : (b.flatMap byteBits).length = 8 * b.length := by
  induction b with
  | nil => rfl
  | cons x b ih => simp [ih]; omega

theorem bitsToInt_flatMap_byteBits (b : List Byte) : bitsToInt (b.flatMap byteBits) = combine b := by
  induction b with
  | nil => rfl
  | cons x b ih =>
    rw [List.flatMap_cons, bitsToInt_append, combine_cons, ih, bitsToInt_byteBits, length_flatMap_byteBits,
      two_pow_eight_mul]

/-- R160's derived form of `BytesToBits` when no bit is dropped. -/
theorem bytesToBits_of_le (b : List Byte) (w : Nat) (h : 8 * b.length ≤ w) :
    bytesToBits b w = List.replicate (w - 8 * b.length) false ++ b.flatMap byteBits := by
  apply bits_ext
  · rw [length_bytesToBits_of_le b w h]
    simp
    omega
  · rw [bitsToInt_bytesToBits, bitsToInt_append, bitsToInt_replicate_false, bitsToInt_flatMap_byteBits]
    omega

theorem bytesToBits_exact (b : List Byte) : bytesToBits b (8 * b.length) = b.flatMap byteBits := by
  simpa using bytesToBits_of_le b (8 * b.length) le_rfl

@[simp] theorem length_bitsToBytes (b : List Bool) (m : Nat) : (bitsToBytes b m).length = m := by simp [bitsToBytes]

theorem getElem_bitsToBytes (b : List Bool) (m j : Nat) (h : j < (bitsToBytes b m).length) :
    (bitsToBytes b m)[j] = packByte b j := by simp [bitsToBytes]

theorem map_range_getD (l : List Bool) (n : Nat) (h : l.length = n) : (List.range n).map (fun i => l.getD i false) = l := by
  subst h
  apply List.ext_getElem (by simp)
  intro i h1 h2
  simp [List.getD_eq_getElem?_getD, h2]

/-- A byte whose eight bits are packed again. -/
theorem packByte_byteBits (b : List Bool) (x : Byte) (j : Nat)
    (h : (List.range 8).map (fun i => b.getD (8 * j + i) false) = byteBits x) : packByte b j = x := by
  rw [packByte, h, bitsToInt_byteBits]
  simp

theorem bitsToBytes_cons (x : Byte) (v : List Bool) (m : Nat) :
    bitsToBytes (byteBits x ++ v) (m + 1) = x :: bitsToBytes v m := by
  simp only [bitsToBytes, List.range_succ_eq_map, List.map_cons, List.map_map]
  congr 1
  · apply packByte_byteBits
    have h : ∀ i ∈ List.range 8, (byteBits x ++ v).getD (8 * 0 + i) false = (byteBits x).getD i false := by
      intro i hi
      have : i < 8 := List.mem_range.mp hi
      simp [List.getD_eq_getElem?_getD, List.getElem?_append, this]
    rw [List.map_congr_left h]
    exact map_range_getD _ 8 (by simp)

theorem bitsToBytes_flatMap_byteBits (b : List Byte) : bitsToBytes (b.flatMap byteBits) b.length = b := by
  induction b with
  | nil => rfl
  | cons x b ih => rw [List.flatMap_cons, List.length_cons, bitsToBytes_cons, ih]

/-- Eight bits at a time, a vector is the bits of its packed bytes. -/
theorem flatMap_byteBits_bitsToBytes (m : Nat) (v : List Bool) (h : v.length = 8 * m) :
    (bitsToBytes v m).flatMap byteBits = v := by
  induction m generalizing v with
  | zero => simp [bitsToBytes, List.length_eq_zero_iff.mp (by omega : v.length = 0)]
  | succ m ih =>
    have hl : (v.take 8).length = 8 := by simp; omega
    have hb : byteBits (BitVec.ofNat 8 (bitsToInt (v.take 8))) = v.take 8 := by
      apply bits_ext (by simp [hl])
      rw [bitsToInt_byteBits, BitVec.toNat_ofNat, Nat.mod_eq_of_lt]
      have := bitsToInt_lt (v.take 8)
      rwa [hl] at this
    have hv : v = byteBits (BitVec.ofNat 8 (bitsToInt (v.take 8))) ++ v.drop 8 := by
      rw [hb, List.take_append_drop]
    rw [hv, bitsToBytes_cons, List.flatMap_cons, ih _ (by simp; omega)]

end Sys2Proof.Machine
end

