-- ==== Sys2Proof/Laws/FieldCodec.lean ====
section
/-! SUPPORT. What the Profile Resolver and the Field Codec can give: where a block found stands, the codes and the vector
lengths of an encode, and what overwriting a range of bits leaves. -/

namespace Sys2Proof.Machine

/-- A profile found stands in the catalog, and so does its block. -/
theorem findProfile_block {cat : List Profile} {c f t : Byte} {dir cmd : Option Byte} {x y : Nat}
    (h : findProfile cat c f t dir cmd = .block x y) :
    ∃ e b, cat[x]? = some e ∧ e.rorg = c ∧ e.func = f ∧ e.ptype = t ∧ e.blocks[y]? = some b ∧
      catalogBlock cat x y = some b := by
  unfold findProfile at h
  dsimp only at h
  split at h
  · cases h
  split at h
  · cases h
  split at h
  · cases h
  rename_i e x' l hl
  split at h
  · cases h
  rename_i b y' l' hb
  cases h
  have h1 : (e, x) ∈ (((cat.zipIdx.filter fun p => p.1.rorg == c).filter fun p => p.1.func == f).filter
      fun p => p.1.ptype == t) := by rw [hl]; simp
  have h2 : (b, y) ∈ blockCandidates e dir cmd := by rw [hb]; simp
  simp only [List.mem_filter, List.mem_zipIdx_iff_getElem?, beq_iff_eq, blockCandidates] at h1 h2
  refine ⟨e, b, h1.1.1.1, h1.1.1.2, h1.1.2, h1.2, h2.1, ?_⟩
  simp [catalogBlock, h1.1.1.1, h2.1]

/-- The two kinds of match (R175). -/
theorem enumMatch_kind {F : FieldDesc} {raw : Nat} {m : BitVec 2} {j : Nat} (h : enumMatch F raw = some (m, j)) :
    m = 1 ∨ m = 2 := by
  unfold enumMatch at h
  split at h
  · cases h
    exact .inl rfl
  · split at h
    · cases h
      exact .inr rfl
    · cases h

/-- An encode is rejected for one of two reasons (R178). -/
theorem encodeCheck_code {blk : DataBlock} {vd vs : List Bool} {k : Nat} {nv : List (BitVec 16 × Nat)}
    {c : ResultCode} {j : Nat} (h : encodeCheck blk vd vs k nv = some (c, j)) :
    c = .unknownField ∨ c = .badDescriptor := by
  induction nv generalizing k with
  | nil => cases h
  | cons p nv ih =>
    unfold encodeCheck at h
    split at h
    · cases h; exact .inl rfl
    · split at h
      · exact ih h
      · cases h; exact .inr rfl

theorem fieldEncode_code {blk : DataBlock} {vd vs : List Bool} {nv : List (BitVec 16 × Nat)} {c : ResultCode} {j : Nat}
    (h : fieldEncode blk vd vs nv = .rejected c j) : c = .unknownField ∨ c = .badDescriptor := by
  unfold fieldEncode at h
  split at h
  · cases h
    exact encodeCheck_code ‹_›
  · cases h

/-- Overwriting a range that lies inside the vector keeps its length. -/
theorem length_overwrite {v : List Bool} {off : Nat} {bs : List Bool} (h : off + bs.length ≤ v.length) :
    (overwrite v off bs).length = v.length := by
  simp [overwrite]
  omega

theorem getElem?_overwrite_of_out {v : List Bool} {off : Nat} {bs : List Bool} (h : off + bs.length ≤ v.length) {x : Nat}
    (hx : x < off ∨ off + bs.length ≤ x) : (overwrite v off bs)[x]? = v[x]? := by
  have hl : (v.take off).length = off := by simp; omega
  unfold overwrite
  rcases hx with hx | hx
  · rw [List.getElem?_append_left (by simp; omega), List.getElem?_append_left (by omega)]
    simp [hx]
  · rw [List.getElem?_append_right (by simp; omega), List.getElem?_drop]
    congr 1
    simp
    omega

/-- The overwritten range reads back as what was written. -/
theorem slice_overwrite {v : List Bool} {off : Nat} {bs : List Bool} (h : off + bs.length ≤ v.length) :
    ((overwrite v off bs).drop off).take bs.length = bs := by
  have hl : (v.take off).length = off := by simp; omega
  unfold overwrite
  rw [List.append_assoc, List.drop_append_of_le_length (by omega)]
  simp

theorem descFits_iff (F : FieldDesc) (n : Nat) :
    descFits F n = true ↔ F.size ≠ 0 ∧ F.size ≤ 64 ∧ F.offset + F.size ≤ n := by
  simp only [descFits, Bool.and_eq_true, decide_eq_true_eq, and_assoc]
  rfl

/-- A pair passes R178's check: it names a descriptor that fits its vector. -/
def pairOk (blk : DataBlock) (nd ns : Nat) (p : BitVec 16 × Nat) : Prop :=
  ∃ F, descriptorOf blk p.1 = some F ∧
    descFits F (match F.src with | .data => nd | .status => ns) = true

theorem length_descVector (F : FieldDesc) (vd vs : List Bool) :
    (descVector F vd vs).length = match F.src with | .data => vd.length | .status => vs.length := by
  unfold descVector
  cases F.src <;> rfl

/-- The check phase passes exactly when every pair does. -/
theorem encodeCheck_none_iff (blk : DataBlock) (vd vs : List Bool) (k : Nat) (nv : List (BitVec 16 × Nat)) :
    encodeCheck blk vd vs k nv = none ↔ ∀ p ∈ nv, pairOk blk vd.length vs.length p := by
  induction nv generalizing k with
  | nil => simp [encodeCheck]
  | cons p nv ih =>
    rw [List.forall_mem_cons, ← ih (k + 1)]
    simp only [encodeCheck, pairOk]
    cases hd : descriptorOf blk p.1 with
    | none => simp
    | some F =>
      simp only [← length_descVector]
      by_cases hf : descFits F (descVector F vd vs).length = true
      · simp [hf]
      · simp [hf]

/-- One pair that passed the check writes one field of one vector and keeps both lengths. -/
theorem encodeOne_lengths {blk : DataBlock} {vv : List Bool × List Bool} {p : BitVec 16 × Nat}
    (h : pairOk blk vv.1.length vv.2.length p) :
    (encodeOne blk vv p).1.length = vv.1.length ∧ (encodeOne blk vv p).2.length = vv.2.length := by
  obtain ⟨F, hF, hf⟩ := h
  unfold encodeOne
  rw [hF]
  dsimp only
  cases hs : F.src with
  | data =>
    rw [hs] at hf
    have := (descFits_iff _ _).mp hf
    exact ⟨length_overwrite (by simpa using this.2.2), rfl⟩
  | status =>
    rw [hs] at hf
    have := (descFits_iff _ _).mp hf
    exact ⟨rfl, length_overwrite (by simpa using this.2.2)⟩

theorem foldl_encodeOne_lengths {blk : DataBlock} {nv : List (BitVec 16 × Nat)} {vv : List Bool × List Bool}
    (h : ∀ p ∈ nv, pairOk blk vv.1.length vv.2.length p) :
    (nv.foldl (encodeOne blk) vv).1.length = vv.1.length ∧ (nv.foldl (encodeOne blk) vv).2.length = vv.2.length := by
  induction nv generalizing vv with
  | nil => exact ⟨rfl, rfl⟩
  | cons p nv ih =>
    have h1 := encodeOne_lengths (h p (by simp))
    have h2 := ih (vv := encodeOne blk vv p) (fun q hq => by
      rw [h1.1, h1.2]
      exact h q (by simp [hq]))
    rw [List.foldl_cons, h2.1, h2.2]
    exact h1

/-- An encode never changes the length of either vector (R178). -/
theorem fieldEncode_lengths {blk : DataBlock} {vd vs vd' vs' : List Bool} {nv : List (BitVec 16 × Nat)}
    (h : fieldEncode blk vd vs nv = .done vd' vs') : vd'.length = vd.length ∧ vs'.length = vs.length := by
  unfold fieldEncode at h
  split at h
  · cases h
  · rename_i hc
    cases h
    have := (encodeCheck_none_iff blk vd vs 0 nv).mp hc
    exact foldl_encodeOne_lengths (vv := (vd, vs)) this

end Sys2Proof.Machine
end

