-- ==== Sys2Proof/Laws/FrameCodec.lean ====
section
/-! SUPPORT. What `FrameDecode` and `FrameEncode` can give: the codes, the sizes, and the four ways an aligned buffer is
decoded. -/

namespace Sys2Proof.Machine

@[simp] theorem length_frameHeader (t : Byte) (d o : List Byte) : (frameHeader t d o).length = 4 := rfl

@[simp] theorem length_frameEncode (p : Bool) (t : Byte) (d o : List Byte) :
    (frameEncode p t d o).length = 7 + d.length + o.length := by
  simp [frameEncode]
  omega

/-- An aligned buffer is decoded in one of these ways: incomplete, or a candidate frame of `n` bytes that is dropped with
a mismatch or delivered. -/
theorem frameDecodeAligned_cases (p : Bool) (k : Nat) (a : List Byte) :
    frameDecodeAligned p k a = { status := .incomplete, rem := a, frame := none, failAt := 0, skipped := k } ∨
    (∃ n w, n ≤ a.length ∧ (w = 1 ∨ w = 2) ∧
      frameDecodeAligned p k a =
        { status := .crcMismatch, rem := slice a n a.length, frame := none, failAt := w, skipped := k }) ∨
    ∃ n f, n ≤ a.length ∧ n = 7 + f.data.length + f.opt.length ∧ f.data.length ≤ 65535 ∧ f.opt.length ≤ 255 ∧
      frameDecodeAligned p k a =
        { status := .ok, rem := slice a n a.length, frame := some f, failAt := 0, skipped := k } := by
  unfold frameDecodeAligned
  split
  · exact .inl rfl
  dsimp only
  split
  · exact .inl rfl
  rename_i h4 hn
  have hn' : 6 + ((a.getD 1 0).toNat * 256 + (a.getD 2 0).toNat) + (a.getD 3 0).toNat + 1 ≤ a.length := by omega
  split
  · exact .inr (.inl ⟨_, 1, hn', .inl rfl, rfl⟩)
  split
  · exact .inr (.inl ⟨_, 2, hn', .inr rfl, rfl⟩)
  · have h1 := (a.getD 1 0).isLt
    have h2 := (a.getD 2 0).isLt
    have h3 := (a.getD 3 0).isLt
    refine .inr (.inr ⟨_, _, hn', ?_, ?_, ?_, rfl⟩) <;> simp only [slice, List.length_drop, List.length_take] <;> omega

theorem length_slice_le {α : Type} (a : List α) (i : Nat) : (slice a i a.length).length = a.length - i := by
  simp [slice]

/-- Everything `FrameDecode` can answer: its codes, its sizes, and when there is a frame. -/
theorem frameDecode_cases (p : Bool) (buf : List Byte) :
    (frameDecode p buf).rem.length ≤ buf.length ∧
    ((frameDecode p buf).status = .incomplete ∧ (frameDecode p buf).frame = none ∧ (frameDecode p buf).failAt = 0 ∨
      (frameDecode p buf).status = .crcMismatch ∧ (frameDecode p buf).frame = none ∧
        ((frameDecode p buf).failAt = 1 ∨ (frameDecode p buf).failAt = 2) ∨
      (frameDecode p buf).status = .ok ∧ (frameDecode p buf).failAt = 0 ∧ ∃ f, (frameDecode p buf).frame = some f ∧
        f.data.length ≤ 65535 ∧ f.opt.length ≤ 255) := by
  unfold frameDecode
  split
  · exact ⟨le_rfl, .inl ⟨rfl, rfl, rfl⟩⟩
  · rename_i k _
    have hl : (slice buf k buf.length).length ≤ buf.length := by rw [length_slice_le]; omega
    rcases frameDecodeAligned_cases p k (slice buf k buf.length) with h | ⟨n, w, hn, hw, h⟩ | ⟨n, f, hn, _, hd, ho, h⟩
    · rw [h]
      exact ⟨hl, .inl ⟨rfl, rfl, rfl⟩⟩
    · rw [h]
      refine ⟨?_, .inr (.inl ⟨rfl, rfl, hw⟩)⟩
      show (slice _ n _).length ≤ _
      rw [length_slice_le]
      omega
    · rw [h]
      refine ⟨?_, .inr (.inr ⟨rfl, rfl, f, rfl, hd, ho⟩)⟩
      show (slice _ n _).length ≤ _
      rw [length_slice_le]
      omega

end Sys2Proof.Machine
end

