-- ==== Sys2Proof/Laws/State.lean ====
section
/-! SUPPORT. One lemma per field of State per named update, true by `rfl` and tagged `simp`, so that no proof unfolds a
record update; then the fields of STATUS after a command end, and of the view. -/

namespace Sys2Proof.Machine

variable (s : State)

/-! ### setRes0 -/

@[simp] theorem State.setRes0_cfg (w : Word) : (s.setRes0 w).cfg = s.cfg := rfl
@[simp] theorem State.setRes0_ctrl (w : Word) : (s.setRes0 w).ctrl = s.ctrl := rfl
@[simp] theorem State.setRes0_status (w : Word) : (s.setRes0 w).status = s.status := rfl
@[simp] theorem State.setRes0_cmdl (w : Word) : (s.setRes0 w).cmdl = s.cmdl := rfl
@[simp] theorem State.setRes0_arg0 (w : Word) : (s.setRes0 w).arg0 = s.arg0 := rfl
@[simp] theorem State.setRes0_arg1 (w : Word) : (s.setRes0 w).arg1 = s.arg1 := rfl
@[simp] theorem State.setRes0_arg2 (w : Word) : (s.setRes0 w).arg2 = s.arg2 := rfl
@[simp] theorem State.setRes0_arg3 (w : Word) : (s.setRes0 w).arg3 = s.arg3 := rfl
@[simp] theorem State.setRes0_res0 (w : Word) : (s.setRes0 w).res0 = w := rfl
@[simp] theorem State.setRes0_res1 (w : Word) : (s.setRes0 w).res1 = s.res1 := rfl
@[simp] theorem State.setRes0_res2 (w : Word) : (s.setRes0 w).res2 = s.res2 := rfl
@[simp] theorem State.setRes0_rxbuf (w : Word) : (s.setRes0 w).rxbuf = s.rxbuf := rfl
@[simp] theorem State.setRes0_rxlen (w : Word) : (s.setRes0 w).rxlen = s.rxlen := rfl
@[simp] theorem State.setRes0_txbuf (w : Word) : (s.setRes0 w).txbuf = s.txbuf := rfl
@[simp] theorem State.setRes0_txlen (w : Word) : (s.setRes0 w).txlen = s.txlen := rfl
@[simp] theorem State.setRes0_fType (w : Word) : (s.setRes0 w).fType = s.fType := rfl
@[simp] theorem State.setRes0_fDlen (w : Word) : (s.setRes0 w).fDlen = s.fDlen := rfl
@[simp] theorem State.setRes0_fOlen (w : Word) : (s.setRes0 w).fOlen = s.fOlen := rfl
@[simp] theorem State.setRes0_fdata (w : Word) : (s.setRes0 w).fdata = s.fdata := rfl
@[simp] theorem State.setRes0_fopt (w : Word) : (s.setRes0 w).fopt = s.fopt := rfl
@[simp] theorem State.setRes0_bvData (w : Word) : (s.setRes0 w).bvData = s.bvData := rfl
@[simp] theorem State.setRes0_bvDlen (w : Word) : (s.setRes0 w).bvDlen = s.bvDlen := rfl
@[simp] theorem State.setRes0_bvStat (w : Word) : (s.setRes0 w).bvStat = s.bvStat := rfl
@[simp] theorem State.setRes0_bvSlen (w : Word) : (s.setRes0 w).bvSlen = s.bvSlen := rfl
@[simp] theorem State.setRes0_psel (w : Word) : (s.setRes0 w).psel = s.psel := rfl
@[simp] theorem State.setRes0_nfields (w : Word) : (s.setRes0 w).nfields = s.nfields := rfl
@[simp] theorem State.setRes0_ft (w : Word) : (s.setRes0 w).ft = s.ft := rfl
@[simp] theorem State.setRes0_nv (w : Word) : (s.setRes0 w).nv = s.nv := rfl
@[simp] theorem State.setRes0_cntFrames (w : Word) : (s.setRes0 w).cntFrames = s.cntFrames := rfl
@[simp] theorem State.setRes0_cntCrcerr (w : Word) : (s.setRes0 w).cntCrcerr = s.cntCrcerr := rfl
@[simp] theorem State.setRes0_cntOrphan (w : Word) : (s.setRes0 w).cntOrphan = s.cntOrphan := rfl
@[simp] theorem State.setRes0_view (w : Word) : (s.setRes0 w).view = s.view := rfl
@[simp] theorem State.setRes0_chain (w : Word) : (s.setRes0 w).chain = s.chain := rfl
@[simp] theorem State.setRes0_host (w : Word) : (s.setRes0 w).host = s.host := rfl
@[simp] theorem State.setRes0_delay (w : Word) : (s.setRes0 w).delay = s.delay := rfl
@[simp] theorem State.setRes0_draws (w : Word) : (s.setRes0 w).draws = s.draws := rfl

/-! ### setRes1 -/

@[simp] theorem State.setRes1_cfg (w : Word) : (s.setRes1 w).cfg = s.cfg := rfl
@[simp] theorem State.setRes1_ctrl (w : Word) : (s.setRes1 w).ctrl = s.ctrl := rfl
@[simp] theorem State.setRes1_status (w : Word) : (s.setRes1 w).status = s.status := rfl
@[simp] theorem State.setRes1_cmdl (w : Word) : (s.setRes1 w).cmdl = s.cmdl := rfl
@[simp] theorem State.setRes1_arg0 (w : Word) : (s.setRes1 w).arg0 = s.arg0 := rfl
@[simp] theorem State.setRes1_arg1 (w : Word) : (s.setRes1 w).arg1 = s.arg1 := rfl
@[simp] theorem State.setRes1_arg2 (w : Word) : (s.setRes1 w).arg2 = s.arg2 := rfl
@[simp] theorem State.setRes1_arg3 (w : Word) : (s.setRes1 w).arg3 = s.arg3 := rfl
@[simp] theorem State.setRes1_res0 (w : Word) : (s.setRes1 w).res0 = s.res0 := rfl
@[simp] theorem State.setRes1_res1 (w : Word) : (s.setRes1 w).res1 = w := rfl
@[simp] theorem State.setRes1_res2 (w : Word) : (s.setRes1 w).res2 = s.res2 := rfl
@[simp] theorem State.setRes1_rxbuf (w : Word) : (s.setRes1 w).rxbuf = s.rxbuf := rfl
@[simp] theorem State.setRes1_rxlen (w : Word) : (s.setRes1 w).rxlen = s.rxlen := rfl
@[simp] theorem State.setRes1_txbuf (w : Word) : (s.setRes1 w).txbuf = s.txbuf := rfl
@[simp] theorem State.setRes1_txlen (w : Word) : (s.setRes1 w).txlen = s.txlen := rfl
@[simp] theorem State.setRes1_fType (w : Word) : (s.setRes1 w).fType = s.fType := rfl
@[simp] theorem State.setRes1_fDlen (w : Word) : (s.setRes1 w).fDlen = s.fDlen := rfl
@[simp] theorem State.setRes1_fOlen (w : Word) : (s.setRes1 w).fOlen = s.fOlen := rfl
@[simp] theorem State.setRes1_fdata (w : Word) : (s.setRes1 w).fdata = s.fdata := rfl
@[simp] theorem State.setRes1_fopt (w : Word) : (s.setRes1 w).fopt = s.fopt := rfl
@[simp] theorem State.setRes1_bvData (w : Word) : (s.setRes1 w).bvData = s.bvData := rfl
@[simp] theorem State.setRes1_bvDlen (w : Word) : (s.setRes1 w).bvDlen = s.bvDlen := rfl
@[simp] theorem State.setRes1_bvStat (w : Word) : (s.setRes1 w).bvStat = s.bvStat := rfl
@[simp] theorem State.setRes1_bvSlen (w : Word) : (s.setRes1 w).bvSlen = s.bvSlen := rfl
@[simp] theorem State.setRes1_psel (w : Word) : (s.setRes1 w).psel = s.psel := rfl
@[simp] theorem State.setRes1_nfields (w : Word) : (s.setRes1 w).nfields = s.nfields := rfl
@[simp] theorem State.setRes1_ft (w : Word) : (s.setRes1 w).ft = s.ft := rfl
@[simp] theorem State.setRes1_nv (w : Word) : (s.setRes1 w).nv = s.nv := rfl
@[simp] theorem State.setRes1_cntFrames (w : Word) : (s.setRes1 w).cntFrames = s.cntFrames := rfl
@[simp] theorem State.setRes1_cntCrcerr (w : Word) : (s.setRes1 w).cntCrcerr = s.cntCrcerr := rfl
@[simp] theorem State.setRes1_cntOrphan (w : Word) : (s.setRes1 w).cntOrphan = s.cntOrphan := rfl
@[simp] theorem State.setRes1_view (w : Word) : (s.setRes1 w).view = s.view := rfl
@[simp] theorem State.setRes1_chain (w : Word) : (s.setRes1 w).chain = s.chain := rfl
@[simp] theorem State.setRes1_host (w : Word) : (s.setRes1 w).host = s.host := rfl
@[simp] theorem State.setRes1_delay (w : Word) : (s.setRes1 w).delay = s.delay := rfl
@[simp] theorem State.setRes1_draws (w : Word) : (s.setRes1 w).draws = s.draws := rfl

/-! ### setRes2 -/

@[simp] theorem State.setRes2_cfg (w : Word) : (s.setRes2 w).cfg = s.cfg := rfl
@[simp] theorem State.setRes2_ctrl (w : Word) : (s.setRes2 w).ctrl = s.ctrl := rfl
@[simp] theorem State.setRes2_status (w : Word) : (s.setRes2 w).status = s.status := rfl
@[simp] theorem State.setRes2_cmdl (w : Word) : (s.setRes2 w).cmdl = s.cmdl := rfl
@[simp] theorem State.setRes2_arg0 (w : Word) : (s.setRes2 w).arg0 = s.arg0 := rfl
@[simp] theorem State.setRes2_arg1 (w : Word) : (s.setRes2 w).arg1 = s.arg1 := rfl
@[simp] theorem State.setRes2_arg2 (w : Word) : (s.setRes2 w).arg2 = s.arg2 := rfl
@[simp] theorem State.setRes2_arg3 (w : Word) : (s.setRes2 w).arg3 = s.arg3 := rfl
@[simp] theorem State.setRes2_res0 (w : Word) : (s.setRes2 w).res0 = s.res0 := rfl
@[simp] theorem State.setRes2_res1 (w : Word) : (s.setRes2 w).res1 = s.res1 := rfl
@[simp] theorem State.setRes2_res2 (w : Word) : (s.setRes2 w).res2 = w := rfl
@[simp] theorem State.setRes2_rxbuf (w : Word) : (s.setRes2 w).rxbuf = s.rxbuf := rfl
@[simp] theorem State.setRes2_rxlen (w : Word) : (s.setRes2 w).rxlen = s.rxlen := rfl
@[simp] theorem State.setRes2_txbuf (w : Word) : (s.setRes2 w).txbuf = s.txbuf := rfl
@[simp] theorem State.setRes2_txlen (w : Word) : (s.setRes2 w).txlen = s.txlen := rfl
@[simp] theorem State.setRes2_fType (w : Word) : (s.setRes2 w).fType = s.fType := rfl
@[simp] theorem State.setRes2_fDlen (w : Word) : (s.setRes2 w).fDlen = s.fDlen := rfl
@[simp] theorem State.setRes2_fOlen (w : Word) : (s.setRes2 w).fOlen = s.fOlen := rfl
@[simp] theorem State.setRes2_fdata (w : Word) : (s.setRes2 w).fdata = s.fdata := rfl
@[simp] theorem State.setRes2_fopt (w : Word) : (s.setRes2 w).fopt = s.fopt := rfl
@[simp] theorem State.setRes2_bvData (w : Word) : (s.setRes2 w).bvData = s.bvData := rfl
@[simp] theorem State.setRes2_bvDlen (w : Word) : (s.setRes2 w).bvDlen = s.bvDlen := rfl
@[simp] theorem State.setRes2_bvStat (w : Word) : (s.setRes2 w).bvStat = s.bvStat := rfl
@[simp] theorem State.setRes2_bvSlen (w : Word) : (s.setRes2 w).bvSlen = s.bvSlen := rfl
@[simp] theorem State.setRes2_psel (w : Word) : (s.setRes2 w).psel = s.psel := rfl
@[simp] theorem State.setRes2_nfields (w : Word) : (s.setRes2 w).nfields = s.nfields := rfl
@[simp] theorem State.setRes2_ft (w : Word) : (s.setRes2 w).ft = s.ft := rfl
@[simp] theorem State.setRes2_nv (w : Word) : (s.setRes2 w).nv = s.nv := rfl
@[simp] theorem State.setRes2_cntFrames (w : Word) : (s.setRes2 w).cntFrames = s.cntFrames := rfl
@[simp] theorem State.setRes2_cntCrcerr (w : Word) : (s.setRes2 w).cntCrcerr = s.cntCrcerr := rfl
@[simp] theorem State.setRes2_cntOrphan (w : Word) : (s.setRes2 w).cntOrphan = s.cntOrphan := rfl
@[simp] theorem State.setRes2_view (w : Word) : (s.setRes2 w).view = s.view := rfl
@[simp] theorem State.setRes2_chain (w : Word) : (s.setRes2 w).chain = s.chain := rfl
@[simp] theorem State.setRes2_host (w : Word) : (s.setRes2 w).host = s.host := rfl
@[simp] theorem State.setRes2_delay (w : Word) : (s.setRes2 w).delay = s.delay := rfl
@[simp] theorem State.setRes2_draws (w : Word) : (s.setRes2 w).draws = s.draws := rfl

/-! ### setPsel -/

@[simp] theorem State.setPsel_cfg (p : Psel) : (s.setPsel p).cfg = s.cfg := rfl
@[simp] theorem State.setPsel_ctrl (p : Psel) : (s.setPsel p).ctrl = s.ctrl := rfl
@[simp] theorem State.setPsel_status (p : Psel) : (s.setPsel p).status = s.status := rfl
@[simp] theorem State.setPsel_cmdl (p : Psel) : (s.setPsel p).cmdl = s.cmdl := rfl
@[simp] theorem State.setPsel_arg0 (p : Psel) : (s.setPsel p).arg0 = s.arg0 := rfl
@[simp] theorem State.setPsel_arg1 (p : Psel) : (s.setPsel p).arg1 = s.arg1 := rfl
@[simp] theorem State.setPsel_arg2 (p : Psel) : (s.setPsel p).arg2 = s.arg2 := rfl
@[simp] theorem State.setPsel_arg3 (p : Psel) : (s.setPsel p).arg3 = s.arg3 := rfl
@[simp] theorem State.setPsel_res0 (p : Psel) : (s.setPsel p).res0 = s.res0 := rfl
@[simp] theorem State.setPsel_res1 (p : Psel) : (s.setPsel p).res1 = s.res1 := rfl
@[simp] theorem State.setPsel_res2 (p : Psel) : (s.setPsel p).res2 = s.res2 := rfl
@[simp] theorem State.setPsel_rxbuf (p : Psel) : (s.setPsel p).rxbuf = s.rxbuf := rfl
@[simp] theorem State.setPsel_rxlen (p : Psel) : (s.setPsel p).rxlen = s.rxlen := rfl
@[simp] theorem State.setPsel_txbuf (p : Psel) : (s.setPsel p).txbuf = s.txbuf := rfl
@[simp] theorem State.setPsel_txlen (p : Psel) : (s.setPsel p).txlen = s.txlen := rfl
@[simp] theorem State.setPsel_fType (p : Psel) : (s.setPsel p).fType = s.fType := rfl
@[simp] theorem State.setPsel_fDlen (p : Psel) : (s.setPsel p).fDlen = s.fDlen := rfl
@[simp] theorem State.setPsel_fOlen (p : Psel) : (s.setPsel p).fOlen = s.fOlen := rfl
@[simp] theorem State.setPsel_fdata (p : Psel) : (s.setPsel p).fdata = s.fdata := rfl
@[simp] theorem State.setPsel_fopt (p : Psel) : (s.setPsel p).fopt = s.fopt := rfl
@[simp] theorem State.setPsel_bvData (p : Psel) : (s.setPsel p).bvData = s.bvData := rfl
@[simp] theorem State.setPsel_bvDlen (p : Psel) : (s.setPsel p).bvDlen = s.bvDlen := rfl
@[simp] theorem State.setPsel_bvStat (p : Psel) : (s.setPsel p).bvStat = s.bvStat := rfl
@[simp] theorem State.setPsel_bvSlen (p : Psel) : (s.setPsel p).bvSlen = s.bvSlen := rfl
@[simp] theorem State.setPsel_psel (p : Psel) : (s.setPsel p).psel = p := rfl
@[simp] theorem State.setPsel_nfields (p : Psel) : (s.setPsel p).nfields = s.nfields := rfl
@[simp] theorem State.setPsel_ft (p : Psel) : (s.setPsel p).ft = s.ft := rfl
@[simp] theorem State.setPsel_nv (p : Psel) : (s.setPsel p).nv = s.nv := rfl
@[simp] theorem State.setPsel_cntFrames (p : Psel) : (s.setPsel p).cntFrames = s.cntFrames := rfl
@[simp] theorem State.setPsel_cntCrcerr (p : Psel) : (s.setPsel p).cntCrcerr = s.cntCrcerr := rfl
@[simp] theorem State.setPsel_cntOrphan (p : Psel) : (s.setPsel p).cntOrphan = s.cntOrphan := rfl
@[simp] theorem State.setPsel_view (p : Psel) : (s.setPsel p).view = s.view := rfl
@[simp] theorem State.setPsel_chain (p : Psel) : (s.setPsel p).chain = s.chain := rfl
@[simp] theorem State.setPsel_host (p : Psel) : (s.setPsel p).host = s.host := rfl
@[simp] theorem State.setPsel_delay (p : Psel) : (s.setPsel p).delay = s.delay := rfl
@[simp] theorem State.setPsel_draws (p : Psel) : (s.setPsel p).draws = s.draws := rfl

/-! ### setView -/

@[simp] theorem State.setView_cfg (v : View) : (s.setView v).cfg = s.cfg := rfl
@[simp] theorem State.setView_ctrl (v : View) : (s.setView v).ctrl = s.ctrl := rfl
@[simp] theorem State.setView_status (v : View) : (s.setView v).status = s.status := rfl
@[simp] theorem State.setView_cmdl (v : View) : (s.setView v).cmdl = s.cmdl := rfl
@[simp] theorem State.setView_arg0 (v : View) : (s.setView v).arg0 = s.arg0 := rfl
@[simp] theorem State.setView_arg1 (v : View) : (s.setView v).arg1 = s.arg1 := rfl
@[simp] theorem State.setView_arg2 (v : View) : (s.setView v).arg2 = s.arg2 := rfl
@[simp] theorem State.setView_arg3 (v : View) : (s.setView v).arg3 = s.arg3 := rfl
@[simp] theorem State.setView_res0 (v : View) : (s.setView v).res0 = s.res0 := rfl
@[simp] theorem State.setView_res1 (v : View) : (s.setView v).res1 = s.res1 := rfl
@[simp] theorem State.setView_res2 (v : View) : (s.setView v).res2 = s.res2 := rfl
@[simp] theorem State.setView_rxbuf (v : View) : (s.setView v).rxbuf = s.rxbuf := rfl
@[simp] theorem State.setView_rxlen (v : View) : (s.setView v).rxlen = s.rxlen := rfl
@[simp] theorem State.setView_txbuf (v : View) : (s.setView v).txbuf = s.txbuf := rfl
@[simp] theorem State.setView_txlen (v : View) : (s.setView v).txlen = s.txlen := rfl
@[simp] theorem State.setView_fType (v : View) : (s.setView v).fType = s.fType := rfl
@[simp] theorem State.setView_fDlen (v : View) : (s.setView v).fDlen = s.fDlen := rfl
@[simp] theorem State.setView_fOlen (v : View) : (s.setView v).fOlen = s.fOlen := rfl
@[simp] theorem State.setView_fdata (v : View) : (s.setView v).fdata = s.fdata := rfl
@[simp] theorem State.setView_fopt (v : View) : (s.setView v).fopt = s.fopt := rfl
@[simp] theorem State.setView_bvData (v : View) : (s.setView v).bvData = s.bvData := rfl
@[simp] theorem State.setView_bvDlen (v : View) : (s.setView v).bvDlen = s.bvDlen := rfl
@[simp] theorem State.setView_bvStat (v : View) : (s.setView v).bvStat = s.bvStat := rfl
@[simp] theorem State.setView_bvSlen (v : View) : (s.setView v).bvSlen = s.bvSlen := rfl
@[simp] theorem State.setView_psel (v : View) : (s.setView v).psel = s.psel := rfl
@[simp] theorem State.setView_nfields (v : View) : (s.setView v).nfields = s.nfields := rfl
@[simp] theorem State.setView_ft (v : View) : (s.setView v).ft = s.ft := rfl
@[simp] theorem State.setView_nv (v : View) : (s.setView v).nv = s.nv := rfl
@[simp] theorem State.setView_cntFrames (v : View) : (s.setView v).cntFrames = s.cntFrames := rfl
@[simp] theorem State.setView_cntCrcerr (v : View) : (s.setView v).cntCrcerr = s.cntCrcerr := rfl
@[simp] theorem State.setView_cntOrphan (v : View) : (s.setView v).cntOrphan = s.cntOrphan := rfl
@[simp] theorem State.setView_view (v : View) : (s.setView v).view = v := rfl
@[simp] theorem State.setView_chain (v : View) : (s.setView v).chain = s.chain := rfl
@[simp] theorem State.setView_host (v : View) : (s.setView v).host = s.host := rfl
@[simp] theorem State.setView_delay (v : View) : (s.setView v).delay = s.delay := rfl
@[simp] theorem State.setView_draws (v : View) : (s.setView v).draws = s.draws := rfl

/-! ### setChain -/

@[simp] theorem State.setChain_cfg (c : List (Option ChainSlot)) : (s.setChain c).cfg = s.cfg := rfl
@[simp] theorem State.setChain_ctrl (c : List (Option ChainSlot)) : (s.setChain c).ctrl = s.ctrl := rfl
@[simp] theorem State.setChain_status (c : List (Option ChainSlot)) : (s.setChain c).status = s.status := rfl
@[simp] theorem State.setChain_cmdl (c : List (Option ChainSlot)) : (s.setChain c).cmdl = s.cmdl := rfl
@[simp] theorem State.setChain_arg0 (c : List (Option ChainSlot)) : (s.setChain c).arg0 = s.arg0 := rfl
@[simp] theorem State.setChain_arg1 (c : List (Option ChainSlot)) : (s.setChain c).arg1 = s.arg1 := rfl
@[simp] theorem State.setChain_arg2 (c : List (Option ChainSlot)) : (s.setChain c).arg2 = s.arg2 := rfl
@[simp] theorem State.setChain_arg3 (c : List (Option ChainSlot)) : (s.setChain c).arg3 = s.arg3 := rfl
@[simp] theorem State.setChain_res0 (c : List (Option ChainSlot)) : (s.setChain c).res0 = s.res0 := rfl
@[simp] theorem State.setChain_res1 (c : List (Option ChainSlot)) : (s.setChain c).res1 = s.res1 := rfl
@[simp] theorem State.setChain_res2 (c : List (Option ChainSlot)) : (s.setChain c).res2 = s.res2 := rfl
@[simp] theorem State.setChain_rxbuf (c : List (Option ChainSlot)) : (s.setChain c).rxbuf = s.rxbuf := rfl
@[simp] theorem State.setChain_rxlen (c : List (Option ChainSlot)) : (s.setChain c).rxlen = s.rxlen := rfl
@[simp] theorem State.setChain_txbuf (c : List (Option ChainSlot)) : (s.setChain c).txbuf = s.txbuf := rfl
@[simp] theorem State.setChain_txlen (c : List (Option ChainSlot)) : (s.setChain c).txlen = s.txlen := rfl
@[simp] theorem State.setChain_fType (c : List (Option ChainSlot)) : (s.setChain c).fType = s.fType := rfl
@[simp] theorem State.setChain_fDlen (c : List (Option ChainSlot)) : (s.setChain c).fDlen = s.fDlen := rfl
@[simp] theorem State.setChain_fOlen (c : List (Option ChainSlot)) : (s.setChain c).fOlen = s.fOlen := rfl
@[simp] theorem State.setChain_fdata (c : List (Option ChainSlot)) : (s.setChain c).fdata = s.fdata := rfl
@[simp] theorem State.setChain_fopt (c : List (Option ChainSlot)) : (s.setChain c).fopt = s.fopt := rfl
@[simp] theorem State.setChain_bvData (c : List (Option ChainSlot)) : (s.setChain c).bvData = s.bvData := rfl
@[simp] theorem State.setChain_bvDlen (c : List (Option ChainSlot)) : (s.setChain c).bvDlen = s.bvDlen := rfl
@[simp] theorem State.setChain_bvStat (c : List (Option ChainSlot)) : (s.setChain c).bvStat = s.bvStat := rfl
@[simp] theorem State.setChain_bvSlen (c : List (Option ChainSlot)) : (s.setChain c).bvSlen = s.bvSlen := rfl
@[simp] theorem State.setChain_psel (c : List (Option ChainSlot)) : (s.setChain c).psel = s.psel := rfl
@[simp] theorem State.setChain_nfields (c : List (Option ChainSlot)) : (s.setChain c).nfields = s.nfields := rfl
@[simp] theorem State.setChain_ft (c : List (Option ChainSlot)) : (s.setChain c).ft = s.ft := rfl
@[simp] theorem State.setChain_nv (c : List (Option ChainSlot)) : (s.setChain c).nv = s.nv := rfl
@[simp] theorem State.setChain_cntFrames (c : List (Option ChainSlot)) : (s.setChain c).cntFrames = s.cntFrames := rfl
@[simp] theorem State.setChain_cntCrcerr (c : List (Option ChainSlot)) : (s.setChain c).cntCrcerr = s.cntCrcerr := rfl
@[simp] theorem State.setChain_cntOrphan (c : List (Option ChainSlot)) : (s.setChain c).cntOrphan = s.cntOrphan := rfl
@[simp] theorem State.setChain_view (c : List (Option ChainSlot)) : (s.setChain c).view = s.view := rfl
@[simp] theorem State.setChain_chain (c : List (Option ChainSlot)) : (s.setChain c).chain = c := rfl
@[simp] theorem State.setChain_host (c : List (Option ChainSlot)) : (s.setChain c).host = s.host := rfl
@[simp] theorem State.setChain_delay (c : List (Option ChainSlot)) : (s.setChain c).delay = s.delay := rfl
@[simp] theorem State.setChain_draws (c : List (Option ChainSlot)) : (s.setChain c).draws = s.draws := rfl

/-! ### clearView -/

@[simp] theorem State.clearView_cfg : (s.clearView).cfg = s.cfg := rfl
@[simp] theorem State.clearView_ctrl : (s.clearView).ctrl = s.ctrl := rfl
@[simp] theorem State.clearView_status : (s.clearView).status = s.status := rfl
@[simp] theorem State.clearView_cmdl : (s.clearView).cmdl = s.cmdl := rfl
@[simp] theorem State.clearView_arg0 : (s.clearView).arg0 = s.arg0 := rfl
@[simp] theorem State.clearView_arg1 : (s.clearView).arg1 = s.arg1 := rfl
@[simp] theorem State.clearView_arg2 : (s.clearView).arg2 = s.arg2 := rfl
@[simp] theorem State.clearView_arg3 : (s.clearView).arg3 = s.arg3 := rfl
@[simp] theorem State.clearView_res0 : (s.clearView).res0 = s.res0 := rfl
@[simp] theorem State.clearView_res1 : (s.clearView).res1 = s.res1 := rfl
@[simp] theorem State.clearView_res2 : (s.clearView).res2 = s.res2 := rfl
@[simp] theorem State.clearView_rxbuf : (s.clearView).rxbuf = s.rxbuf := rfl
@[simp] theorem State.clearView_rxlen : (s.clearView).rxlen = s.rxlen := rfl
@[simp] theorem State.clearView_txbuf : (s.clearView).txbuf = s.txbuf := rfl
@[simp] theorem State.clearView_txlen : (s.clearView).txlen = s.txlen := rfl
@[simp] theorem State.clearView_fType : (s.clearView).fType = s.fType := rfl
@[simp] theorem State.clearView_fDlen : (s.clearView).fDlen = s.fDlen := rfl
@[simp] theorem State.clearView_fOlen : (s.clearView).fOlen = s.fOlen := rfl
@[simp] theorem State.clearView_fdata : (s.clearView).fdata = s.fdata := rfl
@[simp] theorem State.clearView_fopt : (s.clearView).fopt = s.fopt := rfl
@[simp] theorem State.clearView_bvData : (s.clearView).bvData = s.bvData := rfl
@[simp] theorem State.clearView_bvDlen : (s.clearView).bvDlen = s.bvDlen := rfl
@[simp] theorem State.clearView_bvStat : (s.clearView).bvStat = s.bvStat := rfl
@[simp] theorem State.clearView_bvSlen : (s.clearView).bvSlen = s.bvSlen := rfl
@[simp] theorem State.clearView_psel : (s.clearView).psel = s.psel := rfl
@[simp] theorem State.clearView_nfields : (s.clearView).nfields = 0 := rfl
@[simp] theorem State.clearView_ft : (s.clearView).ft = s.ft := rfl
@[simp] theorem State.clearView_nv : (s.clearView).nv = s.nv := rfl
@[simp] theorem State.clearView_cntFrames : (s.clearView).cntFrames = s.cntFrames := rfl
@[simp] theorem State.clearView_cntCrcerr : (s.clearView).cntCrcerr = s.cntCrcerr := rfl
@[simp] theorem State.clearView_cntOrphan : (s.clearView).cntOrphan = s.cntOrphan := rfl
@[simp] theorem State.clearView_view : (s.clearView).view = View.cleared := rfl
@[simp] theorem State.clearView_chain : (s.clearView).chain = s.chain := rfl
@[simp] theorem State.clearView_host : (s.clearView).host = s.host := rfl
@[simp] theorem State.clearView_delay : (s.clearView).delay = s.delay := rfl
@[simp] theorem State.clearView_draws : (s.clearView).draws = s.draws := rfl

/-! ### noFields -/

@[simp] theorem State.noFields_cfg : (s.noFields).cfg = s.cfg := rfl
@[simp] theorem State.noFields_ctrl : (s.noFields).ctrl = s.ctrl := rfl
@[simp] theorem State.noFields_status : (s.noFields).status = s.status := rfl
@[simp] theorem State.noFields_cmdl : (s.noFields).cmdl = s.cmdl := rfl
@[simp] theorem State.noFields_arg0 : (s.noFields).arg0 = s.arg0 := rfl
@[simp] theorem State.noFields_arg1 : (s.noFields).arg1 = s.arg1 := rfl
@[simp] theorem State.noFields_arg2 : (s.noFields).arg2 = s.arg2 := rfl
@[simp] theorem State.noFields_arg3 : (s.noFields).arg3 = s.arg3 := rfl
@[simp] theorem State.noFields_res0 : (s.noFields).res0 = s.res0 := rfl
@[simp] theorem State.noFields_res1 : (s.noFields).res1 = s.res1 := rfl
@[simp] theorem State.noFields_res2 : (s.noFields).res2 = s.res2 := rfl
@[simp] theorem State.noFields_rxbuf : (s.noFields).rxbuf = s.rxbuf := rfl
@[simp] theorem State.noFields_rxlen : (s.noFields).rxlen = s.rxlen := rfl
@[simp] theorem State.noFields_txbuf : (s.noFields).txbuf = s.txbuf := rfl
@[simp] theorem State.noFields_txlen : (s.noFields).txlen = s.txlen := rfl
@[simp] theorem State.noFields_fType : (s.noFields).fType = s.fType := rfl
@[simp] theorem State.noFields_fDlen : (s.noFields).fDlen = s.fDlen := rfl
@[simp] theorem State.noFields_fOlen : (s.noFields).fOlen = s.fOlen := rfl
@[simp] theorem State.noFields_fdata : (s.noFields).fdata = s.fdata := rfl
@[simp] theorem State.noFields_fopt : (s.noFields).fopt = s.fopt := rfl
@[simp] theorem State.noFields_bvData : (s.noFields).bvData = s.bvData := rfl
@[simp] theorem State.noFields_bvDlen : (s.noFields).bvDlen = s.bvDlen := rfl
@[simp] theorem State.noFields_bvStat : (s.noFields).bvStat = s.bvStat := rfl
@[simp] theorem State.noFields_bvSlen : (s.noFields).bvSlen = s.bvSlen := rfl
@[simp] theorem State.noFields_psel : (s.noFields).psel = s.psel := rfl
@[simp] theorem State.noFields_nfields : (s.noFields).nfields = 0 := rfl
@[simp] theorem State.noFields_ft : (s.noFields).ft = s.ft := rfl
@[simp] theorem State.noFields_nv : (s.noFields).nv = s.nv := rfl
@[simp] theorem State.noFields_cntFrames : (s.noFields).cntFrames = s.cntFrames := rfl
@[simp] theorem State.noFields_cntCrcerr : (s.noFields).cntCrcerr = s.cntCrcerr := rfl
@[simp] theorem State.noFields_cntOrphan : (s.noFields).cntOrphan = s.cntOrphan := rfl
@[simp] theorem State.noFields_view : (s.noFields).view = s.view := rfl
@[simp] theorem State.noFields_chain : (s.noFields).chain = s.chain := rfl
@[simp] theorem State.noFields_host : (s.noFields).host = s.host := rfl
@[simp] theorem State.noFields_delay : (s.noFields).delay = s.delay := rfl
@[simp] theorem State.noFields_draws : (s.noFields).draws = s.draws := rfl

/-! ### setRx -/

@[simp] theorem State.setRx_cfg (r : List Byte) : (s.setRx r).cfg = s.cfg := rfl
@[simp] theorem State.setRx_ctrl (r : List Byte) : (s.setRx r).ctrl = s.ctrl := rfl
@[simp] theorem State.setRx_status (r : List Byte) : (s.setRx r).status = s.status := rfl
@[simp] theorem State.setRx_cmdl (r : List Byte) : (s.setRx r).cmdl = s.cmdl := rfl
@[simp] theorem State.setRx_arg0 (r : List Byte) : (s.setRx r).arg0 = s.arg0 := rfl
@[simp] theorem State.setRx_arg1 (r : List Byte) : (s.setRx r).arg1 = s.arg1 := rfl
@[simp] theorem State.setRx_arg2 (r : List Byte) : (s.setRx r).arg2 = s.arg2 := rfl
@[simp] theorem State.setRx_arg3 (r : List Byte) : (s.setRx r).arg3 = s.arg3 := rfl
@[simp] theorem State.setRx_res0 (r : List Byte) : (s.setRx r).res0 = s.res0 := rfl
@[simp] theorem State.setRx_res1 (r : List Byte) : (s.setRx r).res1 = s.res1 := rfl
@[simp] theorem State.setRx_res2 (r : List Byte) : (s.setRx r).res2 = s.res2 := rfl
@[simp] theorem State.setRx_rxbuf (r : List Byte) : (s.setRx r).rxbuf = Store.writeList s.rxbuf 0 r := rfl
@[simp] theorem State.setRx_rxlen (r : List Byte) : (s.setRx r).rxlen = r.length := rfl
@[simp] theorem State.setRx_txbuf (r : List Byte) : (s.setRx r).txbuf = s.txbuf := rfl
@[simp] theorem State.setRx_txlen (r : List Byte) : (s.setRx r).txlen = s.txlen := rfl
@[simp] theorem State.setRx_fType (r : List Byte) : (s.setRx r).fType = s.fType := rfl
@[simp] theorem State.setRx_fDlen (r : List Byte) : (s.setRx r).fDlen = s.fDlen := rfl
@[simp] theorem State.setRx_fOlen (r : List Byte) : (s.setRx r).fOlen = s.fOlen := rfl
@[simp] theorem State.setRx_fdata (r : List Byte) : (s.setRx r).fdata = s.fdata := rfl
@[simp] theorem State.setRx_fopt (r : List Byte) : (s.setRx r).fopt = s.fopt := rfl
@[simp] theorem State.setRx_bvData (r : List Byte) : (s.setRx r).bvData = s.bvData := rfl
@[simp] theorem State.setRx_bvDlen (r : List Byte) : (s.setRx r).bvDlen = s.bvDlen := rfl
@[simp] theorem State.setRx_bvStat (r : List Byte) : (s.setRx r).bvStat = s.bvStat := rfl
@[simp] theorem State.setRx_bvSlen (r : List Byte) : (s.setRx r).bvSlen = s.bvSlen := rfl
@[simp] theorem State.setRx_psel (r : List Byte) : (s.setRx r).psel = s.psel := rfl
@[simp] theorem State.setRx_nfields (r : List Byte) : (s.setRx r).nfields = s.nfields := rfl
@[simp] theorem State.setRx_ft (r : List Byte) : (s.setRx r).ft = s.ft := rfl
@[simp] theorem State.setRx_nv (r : List Byte) : (s.setRx r).nv = s.nv := rfl
@[simp] theorem State.setRx_cntFrames (r : List Byte) : (s.setRx r).cntFrames = s.cntFrames := rfl
@[simp] theorem State.setRx_cntCrcerr (r : List Byte) : (s.setRx r).cntCrcerr = s.cntCrcerr := rfl
@[simp] theorem State.setRx_cntOrphan (r : List Byte) : (s.setRx r).cntOrphan = s.cntOrphan := rfl
@[simp] theorem State.setRx_view (r : List Byte) : (s.setRx r).view = s.view := rfl
@[simp] theorem State.setRx_chain (r : List Byte) : (s.setRx r).chain = s.chain := rfl
@[simp] theorem State.setRx_host (r : List Byte) : (s.setRx r).host = s.host := rfl
@[simp] theorem State.setRx_delay (r : List Byte) : (s.setRx r).delay = s.delay := rfl
@[simp] theorem State.setRx_draws (r : List Byte) : (s.setRx r).draws = s.draws := rfl

/-! ### flushRx -/

@[simp] theorem State.flushRx_cfg : (s.flushRx).cfg = s.cfg := rfl
@[simp] theorem State.flushRx_ctrl : (s.flushRx).ctrl = s.ctrl := rfl
@[simp] theorem State.flushRx_status : (s.flushRx).status = s.status := rfl
@[simp] theorem State.flushRx_cmdl : (s.flushRx).cmdl = s.cmdl := rfl
@[simp] theorem State.flushRx_arg0 : (s.flushRx).arg0 = s.arg0 := rfl
@[simp] theorem State.flushRx_arg1 : (s.flushRx).arg1 = s.arg1 := rfl
@[simp] theorem State.flushRx_arg2 : (s.flushRx).arg2 = s.arg2 := rfl
@[simp] theorem State.flushRx_arg3 : (s.flushRx).arg3 = s.arg3 := rfl
@[simp] theorem State.flushRx_res0 : (s.flushRx).res0 = s.res0 := rfl
@[simp] theorem State.flushRx_res1 : (s.flushRx).res1 = s.res1 := rfl
@[simp] theorem State.flushRx_res2 : (s.flushRx).res2 = s.res2 := rfl
@[simp] theorem State.flushRx_rxbuf : (s.flushRx).rxbuf = s.rxbuf := rfl
@[simp] theorem State.flushRx_rxlen : (s.flushRx).rxlen = 0 := rfl
@[simp] theorem State.flushRx_txbuf : (s.flushRx).txbuf = s.txbuf := rfl
@[simp] theorem State.flushRx_txlen : (s.flushRx).txlen = s.txlen := rfl
@[simp] theorem State.flushRx_fType : (s.flushRx).fType = s.fType := rfl
@[simp] theorem State.flushRx_fDlen : (s.flushRx).fDlen = s.fDlen := rfl
@[simp] theorem State.flushRx_fOlen : (s.flushRx).fOlen = s.fOlen := rfl
@[simp] theorem State.flushRx_fdata : (s.flushRx).fdata = s.fdata := rfl
@[simp] theorem State.flushRx_fopt : (s.flushRx).fopt = s.fopt := rfl
@[simp] theorem State.flushRx_bvData : (s.flushRx).bvData = s.bvData := rfl
@[simp] theorem State.flushRx_bvDlen : (s.flushRx).bvDlen = s.bvDlen := rfl
@[simp] theorem State.flushRx_bvStat : (s.flushRx).bvStat = s.bvStat := rfl
@[simp] theorem State.flushRx_bvSlen : (s.flushRx).bvSlen = s.bvSlen := rfl
@[simp] theorem State.flushRx_psel : (s.flushRx).psel = s.psel := rfl
@[simp] theorem State.flushRx_nfields : (s.flushRx).nfields = s.nfields := rfl
@[simp] theorem State.flushRx_ft : (s.flushRx).ft = s.ft := rfl
@[simp] theorem State.flushRx_nv : (s.flushRx).nv = s.nv := rfl
@[simp] theorem State.flushRx_cntFrames : (s.flushRx).cntFrames = s.cntFrames := rfl
@[simp] theorem State.flushRx_cntCrcerr : (s.flushRx).cntCrcerr = s.cntCrcerr := rfl
@[simp] theorem State.flushRx_cntOrphan : (s.flushRx).cntOrphan = s.cntOrphan := rfl
@[simp] theorem State.flushRx_view : (s.flushRx).view = s.view := rfl
@[simp] theorem State.flushRx_chain : (s.flushRx).chain = s.chain := rfl
@[simp] theorem State.flushRx_host : (s.flushRx).host = s.host := rfl
@[simp] theorem State.flushRx_delay : (s.flushRx).delay = s.delay := rfl
@[simp] theorem State.flushRx_draws : (s.flushRx).draws = s.draws := rfl

/-! ### setTx -/

@[simp] theorem State.setTx_cfg (f : List Byte) : (s.setTx f).cfg = s.cfg := rfl
@[simp] theorem State.setTx_ctrl (f : List Byte) : (s.setTx f).ctrl = s.ctrl := rfl
@[simp] theorem State.setTx_status (f : List Byte) : (s.setTx f).status = s.status := rfl
@[simp] theorem State.setTx_cmdl (f : List Byte) : (s.setTx f).cmdl = s.cmdl := rfl
@[simp] theorem State.setTx_arg0 (f : List Byte) : (s.setTx f).arg0 = s.arg0 := rfl
@[simp] theorem State.setTx_arg1 (f : List Byte) : (s.setTx f).arg1 = s.arg1 := rfl
@[simp] theorem State.setTx_arg2 (f : List Byte) : (s.setTx f).arg2 = s.arg2 := rfl
@[simp] theorem State.setTx_arg3 (f : List Byte) : (s.setTx f).arg3 = s.arg3 := rfl
@[simp] theorem State.setTx_res0 (f : List Byte) : (s.setTx f).res0 = s.res0 := rfl
@[simp] theorem State.setTx_res1 (f : List Byte) : (s.setTx f).res1 = s.res1 := rfl
@[simp] theorem State.setTx_res2 (f : List Byte) : (s.setTx f).res2 = s.res2 := rfl
@[simp] theorem State.setTx_rxbuf (f : List Byte) : (s.setTx f).rxbuf = s.rxbuf := rfl
@[simp] theorem State.setTx_rxlen (f : List Byte) : (s.setTx f).rxlen = s.rxlen := rfl
@[simp] theorem State.setTx_txbuf (f : List Byte) : (s.setTx f).txbuf = Store.writeList s.txbuf 0 f := rfl
@[simp] theorem State.setTx_txlen (f : List Byte) : (s.setTx f).txlen = f.length := rfl
@[simp] theorem State.setTx_fType (f : List Byte) : (s.setTx f).fType = s.fType := rfl
@[simp] theorem State.setTx_fDlen (f : List Byte) : (s.setTx f).fDlen = s.fDlen := rfl
@[simp] theorem State.setTx_fOlen (f : List Byte) : (s.setTx f).fOlen = s.fOlen := rfl
@[simp] theorem State.setTx_fdata (f : List Byte) : (s.setTx f).fdata = s.fdata := rfl
@[simp] theorem State.setTx_fopt (f : List Byte) : (s.setTx f).fopt = s.fopt := rfl
@[simp] theorem State.setTx_bvData (f : List Byte) : (s.setTx f).bvData = s.bvData := rfl
@[simp] theorem State.setTx_bvDlen (f : List Byte) : (s.setTx f).bvDlen = s.bvDlen := rfl
@[simp] theorem State.setTx_bvStat (f : List Byte) : (s.setTx f).bvStat = s.bvStat := rfl
@[simp] theorem State.setTx_bvSlen (f : List Byte) : (s.setTx f).bvSlen = s.bvSlen := rfl
@[simp] theorem State.setTx_psel (f : List Byte) : (s.setTx f).psel = s.psel := rfl
@[simp] theorem State.setTx_nfields (f : List Byte) : (s.setTx f).nfields = s.nfields := rfl
@[simp] theorem State.setTx_ft (f : List Byte) : (s.setTx f).ft = s.ft := rfl
@[simp] theorem State.setTx_nv (f : List Byte) : (s.setTx f).nv = s.nv := rfl
@[simp] theorem State.setTx_cntFrames (f : List Byte) : (s.setTx f).cntFrames = s.cntFrames := rfl
@[simp] theorem State.setTx_cntCrcerr (f : List Byte) : (s.setTx f).cntCrcerr = s.cntCrcerr := rfl
@[simp] theorem State.setTx_cntOrphan (f : List Byte) : (s.setTx f).cntOrphan = s.cntOrphan := rfl
@[simp] theorem State.setTx_view (f : List Byte) : (s.setTx f).view = s.view := rfl
@[simp] theorem State.setTx_chain (f : List Byte) : (s.setTx f).chain = s.chain := rfl
@[simp] theorem State.setTx_host (f : List Byte) : (s.setTx f).host = s.host := rfl
@[simp] theorem State.setTx_delay (f : List Byte) : (s.setTx f).delay = s.delay := rfl
@[simp] theorem State.setTx_draws (f : List Byte) : (s.setTx f).draws = s.draws := rfl

/-! ### loadFrame -/

@[simp] theorem State.loadFrame_cfg (t : Byte) (d o : List Byte) : (s.loadFrame t d o).cfg = s.cfg := rfl
@[simp] theorem State.loadFrame_ctrl (t : Byte) (d o : List Byte) : (s.loadFrame t d o).ctrl = s.ctrl := rfl
@[simp] theorem State.loadFrame_status (t : Byte) (d o : List Byte) : (s.loadFrame t d o).status = s.status := rfl
@[simp] theorem State.loadFrame_cmdl (t : Byte) (d o : List Byte) : (s.loadFrame t d o).cmdl = s.cmdl := rfl
@[simp] theorem State.loadFrame_arg0 (t : Byte) (d o : List Byte) : (s.loadFrame t d o).arg0 = s.arg0 := rfl
@[simp] theorem State.loadFrame_arg1 (t : Byte) (d o : List Byte) : (s.loadFrame t d o).arg1 = s.arg1 := rfl
@[simp] theorem State.loadFrame_arg2 (t : Byte) (d o : List Byte) : (s.loadFrame t d o).arg2 = s.arg2 := rfl
@[simp] theorem State.loadFrame_arg3 (t : Byte) (d o : List Byte) : (s.loadFrame t d o).arg3 = s.arg3 := rfl
@[simp] theorem State.loadFrame_res0 (t : Byte) (d o : List Byte) : (s.loadFrame t d o).res0 = s.res0 := rfl
@[simp] theorem State.loadFrame_res1 (t : Byte) (d o : List Byte) : (s.loadFrame t d o).res1 = s.res1 := rfl
@[simp] theorem State.loadFrame_res2 (t : Byte) (d o : List Byte) : (s.loadFrame t d o).res2 = s.res2 := rfl
@[simp] theorem State.loadFrame_rxbuf (t : Byte) (d o : List Byte) : (s.loadFrame t d o).rxbuf = s.rxbuf := rfl
@[simp] theorem State.loadFrame_rxlen (t : Byte) (d o : List Byte) : (s.loadFrame t d o).rxlen = s.rxlen := rfl
@[simp] theorem State.loadFrame_txbuf (t : Byte) (d o : List Byte) : (s.loadFrame t d o).txbuf = s.txbuf := rfl
@[simp] theorem State.loadFrame_txlen (t : Byte) (d o : List Byte) : (s.loadFrame t d o).txlen = s.txlen := rfl
@[simp] theorem State.loadFrame_fType (t : Byte) (d o : List Byte) : (s.loadFrame t d o).fType = t := rfl
@[simp] theorem State.loadFrame_fDlen (t : Byte) (d o : List Byte) :
    (s.loadFrame t d o).fDlen = BitVec.ofNat 16 d.length := rfl
@[simp] theorem State.loadFrame_fOlen (t : Byte) (d o : List Byte) :
    (s.loadFrame t d o).fOlen = BitVec.ofNat 8 o.length := rfl
@[simp] theorem State.loadFrame_fdata (t : Byte) (d o : List Byte) :
    (s.loadFrame t d o).fdata = Store.writeList s.fdata 0 d := rfl
@[simp] theorem State.loadFrame_fopt (t : Byte) (d o : List Byte) :
    (s.loadFrame t d o).fopt = Store.writeList s.fopt 0 o := rfl
@[simp] theorem State.loadFrame_bvData (t : Byte) (d o : List Byte) : (s.loadFrame t d o).bvData = s.bvData := rfl
@[simp] theorem State.loadFrame_bvDlen (t : Byte) (d o : List Byte) : (s.loadFrame t d o).bvDlen = s.bvDlen := rfl
@[simp] theorem State.loadFrame_bvStat (t : Byte) (d o : List Byte) : (s.loadFrame t d o).bvStat = s.bvStat := rfl
@[simp] theorem State.loadFrame_bvSlen (t : Byte) (d o : List Byte) : (s.loadFrame t d o).bvSlen = s.bvSlen := rfl
@[simp] theorem State.loadFrame_psel (t : Byte) (d o : List Byte) : (s.loadFrame t d o).psel = s.psel := rfl
@[simp] theorem State.loadFrame_nfields (t : Byte) (d o : List Byte) : (s.loadFrame t d o).nfields = s.nfields := rfl
@[simp] theorem State.loadFrame_ft (t : Byte) (d o : List Byte) : (s.loadFrame t d o).ft = s.ft := rfl
@[simp] theorem State.loadFrame_nv (t : Byte) (d o : List Byte) : (s.loadFrame t d o).nv = s.nv := rfl
@[simp] theorem State.loadFrame_cntFrames (t : Byte) (d o : List Byte) :
    (s.loadFrame t d o).cntFrames = s.cntFrames := rfl
@[simp] theorem State.loadFrame_cntCrcerr (t : Byte) (d o : List Byte) :
    (s.loadFrame t d o).cntCrcerr = s.cntCrcerr := rfl
@[simp] theorem State.loadFrame_cntOrphan (t : Byte) (d o : List Byte) :
    (s.loadFrame t d o).cntOrphan = s.cntOrphan := rfl
@[simp] theorem State.loadFrame_view (t : Byte) (d o : List Byte) : (s.loadFrame t d o).view = s.view := rfl
@[simp] theorem State.loadFrame_chain (t : Byte) (d o : List Byte) : (s.loadFrame t d o).chain = s.chain := rfl
@[simp] theorem State.loadFrame_host (t : Byte) (d o : List Byte) : (s.loadFrame t d o).host = s.host := rfl
@[simp] theorem State.loadFrame_delay (t : Byte) (d o : List Byte) : (s.loadFrame t d o).delay = s.delay := rfl
@[simp] theorem State.loadFrame_draws (t : Byte) (d o : List Byte) : (s.loadFrame t d o).draws = s.draws := rfl

/-! ### setBvData -/

@[simp] theorem State.setBvData_cfg (r : List Bool) : (s.setBvData r).cfg = s.cfg := rfl
@[simp] theorem State.setBvData_ctrl (r : List Bool) : (s.setBvData r).ctrl = s.ctrl := rfl
@[simp] theorem State.setBvData_status (r : List Bool) : (s.setBvData r).status = s.status := rfl
@[simp] theorem State.setBvData_cmdl (r : List Bool) : (s.setBvData r).cmdl = s.cmdl := rfl
@[simp] theorem State.setBvData_arg0 (r : List Bool) : (s.setBvData r).arg0 = s.arg0 := rfl
@[simp] theorem State.setBvData_arg1 (r : List Bool) : (s.setBvData r).arg1 = s.arg1 := rfl
@[simp] theorem State.setBvData_arg2 (r : List Bool) : (s.setBvData r).arg2 = s.arg2 := rfl
@[simp] theorem State.setBvData_arg3 (r : List Bool) : (s.setBvData r).arg3 = s.arg3 := rfl
@[simp] theorem State.setBvData_res0 (r : List Bool) : (s.setBvData r).res0 = s.res0 := rfl
@[simp] theorem State.setBvData_res1 (r : List Bool) : (s.setBvData r).res1 = s.res1 := rfl
@[simp] theorem State.setBvData_res2 (r : List Bool) : (s.setBvData r).res2 = s.res2 := rfl
@[simp] theorem State.setBvData_rxbuf (r : List Bool) : (s.setBvData r).rxbuf = s.rxbuf := rfl
@[simp] theorem State.setBvData_rxlen (r : List Bool) : (s.setBvData r).rxlen = s.rxlen := rfl
@[simp] theorem State.setBvData_txbuf (r : List Bool) : (s.setBvData r).txbuf = s.txbuf := rfl
@[simp] theorem State.setBvData_txlen (r : List Bool) : (s.setBvData r).txlen = s.txlen := rfl
@[simp] theorem State.setBvData_fType (r : List Bool) : (s.setBvData r).fType = s.fType := rfl
@[simp] theorem State.setBvData_fDlen (r : List Bool) : (s.setBvData r).fDlen = s.fDlen := rfl
@[simp] theorem State.setBvData_fOlen (r : List Bool) : (s.setBvData r).fOlen = s.fOlen := rfl
@[simp] theorem State.setBvData_fdata (r : List Bool) : (s.setBvData r).fdata = s.fdata := rfl
@[simp] theorem State.setBvData_fopt (r : List Bool) : (s.setBvData r).fopt = s.fopt := rfl
@[simp] theorem State.setBvData_bvData (r : List Bool) : (s.setBvData r).bvData = Store.writeList s.bvData 0 r := rfl
@[simp] theorem State.setBvData_bvDlen (r : List Bool) : (s.setBvData r).bvDlen = r.length := rfl
@[simp] theorem State.setBvData_bvStat (r : List Bool) : (s.setBvData r).bvStat = s.bvStat := rfl
@[simp] theorem State.setBvData_bvSlen (r : List Bool) : (s.setBvData r).bvSlen = s.bvSlen := rfl
@[simp] theorem State.setBvData_psel (r : List Bool) : (s.setBvData r).psel = s.psel := rfl
@[simp] theorem State.setBvData_nfields (r : List Bool) : (s.setBvData r).nfields = s.nfields := rfl
@[simp] theorem State.setBvData_ft (r : List Bool) : (s.setBvData r).ft = s.ft := rfl
@[simp] theorem State.setBvData_nv (r : List Bool) : (s.setBvData r).nv = s.nv := rfl
@[simp] theorem State.setBvData_cntFrames (r : List Bool) : (s.setBvData r).cntFrames = s.cntFrames := rfl
@[simp] theorem State.setBvData_cntCrcerr (r : List Bool) : (s.setBvData r).cntCrcerr = s.cntCrcerr := rfl
@[simp] theorem State.setBvData_cntOrphan (r : List Bool) : (s.setBvData r).cntOrphan = s.cntOrphan := rfl
@[simp] theorem State.setBvData_view (r : List Bool) : (s.setBvData r).view = s.view := rfl
@[simp] theorem State.setBvData_chain (r : List Bool) : (s.setBvData r).chain = s.chain := rfl
@[simp] theorem State.setBvData_host (r : List Bool) : (s.setBvData r).host = s.host := rfl
@[simp] theorem State.setBvData_delay (r : List Bool) : (s.setBvData r).delay = s.delay := rfl
@[simp] theorem State.setBvData_draws (r : List Bool) : (s.setBvData r).draws = s.draws := rfl

/-! ### setBvStat -/

@[simp] theorem State.setBvStat_cfg (r : List Bool) : (s.setBvStat r).cfg = s.cfg := rfl
@[simp] theorem State.setBvStat_ctrl (r : List Bool) : (s.setBvStat r).ctrl = s.ctrl := rfl
@[simp] theorem State.setBvStat_status (r : List Bool) : (s.setBvStat r).status = s.status := rfl
@[simp] theorem State.setBvStat_cmdl (r : List Bool) : (s.setBvStat r).cmdl = s.cmdl := rfl
@[simp] theorem State.setBvStat_arg0 (r : List Bool) : (s.setBvStat r).arg0 = s.arg0 := rfl
@[simp] theorem State.setBvStat_arg1 (r : List Bool) : (s.setBvStat r).arg1 = s.arg1 := rfl
@[simp] theorem State.setBvStat_arg2 (r : List Bool) : (s.setBvStat r).arg2 = s.arg2 := rfl
@[simp] theorem State.setBvStat_arg3 (r : List Bool) : (s.setBvStat r).arg3 = s.arg3 := rfl
@[simp] theorem State.setBvStat_res0 (r : List Bool) : (s.setBvStat r).res0 = s.res0 := rfl
@[simp] theorem State.setBvStat_res1 (r : List Bool) : (s.setBvStat r).res1 = s.res1 := rfl
@[simp] theorem State.setBvStat_res2 (r : List Bool) : (s.setBvStat r).res2 = s.res2 := rfl
@[simp] theorem State.setBvStat_rxbuf (r : List Bool) : (s.setBvStat r).rxbuf = s.rxbuf := rfl
@[simp] theorem State.setBvStat_rxlen (r : List Bool) : (s.setBvStat r).rxlen = s.rxlen := rfl
@[simp] theorem State.setBvStat_txbuf (r : List Bool) : (s.setBvStat r).txbuf = s.txbuf := rfl
@[simp] theorem State.setBvStat_txlen (r : List Bool) : (s.setBvStat r).txlen = s.txlen := rfl
@[simp] theorem State.setBvStat_fType (r : List Bool) : (s.setBvStat r).fType = s.fType := rfl
@[simp] theorem State.setBvStat_fDlen (r : List Bool) : (s.setBvStat r).fDlen = s.fDlen := rfl
@[simp] theorem State.setBvStat_fOlen (r : List Bool) : (s.setBvStat r).fOlen = s.fOlen := rfl
@[simp] theorem State.setBvStat_fdata (r : List Bool) : (s.setBvStat r).fdata = s.fdata := rfl
@[simp] theorem State.setBvStat_fopt (r : List Bool) : (s.setBvStat r).fopt = s.fopt := rfl
@[simp] theorem State.setBvStat_bvData (r : List Bool) : (s.setBvStat r).bvData = s.bvData := rfl
@[simp] theorem State.setBvStat_bvDlen (r : List Bool) : (s.setBvStat r).bvDlen = s.bvDlen := rfl
@[simp] theorem State.setBvStat_bvStat (r : List Bool) : (s.setBvStat r).bvStat = Store.writeList s.bvStat 0 r := rfl
@[simp] theorem State.setBvStat_bvSlen (r : List Bool) : (s.setBvStat r).bvSlen = r.length := rfl
@[simp] theorem State.setBvStat_psel (r : List Bool) : (s.setBvStat r).psel = s.psel := rfl
@[simp] theorem State.setBvStat_nfields (r : List Bool) : (s.setBvStat r).nfields = s.nfields := rfl
@[simp] theorem State.setBvStat_ft (r : List Bool) : (s.setBvStat r).ft = s.ft := rfl
@[simp] theorem State.setBvStat_nv (r : List Bool) : (s.setBvStat r).nv = s.nv := rfl
@[simp] theorem State.setBvStat_cntFrames (r : List Bool) : (s.setBvStat r).cntFrames = s.cntFrames := rfl
@[simp] theorem State.setBvStat_cntCrcerr (r : List Bool) : (s.setBvStat r).cntCrcerr = s.cntCrcerr := rfl
@[simp] theorem State.setBvStat_cntOrphan (r : List Bool) : (s.setBvStat r).cntOrphan = s.cntOrphan := rfl
@[simp] theorem State.setBvStat_view (r : List Bool) : (s.setBvStat r).view = s.view := rfl
@[simp] theorem State.setBvStat_chain (r : List Bool) : (s.setBvStat r).chain = s.chain := rfl
@[simp] theorem State.setBvStat_host (r : List Bool) : (s.setBvStat r).host = s.host := rfl
@[simp] theorem State.setBvStat_delay (r : List Bool) : (s.setBvStat r).delay = s.delay := rfl
@[simp] theorem State.setBvStat_draws (r : List Bool) : (s.setBvStat r).draws = s.draws := rfl

/-! ### writeBits -/

@[simp] theorem State.writeBits_cfg (vd vs : List Bool) : (s.writeBits vd vs).cfg = s.cfg := rfl
@[simp] theorem State.writeBits_ctrl (vd vs : List Bool) : (s.writeBits vd vs).ctrl = s.ctrl := rfl
@[simp] theorem State.writeBits_status (vd vs : List Bool) : (s.writeBits vd vs).status = s.status := rfl
@[simp] theorem State.writeBits_cmdl (vd vs : List Bool) : (s.writeBits vd vs).cmdl = s.cmdl := rfl
@[simp] theorem State.writeBits_arg0 (vd vs : List Bool) : (s.writeBits vd vs).arg0 = s.arg0 := rfl
@[simp] theorem State.writeBits_arg1 (vd vs : List Bool) : (s.writeBits vd vs).arg1 = s.arg1 := rfl
@[simp] theorem State.writeBits_arg2 (vd vs : List Bool) : (s.writeBits vd vs).arg2 = s.arg2 := rfl
@[simp] theorem State.writeBits_arg3 (vd vs : List Bool) : (s.writeBits vd vs).arg3 = s.arg3 := rfl
@[simp] theorem State.writeBits_res0 (vd vs : List Bool) : (s.writeBits vd vs).res0 = s.res0 := rfl
@[simp] theorem State.writeBits_res1 (vd vs : List Bool) : (s.writeBits vd vs).res1 = s.res1 := rfl
@[simp] theorem State.writeBits_res2 (vd vs : List Bool) : (s.writeBits vd vs).res2 = s.res2 := rfl
@[simp] theorem State.writeBits_rxbuf (vd vs : List Bool) : (s.writeBits vd vs).rxbuf = s.rxbuf := rfl
@[simp] theorem State.writeBits_rxlen (vd vs : List Bool) : (s.writeBits vd vs).rxlen = s.rxlen := rfl
@[simp] theorem State.writeBits_txbuf (vd vs : List Bool) : (s.writeBits vd vs).txbuf = s.txbuf := rfl
@[simp] theorem State.writeBits_txlen (vd vs : List Bool) : (s.writeBits vd vs).txlen = s.txlen := rfl
@[simp] theorem State.writeBits_fType (vd vs : List Bool) : (s.writeBits vd vs).fType = s.fType := rfl
@[simp] theorem State.writeBits_fDlen (vd vs : List Bool) : (s.writeBits vd vs).fDlen = s.fDlen := rfl
@[simp] theorem State.writeBits_fOlen (vd vs : List Bool) : (s.writeBits vd vs).fOlen = s.fOlen := rfl
@[simp] theorem State.writeBits_fdata (vd vs : List Bool) : (s.writeBits vd vs).fdata = s.fdata := rfl
@[simp] theorem State.writeBits_fopt (vd vs : List Bool) : (s.writeBits vd vs).fopt = s.fopt := rfl
@[simp] theorem State.writeBits_bvData (vd vs : List Bool) :
    (s.writeBits vd vs).bvData = Store.writeList s.bvData 0 vd := rfl
@[simp] theorem State.writeBits_bvDlen (vd vs : List Bool) : (s.writeBits vd vs).bvDlen = s.bvDlen := rfl
@[simp] theorem State.writeBits_bvStat (vd vs : List Bool) :
    (s.writeBits vd vs).bvStat = Store.writeList s.bvStat 0 vs := rfl
@[simp] theorem State.writeBits_bvSlen (vd vs : List Bool) : (s.writeBits vd vs).bvSlen = s.bvSlen := rfl
@[simp] theorem State.writeBits_psel (vd vs : List Bool) : (s.writeBits vd vs).psel = s.psel := rfl
@[simp] theorem State.writeBits_nfields (vd vs : List Bool) : (s.writeBits vd vs).nfields = s.nfields := rfl
@[simp] theorem State.writeBits_ft (vd vs : List Bool) : (s.writeBits vd vs).ft = s.ft := rfl
@[simp] theorem State.writeBits_nv (vd vs : List Bool) : (s.writeBits vd vs).nv = s.nv := rfl
@[simp] theorem State.writeBits_cntFrames (vd vs : List Bool) : (s.writeBits vd vs).cntFrames = s.cntFrames := rfl
@[simp] theorem State.writeBits_cntCrcerr (vd vs : List Bool) : (s.writeBits vd vs).cntCrcerr = s.cntCrcerr := rfl
@[simp] theorem State.writeBits_cntOrphan (vd vs : List Bool) : (s.writeBits vd vs).cntOrphan = s.cntOrphan := rfl
@[simp] theorem State.writeBits_view (vd vs : List Bool) : (s.writeBits vd vs).view = s.view := rfl
@[simp] theorem State.writeBits_chain (vd vs : List Bool) : (s.writeBits vd vs).chain = s.chain := rfl
@[simp] theorem State.writeBits_host (vd vs : List Bool) : (s.writeBits vd vs).host = s.host := rfl
@[simp] theorem State.writeBits_delay (vd vs : List Bool) : (s.writeBits vd vs).delay = s.delay := rfl
@[simp] theorem State.writeBits_draws (vd vs : List Bool) : (s.writeBits vd vs).draws = s.draws := rfl

/-! ### countFrame -/

@[simp] theorem State.countFrame_cfg : (s.countFrame).cfg = s.cfg := rfl
@[simp] theorem State.countFrame_ctrl : (s.countFrame).ctrl = s.ctrl := rfl
@[simp] theorem State.countFrame_status : (s.countFrame).status = s.status := rfl
@[simp] theorem State.countFrame_cmdl : (s.countFrame).cmdl = s.cmdl := rfl
@[simp] theorem State.countFrame_arg0 : (s.countFrame).arg0 = s.arg0 := rfl
@[simp] theorem State.countFrame_arg1 : (s.countFrame).arg1 = s.arg1 := rfl
@[simp] theorem State.countFrame_arg2 : (s.countFrame).arg2 = s.arg2 := rfl
@[simp] theorem State.countFrame_arg3 : (s.countFrame).arg3 = s.arg3 := rfl
@[simp] theorem State.countFrame_res0 : (s.countFrame).res0 = s.res0 := rfl
@[simp] theorem State.countFrame_res1 : (s.countFrame).res1 = s.res1 := rfl
@[simp] theorem State.countFrame_res2 : (s.countFrame).res2 = s.res2 := rfl
@[simp] theorem State.countFrame_rxbuf : (s.countFrame).rxbuf = s.rxbuf := rfl
@[simp] theorem State.countFrame_rxlen : (s.countFrame).rxlen = s.rxlen := rfl
@[simp] theorem State.countFrame_txbuf : (s.countFrame).txbuf = s.txbuf := rfl
@[simp] theorem State.countFrame_txlen : (s.countFrame).txlen = s.txlen := rfl
@[simp] theorem State.countFrame_fType : (s.countFrame).fType = s.fType := rfl
@[simp] theorem State.countFrame_fDlen : (s.countFrame).fDlen = s.fDlen := rfl
@[simp] theorem State.countFrame_fOlen : (s.countFrame).fOlen = s.fOlen := rfl
@[simp] theorem State.countFrame_fdata : (s.countFrame).fdata = s.fdata := rfl
@[simp] theorem State.countFrame_fopt : (s.countFrame).fopt = s.fopt := rfl
@[simp] theorem State.countFrame_bvData : (s.countFrame).bvData = s.bvData := rfl
@[simp] theorem State.countFrame_bvDlen : (s.countFrame).bvDlen = s.bvDlen := rfl
@[simp] theorem State.countFrame_bvStat : (s.countFrame).bvStat = s.bvStat := rfl
@[simp] theorem State.countFrame_bvSlen : (s.countFrame).bvSlen = s.bvSlen := rfl
@[simp] theorem State.countFrame_psel : (s.countFrame).psel = s.psel := rfl
@[simp] theorem State.countFrame_nfields : (s.countFrame).nfields = s.nfields := rfl
@[simp] theorem State.countFrame_ft : (s.countFrame).ft = s.ft := rfl
@[simp] theorem State.countFrame_nv : (s.countFrame).nv = s.nv := rfl
@[simp] theorem State.countFrame_cntFrames : (s.countFrame).cntFrames = s.cntFrames + 1 := rfl
@[simp] theorem State.countFrame_cntCrcerr : (s.countFrame).cntCrcerr = s.cntCrcerr := rfl
@[simp] theorem State.countFrame_cntOrphan : (s.countFrame).cntOrphan = s.cntOrphan := rfl
@[simp] theorem State.countFrame_view : (s.countFrame).view = s.view := rfl
@[simp] theorem State.countFrame_chain : (s.countFrame).chain = s.chain := rfl
@[simp] theorem State.countFrame_host : (s.countFrame).host = s.host := rfl
@[simp] theorem State.countFrame_delay : (s.countFrame).delay = s.delay := rfl
@[simp] theorem State.countFrame_draws : (s.countFrame).draws = s.draws := rfl

/-! ### countCrcerr -/

@[simp] theorem State.countCrcerr_cfg : (s.countCrcerr).cfg = s.cfg := rfl
@[simp] theorem State.countCrcerr_ctrl : (s.countCrcerr).ctrl = s.ctrl := rfl
@[simp] theorem State.countCrcerr_status : (s.countCrcerr).status = s.status := rfl
@[simp] theorem State.countCrcerr_cmdl : (s.countCrcerr).cmdl = s.cmdl := rfl
@[simp] theorem State.countCrcerr_arg0 : (s.countCrcerr).arg0 = s.arg0 := rfl
@[simp] theorem State.countCrcerr_arg1 : (s.countCrcerr).arg1 = s.arg1 := rfl
@[simp] theorem State.countCrcerr_arg2 : (s.countCrcerr).arg2 = s.arg2 := rfl
@[simp] theorem State.countCrcerr_arg3 : (s.countCrcerr).arg3 = s.arg3 := rfl
@[simp] theorem State.countCrcerr_res0 : (s.countCrcerr).res0 = s.res0 := rfl
@[simp] theorem State.countCrcerr_res1 : (s.countCrcerr).res1 = s.res1 := rfl
@[simp] theorem State.countCrcerr_res2 : (s.countCrcerr).res2 = s.res2 := rfl
@[simp] theorem State.countCrcerr_rxbuf : (s.countCrcerr).rxbuf = s.rxbuf := rfl
@[simp] theorem State.countCrcerr_rxlen : (s.countCrcerr).rxlen = s.rxlen := rfl
@[simp] theorem State.countCrcerr_txbuf : (s.countCrcerr).txbuf = s.txbuf := rfl
@[simp] theorem State.countCrcerr_txlen : (s.countCrcerr).txlen = s.txlen := rfl
@[simp] theorem State.countCrcerr_fType : (s.countCrcerr).fType = s.fType := rfl
@[simp] theorem State.countCrcerr_fDlen : (s.countCrcerr).fDlen = s.fDlen := rfl
@[simp] theorem State.countCrcerr_fOlen : (s.countCrcerr).fOlen = s.fOlen := rfl
@[simp] theorem State.countCrcerr_fdata : (s.countCrcerr).fdata = s.fdata := rfl
@[simp] theorem State.countCrcerr_fopt : (s.countCrcerr).fopt = s.fopt := rfl
@[simp] theorem State.countCrcerr_bvData : (s.countCrcerr).bvData = s.bvData := rfl
@[simp] theorem State.countCrcerr_bvDlen : (s.countCrcerr).bvDlen = s.bvDlen := rfl
@[simp] theorem State.countCrcerr_bvStat : (s.countCrcerr).bvStat = s.bvStat := rfl
@[simp] theorem State.countCrcerr_bvSlen : (s.countCrcerr).bvSlen = s.bvSlen := rfl
@[simp] theorem State.countCrcerr_psel : (s.countCrcerr).psel = s.psel := rfl
@[simp] theorem State.countCrcerr_nfields : (s.countCrcerr).nfields = s.nfields := rfl
@[simp] theorem State.countCrcerr_ft : (s.countCrcerr).ft = s.ft := rfl
@[simp] theorem State.countCrcerr_nv : (s.countCrcerr).nv = s.nv := rfl
@[simp] theorem State.countCrcerr_cntFrames : (s.countCrcerr).cntFrames = s.cntFrames := rfl
@[simp] theorem State.countCrcerr_cntCrcerr : (s.countCrcerr).cntCrcerr = s.cntCrcerr + 1 := rfl
@[simp] theorem State.countCrcerr_cntOrphan : (s.countCrcerr).cntOrphan = s.cntOrphan := rfl
@[simp] theorem State.countCrcerr_view : (s.countCrcerr).view = s.view := rfl
@[simp] theorem State.countCrcerr_chain : (s.countCrcerr).chain = s.chain := rfl
@[simp] theorem State.countCrcerr_host : (s.countCrcerr).host = s.host := rfl
@[simp] theorem State.countCrcerr_delay : (s.countCrcerr).delay = s.delay := rfl
@[simp] theorem State.countCrcerr_draws : (s.countCrcerr).draws = s.draws := rfl

/-! ### countOrphan -/

@[simp] theorem State.countOrphan_cfg : (s.countOrphan).cfg = s.cfg := rfl
@[simp] theorem State.countOrphan_ctrl : (s.countOrphan).ctrl = s.ctrl := rfl
@[simp] theorem State.countOrphan_status : (s.countOrphan).status = s.status := rfl
@[simp] theorem State.countOrphan_cmdl : (s.countOrphan).cmdl = s.cmdl := rfl
@[simp] theorem State.countOrphan_arg0 : (s.countOrphan).arg0 = s.arg0 := rfl
@[simp] theorem State.countOrphan_arg1 : (s.countOrphan).arg1 = s.arg1 := rfl
@[simp] theorem State.countOrphan_arg2 : (s.countOrphan).arg2 = s.arg2 := rfl
@[simp] theorem State.countOrphan_arg3 : (s.countOrphan).arg3 = s.arg3 := rfl
@[simp] theorem State.countOrphan_res0 : (s.countOrphan).res0 = s.res0 := rfl
@[simp] theorem State.countOrphan_res1 : (s.countOrphan).res1 = s.res1 := rfl
@[simp] theorem State.countOrphan_res2 : (s.countOrphan).res2 = s.res2 := rfl
@[simp] theorem State.countOrphan_rxbuf : (s.countOrphan).rxbuf = s.rxbuf := rfl
@[simp] theorem State.countOrphan_rxlen : (s.countOrphan).rxlen = s.rxlen := rfl
@[simp] theorem State.countOrphan_txbuf : (s.countOrphan).txbuf = s.txbuf := rfl
@[simp] theorem State.countOrphan_txlen : (s.countOrphan).txlen = s.txlen := rfl
@[simp] theorem State.countOrphan_fType : (s.countOrphan).fType = s.fType := rfl
@[simp] theorem State.countOrphan_fDlen : (s.countOrphan).fDlen = s.fDlen := rfl
@[simp] theorem State.countOrphan_fOlen : (s.countOrphan).fOlen = s.fOlen := rfl
@[simp] theorem State.countOrphan_fdata : (s.countOrphan).fdata = s.fdata := rfl
@[simp] theorem State.countOrphan_fopt : (s.countOrphan).fopt = s.fopt := rfl
@[simp] theorem State.countOrphan_bvData : (s.countOrphan).bvData = s.bvData := rfl
@[simp] theorem State.countOrphan_bvDlen : (s.countOrphan).bvDlen = s.bvDlen := rfl
@[simp] theorem State.countOrphan_bvStat : (s.countOrphan).bvStat = s.bvStat := rfl
@[simp] theorem State.countOrphan_bvSlen : (s.countOrphan).bvSlen = s.bvSlen := rfl
@[simp] theorem State.countOrphan_psel : (s.countOrphan).psel = s.psel := rfl
@[simp] theorem State.countOrphan_nfields : (s.countOrphan).nfields = s.nfields := rfl
@[simp] theorem State.countOrphan_ft : (s.countOrphan).ft = s.ft := rfl
@[simp] theorem State.countOrphan_nv : (s.countOrphan).nv = s.nv := rfl
@[simp] theorem State.countOrphan_cntFrames : (s.countOrphan).cntFrames = s.cntFrames := rfl
@[simp] theorem State.countOrphan_cntCrcerr : (s.countOrphan).cntCrcerr = s.cntCrcerr := rfl
@[simp] theorem State.countOrphan_cntOrphan : (s.countOrphan).cntOrphan = s.cntOrphan + 1 := rfl
@[simp] theorem State.countOrphan_view : (s.countOrphan).view = s.view := rfl
@[simp] theorem State.countOrphan_chain : (s.countOrphan).chain = s.chain := rfl
@[simp] theorem State.countOrphan_host : (s.countOrphan).host = s.host := rfl
@[simp] theorem State.countOrphan_delay : (s.countOrphan).delay = s.delay := rfl
@[simp] theorem State.countOrphan_draws : (s.countOrphan).draws = s.draws := rfl

/-! ### flagLenooc -/

@[simp] theorem State.flagLenooc_cfg (b : Bool) : (s.flagLenooc b).cfg = s.cfg := rfl
@[simp] theorem State.flagLenooc_ctrl (b : Bool) : (s.flagLenooc b).ctrl = s.ctrl := rfl
@[simp] theorem State.flagLenooc_status (b : Bool) :
    (s.flagLenooc b).status = { s.status with lenooc := s.status.lenooc || b } := rfl
@[simp] theorem State.flagLenooc_cmdl (b : Bool) : (s.flagLenooc b).cmdl = s.cmdl := rfl
@[simp] theorem State.flagLenooc_arg0 (b : Bool) : (s.flagLenooc b).arg0 = s.arg0 := rfl
@[simp] theorem State.flagLenooc_arg1 (b : Bool) : (s.flagLenooc b).arg1 = s.arg1 := rfl
@[simp] theorem State.flagLenooc_arg2 (b : Bool) : (s.flagLenooc b).arg2 = s.arg2 := rfl
@[simp] theorem State.flagLenooc_arg3 (b : Bool) : (s.flagLenooc b).arg3 = s.arg3 := rfl
@[simp] theorem State.flagLenooc_res0 (b : Bool) : (s.flagLenooc b).res0 = s.res0 := rfl
@[simp] theorem State.flagLenooc_res1 (b : Bool) : (s.flagLenooc b).res1 = s.res1 := rfl
@[simp] theorem State.flagLenooc_res2 (b : Bool) : (s.flagLenooc b).res2 = s.res2 := rfl
@[simp] theorem State.flagLenooc_rxbuf (b : Bool) : (s.flagLenooc b).rxbuf = s.rxbuf := rfl
@[simp] theorem State.flagLenooc_rxlen (b : Bool) : (s.flagLenooc b).rxlen = s.rxlen := rfl
@[simp] theorem State.flagLenooc_txbuf (b : Bool) : (s.flagLenooc b).txbuf = s.txbuf := rfl
@[simp] theorem State.flagLenooc_txlen (b : Bool) : (s.flagLenooc b).txlen = s.txlen := rfl
@[simp] theorem State.flagLenooc_fType (b : Bool) : (s.flagLenooc b).fType = s.fType := rfl
@[simp] theorem State.flagLenooc_fDlen (b : Bool) : (s.flagLenooc b).fDlen = s.fDlen := rfl
@[simp] theorem State.flagLenooc_fOlen (b : Bool) : (s.flagLenooc b).fOlen = s.fOlen := rfl
@[simp] theorem State.flagLenooc_fdata (b : Bool) : (s.flagLenooc b).fdata = s.fdata := rfl
@[simp] theorem State.flagLenooc_fopt (b : Bool) : (s.flagLenooc b).fopt = s.fopt := rfl
@[simp] theorem State.flagLenooc_bvData (b : Bool) : (s.flagLenooc b).bvData = s.bvData := rfl
@[simp] theorem State.flagLenooc_bvDlen (b : Bool) : (s.flagLenooc b).bvDlen = s.bvDlen := rfl
@[simp] theorem State.flagLenooc_bvStat (b : Bool) : (s.flagLenooc b).bvStat = s.bvStat := rfl
@[simp] theorem State.flagLenooc_bvSlen (b : Bool) : (s.flagLenooc b).bvSlen = s.bvSlen := rfl
@[simp] theorem State.flagLenooc_psel (b : Bool) : (s.flagLenooc b).psel = s.psel := rfl
@[simp] theorem State.flagLenooc_nfields (b : Bool) : (s.flagLenooc b).nfields = s.nfields := rfl
@[simp] theorem State.flagLenooc_ft (b : Bool) : (s.flagLenooc b).ft = s.ft := rfl
@[simp] theorem State.flagLenooc_nv (b : Bool) : (s.flagLenooc b).nv = s.nv := rfl
@[simp] theorem State.flagLenooc_cntFrames (b : Bool) : (s.flagLenooc b).cntFrames = s.cntFrames := rfl
@[simp] theorem State.flagLenooc_cntCrcerr (b : Bool) : (s.flagLenooc b).cntCrcerr = s.cntCrcerr := rfl
@[simp] theorem State.flagLenooc_cntOrphan (b : Bool) : (s.flagLenooc b).cntOrphan = s.cntOrphan := rfl
@[simp] theorem State.flagLenooc_view (b : Bool) : (s.flagLenooc b).view = s.view := rfl
@[simp] theorem State.flagLenooc_chain (b : Bool) : (s.flagLenooc b).chain = s.chain := rfl
@[simp] theorem State.flagLenooc_host (b : Bool) : (s.flagLenooc b).host = s.host := rfl
@[simp] theorem State.flagLenooc_delay (b : Bool) : (s.flagLenooc b).delay = s.delay := rfl
@[simp] theorem State.flagLenooc_draws (b : Bool) : (s.flagLenooc b).draws = s.draws := rfl

/-! ### writeFields -/

@[simp] theorem State.writeFields_cfg (out : List FieldRec) : (s.writeFields out).cfg = s.cfg := rfl
@[simp] theorem State.writeFields_ctrl (out : List FieldRec) : (s.writeFields out).ctrl = s.ctrl := rfl
@[simp] theorem State.writeFields_status (out : List FieldRec) :
    (s.writeFields out).status = { s.status with fldovf := s.status.fldovf || decide (s.cfg.fieldCap < out.length) } := rfl
@[simp] theorem State.writeFields_cmdl (out : List FieldRec) : (s.writeFields out).cmdl = s.cmdl := rfl
@[simp] theorem State.writeFields_arg0 (out : List FieldRec) : (s.writeFields out).arg0 = s.arg0 := rfl
@[simp] theorem State.writeFields_arg1 (out : List FieldRec) : (s.writeFields out).arg1 = s.arg1 := rfl
@[simp] theorem State.writeFields_arg2 (out : List FieldRec) : (s.writeFields out).arg2 = s.arg2 := rfl
@[simp] theorem State.writeFields_arg3 (out : List FieldRec) : (s.writeFields out).arg3 = s.arg3 := rfl
@[simp] theorem State.writeFields_res0 (out : List FieldRec) : (s.writeFields out).res0 = s.res0 := rfl
@[simp] theorem State.writeFields_res1 (out : List FieldRec) : (s.writeFields out).res1 = s.res1 := rfl
@[simp] theorem State.writeFields_res2 (out : List FieldRec) : (s.writeFields out).res2 = s.res2 := rfl
@[simp] theorem State.writeFields_rxbuf (out : List FieldRec) : (s.writeFields out).rxbuf = s.rxbuf := rfl
@[simp] theorem State.writeFields_rxlen (out : List FieldRec) : (s.writeFields out).rxlen = s.rxlen := rfl
@[simp] theorem State.writeFields_txbuf (out : List FieldRec) : (s.writeFields out).txbuf = s.txbuf := rfl
@[simp] theorem State.writeFields_txlen (out : List FieldRec) : (s.writeFields out).txlen = s.txlen := rfl
@[simp] theorem State.writeFields_fType (out : List FieldRec) : (s.writeFields out).fType = s.fType := rfl
@[simp] theorem State.writeFields_fDlen (out : List FieldRec) : (s.writeFields out).fDlen = s.fDlen := rfl
@[simp] theorem State.writeFields_fOlen (out : List FieldRec) : (s.writeFields out).fOlen = s.fOlen := rfl
@[simp] theorem State.writeFields_fdata (out : List FieldRec) : (s.writeFields out).fdata = s.fdata := rfl
@[simp] theorem State.writeFields_fopt (out : List FieldRec) : (s.writeFields out).fopt = s.fopt := rfl
@[simp] theorem State.writeFields_bvData (out : List FieldRec) : (s.writeFields out).bvData = s.bvData := rfl
@[simp] theorem State.writeFields_bvDlen (out : List FieldRec) : (s.writeFields out).bvDlen = s.bvDlen := rfl
@[simp] theorem State.writeFields_bvStat (out : List FieldRec) : (s.writeFields out).bvStat = s.bvStat := rfl
@[simp] theorem State.writeFields_bvSlen (out : List FieldRec) : (s.writeFields out).bvSlen = s.bvSlen := rfl
@[simp] theorem State.writeFields_psel (out : List FieldRec) : (s.writeFields out).psel = s.psel := rfl
@[simp] theorem State.writeFields_nfields (out : List FieldRec) :
    (s.writeFields out).nfields = min out.length s.cfg.fieldCap := rfl
@[simp] theorem State.writeFields_ft (out : List FieldRec) :
    (s.writeFields out).ft = Store.writeList s.ft 0 (out.take s.cfg.fieldCap) := rfl
@[simp] theorem State.writeFields_nv (out : List FieldRec) : (s.writeFields out).nv = s.nv := rfl
@[simp] theorem State.writeFields_cntFrames (out : List FieldRec) : (s.writeFields out).cntFrames = s.cntFrames := rfl
@[simp] theorem State.writeFields_cntCrcerr (out : List FieldRec) : (s.writeFields out).cntCrcerr = s.cntCrcerr := rfl
@[simp] theorem State.writeFields_cntOrphan (out : List FieldRec) : (s.writeFields out).cntOrphan = s.cntOrphan := rfl
@[simp] theorem State.writeFields_view (out : List FieldRec) : (s.writeFields out).view = s.view := rfl
@[simp] theorem State.writeFields_chain (out : List FieldRec) : (s.writeFields out).chain = s.chain := rfl
@[simp] theorem State.writeFields_host (out : List FieldRec) : (s.writeFields out).host = s.host := rfl
@[simp] theorem State.writeFields_delay (out : List FieldRec) : (s.writeFields out).delay = s.delay := rfl
@[simp] theorem State.writeFields_draws (out : List FieldRec) : (s.writeFields out).draws = s.draws := rfl

/-! ### writeFdata -/

@[simp] theorem State.writeFdata_cfg (a : Nat) (b : List Byte) : (s.writeFdata a b).cfg = s.cfg := rfl
@[simp] theorem State.writeFdata_ctrl (a : Nat) (b : List Byte) : (s.writeFdata a b).ctrl = s.ctrl := rfl
@[simp] theorem State.writeFdata_status (a : Nat) (b : List Byte) : (s.writeFdata a b).status = s.status := rfl
@[simp] theorem State.writeFdata_cmdl (a : Nat) (b : List Byte) : (s.writeFdata a b).cmdl = s.cmdl := rfl
@[simp] theorem State.writeFdata_arg0 (a : Nat) (b : List Byte) : (s.writeFdata a b).arg0 = s.arg0 := rfl
@[simp] theorem State.writeFdata_arg1 (a : Nat) (b : List Byte) : (s.writeFdata a b).arg1 = s.arg1 := rfl
@[simp] theorem State.writeFdata_arg2 (a : Nat) (b : List Byte) : (s.writeFdata a b).arg2 = s.arg2 := rfl
@[simp] theorem State.writeFdata_arg3 (a : Nat) (b : List Byte) : (s.writeFdata a b).arg3 = s.arg3 := rfl
@[simp] theorem State.writeFdata_res0 (a : Nat) (b : List Byte) : (s.writeFdata a b).res0 = s.res0 := rfl
@[simp] theorem State.writeFdata_res1 (a : Nat) (b : List Byte) : (s.writeFdata a b).res1 = s.res1 := rfl
@[simp] theorem State.writeFdata_res2 (a : Nat) (b : List Byte) : (s.writeFdata a b).res2 = s.res2 := rfl
@[simp] theorem State.writeFdata_rxbuf (a : Nat) (b : List Byte) : (s.writeFdata a b).rxbuf = s.rxbuf := rfl
@[simp] theorem State.writeFdata_rxlen (a : Nat) (b : List Byte) : (s.writeFdata a b).rxlen = s.rxlen := rfl
@[simp] theorem State.writeFdata_txbuf (a : Nat) (b : List Byte) : (s.writeFdata a b).txbuf = s.txbuf := rfl
@[simp] theorem State.writeFdata_txlen (a : Nat) (b : List Byte) : (s.writeFdata a b).txlen = s.txlen := rfl
@[simp] theorem State.writeFdata_fType (a : Nat) (b : List Byte) : (s.writeFdata a b).fType = s.fType := rfl
@[simp] theorem State.writeFdata_fDlen (a : Nat) (b : List Byte) : (s.writeFdata a b).fDlen = s.fDlen := rfl
@[simp] theorem State.writeFdata_fOlen (a : Nat) (b : List Byte) : (s.writeFdata a b).fOlen = s.fOlen := rfl
@[simp] theorem State.writeFdata_fdata (a : Nat) (b : List Byte) :
    (s.writeFdata a b).fdata = Store.writeList s.fdata a b := rfl
@[simp] theorem State.writeFdata_fopt (a : Nat) (b : List Byte) : (s.writeFdata a b).fopt = s.fopt := rfl
@[simp] theorem State.writeFdata_bvData (a : Nat) (b : List Byte) : (s.writeFdata a b).bvData = s.bvData := rfl
@[simp] theorem State.writeFdata_bvDlen (a : Nat) (b : List Byte) : (s.writeFdata a b).bvDlen = s.bvDlen := rfl
@[simp] theorem State.writeFdata_bvStat (a : Nat) (b : List Byte) : (s.writeFdata a b).bvStat = s.bvStat := rfl
@[simp] theorem State.writeFdata_bvSlen (a : Nat) (b : List Byte) : (s.writeFdata a b).bvSlen = s.bvSlen := rfl
@[simp] theorem State.writeFdata_psel (a : Nat) (b : List Byte) : (s.writeFdata a b).psel = s.psel := rfl
@[simp] theorem State.writeFdata_nfields (a : Nat) (b : List Byte) : (s.writeFdata a b).nfields = s.nfields := rfl
@[simp] theorem State.writeFdata_ft (a : Nat) (b : List Byte) : (s.writeFdata a b).ft = s.ft := rfl
@[simp] theorem State.writeFdata_nv (a : Nat) (b : List Byte) : (s.writeFdata a b).nv = s.nv := rfl
@[simp] theorem State.writeFdata_cntFrames (a : Nat) (b : List Byte) :
    (s.writeFdata a b).cntFrames = s.cntFrames := rfl
@[simp] theorem State.writeFdata_cntCrcerr (a : Nat) (b : List Byte) :
    (s.writeFdata a b).cntCrcerr = s.cntCrcerr := rfl
@[simp] theorem State.writeFdata_cntOrphan (a : Nat) (b : List Byte) :
    (s.writeFdata a b).cntOrphan = s.cntOrphan := rfl
@[simp] theorem State.writeFdata_view (a : Nat) (b : List Byte) : (s.writeFdata a b).view = s.view := rfl
@[simp] theorem State.writeFdata_chain (a : Nat) (b : List Byte) : (s.writeFdata a b).chain = s.chain := rfl
@[simp] theorem State.writeFdata_host (a : Nat) (b : List Byte) : (s.writeFdata a b).host = s.host := rfl
@[simp] theorem State.writeFdata_delay (a : Nat) (b : List Byte) : (s.writeFdata a b).delay = s.delay := rfl
@[simp] theorem State.writeFdata_draws (a : Nat) (b : List Byte) : (s.writeFdata a b).draws = s.draws := rfl

/-! ### writeFopt -/

@[simp] theorem State.writeFopt_cfg (a : Nat) (b : List Byte) : (s.writeFopt a b).cfg = s.cfg := rfl
@[simp] theorem State.writeFopt_ctrl (a : Nat) (b : List Byte) : (s.writeFopt a b).ctrl = s.ctrl := rfl
@[simp] theorem State.writeFopt_status (a : Nat) (b : List Byte) : (s.writeFopt a b).status = s.status := rfl
@[simp] theorem State.writeFopt_cmdl (a : Nat) (b : List Byte) : (s.writeFopt a b).cmdl = s.cmdl := rfl
@[simp] theorem State.writeFopt_arg0 (a : Nat) (b : List Byte) : (s.writeFopt a b).arg0 = s.arg0 := rfl
@[simp] theorem State.writeFopt_arg1 (a : Nat) (b : List Byte) : (s.writeFopt a b).arg1 = s.arg1 := rfl
@[simp] theorem State.writeFopt_arg2 (a : Nat) (b : List Byte) : (s.writeFopt a b).arg2 = s.arg2 := rfl
@[simp] theorem State.writeFopt_arg3 (a : Nat) (b : List Byte) : (s.writeFopt a b).arg3 = s.arg3 := rfl
@[simp] theorem State.writeFopt_res0 (a : Nat) (b : List Byte) : (s.writeFopt a b).res0 = s.res0 := rfl
@[simp] theorem State.writeFopt_res1 (a : Nat) (b : List Byte) : (s.writeFopt a b).res1 = s.res1 := rfl
@[simp] theorem State.writeFopt_res2 (a : Nat) (b : List Byte) : (s.writeFopt a b).res2 = s.res2 := rfl
@[simp] theorem State.writeFopt_rxbuf (a : Nat) (b : List Byte) : (s.writeFopt a b).rxbuf = s.rxbuf := rfl
@[simp] theorem State.writeFopt_rxlen (a : Nat) (b : List Byte) : (s.writeFopt a b).rxlen = s.rxlen := rfl
@[simp] theorem State.writeFopt_txbuf (a : Nat) (b : List Byte) : (s.writeFopt a b).txbuf = s.txbuf := rfl
@[simp] theorem State.writeFopt_txlen (a : Nat) (b : List Byte) : (s.writeFopt a b).txlen = s.txlen := rfl
@[simp] theorem State.writeFopt_fType (a : Nat) (b : List Byte) : (s.writeFopt a b).fType = s.fType := rfl
@[simp] theorem State.writeFopt_fDlen (a : Nat) (b : List Byte) : (s.writeFopt a b).fDlen = s.fDlen := rfl
@[simp] theorem State.writeFopt_fOlen (a : Nat) (b : List Byte) : (s.writeFopt a b).fOlen = s.fOlen := rfl
@[simp] theorem State.writeFopt_fdata (a : Nat) (b : List Byte) : (s.writeFopt a b).fdata = s.fdata := rfl
@[simp] theorem State.writeFopt_fopt (a : Nat) (b : List Byte) :
    (s.writeFopt a b).fopt = Store.writeList s.fopt a b := rfl
@[simp] theorem State.writeFopt_bvData (a : Nat) (b : List Byte) : (s.writeFopt a b).bvData = s.bvData := rfl
@[simp] theorem State.writeFopt_bvDlen (a : Nat) (b : List Byte) : (s.writeFopt a b).bvDlen = s.bvDlen := rfl
@[simp] theorem State.writeFopt_bvStat (a : Nat) (b : List Byte) : (s.writeFopt a b).bvStat = s.bvStat := rfl
@[simp] theorem State.writeFopt_bvSlen (a : Nat) (b : List Byte) : (s.writeFopt a b).bvSlen = s.bvSlen := rfl
@[simp] theorem State.writeFopt_psel (a : Nat) (b : List Byte) : (s.writeFopt a b).psel = s.psel := rfl
@[simp] theorem State.writeFopt_nfields (a : Nat) (b : List Byte) : (s.writeFopt a b).nfields = s.nfields := rfl
@[simp] theorem State.writeFopt_ft (a : Nat) (b : List Byte) : (s.writeFopt a b).ft = s.ft := rfl
@[simp] theorem State.writeFopt_nv (a : Nat) (b : List Byte) : (s.writeFopt a b).nv = s.nv := rfl
@[simp] theorem State.writeFopt_cntFrames (a : Nat) (b : List Byte) : (s.writeFopt a b).cntFrames = s.cntFrames := rfl
@[simp] theorem State.writeFopt_cntCrcerr (a : Nat) (b : List Byte) : (s.writeFopt a b).cntCrcerr = s.cntCrcerr := rfl
@[simp] theorem State.writeFopt_cntOrphan (a : Nat) (b : List Byte) : (s.writeFopt a b).cntOrphan = s.cntOrphan := rfl
@[simp] theorem State.writeFopt_view (a : Nat) (b : List Byte) : (s.writeFopt a b).view = s.view := rfl
@[simp] theorem State.writeFopt_chain (a : Nat) (b : List Byte) : (s.writeFopt a b).chain = s.chain := rfl
@[simp] theorem State.writeFopt_host (a : Nat) (b : List Byte) : (s.writeFopt a b).host = s.host := rfl
@[simp] theorem State.writeFopt_delay (a : Nat) (b : List Byte) : (s.writeFopt a b).delay = s.delay := rfl
@[simp] theorem State.writeFopt_draws (a : Nat) (b : List Byte) : (s.writeFopt a b).draws = s.draws := rfl

/-! ### finish -/

@[simp] theorem State.finish_cfg (c : ResultCode) : (s.finish c).cfg = s.cfg := rfl
@[simp] theorem State.finish_ctrl (c : ResultCode) : (s.finish c).ctrl = s.ctrl := rfl
@[simp] theorem State.finish_status (c : ResultCode) : (s.finish c).status = s.status.commandEnd c := rfl
@[simp] theorem State.finish_cmdl (c : ResultCode) : (s.finish c).cmdl = s.cmdl := rfl
@[simp] theorem State.finish_arg0 (c : ResultCode) : (s.finish c).arg0 = s.arg0 := rfl
@[simp] theorem State.finish_arg1 (c : ResultCode) : (s.finish c).arg1 = s.arg1 := rfl
@[simp] theorem State.finish_arg2 (c : ResultCode) : (s.finish c).arg2 = s.arg2 := rfl
@[simp] theorem State.finish_arg3 (c : ResultCode) : (s.finish c).arg3 = s.arg3 := rfl
@[simp] theorem State.finish_res0 (c : ResultCode) : (s.finish c).res0 = s.res0 := rfl
@[simp] theorem State.finish_res1 (c : ResultCode) : (s.finish c).res1 = s.res1 := rfl
@[simp] theorem State.finish_res2 (c : ResultCode) : (s.finish c).res2 = s.res2 := rfl
@[simp] theorem State.finish_rxbuf (c : ResultCode) : (s.finish c).rxbuf = s.rxbuf := rfl
@[simp] theorem State.finish_rxlen (c : ResultCode) : (s.finish c).rxlen = s.rxlen := rfl
@[simp] theorem State.finish_txbuf (c : ResultCode) : (s.finish c).txbuf = s.txbuf := rfl
@[simp] theorem State.finish_txlen (c : ResultCode) : (s.finish c).txlen = s.txlen := rfl
@[simp] theorem State.finish_fType (c : ResultCode) : (s.finish c).fType = s.fType := rfl
@[simp] theorem State.finish_fDlen (c : ResultCode) : (s.finish c).fDlen = s.fDlen := rfl
@[simp] theorem State.finish_fOlen (c : ResultCode) : (s.finish c).fOlen = s.fOlen := rfl
@[simp] theorem State.finish_fdata (c : ResultCode) : (s.finish c).fdata = s.fdata := rfl
@[simp] theorem State.finish_fopt (c : ResultCode) : (s.finish c).fopt = s.fopt := rfl
@[simp] theorem State.finish_bvData (c : ResultCode) : (s.finish c).bvData = s.bvData := rfl
@[simp] theorem State.finish_bvDlen (c : ResultCode) : (s.finish c).bvDlen = s.bvDlen := rfl
@[simp] theorem State.finish_bvStat (c : ResultCode) : (s.finish c).bvStat = s.bvStat := rfl
@[simp] theorem State.finish_bvSlen (c : ResultCode) : (s.finish c).bvSlen = s.bvSlen := rfl
@[simp] theorem State.finish_psel (c : ResultCode) : (s.finish c).psel = s.psel := rfl
@[simp] theorem State.finish_nfields (c : ResultCode) : (s.finish c).nfields = s.nfields := rfl
@[simp] theorem State.finish_ft (c : ResultCode) : (s.finish c).ft = s.ft := rfl
@[simp] theorem State.finish_nv (c : ResultCode) : (s.finish c).nv = s.nv := rfl
@[simp] theorem State.finish_cntFrames (c : ResultCode) : (s.finish c).cntFrames = s.cntFrames := rfl
@[simp] theorem State.finish_cntCrcerr (c : ResultCode) : (s.finish c).cntCrcerr = s.cntCrcerr := rfl
@[simp] theorem State.finish_cntOrphan (c : ResultCode) : (s.finish c).cntOrphan = s.cntOrphan := rfl
@[simp] theorem State.finish_view (c : ResultCode) : (s.finish c).view = s.view := rfl
@[simp] theorem State.finish_chain (c : ResultCode) : (s.finish c).chain = s.chain := rfl
@[simp] theorem State.finish_host (c : ResultCode) : (s.finish c).host = s.host := rfl
@[simp] theorem State.finish_delay (c : ResultCode) : (s.finish c).delay = s.delay := rfl
@[simp] theorem State.finish_draws (c : ResultCode) : (s.finish c).draws = s.draws := rfl

/-! ### raiseFatal -/

@[simp] theorem State.raiseFatal_cfg (c : ResultCode) : (s.raiseFatal c).cfg = s.cfg := rfl
@[simp] theorem State.raiseFatal_ctrl (c : ResultCode) : (s.raiseFatal c).ctrl = s.ctrl := rfl
@[simp] theorem State.raiseFatal_status (c : ResultCode) : (s.raiseFatal c).status = s.status.commandEnd c := rfl
@[simp] theorem State.raiseFatal_cmdl (c : ResultCode) : (s.raiseFatal c).cmdl = s.cmdl := rfl
@[simp] theorem State.raiseFatal_arg0 (c : ResultCode) : (s.raiseFatal c).arg0 = s.arg0 := rfl
@[simp] theorem State.raiseFatal_arg1 (c : ResultCode) : (s.raiseFatal c).arg1 = s.arg1 := rfl
@[simp] theorem State.raiseFatal_arg2 (c : ResultCode) : (s.raiseFatal c).arg2 = s.arg2 := rfl
@[simp] theorem State.raiseFatal_arg3 (c : ResultCode) : (s.raiseFatal c).arg3 = s.arg3 := rfl
@[simp] theorem State.raiseFatal_res0 (c : ResultCode) : (s.raiseFatal c).res0 = s.res0 := rfl
@[simp] theorem State.raiseFatal_res1 (c : ResultCode) : (s.raiseFatal c).res1 = s.res1 := rfl
@[simp] theorem State.raiseFatal_res2 (c : ResultCode) : (s.raiseFatal c).res2 = s.res2 := rfl
@[simp] theorem State.raiseFatal_rxbuf (c : ResultCode) : (s.raiseFatal c).rxbuf = s.rxbuf := rfl
@[simp] theorem State.raiseFatal_rxlen (c : ResultCode) : (s.raiseFatal c).rxlen = s.rxlen := rfl
@[simp] theorem State.raiseFatal_txbuf (c : ResultCode) : (s.raiseFatal c).txbuf = s.txbuf := rfl
@[simp] theorem State.raiseFatal_txlen (c : ResultCode) : (s.raiseFatal c).txlen = s.txlen := rfl
@[simp] theorem State.raiseFatal_fType (c : ResultCode) : (s.raiseFatal c).fType = s.fType := rfl
@[simp] theorem State.raiseFatal_fDlen (c : ResultCode) : (s.raiseFatal c).fDlen = s.fDlen := rfl
@[simp] theorem State.raiseFatal_fOlen (c : ResultCode) : (s.raiseFatal c).fOlen = s.fOlen := rfl
@[simp] theorem State.raiseFatal_fdata (c : ResultCode) : (s.raiseFatal c).fdata = s.fdata := rfl
@[simp] theorem State.raiseFatal_fopt (c : ResultCode) : (s.raiseFatal c).fopt = s.fopt := rfl
@[simp] theorem State.raiseFatal_bvData (c : ResultCode) : (s.raiseFatal c).bvData = s.bvData := rfl
@[simp] theorem State.raiseFatal_bvDlen (c : ResultCode) : (s.raiseFatal c).bvDlen = s.bvDlen := rfl
@[simp] theorem State.raiseFatal_bvStat (c : ResultCode) : (s.raiseFatal c).bvStat = s.bvStat := rfl
@[simp] theorem State.raiseFatal_bvSlen (c : ResultCode) : (s.raiseFatal c).bvSlen = s.bvSlen := rfl
@[simp] theorem State.raiseFatal_psel (c : ResultCode) : (s.raiseFatal c).psel = s.psel := rfl
@[simp] theorem State.raiseFatal_nfields (c : ResultCode) : (s.raiseFatal c).nfields = s.nfields := rfl
@[simp] theorem State.raiseFatal_ft (c : ResultCode) : (s.raiseFatal c).ft = s.ft := rfl
@[simp] theorem State.raiseFatal_nv (c : ResultCode) : (s.raiseFatal c).nv = s.nv := rfl
@[simp] theorem State.raiseFatal_cntFrames (c : ResultCode) : (s.raiseFatal c).cntFrames = s.cntFrames := rfl
@[simp] theorem State.raiseFatal_cntCrcerr (c : ResultCode) : (s.raiseFatal c).cntCrcerr = s.cntCrcerr := rfl
@[simp] theorem State.raiseFatal_cntOrphan (c : ResultCode) : (s.raiseFatal c).cntOrphan = s.cntOrphan := rfl
@[simp] theorem State.raiseFatal_view (c : ResultCode) : (s.raiseFatal c).view = s.view := rfl
@[simp] theorem State.raiseFatal_chain (c : ResultCode) : (s.raiseFatal c).chain = s.chain := rfl
@[simp] theorem State.raiseFatal_host (c : ResultCode) : (s.raiseFatal c).host = s.host := rfl
@[simp] theorem State.raiseFatal_delay (c : ResultCode) : (s.raiseFatal c).delay = s.delay := rfl
@[simp] theorem State.raiseFatal_draws (c : ResultCode) : (s.raiseFatal c).draws = s.draws := rfl

/-! ### advanceHost -/

@[simp] theorem State.advanceHost_cfg : (s.advanceHost).cfg = s.cfg := rfl
@[simp] theorem State.advanceHost_ctrl : (s.advanceHost).ctrl = s.ctrl := rfl
@[simp] theorem State.advanceHost_status : (s.advanceHost).status = s.status := rfl
@[simp] theorem State.advanceHost_cmdl : (s.advanceHost).cmdl = s.cmdl := rfl
@[simp] theorem State.advanceHost_arg0 : (s.advanceHost).arg0 = s.arg0 := rfl
@[simp] theorem State.advanceHost_arg1 : (s.advanceHost).arg1 = s.arg1 := rfl
@[simp] theorem State.advanceHost_arg2 : (s.advanceHost).arg2 = s.arg2 := rfl
@[simp] theorem State.advanceHost_arg3 : (s.advanceHost).arg3 = s.arg3 := rfl
@[simp] theorem State.advanceHost_res0 : (s.advanceHost).res0 = s.res0 := rfl
@[simp] theorem State.advanceHost_res1 : (s.advanceHost).res1 = s.res1 := rfl
@[simp] theorem State.advanceHost_res2 : (s.advanceHost).res2 = s.res2 := rfl
@[simp] theorem State.advanceHost_rxbuf : (s.advanceHost).rxbuf = s.rxbuf := rfl
@[simp] theorem State.advanceHost_rxlen : (s.advanceHost).rxlen = s.rxlen := rfl
@[simp] theorem State.advanceHost_txbuf : (s.advanceHost).txbuf = s.txbuf := rfl
@[simp] theorem State.advanceHost_txlen : (s.advanceHost).txlen = s.txlen := rfl
@[simp] theorem State.advanceHost_fType : (s.advanceHost).fType = s.fType := rfl
@[simp] theorem State.advanceHost_fDlen : (s.advanceHost).fDlen = s.fDlen := rfl
@[simp] theorem State.advanceHost_fOlen : (s.advanceHost).fOlen = s.fOlen := rfl
@[simp] theorem State.advanceHost_fdata : (s.advanceHost).fdata = s.fdata := rfl
@[simp] theorem State.advanceHost_fopt : (s.advanceHost).fopt = s.fopt := rfl
@[simp] theorem State.advanceHost_bvData : (s.advanceHost).bvData = s.bvData := rfl
@[simp] theorem State.advanceHost_bvDlen : (s.advanceHost).bvDlen = s.bvDlen := rfl
@[simp] theorem State.advanceHost_bvStat : (s.advanceHost).bvStat = s.bvStat := rfl
@[simp] theorem State.advanceHost_bvSlen : (s.advanceHost).bvSlen = s.bvSlen := rfl
@[simp] theorem State.advanceHost_psel : (s.advanceHost).psel = s.psel := rfl
@[simp] theorem State.advanceHost_nfields : (s.advanceHost).nfields = s.nfields := rfl
@[simp] theorem State.advanceHost_ft : (s.advanceHost).ft = s.ft := rfl
@[simp] theorem State.advanceHost_nv : (s.advanceHost).nv = s.nv := rfl
@[simp] theorem State.advanceHost_cntFrames : (s.advanceHost).cntFrames = s.cntFrames := rfl
@[simp] theorem State.advanceHost_cntCrcerr : (s.advanceHost).cntCrcerr = s.cntCrcerr := rfl
@[simp] theorem State.advanceHost_cntOrphan : (s.advanceHost).cntOrphan = s.cntOrphan := rfl
@[simp] theorem State.advanceHost_view : (s.advanceHost).view = s.view := rfl
@[simp] theorem State.advanceHost_chain : (s.advanceHost).chain = s.chain := rfl
@[simp] theorem State.advanceHost_host : (s.advanceHost).host = { s.host with pc := s.host.pc + 1 } := rfl
@[simp] theorem State.advanceHost_delay : (s.advanceHost).delay = s.delay - 1 := rfl
@[simp] theorem State.advanceHost_draws : (s.advanceHost).draws = s.draws := rfl

/-! ### branchHost -/

@[simp] theorem State.branchHost_cfg (p : Nat) : (s.branchHost p).cfg = s.cfg := rfl
@[simp] theorem State.branchHost_ctrl (p : Nat) : (s.branchHost p).ctrl = s.ctrl := rfl
@[simp] theorem State.branchHost_status (p : Nat) : (s.branchHost p).status = s.status := rfl
@[simp] theorem State.branchHost_cmdl (p : Nat) : (s.branchHost p).cmdl = s.cmdl := rfl
@[simp] theorem State.branchHost_arg0 (p : Nat) : (s.branchHost p).arg0 = s.arg0 := rfl
@[simp] theorem State.branchHost_arg1 (p : Nat) : (s.branchHost p).arg1 = s.arg1 := rfl
@[simp] theorem State.branchHost_arg2 (p : Nat) : (s.branchHost p).arg2 = s.arg2 := rfl
@[simp] theorem State.branchHost_arg3 (p : Nat) : (s.branchHost p).arg3 = s.arg3 := rfl
@[simp] theorem State.branchHost_res0 (p : Nat) : (s.branchHost p).res0 = s.res0 := rfl
@[simp] theorem State.branchHost_res1 (p : Nat) : (s.branchHost p).res1 = s.res1 := rfl
@[simp] theorem State.branchHost_res2 (p : Nat) : (s.branchHost p).res2 = s.res2 := rfl
@[simp] theorem State.branchHost_rxbuf (p : Nat) : (s.branchHost p).rxbuf = s.rxbuf := rfl
@[simp] theorem State.branchHost_rxlen (p : Nat) : (s.branchHost p).rxlen = s.rxlen := rfl
@[simp] theorem State.branchHost_txbuf (p : Nat) : (s.branchHost p).txbuf = s.txbuf := rfl
@[simp] theorem State.branchHost_txlen (p : Nat) : (s.branchHost p).txlen = s.txlen := rfl
@[simp] theorem State.branchHost_fType (p : Nat) : (s.branchHost p).fType = s.fType := rfl
@[simp] theorem State.branchHost_fDlen (p : Nat) : (s.branchHost p).fDlen = s.fDlen := rfl
@[simp] theorem State.branchHost_fOlen (p : Nat) : (s.branchHost p).fOlen = s.fOlen := rfl
@[simp] theorem State.branchHost_fdata (p : Nat) : (s.branchHost p).fdata = s.fdata := rfl
@[simp] theorem State.branchHost_fopt (p : Nat) : (s.branchHost p).fopt = s.fopt := rfl
@[simp] theorem State.branchHost_bvData (p : Nat) : (s.branchHost p).bvData = s.bvData := rfl
@[simp] theorem State.branchHost_bvDlen (p : Nat) : (s.branchHost p).bvDlen = s.bvDlen := rfl
@[simp] theorem State.branchHost_bvStat (p : Nat) : (s.branchHost p).bvStat = s.bvStat := rfl
@[simp] theorem State.branchHost_bvSlen (p : Nat) : (s.branchHost p).bvSlen = s.bvSlen := rfl
@[simp] theorem State.branchHost_psel (p : Nat) : (s.branchHost p).psel = s.psel := rfl
@[simp] theorem State.branchHost_nfields (p : Nat) : (s.branchHost p).nfields = s.nfields := rfl
@[simp] theorem State.branchHost_ft (p : Nat) : (s.branchHost p).ft = s.ft := rfl
@[simp] theorem State.branchHost_nv (p : Nat) : (s.branchHost p).nv = s.nv := rfl
@[simp] theorem State.branchHost_cntFrames (p : Nat) : (s.branchHost p).cntFrames = s.cntFrames := rfl
@[simp] theorem State.branchHost_cntCrcerr (p : Nat) : (s.branchHost p).cntCrcerr = s.cntCrcerr := rfl
@[simp] theorem State.branchHost_cntOrphan (p : Nat) : (s.branchHost p).cntOrphan = s.cntOrphan := rfl
@[simp] theorem State.branchHost_view (p : Nat) : (s.branchHost p).view = s.view := rfl
@[simp] theorem State.branchHost_chain (p : Nat) : (s.branchHost p).chain = s.chain := rfl
@[simp] theorem State.branchHost_host (p : Nat) : (s.branchHost p).host = { s.host with pc := p } := rfl
@[simp] theorem State.branchHost_delay (p : Nat) : (s.branchHost p).delay = s.delay - 1 := rfl
@[simp] theorem State.branchHost_draws (p : Nat) : (s.branchHost p).draws = s.draws := rfl

/-! ### respond -/

@[simp] theorem State.respond_cfg (r : BusResponse) : (s.respond r).cfg = s.cfg := rfl
@[simp] theorem State.respond_ctrl (r : BusResponse) : (s.respond r).ctrl = s.ctrl := rfl
@[simp] theorem State.respond_status (r : BusResponse) : (s.respond r).status = s.status := rfl
@[simp] theorem State.respond_cmdl (r : BusResponse) : (s.respond r).cmdl = s.cmdl := rfl
@[simp] theorem State.respond_arg0 (r : BusResponse) : (s.respond r).arg0 = s.arg0 := rfl
@[simp] theorem State.respond_arg1 (r : BusResponse) : (s.respond r).arg1 = s.arg1 := rfl
@[simp] theorem State.respond_arg2 (r : BusResponse) : (s.respond r).arg2 = s.arg2 := rfl
@[simp] theorem State.respond_arg3 (r : BusResponse) : (s.respond r).arg3 = s.arg3 := rfl
@[simp] theorem State.respond_res0 (r : BusResponse) : (s.respond r).res0 = s.res0 := rfl
@[simp] theorem State.respond_res1 (r : BusResponse) : (s.respond r).res1 = s.res1 := rfl
@[simp] theorem State.respond_res2 (r : BusResponse) : (s.respond r).res2 = s.res2 := rfl
@[simp] theorem State.respond_rxbuf (r : BusResponse) : (s.respond r).rxbuf = s.rxbuf := rfl
@[simp] theorem State.respond_rxlen (r : BusResponse) : (s.respond r).rxlen = s.rxlen := rfl
@[simp] theorem State.respond_txbuf (r : BusResponse) : (s.respond r).txbuf = s.txbuf := rfl
@[simp] theorem State.respond_txlen (r : BusResponse) : (s.respond r).txlen = s.txlen := rfl
@[simp] theorem State.respond_fType (r : BusResponse) : (s.respond r).fType = s.fType := rfl
@[simp] theorem State.respond_fDlen (r : BusResponse) : (s.respond r).fDlen = s.fDlen := rfl
@[simp] theorem State.respond_fOlen (r : BusResponse) : (s.respond r).fOlen = s.fOlen := rfl
@[simp] theorem State.respond_fdata (r : BusResponse) : (s.respond r).fdata = s.fdata := rfl
@[simp] theorem State.respond_fopt (r : BusResponse) : (s.respond r).fopt = s.fopt := rfl
@[simp] theorem State.respond_bvData (r : BusResponse) : (s.respond r).bvData = s.bvData := rfl
@[simp] theorem State.respond_bvDlen (r : BusResponse) : (s.respond r).bvDlen = s.bvDlen := rfl
@[simp] theorem State.respond_bvStat (r : BusResponse) : (s.respond r).bvStat = s.bvStat := rfl
@[simp] theorem State.respond_bvSlen (r : BusResponse) : (s.respond r).bvSlen = s.bvSlen := rfl
@[simp] theorem State.respond_psel (r : BusResponse) : (s.respond r).psel = s.psel := rfl
@[simp] theorem State.respond_nfields (r : BusResponse) : (s.respond r).nfields = s.nfields := rfl
@[simp] theorem State.respond_ft (r : BusResponse) : (s.respond r).ft = s.ft := rfl
@[simp] theorem State.respond_nv (r : BusResponse) : (s.respond r).nv = s.nv := rfl
@[simp] theorem State.respond_cntFrames (r : BusResponse) : (s.respond r).cntFrames = s.cntFrames := rfl
@[simp] theorem State.respond_cntCrcerr (r : BusResponse) : (s.respond r).cntCrcerr = s.cntCrcerr := rfl
@[simp] theorem State.respond_cntOrphan (r : BusResponse) : (s.respond r).cntOrphan = s.cntOrphan := rfl
@[simp] theorem State.respond_view (r : BusResponse) : (s.respond r).view = s.view := rfl
@[simp] theorem State.respond_chain (r : BusResponse) : (s.respond r).chain = s.chain := rfl
@[simp] theorem State.respond_host (r : BusResponse) : (s.respond r).host = { s.host with resp := r } := rfl
@[simp] theorem State.respond_delay (r : BusResponse) : (s.respond r).delay = s.delay := rfl
@[simp] theorem State.respond_draws (r : BusResponse) : (s.respond r).draws = s.draws := rfl

/-! ### respondData -/

@[simp] theorem State.respondData_cfg (w : Word) : (s.respondData w).cfg = s.cfg := rfl
@[simp] theorem State.respondData_ctrl (w : Word) : (s.respondData w).ctrl = s.ctrl := rfl
@[simp] theorem State.respondData_status (w : Word) : (s.respondData w).status = s.status := rfl
@[simp] theorem State.respondData_cmdl (w : Word) : (s.respondData w).cmdl = s.cmdl := rfl
@[simp] theorem State.respondData_arg0 (w : Word) : (s.respondData w).arg0 = s.arg0 := rfl
@[simp] theorem State.respondData_arg1 (w : Word) : (s.respondData w).arg1 = s.arg1 := rfl
@[simp] theorem State.respondData_arg2 (w : Word) : (s.respondData w).arg2 = s.arg2 := rfl
@[simp] theorem State.respondData_arg3 (w : Word) : (s.respondData w).arg3 = s.arg3 := rfl
@[simp] theorem State.respondData_res0 (w : Word) : (s.respondData w).res0 = s.res0 := rfl
@[simp] theorem State.respondData_res1 (w : Word) : (s.respondData w).res1 = s.res1 := rfl
@[simp] theorem State.respondData_res2 (w : Word) : (s.respondData w).res2 = s.res2 := rfl
@[simp] theorem State.respondData_rxbuf (w : Word) : (s.respondData w).rxbuf = s.rxbuf := rfl
@[simp] theorem State.respondData_rxlen (w : Word) : (s.respondData w).rxlen = s.rxlen := rfl
@[simp] theorem State.respondData_txbuf (w : Word) : (s.respondData w).txbuf = s.txbuf := rfl
@[simp] theorem State.respondData_txlen (w : Word) : (s.respondData w).txlen = s.txlen := rfl
@[simp] theorem State.respondData_fType (w : Word) : (s.respondData w).fType = s.fType := rfl
@[simp] theorem State.respondData_fDlen (w : Word) : (s.respondData w).fDlen = s.fDlen := rfl
@[simp] theorem State.respondData_fOlen (w : Word) : (s.respondData w).fOlen = s.fOlen := rfl
@[simp] theorem State.respondData_fdata (w : Word) : (s.respondData w).fdata = s.fdata := rfl
@[simp] theorem State.respondData_fopt (w : Word) : (s.respondData w).fopt = s.fopt := rfl
@[simp] theorem State.respondData_bvData (w : Word) : (s.respondData w).bvData = s.bvData := rfl
@[simp] theorem State.respondData_bvDlen (w : Word) : (s.respondData w).bvDlen = s.bvDlen := rfl
@[simp] theorem State.respondData_bvStat (w : Word) : (s.respondData w).bvStat = s.bvStat := rfl
@[simp] theorem State.respondData_bvSlen (w : Word) : (s.respondData w).bvSlen = s.bvSlen := rfl
@[simp] theorem State.respondData_psel (w : Word) : (s.respondData w).psel = s.psel := rfl
@[simp] theorem State.respondData_nfields (w : Word) : (s.respondData w).nfields = s.nfields := rfl
@[simp] theorem State.respondData_ft (w : Word) : (s.respondData w).ft = s.ft := rfl
@[simp] theorem State.respondData_nv (w : Word) : (s.respondData w).nv = s.nv := rfl
@[simp] theorem State.respondData_cntFrames (w : Word) : (s.respondData w).cntFrames = s.cntFrames := rfl
@[simp] theorem State.respondData_cntCrcerr (w : Word) : (s.respondData w).cntCrcerr = s.cntCrcerr := rfl
@[simp] theorem State.respondData_cntOrphan (w : Word) : (s.respondData w).cntOrphan = s.cntOrphan := rfl
@[simp] theorem State.respondData_view (w : Word) : (s.respondData w).view = s.view := rfl
@[simp] theorem State.respondData_chain (w : Word) : (s.respondData w).chain = s.chain := rfl
@[simp] theorem State.respondData_host (w : Word) :
    (s.respondData w).host = { s.host with resp := .data w, rd := w } := rfl
@[simp] theorem State.respondData_delay (w : Word) : (s.respondData w).delay = s.delay := rfl
@[simp] theorem State.respondData_draws (w : Word) : (s.respondData w).draws = s.draws := rfl

/-! ### pendingCommand -/

@[simp] theorem State.pendingCommand_cfg (w : Word) : (s.pendingCommand w).cfg = s.cfg := rfl
@[simp] theorem State.pendingCommand_ctrl (w : Word) : (s.pendingCommand w).ctrl = s.ctrl := rfl
@[simp] theorem State.pendingCommand_status (w : Word) :
    (s.pendingCommand w).status = { s.status with busy := true } := rfl
@[simp] theorem State.pendingCommand_cmdl (w : Word) : (s.pendingCommand w).cmdl = w := rfl
@[simp] theorem State.pendingCommand_arg0 (w : Word) : (s.pendingCommand w).arg0 = s.arg0 := rfl
@[simp] theorem State.pendingCommand_arg1 (w : Word) : (s.pendingCommand w).arg1 = s.arg1 := rfl
@[simp] theorem State.pendingCommand_arg2 (w : Word) : (s.pendingCommand w).arg2 = s.arg2 := rfl
@[simp] theorem State.pendingCommand_arg3 (w : Word) : (s.pendingCommand w).arg3 = s.arg3 := rfl
@[simp] theorem State.pendingCommand_res0 (w : Word) : (s.pendingCommand w).res0 = s.res0 := rfl
@[simp] theorem State.pendingCommand_res1 (w : Word) : (s.pendingCommand w).res1 = s.res1 := rfl
@[simp] theorem State.pendingCommand_res2 (w : Word) : (s.pendingCommand w).res2 = s.res2 := rfl
@[simp] theorem State.pendingCommand_rxbuf (w : Word) : (s.pendingCommand w).rxbuf = s.rxbuf := rfl
@[simp] theorem State.pendingCommand_rxlen (w : Word) : (s.pendingCommand w).rxlen = s.rxlen := rfl
@[simp] theorem State.pendingCommand_txbuf (w : Word) : (s.pendingCommand w).txbuf = s.txbuf := rfl
@[simp] theorem State.pendingCommand_txlen (w : Word) : (s.pendingCommand w).txlen = s.txlen := rfl
@[simp] theorem State.pendingCommand_fType (w : Word) : (s.pendingCommand w).fType = s.fType := rfl
@[simp] theorem State.pendingCommand_fDlen (w : Word) : (s.pendingCommand w).fDlen = s.fDlen := rfl
@[simp] theorem State.pendingCommand_fOlen (w : Word) : (s.pendingCommand w).fOlen = s.fOlen := rfl
@[simp] theorem State.pendingCommand_fdata (w : Word) : (s.pendingCommand w).fdata = s.fdata := rfl
@[simp] theorem State.pendingCommand_fopt (w : Word) : (s.pendingCommand w).fopt = s.fopt := rfl
@[simp] theorem State.pendingCommand_bvData (w : Word) : (s.pendingCommand w).bvData = s.bvData := rfl
@[simp] theorem State.pendingCommand_bvDlen (w : Word) : (s.pendingCommand w).bvDlen = s.bvDlen := rfl
@[simp] theorem State.pendingCommand_bvStat (w : Word) : (s.pendingCommand w).bvStat = s.bvStat := rfl
@[simp] theorem State.pendingCommand_bvSlen (w : Word) : (s.pendingCommand w).bvSlen = s.bvSlen := rfl
@[simp] theorem State.pendingCommand_psel (w : Word) : (s.pendingCommand w).psel = s.psel := rfl
@[simp] theorem State.pendingCommand_nfields (w : Word) : (s.pendingCommand w).nfields = s.nfields := rfl
@[simp] theorem State.pendingCommand_ft (w : Word) : (s.pendingCommand w).ft = s.ft := rfl
@[simp] theorem State.pendingCommand_nv (w : Word) : (s.pendingCommand w).nv = s.nv := rfl
@[simp] theorem State.pendingCommand_cntFrames (w : Word) : (s.pendingCommand w).cntFrames = s.cntFrames := rfl
@[simp] theorem State.pendingCommand_cntCrcerr (w : Word) : (s.pendingCommand w).cntCrcerr = s.cntCrcerr := rfl
@[simp] theorem State.pendingCommand_cntOrphan (w : Word) : (s.pendingCommand w).cntOrphan = s.cntOrphan := rfl
@[simp] theorem State.pendingCommand_view (w : Word) : (s.pendingCommand w).view = s.view := rfl
@[simp] theorem State.pendingCommand_chain (w : Word) : (s.pendingCommand w).chain = s.chain := rfl
@[simp] theorem State.pendingCommand_host (w : Word) : (s.pendingCommand w).host = s.host := rfl
@[simp] theorem State.pendingCommand_delay (w : Word) : (s.pendingCommand w).delay = 0 := rfl
@[simp] theorem State.pendingCommand_draws (w : Word) : (s.pendingCommand w).draws = s.draws := rfl

/-! ### STATUS -/

@[simp] theorem Status.commandEnd_rxovf (st : Status) (c : ResultCode) : (st.commandEnd c).rxovf = st.rxovf := rfl
@[simp] theorem Status.commandEnd_busywr (st : Status) (c : ResultCode) : (st.commandEnd c).busywr = st.busywr := rfl
@[simp] theorem Status.commandEnd_lenooc (st : Status) (c : ResultCode) : (st.commandEnd c).lenooc = st.lenooc := rfl
@[simp] theorem Status.commandEnd_fldovf (st : Status) (c : ResultCode) : (st.commandEnd c).fldovf = st.fldovf := rfl
@[simp] theorem Status.commandEnd_result (st : Status) (c : ResultCode) : (st.commandEnd c).result = c := rfl
@[simp] theorem Status.commandEnd_done (st : Status) (c : ResultCode) : (st.commandEnd c).done = true := rfl
@[simp] theorem Status.commandEnd_busy (st : Status) (c : ResultCode) : (st.commandEnd c).busy = false := rfl
@[simp] theorem Status.commandEnd_fatal (st : Status) (c : ResultCode) :
    (st.commandEnd c).fatal = (st.fatal || c.isFatal) := rfl

/-- A command end writes RESULT, DONE, FATAL and BUSY alone, so an earlier end leaves nothing but FATAL behind. -/
theorem Status.commandEnd_commandEnd (st : Status) (c c' : ResultCode) (h : c.isFatal = false) :
    (st.commandEnd c).commandEnd c' = st.commandEnd c' := by
  simp [Status.commandEnd, h]

end Sys2Proof.Machine
end

