-- ==== Sys2Proof/Laws/Store.lean ====
section
/-! SUPPORT. The laws of the storage arrays: what a read gives after a write, that a write leaves every other index
alone, and that every operation keeps the canonical form and the capacity bound. -/

namespace Sys2Proof.Machine

variable {α : Type} [Inhabited α] [DecidableEq α]

omit [DecidableEq α] in
@[simp] theorem Store.read_nil (a : Nat) : Store.read ([] : Store α) a = Store.blank := rfl

theorem Store.wfFrom_mono {lo lo' : Nat} (h : lo' ≤ lo) (m : Store α) (hm : Store.wfFrom lo m = true) :
    Store.wfFrom lo' m = true := by
  cases m with
  | nil => rfl
  | cons p r =>
    obtain ⟨k, v⟩ := p
    simp only [Store.wfFrom, Bool.and_eq_true, decide_eq_true_eq] at hm ⊢
    exact ⟨⟨by omega, hm.1.2⟩, hm.2⟩

/-- Below its first index a canonical array reads blank. -/
theorem Store.read_below {lo : Nat} (m : Store α) (hm : Store.wfFrom lo m = true) {a : Nat} (h : a < lo) :
    Store.read m a = Store.blank := by
  induction m generalizing lo with
  | nil => rfl
  | cons p r ih =>
    obtain ⟨k, v⟩ := p
    simp only [Store.wfFrom, Bool.and_eq_true, decide_eq_true_eq] at hm
    have : a ≠ k := by omega
    simp only [Store.read, this, if_false]
    exact ih hm.2 (by omega)

/-- A write leaves every other index alone. -/
theorem Store.read_write_of_ne (m : Store α) {a b : Nat} (v : α) (h : b ≠ a) :
    Store.read (Store.write m a v) b = Store.read m b := by
  induction m with
  | nil => by_cases hv : v = Store.blank <;> simp [Store.write, Store.read, hv, h]
  | cons p r ih =>
    obtain ⟨k, w⟩ := p
    unfold Store.write
    split
    · split <;> simp [Store.read, h]
    · split
      · subst_vars; split <;> simp [Store.read, h]
      · simp [Store.read, ih]

/-- A read of a canonical array gives the value last written. -/
theorem Store.read_write_self {lo : Nat} (m : Store α) (hm : Store.wfFrom lo m = true) (a : Nat) (v : α) :
    Store.read (Store.write m a v) a = v := by
  induction m generalizing lo with
  | nil => by_cases hv : v = Store.blank <;> simp [Store.write, Store.read, hv]
  | cons p r ih =>
    obtain ⟨k, w⟩ := p
    have hr := hm
    simp only [Store.wfFrom, Bool.and_eq_true, decide_eq_true_eq] at hr
    unfold Store.write
    split
    · rename_i hlt
      split
      · rename_i hv
        have : a ≠ k := by omega
        simp only [Store.read, this, if_false, hv]
        exact Store.read_below r hr.2 (by omega)
      · simp [Store.read]
    · split
      · subst_vars
        split
        · rename_i hv
          rw [Store.read_below r hr.2 (by omega), hv]
        · simp [Store.read]
      · rename_i h1 h2
        simp only [Store.read, h2, if_false]
        exact ih hr.2

/-- A write keeps the canonical form, from any lower bound that the written index meets. -/
theorem Store.wfFrom_write {lo : Nat} (m : Store α) (hm : Store.wfFrom lo m = true) {a : Nat} (ha : lo ≤ a) (v : α) :
    Store.wfFrom lo (Store.write m a v) = true := by
  induction m generalizing lo with
  | nil => by_cases hv : v = Store.blank <;> simp [Store.write, Store.wfFrom, hv, ha]
  | cons p r ih =>
    obtain ⟨k, w⟩ := p
    have hr := hm
    simp only [Store.wfFrom, Bool.and_eq_true, decide_eq_true_eq] at hr
    unfold Store.write
    split
    · split
      · exact hm
      · simp only [Store.wfFrom, Bool.and_eq_true, decide_eq_true_eq]
        exact ⟨⟨ha, ‹_›⟩, ⟨by omega, hr.1.2⟩, hr.2⟩
    · split
      · subst_vars
        split
        · exact Store.wfFrom_mono (by omega) r hr.2
        · simp only [Store.wfFrom, Bool.and_eq_true, decide_eq_true_eq]
          exact ⟨⟨ha, ‹_›⟩, hr.2⟩
      · simp only [Store.wfFrom, Bool.and_eq_true, decide_eq_true_eq]
        exact ⟨hr.1, ih hr.2 (by omega)⟩

theorem Store.wf_write (m : Store α) (hm : Store.wf m = true) (a : Nat) (v : α) :
    Store.wf (Store.write m a v) = true :=
  Store.wfFrom_write m hm (Nat.zero_le a) v

theorem Store.wf_writeList (m : Store α) (hm : Store.wf m = true) (a : Nat) (vs : List α) :
    Store.wf (Store.writeList m a vs) = true := by
  induction vs generalizing m a with
  | nil => exact hm
  | cons v vs ih => exact ih _ (Store.wf_write m hm a v) _

/-- Writing a range leaves every index outside it alone. -/
theorem Store.read_writeList_of_out (m : Store α) (a : Nat) (vs : List α) {b : Nat}
    (h : b < a ∨ a + vs.length ≤ b) : Store.read (Store.writeList m a vs) b = Store.read m b := by
  induction vs generalizing m a with
  | nil => rfl
  | cons v vs ih =>
    simp only [List.length_cons] at h
    rw [Store.writeList, ih _ _ (by omega), Store.read_write_of_ne m v (by omega)]

/-- Inside the written range a read gives the value written there. -/
theorem Store.read_writeList_of_in (m : Store α) (hm : Store.wf m = true) (a : Nat) (vs : List α) (j : Nat)
    (h : j < vs.length) : Store.read (Store.writeList m a vs) (a + j) = vs[j] := by
  induction vs generalizing m a j with
  | nil => simp at h
  | cons v vs ih =>
    rw [Store.writeList]
    cases j with
    | zero =>
      rw [Nat.add_zero, Store.read_writeList_of_out _ _ _ (by omega)]
      exact Store.read_write_self m hm a v
    | succ j =>
      have h' : j < vs.length := by simpa using h
      have := ih _ (Store.wf_write m hm a v) (a + 1) j h'
      rw [show a + (j + 1) = a + 1 + j by omega, this]
      rfl

/-- What every read and every written value meets, every read still meets. -/
theorem Store.forall_read_writeList {P : α → Prop} {m : Store α} (hm : Store.wf m = true)
    (h : ∀ i, P (Store.read m i)) (a : Nat) {vs : List α} (hv : ∀ v ∈ vs, P v) (i : Nat) :
    P (Store.read (Store.writeList m a vs) i) := by
  by_cases hi : i < a ∨ a + vs.length ≤ i
  · rw [Store.read_writeList_of_out m a vs hi]
    exact h i
  · obtain ⟨j, rfl⟩ := Nat.exists_eq_add_of_le (show a ≤ i by omega)
    rw [Store.read_writeList_of_in m hm a vs j (by omega)]
    exact hv _ (List.getElem_mem _)

omit [DecidableEq α] in
@[simp] theorem Store.length_readList (m : Store α) (a n : Nat) : (Store.readList m a n).length = n := by
  induction n generalizing a with
  | zero => rfl
  | succ n ih => simp [Store.readList, ih]

omit [DecidableEq α] in
theorem Store.getElem_readList (m : Store α) (a n j : Nat) (h : j < (Store.readList m a n).length) :
    (Store.readList m a n)[j] = Store.read m (a + j) := by
  induction n generalizing a j with
  | zero => simp [Store.readList] at h
  | succ n ih =>
    cases j with
    | zero => rfl
    | succ j =>
      have := ih (a + 1) j (by simpa using h)
      simp only [Store.readList, List.getElem_cons_succ, this]
      congr 1
      omega

/-- Reading a range back gives what was written to it. -/
theorem Store.readList_writeList (m : Store α) (hm : Store.wf m = true) (a : Nat) (vs : List α) :
    Store.readList (Store.writeList m a vs) a vs.length = vs := by
  apply List.ext_getElem (by simp)
  intro j h1 h2
  rw [Store.getElem_readList, Store.read_writeList_of_in m hm a vs j h2]

omit [Inhabited α] [DecidableEq α] in
theorem Store.below_nil (cap : Nat) : Store.below cap ([] : Store α) = true := rfl

theorem Store.below_write {cap : Nat} (m : Store α) (hm : Store.below cap m = true) {a : Nat} (ha : a < cap) (v : α) :
    Store.below cap (Store.write m a v) = true := by
  induction m with
  | nil => by_cases hv : v = Store.blank <;> simp [Store.write, Store.below, hv, ha]
  | cons p r ih =>
    obtain ⟨k, w⟩ := p
    simp only [Store.below, List.all_cons, Bool.and_eq_true, decide_eq_true_eq] at hm ih
    unfold Store.write
    split
    · split <;> simp only [Store.below, List.all_cons, Bool.and_eq_true, decide_eq_true_eq]
      · exact hm
      · exact ⟨ha, hm⟩
    · split
      · split <;> simp only [Store.below, List.all_cons, Bool.and_eq_true, decide_eq_true_eq]
        · exact hm.2
        · exact ⟨ha, hm.2⟩
      · simp only [Store.below, List.all_cons, Bool.and_eq_true, decide_eq_true_eq]
        exact ⟨hm.1, ih hm.2⟩

theorem Store.below_writeList {cap : Nat} (m : Store α) (hm : Store.below cap m = true) (a : Nat) (vs : List α)
    (h : a + vs.length ≤ cap) : Store.below cap (Store.writeList m a vs) = true := by
  induction vs generalizing m a with
  | nil => exact hm
  | cons v vs ih =>
    simp only [List.length_cons] at h
    exact ih _ (Store.below_write m hm (by omega) v) _ (by omega)

/-- Two canonical arrays that read alike everywhere are the same data. -/
theorem Store.ext_of_wfFrom {lo : Nat} (m n : Store α) (hm : Store.wfFrom lo m = true) (hn : Store.wfFrom lo n = true)
    (h : ∀ a, Store.read m a = Store.read n a) : m = n := by
  induction m generalizing lo n with
  | nil =>
    cases n with
    | nil => rfl
    | cons q r =>
      obtain ⟨k, v⟩ := q
      have hk := h k
      simp only [Store.wfFrom, Bool.and_eq_true, decide_eq_true_eq] at hn
      simp [Store.read] at hk
      exact absurd hk.symm hn.1.2
  | cons p r ih =>
    obtain ⟨k, v⟩ := p
    have hm' := hm
    simp only [Store.wfFrom, Bool.and_eq_true, decide_eq_true_eq] at hm'
    cases n with
    | nil =>
      have hk := h k
      simp [Store.read] at hk
      exact absurd hk hm'.1.2
    | cons q r' =>
      obtain ⟨k', v'⟩ := q
      have hn' := hn
      simp only [Store.wfFrom, Bool.and_eq_true, decide_eq_true_eq] at hn'
      have hkk : k = k' := by
        rcases Nat.lt_trichotomy k k' with hlt | heq | hgt
        · have hk := h k
          have h0 : Store.wfFrom (k + 1) ((k', v') :: r') = true := by
            simp only [Store.wfFrom, Bool.and_eq_true, decide_eq_true_eq]
            exact ⟨⟨by omega, hn'.1.2⟩, hn'.2⟩
          rw [Store.read_below _ h0 (by omega)] at hk
          simp [Store.read] at hk
          exact absurd hk hm'.1.2
        · exact heq
        · have hk := h k'
          have h0 : Store.wfFrom (k' + 1) ((k, v) :: r) = true := by
            simp only [Store.wfFrom, Bool.and_eq_true, decide_eq_true_eq]
            exact ⟨⟨by omega, hm'.1.2⟩, hm'.2⟩
          rw [Store.read_below _ h0 (by omega)] at hk
          simp [Store.read] at hk
          exact absurd hk.symm hn'.1.2
      subst hkk
      have hvv : v = v' := by simpa [Store.read] using h k
      subst hvv
      congr 1
      apply ih r' hm'.2 hn'.2
      intro a
      by_cases hak : a = k
      · subst hak
        rw [Store.read_below r hm'.2 (by omega), Store.read_below r' hn'.2 (by omega)]
      · simpa [Store.read, hak] using h a

end Sys2Proof.Machine
end

