-- ==== Sys2Proof/Laws/Inv.lean ====
section
/-! SUPPORT. The named updates keep the invariant: one lemma per update, with what the update must meet. -/

namespace Sys2Proof.Machine

variable {s : State}

theorem State.Inv.setRes0 (h : s.Inv) (w : Word) : (s.setRes0 w).Inv := { h with }
theorem State.Inv.setRes1 (h : s.Inv) (w : Word) : (s.setRes1 w).Inv := { h with }
theorem State.Inv.setRes2 (h : s.Inv) (w : Word) : (s.setRes2 w).Inv := { h with }
theorem State.Inv.countFrame (h : s.Inv) : s.countFrame.Inv := { h with }
theorem State.Inv.countCrcerr (h : s.Inv) : s.countCrcerr.Inv := { h with }
theorem State.Inv.countOrphan (h : s.Inv) : s.countOrphan.Inv := { h with }
theorem State.Inv.flagLenooc (h : s.Inv) (b : Bool) : (s.flagLenooc b).Inv := { h with }
theorem State.Inv.finish (h : s.Inv) (c : ResultCode) : (s.finish c).Inv := { h with }
theorem State.Inv.raiseFatal (h : s.Inv) (c : ResultCode) : (s.raiseFatal c).Inv := { h with }
theorem State.Inv.advanceHost (h : s.Inv) : s.advanceHost.Inv := { h with }
theorem State.Inv.branchHost (h : s.Inv) (p : Nat) : (s.branchHost p).Inv := { h with }
theorem State.Inv.respond (h : s.Inv) (r : BusResponse) : (s.respond r).Inv := { h with }
theorem State.Inv.respondData (h : s.Inv) (w : Word) : (s.respondData w).Inv := { h with }

theorem State.Inv.flushRx (h : s.Inv) : s.flushRx.Inv := { h with rxlenLe := Nat.zero_le _ }

theorem State.Inv.noFields (h : s.Inv) : s.noFields.Inv := { h with nfieldsLe := Nat.zero_le _ }

theorem View.inv_cleared : View.cleared.Inv := by constructor <;> simp [View.cleared]

theorem State.Inv.setView (h : s.Inv) {v : View} (hv : v.Inv) : (s.setView v).Inv := { h with viewInv := hv }

theorem State.Inv.clearView (h : s.Inv) : s.clearView.Inv :=
  { h with nfieldsLe := Nat.zero_le _, viewInv := View.inv_cleared }

theorem State.Inv.dropPsel (h : s.Inv) : (s.setPsel Psel.invalid).Inv :=
  { h with pselBlock := fun hv => (by cases hv), pselZero := fun _ => ⟨rfl, rfl⟩ }

theorem State.Inv.dropProfile (h : s.Inv) (req : Req) : (s.dropProfile req).Inv := by
  unfold State.dropProfile
  split
  · exact h.dropPsel
  · exact h

theorem Cfg.legal_catalog {c : Cfg} (h : c.legal = true) : Cfg.catalogLegal c.catalog = true := by
  simp only [Cfg.legal, Bool.and_eq_true] at h
  exact h.2

/-- A block of a legal catalog has indices that PSEL's fields hold whole (R170). -/
theorem Cfg.catalogLegal_bounds {cat : List Profile} (h : Cfg.catalogLegal cat = true) {x y : Nat} {b : DataBlock}
    (hb : catalogBlock cat x y = some b) : x < 32768 ∧ y < 65536 := by
  simp only [Cfg.catalogLegal, Bool.and_eq_true, decide_eq_true_eq, List.all_eq_true] at h
  unfold catalogBlock at hb
  cases he : cat[x]? with
  | none => simp [he] at hb
  | some e =>
    simp only [he, Option.bind_some] at hb
    have hx := (List.getElem?_eq_some_iff.mp he).1
    have hy := (List.getElem?_eq_some_iff.mp hb).1
    have := (h.2 e (List.mem_of_getElem? he)).1
    omega

theorem pselOf_entry {x y : Nat} (hx : x < 32768) : (pselOf x y).entry.toNat = x := by
  simp [pselOf, Nat.mod_eq_of_lt hx]

theorem pselOf_block {x y : Nat} (hy : y < 65536) : (pselOf x y).block.toNat = y := by
  simp [pselOf, Nat.mod_eq_of_lt hy]

theorem State.Inv.setPsel (h : s.Inv) {x y : Nat} {b : DataBlock} (hb : catalogBlock s.cfg.catalog x y = some b) :
    (s.setPsel (pselOf x y)).Inv := by
  have hxy := Cfg.catalogLegal_bounds (Cfg.legal_catalog h.cfgLegal) hb
  refine { h with pselBlock := fun _ => ?_, pselZero := fun hv => (by cases hv) }
  show (catalogBlock s.cfg.catalog (pselOf x y).entry.toNat (pselOf x y).block.toNat).isSome = true
  rw [pselOf_entry hxy.1, pselOf_block hxy.2, hb]
  rfl

theorem State.Inv.setRx (h : s.Inv) {r : List Byte} (hr : r.length ≤ s.cfg.rxbufCap) : (s.setRx r).Inv :=
  { h with
    rxbufWf := Store.wf_writeList _ h.rxbufWf _ _
    rxbufBelow := Store.below_writeList _ h.rxbufBelow _ _ (by simpa using hr)
    rxlenLe := hr }

theorem State.Inv.setTx (h : s.Inv) {f : List Byte} (h7 : 7 ≤ f.length) (hf : f.length ≤ pTxCap) : (s.setTx f).Inv :=
  { h with
    txbufWf := Store.wf_writeList _ h.txbufWf _ _
    txbufBelow := Store.below_writeList _ h.txbufBelow _ _ (by simpa using hf)
    txlenRange := .inr ⟨h7, hf⟩ }

theorem State.Inv.loadFrame (h : s.Inv) (t : Byte) {d o : List Byte} (hd : d.length ≤ pDataCap) (ho : o.length ≤ pOptCap) :
    (s.loadFrame t d o).Inv :=
  { h with
    fdataWf := Store.wf_writeList _ h.fdataWf _ _
    fdataBelow := Store.below_writeList _ h.fdataBelow _ _ (by simpa using hd)
    foptWf := Store.wf_writeList _ h.foptWf _ _
    foptBelow := Store.below_writeList _ h.foptBelow _ _ (by simpa using ho) }

theorem State.Inv.writeFdata (h : s.Inv) {a : Nat} {b : List Byte} (hb : a + b.length ≤ pDataCap) :
    (s.writeFdata a b).Inv :=
  { h with
    fdataWf := Store.wf_writeList _ h.fdataWf _ _
    fdataBelow := Store.below_writeList _ h.fdataBelow _ _ hb }

theorem State.Inv.writeFopt (h : s.Inv) {a : Nat} {b : List Byte} (hb : a + b.length ≤ pOptCap) :
    (s.writeFopt a b).Inv :=
  { h with
    foptWf := Store.wf_writeList _ h.foptWf _ _
    foptBelow := Store.below_writeList _ h.foptBelow _ _ hb }

theorem State.Inv.setBvData (h : s.Inv) {r : List Bool} (hr : r.length ≤ pBvCap) : (s.setBvData r).Inv :=
  { h with
    bvDataWf := Store.wf_writeList _ h.bvDataWf _ _
    bvDataBelow := Store.below_writeList _ h.bvDataBelow _ _ (by simpa using hr)
    bvDlenLe := hr }

theorem State.Inv.setBvStat (h : s.Inv) {r : List Bool} (hr : r.length ≤ pBsCap) : (s.setBvStat r).Inv :=
  { h with
    bvStatWf := Store.wf_writeList _ h.bvStatWf _ _
    bvStatBelow := Store.below_writeList _ h.bvStatBelow _ _ (by simpa using hr)
    bvSlenLe := hr }

theorem State.Inv.writeBits (h : s.Inv) {vd vs : List Bool} (hd : vd.length ≤ pBvCap) (hs : vs.length ≤ pBsCap) :
    (s.writeBits vd vs).Inv :=
  { h with
    bvDataWf := Store.wf_writeList _ h.bvDataWf _ _
    bvDataBelow := Store.below_writeList _ h.bvDataBelow _ _ (by simpa using hd)
    bvStatWf := Store.wf_writeList _ h.bvStatWf _ _
    bvStatBelow := Store.below_writeList _ h.bvStatBelow _ _ (by simpa using hs) }

/-- The record an unlisted entry reads as. -/
theorem FieldRec.ok_blank : (Store.blank : FieldRec).Ok := by constructor <;> decide

/-- Every record the field codec gives is as R50 has it. -/
theorem FieldRec.ok_of_mem_fieldDecode {blk : DataBlock} {vd vs : List Bool} {r : FieldRec}
    (h : r ∈ fieldDecode blk vd vs) : r.Ok := by
  obtain ⟨⟨F, i⟩, -, h⟩ := List.mem_filterMap.mp h
  unfold decodeField at h
  dsimp only at h
  split at h
  · cases h
  · split at h
    · split at h
      · cases h
      · rename_i hm
        cases h
        exact { matched := fun _ => enumMatch_kind hm, unmatched := fun hk => absurd rfl hk
                scaled := fun hs => (by cases hs), display := fun _ => rfl }
    · cases h
      constructor <;> simp +contextual
    · cases h
      constructor <;> simp

theorem State.Inv.writeFields (h : s.Inv) {out : List FieldRec} (ho : ∀ r ∈ out, r.Ok) : (s.writeFields out).Inv :=
  { h with
    ftWf := Store.wf_writeList _ h.ftWf _ _
    ftBelow := Store.below_writeList _ h.ftBelow _ _ (by simp)
    nfieldsLe := min_le_right _ _
    ftRecords := Store.forall_read_writeList h.ftWf h.ftRecords _ fun r hr => ho r (List.mem_of_mem_take hr) }

theorem State.Inv.setChain (h : s.Inv) {c : List (Option ChainSlot)} (hl : c.length = s.cfg.chainSlots)
    (hs : ∀ x ∈ c, slotOk s.cfg x = true) (hk : c.Pairwise fun x y => keysDiffer x y = true) : (s.setChain c).Inv :=
  { h with chainLen := hl, chainSlotsOk := hs, chainKeys := hk }

theorem State.Inv.consumeRx (h : s.Inv) (r : DecodeResult) (hr : r.rem.length ≤ s.cfg.rxbufCap) : (s.consumeRx r).Inv :=
  ((h.setRes0 _).setRes1 _).setRx hr

theorem State.Inv.countMismatch (h : s.Inv) (c : ResultCode) : (s.countMismatch c).Inv := by
  unfold State.countMismatch
  split
  · exact h.countCrcerr
  · exact h

/-- The bits a radio-class packet loads fit the vectors when its data fits FDATA. -/
theorem State.Inv.loadBits (h : s.Inv) {d : List Byte} (hd : d.length ≤ pDataCap) : (s.loadBits d).Inv := by
  have h1 : (slice d 1 (1 + (d.length - 6))).length ≤ d.length - 6 := by
    simp [slice]
    omega
  have hd' : d.length ≤ 65535 := hd
  refine State.Inv.setBvStat (State.Inv.setBvData h ?_) ?_
  · rw [length_bytesToBits_of_le _ _ (by omega)]
    show 8 * (d.length - 6) ≤ 524280
    omega
  · rw [length_bytesToBits_of_le _ _ (by simp)]
    show (8 : Nat) ≤ 8
    omega

end Sys2Proof.Machine
end

