-- ==== Sys2Proof/Laws/Parse.lean ====
section
/-! SUPPORT. Once over, everything Parse can do: which state it may change, and the codes it returns. -/

namespace Sys2Proof.Machine

/-- `s'` differs from `s` at most in the state Parse writes (R192): the view, PSEL, the bit vectors, the field table, the
F registers and buffers, the chain table, CNT_ORPHAN, and LENOOC and FLDOVF, which it only sets. -/
structure ParseFrame (s s' : State) : Prop where
  cfg : s'.cfg = s.cfg
  ctrl : s'.ctrl = s.ctrl
  cmdl : s'.cmdl = s.cmdl
  arg0 : s'.arg0 = s.arg0
  arg1 : s'.arg1 = s.arg1
  arg2 : s'.arg2 = s.arg2
  arg3 : s'.arg3 = s.arg3
  res0 : s'.res0 = s.res0
  res1 : s'.res1 = s.res1
  res2 : s'.res2 = s.res2
  rxbuf : s'.rxbuf = s.rxbuf
  rxlen : s'.rxlen = s.rxlen
  txbuf : s'.txbuf = s.txbuf
  txlen : s'.txlen = s.txlen
  nv : s'.nv = s.nv
  cntFrames : s'.cntFrames = s.cntFrames
  cntCrcerr : s'.cntCrcerr = s.cntCrcerr
  host : s'.host = s.host
  delay : s'.delay = s.delay
  draws : s'.draws = s.draws
  status : s'.status = { s.status with lenooc := s'.status.lenooc, fldovf := s'.status.fldovf }
  lenooc : s.status.lenooc = true → s'.status.lenooc = true
  fldovf : s.status.fldovf = true → s'.status.fldovf = true

theorem ParseFrame.refl (s : State) : ParseFrame s s := by
  constructor <;> first | rfl | exact id

theorem ParseFrame.trans {a b c : State} (h : ParseFrame a b) (k : ParseFrame b c) : ParseFrame a c where
  cfg := k.cfg.trans h.cfg
  ctrl := k.ctrl.trans h.ctrl
  cmdl := k.cmdl.trans h.cmdl
  arg0 := k.arg0.trans h.arg0
  arg1 := k.arg1.trans h.arg1
  arg2 := k.arg2.trans h.arg2
  arg3 := k.arg3.trans h.arg3
  res0 := k.res0.trans h.res0
  res1 := k.res1.trans h.res1
  res2 := k.res2.trans h.res2
  rxbuf := k.rxbuf.trans h.rxbuf
  rxlen := k.rxlen.trans h.rxlen
  txbuf := k.txbuf.trans h.txbuf
  txlen := k.txlen.trans h.txlen
  nv := k.nv.trans h.nv
  cntFrames := k.cntFrames.trans h.cntFrames
  cntCrcerr := k.cntCrcerr.trans h.cntCrcerr
  host := k.host.trans h.host
  delay := k.delay.trans h.delay
  draws := k.draws.trans h.draws
  status := by rw [k.status, h.status]
  lenooc := fun x => k.lenooc (h.lenooc x)
  fldovf := fun x => k.fldovf (h.fldovf x)

variable (s : State)

theorem ParseFrame.setView (v : View) : ParseFrame s (s.setView v) := by
  constructor <;> first | rfl | exact id

theorem ParseFrame.setPsel (p : Psel) : ParseFrame s (s.setPsel p) := by
  constructor <;> first | rfl | exact id

theorem ParseFrame.setChain (c : List (Option ChainSlot)) : ParseFrame s (s.setChain c) := by
  constructor <;> first | rfl | exact id

theorem ParseFrame.clearView : ParseFrame s s.clearView := by
  constructor <;> first | rfl | exact id

theorem ParseFrame.loadFrame (t : Byte) (d o : List Byte) : ParseFrame s (s.loadFrame t d o) := by
  constructor <;> first | rfl | exact id

theorem ParseFrame.loadBits (d : List Byte) : ParseFrame s (s.loadBits d) := by
  constructor <;> first | rfl | exact id

theorem ParseFrame.countOrphan : ParseFrame s s.countOrphan := by
  constructor <;> first | rfl | exact id

theorem ParseFrame.flagLenooc (b : Bool) : ParseFrame s (s.flagLenooc b) := by
  constructor <;> first | rfl | exact id | (intro h; simp [h])

theorem ParseFrame.writeFields (out : List FieldRec) : ParseFrame s (s.writeFields out) := by
  constructor <;> first | rfl | exact id | (intro h; simp [h])

theorem ParseFrame.dropProfile (req : Req) : ParseFrame s (s.dropProfile req) := by
  unfold State.dropProfile
  split
  · exact .setPsel s _
  · exact .refl s

theorem ParseFrame.fieldStep (c : Byte) (cmd : Option Byte) (req : Req) : ParseFrame s (fieldStep c cmd req s) := by
  unfold Machine.fieldStep
  split
  · dsimp only
    split
    · exact .setView s _
    · exact (((ParseFrame.setView s _).trans (.setPsel _ _)).trans (.writeFields _ _)).trans (.setView _ _)
  · exact .refl s

theorem ParseFrame.degrade (t : Byte) (d : List Byte) : ParseFrame s (degrade t d s).1 := .setView s _

theorem ParseFrame.parseRadio (v : Variant) (t : Byte) (d o : List Byte) (req : Req) :
    ParseFrame s (parseRadio v t d o req s).1 := by
  unfold Machine.parseRadio
  split
  · exact .degrade s t d
  · exact (((((ParseFrame.setView s _).trans (.loadBits _ d)).trans (.setView _ _)).trans (.setView _ _)).trans
      (.fieldStep _ _ _ _)).trans (.setView _ _)

/-- The codes a parse may return (R246, R208). -/
def parseCodes : List ResultCode := [.ok, .chainPending, .chainOrphan, .chainFull, .chainTooLong, .malformed]

/-- A parse step keeps to Parse's state and to its codes. -/
def ParseOk (s : State) (r : State × ResultCode) : Prop := ParseFrame s r.1 ∧ r.2 ∈ parseCodes

theorem ParseOk.degrade (t : Byte) (d : List Byte) : ParseOk s (degrade t d s) :=
  ⟨.degrade s t d, by simp [Machine.degrade, parseCodes]⟩

theorem ParseOk.parseRadio (v : Variant) (t : Byte) (d o : List Byte) (req : Req) :
    ParseOk s (parseRadio v t d o req s) := by
  refine ⟨.parseRadio s v t d o req, ?_⟩
  unfold Machine.parseRadio
  split <;> simp [Machine.degrade, parseCodes]

/-- What `parseWith` can do, given what its chained case can do. -/
theorem ParseOk.parseWith (chained : State → State × ResultCode) (hc : ∀ x, ParseOk x (chained x)) (t : Byte)
    (d o : List Byte) (req : Req) : ParseOk s (parseWith chained t d o req s) := by
  have h1 : ParseFrame s (s.clearView.dropProfile req) := (ParseFrame.clearView s).trans (.dropProfile _ req)
  have lift : ∀ r, ParseOk (s.clearView.dropProfile req) r → ParseOk s r := fun r h => ⟨h1.trans h.1, h.2⟩
  have hg : ParseOk (s.clearView.dropProfile req) (parseGeneric t d (s.clearView.dropProfile req)) :=
    ⟨.setView _ _, by simp [parseGeneric, parseCodes]⟩
  have hcode : ∀ v, ParseOk (s.clearView.dropProfile req) (parseCode v t d (s.clearView.dropProfile req)) :=
    fun v => ⟨.setView _ _, by simp [parseCode, parseCodes]⟩
  unfold Machine.parseWith
  dsimp only
  apply lift
  split
  · exact hg
  · exact hcode _
  · exact hcode _
  · exact .parseRadio _ _ _ _ _ _
  · exact .parseRadio _ _ _ _ _ _
  · exact .parseRadio _ _ _ _ _ _
  · exact hc _
  · exact hg

theorem ParseOk.complete (i : Nat) (c : ChainSlot) (req : Req) : ParseOk s (complete i c req s) := by
  have h := ParseOk.parseWith ((s.setChain (s.chain.set i none)).loadFrame pTypeRadio (syntheticData c) c.opt)
    (Machine.degrade pTypeRadio (syntheticData c)) (fun x => .degrade x _ _) pTypeRadio (syntheticData c) c.opt req
  exact ⟨(((ParseFrame.setChain s _).trans (.loadFrame _ _ _ _)).trans h.1).trans (.setView _ _), h.2⟩

theorem ParseOk.chainFeed (t : Byte) (d o : List Byte) (req : Req) : ParseOk s (chainFeed t d o req s) := by
  unfold Machine.chainFeed
  split
  · exact .degrade s t d
  · dsimp only
    split
    · unfold firstFragment
      have h1 := (ParseFrame.setView s (fragmentView (decide (category d = s.cfg.rorgCdmProp)) t d o s.view)).trans
        (.flagLenooc _ (lenOutOfContract (decide (category d = s.cfg.rorgCdmProp)) d))
      split
      · exact ⟨h1, by simp [parseCodes]⟩
      · split
        · exact ⟨h1, by simp [parseCodes]⟩
        · exact ⟨h1.trans (.setChain _ _), by simp [parseCodes]⟩
    · split
      · exact ⟨(ParseFrame.setView s _).trans (.countOrphan _), by simp [parseCodes]⟩
      · unfold continueChain
        dsimp only
        have h1 := fun v c => (ParseFrame.setView s v).trans (.setChain _ c)
        split
        · have h2 := fun i c x => ParseOk.complete x i c req
          exact ⟨(h1 _ _).trans (h2 _ _ _).1, (h2 _ _ _).2⟩
        · exact ⟨h1 _ _, by simp [parseCodes]⟩

/-- Everything Parse can do. -/
theorem ParseOk.parsePacket (t : Byte) (d o : List Byte) (req : Req) : ParseOk s (parsePacket t d o req s) :=
  .parseWith s _ (fun x => .chainFeed x t d o req) t d o req

end Sys2Proof.Machine
end

