-- ==== Sys2Proof/Laws/ParseInv.lean ====
section
/-! SUPPORT. Parse keeps the invariant: the view it leaves, the sizes of what it loads, and the chain table. -/

namespace Sys2Proof.Machine

/-! ### The view of a radio-class packet -/

/-- What a radio-class view of category `c` has while the rows of R206 are applied. -/
structure RadioView (c : Byte) (v : View) : Prop where
  rorg : v.rorg = c
  code : v.code = 0
  chainIdx : v.chainIdx = 0
  chainSeq : v.chainSeq = 0
  chainProp : v.chainProp = false
  chainValid : v.chainValid = false
  degraded : v.flags.degraded = false
  manuf : v.flags.manufValid = false → v.manuf = 0
  cmd : v.flags.cmdValid = false → v.cmd = 0
  ute : c ≠ pRorgUte →
    v.uteReq = 0 ∧ v.uteChannel = 0 ∧ v.uteRorg = 0 ∧ v.flags.unidir = false ∧ v.flags.respExpected = false
  telegram : v.flags.ftValid = true → v.flags.containsEep = true ∨ c = pRorgUte
  maker : v.flags.manufValid = true → v.flags.containsEep = true ∨ c = pRorgMsc ∨ c = pRorgUte

/-- What it has once they are: a 4BS identity and a UTE identity are whole. -/
structure RadioDone (c : Byte) (v : View) : Prop extends RadioView c v where
  identity : v.flags.containsEep = true →
    c = pRorg4bs ∧ v.flags.learn = true ∧ v.flags.ftValid = true ∧ v.flags.manufValid = true
  uteIdentity : c = pRorgUte → v.flags.ftValid = true ∧ v.flags.manufValid = true

theorem RadioView.attributes (t : Byte) (d o : List Byte) :
    RadioView (category d) (radioAttributes t d o View.cleared) := by
  constructor <;> simp [radioAttributes, View.cleared]

theorem RadioView.setLearn {c : Byte} {v : View} (h : RadioView c v) (x : Bool) : RadioView c (v.setLearn x) := { h with }

theorem RadioView.learnRow {c : Byte} {v : View} (h : RadioView c v) (u : Nat) (b : List Bool) :
    RadioView c (learnRow c u b v) := by
  unfold Machine.learnRow
  split
  · exact h.setLearn _
  · exact h

/-- A telegram whose identity rows are still to come: no flag of an identity is set. -/
def View.noIdentity (v : View) : Prop :=
  v.flags.containsEep = false ∧ v.flags.ftValid = false ∧ v.flags.manufValid = false

theorem View.noIdentity.learnRow {v : View} (h : v.noIdentity) (c : Byte) (u : Nat) (b : List Bool) :
    (learnRow c u b v).noIdentity := by
  unfold Machine.learnRow
  split
  · exact h
  · exact h

theorem RadioView.eepRow {c : Byte} {v : View} (h : RadioView c v) (hn : v.noIdentity) (u : Nat) (b : List Bool) :
    RadioView c (eepRow c u b v) := by
  obtain ⟨-, hf, hm⟩ := hn
  unfold Machine.eepRow
  split
  · exact { h with telegram := fun hx => by simp [hf] at hx, maker := fun hx => by simp [hm] at hx }
  · exact h

theorem RadioView.identityRow {c : Byte} {v : View} (h : RadioView c v) (u : Nat) (b : List Bool) :
    RadioView c (identityRow c u b v) := by
  unfold Machine.identityRow
  split
  · rename_i hc
    exact
      { h with
        manuf := fun hm => (by cases hm), telegram := fun _ => .inl hc.2.2.2, maker := fun _ => .inl hc.2.2.2 }
  · exact h

theorem RadioView.mscRow {c : Byte} {v : View} (h : RadioView c v) (u : Nat) (b : List Bool) :
    RadioView c (mscRow c u b v) := by
  unfold Machine.mscRow
  split
  · rename_i hc
    exact { h with manuf := fun hm => (by cases hm), maker := fun _ => .inr (.inl hc.1) }
  · exact h

theorem RadioView.uteRow {c : Byte} {v : View} (h : RadioView c v) (d : List Byte) (b : List Bool) :
    RadioView c (uteRow c d b v) := by
  unfold Machine.uteRow
  split
  · rename_i hc
    exact
      { h with
        manuf := fun hm => (by cases hm), ute := fun hn => absurd hc hn
        telegram := fun _ => .inr hc, maker := fun _ => .inr (.inr hc) }
  · exact h

/-- The two 4BS rows together: CONTAINS_EEP is set only with the whole identity. -/
theorem identityRow_eepRow {c : Byte} {u : Nat} {b : List Bool} {v : View} (hn : v.noIdentity)
    (h : (identityRow c u b (eepRow c u b v)).flags.containsEep = true) :
    c = pRorg4bs ∧ (identityRow c u b (eepRow c u b v)).flags.learn = true ∧
      (identityRow c u b (eepRow c u b v)).flags.ftValid = true ∧
      (identityRow c u b (eepRow c u b v)).flags.manufValid = true := by
  by_cases he : c = pRorg4bs ∧ 3 ≤ u ∧ v.flags.learn = true
  · have hr : eepRow c u b v = { v with flags := { v.flags with containsEep := b.getD (8 * u - 8) false } } := if_pos he
    rw [hr] at h ⊢
    unfold Machine.identityRow at h ⊢
    split at h
    · rename_i hc
      rw [if_pos hc]
      exact ⟨he.1, he.2.2, rfl, rfl⟩
    · rename_i hc
      exact absurd ⟨he.1, he.2.1, he.2.2, h⟩ hc
  · have hr : eepRow c u b v = v := if_neg he
    rw [hr] at h ⊢
    unfold Machine.identityRow at h
    split at h
    · rename_i hc
      exact absurd ⟨hc.1, hc.2.1, hc.2.2.1⟩ he
    · rw [hn.1] at h
      cases h

theorem RadioView.subFields {v : View} (d : List Byte) (u : Nat) (b : List Bool) (h : RadioView (category d) v)
    (hn : v.noIdentity) : RadioDone (category d) (subFields d u b v) := by
  have hl := hn.learnRow (category d) u b
  have h3 := ((h.learnRow u b).eepRow hl u b).identityRow u b
  have hid := identityRow_eepRow (c := category d) (u := u) (b := b) hl
  unfold Machine.subFields
  dsimp only
  generalize Machine.identityRow (category d) u b
    (Machine.eepRow (category d) u b (Machine.learnRow (category d) u b v)) = w at h3 hid
  refine { (h3.mscRow u b).uteRow d b with identity := fun he => ?_, uteIdentity := fun hc => ?_ }
  · have he' : w.flags.containsEep = true := by
      unfold Machine.uteRow Machine.mscRow at he
      split at he <;> split at he <;> exact he
    obtain ⟨hc, hr⟩ := hid he'
    refine ⟨hc, ?_⟩
    have hw : Machine.uteRow (category d) d b (Machine.mscRow (category d) u b w) = w := by
      simp [Machine.uteRow, Machine.mscRow, hc, pRorg4bs, pRorgUte, pRorgMsc]
    rw [hw]
    exact hr
  · simp [Machine.uteRow, hc]

theorem RadioDone.withCommand {c : Byte} {v : View} (h : RadioDone c v) (cmd : Option Byte) :
    RadioDone c (v.withCommand cmd) := by
  unfold View.withCommand
  split
  · exact { h with cmd := fun hm => (by cases hm) }
  · exact h

theorem RadioDone.withRequest {c : Byte} {v : View} (h : RadioDone c v) (req : Req) : RadioDone c (v.withRequest req) := by
  unfold View.withRequest
  split
  · exact h
  · exact { h with }

theorem RadioDone.found {c : Byte} {v : View} (h : RadioDone c v) (x : Bool) :
    RadioDone c { v with flags := { v.flags with profileFound := x } } := { h with }

/-- The view the field step leaves. -/
theorem RadioDone.fieldStep {k : Byte} {s : State} (h : RadioDone k s.view) (c : Byte) (cmd : Option Byte) (req : Req) :
    RadioDone k (fieldStep c cmd req s).view := by
  unfold Machine.fieldStep
  split
  · dsimp only
    split
    · exact h.withRequest req
    · exact (h.withRequest req).found true
  · exact h

/-- A radio-class view is a legal one. -/
theorem RadioDone.inv {c : Byte} {v : View} (h : RadioDone c v) {k : Variant} (hk : k = .radio ∨ k = .msc ∨ k = .ute)
    (hu : k = .ute ↔ c = pRorgUte) : View.Inv { v with variant := k } where
  nothing := fun hn => by rcases hk with rfl | rfl | rfl <;> cases hn
  plain := fun hn => by rcases hk with rfl | rfl | rfl <;> rcases hn with hn | hn | hn <;> cases hn
  identity := fun he => ⟨h.rorg.trans (h.identity he).1, (h.identity he).2⟩
  telegram := fun hf => (h.telegram hf).imp_right hu.mpr
  maker := fun hm => (h.maker hm).imp_right (Or.imp h.rorg.trans hu.mpr)
  uteIdentity := fun hn => ⟨h.rorg.trans (hu.mp hn), h.uteIdentity (hu.mp hn)⟩
  manuf := h.manuf
  cmd := h.cmd
  code := fun _ => h.code
  codeShown := fun hn => by rcases hk with rfl | rfl | rfl <;> rcases hn with hn | hn <;> cases hn
  ute := fun hn => h.ute fun hc => hn (hu.mpr hc)
  chain := fun _ => ⟨h.chainIdx, h.chainSeq, h.chainProp, h.chainValid⟩
  chained := fun hn => by rcases hk with rfl | rfl | rfl <;> cases hn
  degraded := fun hd => by
    have := h.degraded
    simp_all

/-- A packet dispatches UTE exactly when its category is P_RORG_UTE (R190). -/
theorem dispatchOf_eq_ute {cfg : Cfg} {t : Byte} {d : List Byte} : dispatchOf cfg t d = .ute ↔ category d = pRorgUte := by
  unfold dispatchOf
  cases d with
  | nil => simp [category, pRorgUte]
  | cons c d =>
    show _ ↔ c = pRorgUte
    dsimp only
    split
    · simp_all
    · split_ifs <;> simp_all

/-! ### The other views -/

theorem View.inv_degrade (t c : Byte) :
    View.Inv { View.cleared with variant := .generic, ptype := t, rorg := c,
                                 flags := { View.cleared.flags with degraded := true } } := by
  constructor <;> simp [View.cleared]

theorem View.inv_generic (t c : Byte) : View.Inv { View.cleared with variant := .generic, ptype := t, rorg := c } := by
  constructor <;> simp [View.cleared]

theorem View.inv_code (v : Variant) (hv : v = .response ∨ v = .event) (t c : Byte) :
    View.Inv { View.cleared with variant := v, ptype := t, rorg := c, code := c } := by
  rcases hv with rfl | rfl <;> constructor <;> simp [View.cleared]

theorem View.inv_fragment (prop : Bool) (t : Byte) (d o : List Byte) :
    View.Inv (fragmentView prop t d o View.cleared) := by
  constructor <;> simp [View.cleared, fragmentView]

/-- A completed chain's view: the re-entered parse's, shown as CHAINED with the fragment's control byte. -/
theorem View.Inv.completed {v : View} (h : v.Inv) (hv : v.variant ≠ .ute) (hc : ¬(v.variant = .response ∨ v.variant = .event))
    (hd : v.flags.degraded = true → v.flags.profileFound = false ∧ v.flags.learn = false) (i q : BitVec 4) (p : Bool) :
    View.Inv { v with variant := .chained, chainIdx := i, chainSeq := q, chainProp := p, chainValid := true } where
  nothing := fun hn => by cases hn
  plain := fun hn => by rcases hn with hn | hn | hn <;> cases hn
  identity := h.identity
  telegram := fun hf => .inl ((h.telegram hf).resolve_right hv)
  maker := fun hm => (h.maker hm).imp_right fun hx => .inl (hx.resolve_right hv)
  uteIdentity := fun hn => by cases hn
  manuf := h.manuf
  cmd := h.cmd
  code := fun _ => h.code hc
  codeShown := fun hn => by rcases hn with hn | hn <;> cases hn
  ute := fun _ => h.ute hv
  chain := fun hn => absurd rfl hn
  chained := fun _ => rfl
  degraded := fun hg => ⟨.inr rfl, hd hg⟩

/-! ### The parse of every variant but the chained -/

/-- Everything the invariant says but what it says of the view. -/
def State.InvButView (s : State) : Prop := ∀ v : View, v.Inv → (s.setView v).Inv

theorem State.Inv.butView {s : State} (h : s.Inv) : s.InvButView := fun _ hv => h.setView hv

theorem State.InvButView.setView {s : State} (h : s.InvButView) (v : View) : (s.setView v).InvButView := h

theorem State.InvButView.loadBits {s : State} (h : s.InvButView) {d : List Byte} (hd : d.length ≤ pDataCap) :
    (s.loadBits d).InvButView := fun _ hv =>
  { ((h View.cleared View.inv_cleared).loadBits hd) with viewInv := hv }

theorem State.InvButView.fieldStep {s : State} (h : s.InvButView) (c : Byte) (cmd : Option Byte) (req : Req) :
    (Machine.fieldStep c cmd req s).InvButView := by
  unfold Machine.fieldStep
  split
  · dsimp only
    split
    · exact h
    · rename_i x y hf
      obtain ⟨_, b, _, _, _, _, _, hb⟩ := findProfile_block hf
      intro v hv
      have h0 : ((s.setView View.cleared).setPsel (pselOf x y)).Inv := (h View.cleared View.inv_cleared).setPsel hb
      refine { h0.writeFields ?_ with viewInv := hv }
      split
      · exact fun _ hr => FieldRec.ok_of_mem_fieldDecode hr
      · exact fun _ hr => by cases hr
  · exact h

theorem State.Inv.degrade {s : State} (h : s.Inv) (hc : s.view = View.cleared) (t : Byte) (d : List Byte) :
    (Machine.degrade t d s).1.Inv := by
  unfold Machine.degrade
  rw [hc]
  exact h.setView (View.inv_degrade t (category d))

theorem State.Inv.parseRadio {s : State} (h : s.Inv) (hc : s.view = View.cleared) (v : Variant)
    (hk : v = .radio ∨ v = .msc ∨ v = .ute) (t : Byte) (d o : List Byte) (req : Req) (hd : d.length ≤ pDataCap)
    (hu : v = .ute ↔ category d = pRorgUte) : (Machine.parseRadio v t d o req s).1.Inv := by
  unfold Machine.parseRadio
  split
  · exact h.degrade hc t d
  · have hr : RadioView (category d) (radioAttributes t d o s.view) := by
      rw [hc]
      exact .attributes t d o
    have hn : ((radioAttributes t d o s.view).setLearn true).noIdentity := by
      rw [hc]
      exact ⟨rfl, rfl, rfl⟩
    have hb := h.butView.loadBits hd
    unfold parseRadioFull
    dsimp only
    apply (State.InvButView.fieldStep (hb.setView _) _ _ _)
    apply RadioDone.inv (c := category d) _ hk hu
    apply RadioDone.fieldStep
    exact (RadioView.subFields d _ _ (hr.setLearn true) hn).withCommand _

theorem dropProfile_view (s : State) (req : Req) : (s.dropProfile req).view = s.view := by
  unfold State.dropProfile
  split <;> rfl

theorem dropProfile_cfg (s : State) (req : Req) : (s.dropProfile req).cfg = s.cfg := by
  unfold State.dropProfile
  split <;> rfl

theorem dropProfile_chain (s : State) (req : Req) : (s.dropProfile req).chain = s.chain := by
  unfold State.dropProfile
  split <;> rfl

theorem State.Inv.parseWith {s : State} (h : s.Inv) (chained : State → State × ResultCode) (t : Byte) (d o : List Byte)
    (req : Req) (hd : d.length ≤ pDataCap)
    (hch : ∀ x : State, x.Inv → x.view = View.cleared → x.cfg = s.cfg → x.chain = s.chain → (chained x).1.Inv) :
    (Machine.parseWith chained t d o req s).1.Inv := by
  have h1 : (s.clearView.dropProfile req).Inv := h.clearView.dropProfile req
  have hv : (s.clearView.dropProfile req).view = View.cleared := dropProfile_view _ _
  unfold Machine.parseWith
  dsimp only
  split
  · unfold parseGeneric
    rw [hv]
    exact h1.setView (View.inv_generic t (category d))
  · unfold parseCode
    rw [hv]
    exact h1.setView (View.inv_code .response (.inl rfl) t (category d))
  · unfold parseCode
    rw [hv]
    exact h1.setView (View.inv_code .event (.inr rfl) t (category d))
  · rename_i hk
    exact h1.parseRadio hv .radio (.inl rfl) t d o req hd (by rw [← dispatchOf_eq_ute (cfg := s.cfg) (t := t), hk])
  · rename_i hk
    exact h1.parseRadio hv .msc (.inr (.inl rfl)) t d o req hd (by rw [← dispatchOf_eq_ute (cfg := s.cfg) (t := t), hk])
  · rename_i hk
    exact h1.parseRadio hv .ute (.inr (.inr rfl)) t d o req hd (by rw [← dispatchOf_eq_ute (cfg := s.cfg) (t := t), hk])
  · exact hch _ h1 hv (dropProfile_cfg _ _) (dropProfile_chain _ _)
  · unfold parseGeneric
    rw [hv]
    exact h1.setView (View.inv_generic t (category d))

end Sys2Proof.Machine
end

