-- ==== Sys2Proof/Laws/Chain.lean ====
section
/-! SUPPORT. The chain table: where a key's slot stands, what a transition does to the table, and that Parse keeps the
invariant. -/

namespace Sys2Proof.Machine

theorem holdsKey_iff (snd : Word) (seq : BitVec 4) (x : Option ChainSlot) :
    holdsKey snd seq x = true ↔ ∃ c, x = some c ∧ c.sender = snd ∧ c.seq = seq := by
  cases x with
  | none => simp [holdsKey]
  | some c => simp [holdsKey]

theorem keysDiffer_iff (x y : Option ChainSlot) :
    keysDiffer x y = true ↔ ∀ c c', x = some c → y = some c' → ¬(c.sender = c'.sender ∧ c.seq = c'.seq) := by
  cases x <;> cases y <;> simp [keysDiffer]
  tauto

theorem keysDiffer_comm {x y : Option ChainSlot} (h : keysDiffer x y = true) : keysDiffer y x = true := by
  rw [keysDiffer_iff] at *
  intro c c' hc hc' hk
  exact h c' c hc' hc ⟨hk.1.symm, hk.2.symm⟩

/-- Two slots of a table with distinct keys are one when they hold one key. -/
theorem slot_unique {ct : List (Option ChainSlot)} (h : ct.Pairwise fun x y => keysDiffer x y = true) {i j : Nat}
    {c c' : ChainSlot} (hi : ct[i]? = some (some c)) (hj : ct[j]? = some (some c')) (hs : c.sender = c'.sender)
    (hq : c.seq = c'.seq) : i = j := by
  rw [List.pairwise_iff_getElem] at h
  obtain ⟨hi', hi''⟩ := List.getElem?_eq_some_iff.mp hi
  obtain ⟨hj', hj''⟩ := List.getElem?_eq_some_iff.mp hj
  rcases Nat.lt_trichotomy i j with hlt | heq | hgt
  · have := (keysDiffer_iff _ _).mp (h i j hi' hj' hlt) c c' hi'' hj''
    exact absurd ⟨hs, hq⟩ this
  · exact heq
  · have := (keysDiffer_iff _ _).mp (h j i hj' hi' hgt) c' c hj'' hi''
    exact absurd ⟨hs.symm, hq.symm⟩ this

/-- The slot found for a key holds it. -/
theorem findKey_some {ct : List (Option ChainSlot)} {snd : Word} {seq : BitVec 4} {i : Nat}
    (h : findKey ct snd seq = some i) : ∃ c, ct[i]? = some (some c) ∧ c.sender = snd ∧ c.seq = seq := by
  unfold findKey at h
  rw [List.findIdx?_eq_some_iff_getElem] at h
  obtain ⟨hi, hk, _⟩ := h
  obtain ⟨c, hc, hs, hq⟩ := (holdsKey_iff _ _ _).mp hk
  exact ⟨c, by rw [List.getElem?_eq_getElem hi, hc], hs, hq⟩

theorem findKey_none {ct : List (Option ChainSlot)} {snd : Word} {seq : BitVec 4} :
    findKey ct snd seq = none ↔ ∀ c, some c ∈ ct → ¬(c.sender = snd ∧ c.seq = seq) := by
  unfold findKey
  rw [List.findIdx?_eq_none_iff]
  constructor
  · intro h c hc hk
    have := h _ hc
    rw [(holdsKey_iff _ _ _).mpr ⟨c, rfl, hk.1, hk.2⟩] at this
    cases this
  · intro h x hx
    by_contra hb
    obtain ⟨c, rfl, hs, hq⟩ := (holdsKey_iff snd seq x).mp (by simpa using hb)
    exact h c hx ⟨hs, hq⟩

/-- In a table with distinct keys the slot that holds a key is the one found. -/
theorem findKey_of_slot {ct : List (Option ChainSlot)} (h : ct.Pairwise fun x y => keysDiffer x y = true) {i : Nat}
    {c : ChainSlot} (hi : ct[i]? = some (some c)) : findKey ct c.sender c.seq = some i := by
  cases hf : findKey ct c.sender c.seq with
  | none =>
    exact absurd ⟨rfl, rfl⟩ (findKey_none.mp hf c (List.mem_of_getElem? hi))
  | some j =>
    obtain ⟨c', hj, hs, hq⟩ := findKey_some hf
    rw [slot_unique h hi hj hs.symm hq.symm]

theorem findFree_some {ct : List (Option ChainSlot)} {i : Nat} :
    findFree ct = some i ↔ ct[i]? = some none ∧ ∀ j < i, ct[j]? ≠ some none := by
  unfold findFree
  rw [List.findIdx?_eq_some_iff_getElem]
  constructor
  · rintro ⟨hi, hn, hlt⟩
    refine ⟨by simpa [List.getElem?_eq_getElem hi] using hn, fun j hj hx => ?_⟩
    have hj' : j < ct.length := by omega
    have := hlt j hj
    rw [List.getElem?_eq_getElem hj'] at hx
    simp_all
  · rintro ⟨hi, hlt⟩
    obtain ⟨hi', hi''⟩ := List.getElem?_eq_some_iff.mp hi
    refine ⟨hi', by simp [hi''], fun j hj => ?_⟩
    have hj' : j < ct.length := by omega
    have := hlt j hj
    rw [List.getElem?_eq_getElem hj'] at this
    simpa using this

theorem findFree_none {ct : List (Option ChainSlot)} : findFree ct = none ↔ none ∉ ct := by
  unfold findFree
  rw [List.findIdx?_eq_none_iff]
  constructor
  · intro h hn
    simpa using h none hn
  · intro h x hx
    cases x with
    | none => exact absurd hx h
    | some c => rfl

theorem slotWithKey_some {ct : List (Option ChainSlot)} {snd : Word} {seq : BitVec 4} {i : Nat} {c : ChainSlot}
    (h : slotWithKey ct snd seq = some (i, c)) : ct[i]? = some (some c) ∧ c.sender = snd ∧ c.seq = seq := by
  unfold slotWithKey at h
  cases hf : findKey ct snd seq with
  | none => rw [hf] at h; cases h
  | some j =>
    obtain ⟨c', hj, hs, hq⟩ := findKey_some hf
    rw [hf] at h
    simp only [Option.bind_some, hj, Option.join_some, Option.map_some, Option.some.injEq, Prod.mk.injEq] at h
    obtain ⟨rfl, rfl⟩ := h
    exact ⟨hj, hs, hq⟩

theorem slotWithKey_none {ct : List (Option ChainSlot)} {snd : Word} {seq : BitVec 4} :
    slotWithKey ct snd seq = none ↔ ∀ c, some c ∈ ct → ¬(c.sender = snd ∧ c.seq = seq) := by
  rw [← findKey_none]
  unfold slotWithKey
  cases hf : findKey ct snd seq with
  | none => simp
  | some j =>
    obtain ⟨c', hj, _⟩ := findKey_some hf
    simp [hj]

theorem slotWithKey_of_slot {ct : List (Option ChainSlot)} (h : ct.Pairwise fun x y => keysDiffer x y = true) {i : Nat}
    {c : ChainSlot} (hi : ct[i]? = some (some c)) : slotWithKey ct c.sender c.seq = some (i, c) := by
  simp [slotWithKey, findKey_of_slot h hi, hi]

/-- Freeing a slot keeps the keys distinct. -/
theorem pairwise_set_none {ct : List (Option ChainSlot)} (h : ct.Pairwise fun x y => keysDiffer x y = true) (i : Nat) :
    (ct.set i none).Pairwise fun x y => keysDiffer x y = true := by
  rw [List.pairwise_iff_getElem] at *
  intro a b ha hb hab
  simp only [List.getElem_set]
  split
  · rfl
  · split
    · exact keysDiffer_comm rfl
    · exact h a b (by simpa using ha) (by simpa using hb) hab

/-- Writing a slot keeps the keys distinct when no other slot holds its key. -/
theorem pairwise_set_some {ct : List (Option ChainSlot)} (h : ct.Pairwise fun x y => keysDiffer x y = true) (i : Nat)
    (c : ChainSlot) (hc : ∀ j c', j ≠ i → ct[j]? = some (some c') → ¬(c'.sender = c.sender ∧ c'.seq = c.seq)) :
    (ct.set i (some c)).Pairwise fun x y => keysDiffer x y = true := by
  rw [List.pairwise_iff_getElem] at *
  intro a b ha hb hab
  have ha' : a < ct.length := by simpa using ha
  have hb' : b < ct.length := by simpa using hb
  simp only [List.getElem_set]
  split
  · rename_i hia
    rw [if_neg (by omega), keysDiffer_iff]
    intro x y hx hy hk
    cases hx
    exact hc b y (by omega) (by rw [List.getElem?_eq_getElem hb', hy]) ⟨hk.1.symm, hk.2.symm⟩
  · split
    · rename_i hib
      rw [keysDiffer_iff]
      intro x y hx hy hk
      cases hy
      exact hc a x (by omega) (by rw [List.getElem?_eq_getElem ha', hx]) hk
    · exact h a b ha' hb' hab

theorem slots_set {cfg : Cfg} {ct : List (Option ChainSlot)} (h : ∀ x ∈ ct, slotOk cfg x = true) (i : Nat)
    (y : Option ChainSlot) (hy : slotOk cfg y = true) : ∀ x ∈ ct.set i y, slotOk cfg x = true := by
  intro x hx
  rcases List.mem_or_eq_of_mem_set hx with hx | rfl
  · exact h x hx
  · exact hy

theorem slotOk_some {cfg : Cfg} {c : ChainSlot} :
    slotOk cfg (some c) = true ↔ c.acc.length ≤ c.decl ∧ c.decl ≤ cfg.chainMaxLen ∧ c.opt.length ≤ 255 := by
  simp only [slotOk, Bool.and_eq_true, decide_eq_true_eq, and_assoc]
  rfl

theorem State.Inv.slot {s : State} (h : s.Inv) {i : Nat} {c : ChainSlot} (hi : s.chain[i]? = some (some c)) :
    c.acc.length ≤ c.decl ∧ c.decl ≤ s.cfg.chainMaxLen ∧ c.opt.length ≤ 255 :=
  slotOk_some.mp (h.chainSlotsOk _ (List.mem_of_getElem? hi))

theorem Cfg.legal_chainMaxLen {c : Cfg} (h : c.legal = true) : c.chainMaxLen ≤ 65529 := by
  simp only [Cfg.legal, Bool.and_eq_true, decide_eq_true_eq] at h
  exact h.1.2

theorem Cfg.legal_rorgs {c : Cfg} (h : c.legal = true) :
    c.rorgCdmProp ≠ pRorgUte ∧ c.rorgCdmProp ≠ pRorgCdm ∧ c.rorgCdmProp ≠ pRorgMsc := by
  simp only [Cfg.legal, Bool.and_eq_true, decide_eq_true_eq] at h
  tauto

@[simp] theorem length_bytes4 (w : Word) : (bytes4 w).length = 4 := rfl

theorem length_slice_zero {α : Type} (a : List α) (n : Nat) : (slice a 0 n).length = min n a.length := by simp [slice]

theorem length_syntheticData (c : ChainSlot) : (syntheticData c).length = min c.decl c.acc.length + 6 := by
  simp [syntheticData, length_slice_zero]

/-- The synthetic packet dispatches MSC under R6's constraint (R241). -/
theorem dispatchOf_synthetic {cfg : Cfg} (h : cfg.legal = true) (c : ChainSlot) :
    dispatchOf cfg pTypeRadio (syntheticData c) = .msc := by
  have := (Cfg.legal_rorgs h).2.2
  have h1 : pRorgMsc ≠ pRorgUte := by decide
  have h2 : pRorgMsc ≠ pRorgCdm := by decide
  have h3 : pTypeRadio ≠ pTypeResponse := by decide
  have h4 : pTypeRadio ≠ pTypeEvent := by decide
  simp [dispatchOf, syntheticData, h1, h2, h3, h4, this.symm]

/-- What the re-entered parse shows: an MSC packet, or the degraded view. -/
theorem parseWith_msc_view {s : State} (chained : State → State × ResultCode) (t : Byte) (d o : List Byte) (req : Req)
    (hm : dispatchOf s.cfg t d = .msc) :
    ((parseWith chained t d o req s).1.view.variant = .msc ∧ (parseWith chained t d o req s).1.view.flags.degraded = false ∧
      (parseWith chained t d o req s).2 = .ok) ∨
    ((parseWith chained t d o req s).1.view.variant = .generic ∧ (parseWith chained t d o req s).1.view.flags.degraded = true ∧
      (parseWith chained t d o req s).1.view.flags.profileFound = false ∧
      (parseWith chained t d o req s).1.view.flags.learn = false ∧ (parseWith chained t d o req s).2 = .malformed) := by
  have hv : (s.clearView.dropProfile req).view = View.cleared := dropProfile_view _ _
  unfold parseWith
  dsimp only
  rw [hm]
  dsimp only
  unfold parseRadio
  split
  · right
    simp [Machine.degrade, hv, View.cleared]
  · left
    refine ⟨rfl, ?_, rfl⟩
    have hr : RadioView (category d) (radioAttributes t d o (s.clearView.dropProfile req).view) := by
      rw [hv]
      exact .attributes t d o
    have hn : ((radioAttributes t d o (s.clearView.dropProfile req).view).setLearn true).noIdentity := by
      rw [hv]
      exact ⟨rfl, rfl, rfl⟩
    unfold parseRadioFull
    dsimp only
    refine (RadioDone.fieldStep (k := category d) ?_ _ _ _).degraded
    exact (RadioView.subFields d _ _ (hr.setLearn true) hn).withCommand _

theorem State.Inv.complete {s : State} (h : s.Inv) (i : Nat) (c : ChainSlot) (hc : slotOk s.cfg (some c) = true)
    (req : Req) (hv : s.view.chainValid = true) : (Machine.complete i c req s).1.Inv := by
  have hk := slotOk_some.mp hc
  have hmax := Cfg.legal_chainMaxLen h.cfgLegal
  have hlen : (syntheticData c).length ≤ pDataCap := by
    rw [length_syntheticData]
    show _ ≤ 65535
    omega
  have h1 : (s.setChain (s.chain.set i none)).Inv :=
    h.setChain (by simp [h.chainLen]) (slots_set h.chainSlotsOk i none rfl) (pairwise_set_none h.chainKeys i)
  have h2 := h1.loadFrame pTypeRadio hlen (o := c.opt) hk.2.2
  have hd : dispatchOf (((s.setChain (s.chain.set i none)).loadFrame pTypeRadio (syntheticData c) c.opt)).cfg pTypeRadio
      (syntheticData c) = .msc := dispatchOf_synthetic h.cfgLegal c
  have h3 := h2.parseWith (Machine.degrade pTypeRadio (syntheticData c)) pTypeRadio (syntheticData c) c.opt req hlen
    (fun x hx hxv _ _ => hx.degrade hxv _ _)
  have h4 := parseWith_msc_view (Machine.degrade pTypeRadio (syntheticData c)) pTypeRadio (syntheticData c) c.opt req hd
  unfold Machine.complete parseSynthetic
  dsimp only
  rw [hv]
  refine h3.setView (h3.viewInv.completed ?_ ?_ ?_ _ _ _)
  · rcases h4 with h4 | h4 <;> rw [h4.1] <;> decide
  · rcases h4 with h4 | h4 <;> rw [h4.1] <;> decide
  · intro hg
    rcases h4 with h4 | h4
    · rw [h4.2.1] at hg; cases hg
    · exact ⟨h4.2.2.1, h4.2.2.2.1⟩

theorem slotFor_some {ct : List (Option ChainSlot)} {snd : Word} {seq : BitVec 4} {i : Nat}
    (h : slotFor ct snd seq = some i) :
    (∃ c, ct[i]? = some (some c) ∧ c.sender = snd ∧ c.seq = seq) ∨
      (ct[i]? = some none ∧ ∀ c, some c ∈ ct → ¬(c.sender = snd ∧ c.seq = seq)) := by
  unfold slotFor at h
  split at h
  · cases h
    exact .inl (findKey_some ‹_›)
  · exact .inr ⟨(findFree_some.mp h).1, findKey_none.mp ‹_›⟩

theorem State.Inv.firstFragment {s : State} (h : s.Inv) (snd : Word) (seq : BitVec 4) (decl : Nat) (ch o : List Byte)
    (ho : o.length ≤ pOptCap) : (Machine.firstFragment snd seq decl ch o s).1.Inv := by
  unfold Machine.firstFragment
  split
  · exact h
  · split
    · exact h
    · rename_i hdecl i hi
      refine h.setChain (by simp [h.chainLen]) (slots_set h.chainSlotsOk i _ ?_) (pairwise_set_some h.chainKeys i _ ?_)
      · rw [slotOk_some]
        have : o.length ≤ 255 := ho
        simp only [List.length_take]
        omega
      · intro j c' hj hc' hk
        rcases slotFor_some hi with ⟨c, hci, hs, hq⟩ | ⟨_, hno⟩
        · exact hj (slot_unique h.chainKeys hc' hci (hk.1.trans hs.symm) (hk.2.trans hq.symm))
        · exact hno c' (List.mem_of_getElem? hc') hk

theorem ChainSlot.append_acc_length (c : ChainSlot) (ch : List Byte) (h : c.acc.length ≤ c.decl) :
    (c.append ch).acc.length ≤ c.decl := by
  simp [ChainSlot.append]
  omega

theorem State.Inv.continueChain {s : State} (h : s.Inv) (i : Nat) (c : ChainSlot) (hc : s.chain[i]? = some (some c))
    (ch : List Byte) (req : Req) (hv : s.view.chainValid = true) : (Machine.continueChain i c ch req s).1.Inv := by
  have hk := h.slot hc
  have hok : slotOk s.cfg (some (c.append ch)) = true :=
    slotOk_some.mpr ⟨c.append_acc_length ch hk.1, hk.2.1, hk.2.2⟩
  have h1 : (s.setChain (s.chain.set i (some (c.append ch)))).Inv := by
    refine h.setChain (by simp [h.chainLen]) (slots_set h.chainSlotsOk i _ hok) (pairwise_set_some h.chainKeys i _ ?_)
    intro j c' hj hc' hkk
    exact hj (slot_unique h.chainKeys hc' hc hkk.1 hkk.2)
  unfold Machine.continueChain
  dsimp only
  split
  · exact h1.complete i _ hok req hv
  · exact h1

theorem State.Inv.chainFeed {s : State} (h : s.Inv) (hc : s.view = View.cleared) (t : Byte) (d o : List Byte) (req : Req)
    (ho : o.length ≤ pOptCap) : (Machine.chainFeed t d o req s).1.Inv := by
  unfold Machine.chainFeed
  split
  · exact h.degrade hc t d
  · dsimp only
    have h1 : (s.setView (fragmentView (decide (category d = s.cfg.rorgCdmProp)) t d o s.view)).Inv := by
      rw [hc]
      exact h.setView (View.inv_fragment _ t d o)
    split
    · exact (h1.flagLenooc _).firstFragment _ _ _ _ o ho
    · split
      · exact h1.countOrphan
      · rename_i i c hi
        exact h1.continueChain i c (slotWithKey_some hi).1 _ req rfl

/-- Parse keeps the invariant, for every packet that fits the frame buffers. -/
theorem State.Inv.parsePacket {s : State} (h : s.Inv) (t : Byte) (d o : List Byte) (req : Req) (hd : d.length ≤ pDataCap)
    (ho : o.length ≤ pOptCap) : (Machine.parsePacket t d o req s).1.Inv :=
  h.parseWith _ t d o req hd fun _ hx hv _ _ => hx.chainFeed hv t d o req ho

end Sys2Proof.Machine
end

