-- ==== Sys2Proof/Laws/Encoding.lean ====
section
/-! SUPPORT. The bits of a command word assembled by `formatC`, and its fields read back. -/

namespace Sys2Proof

/-- Bit `i` of a word assembled from its fields. -/
theorem formatC_getLsbD (imm : BitVec 16) (f2 f1 f0 : Bool) (bsel : BitVec 4) (opc : Byte) (i : Nat) :
    (formatC imm f2 f1 f0 bsel opc).getLsbD i =
      if i < 8 then opc.getLsbD i else if i < 12 then bsel.getLsbD (i - 8) else if i = 12 then f0
      else if i = 13 then f1 else if i = 14 then f2 else if i = 15 then false else imm.getLsbD (i - 16) := by
  show (imm ++ (0#1 ++ BitVec.ofBool f2 ++ BitVec.ofBool f1 ++ BitVec.ofBool f0) ++ bsel ++ opc :
    BitVec (16 + (1 + 1 + 1 + 1) + 4 + 8)).getLsbD i = _
  simp only [BitVec.getLsbD_append]
  by_cases h : i < 8
  · simp [h]
  by_cases h1 : i < 12
  · simp [h, h1, show i - 8 < 4 by omega]
  by_cases h2 : i = 12
  · subst h2; simp
  by_cases h3 : i = 13
  · subst h3; simp
  by_cases h4 : i = 14
  · subst h4; simp
  by_cases h5 : i = 15
  · subst h5; simp
  · simp [h, h1, h2, h3, h4, h5, show ¬ i - 8 < 4 by omega, show ¬ i - 8 - 4 < 1 + 1 + 1 + 1 by omega,
      show i - 8 - 4 - 4 = i - 16 by omega]

variable (imm : BitVec 16) (f2 f1 f0 : Bool) (bsel : BitVec 4) (opc : Byte)

@[simp] theorem opcOf_formatC : opcOf (formatC imm f2 f1 f0 bsel opc) = opc := by
  unfold opcOf
  ext i hi
  simp only [BitVec.getElem_extractLsb', formatC_getLsbD]
  simp [hi]

@[simp] theorem bselOf_formatC : bselOf (formatC imm f2 f1 f0 bsel opc) = bsel := by
  unfold bselOf
  ext i hi
  simp only [BitVec.getElem_extractLsb', formatC_getLsbD]
  simp [hi]
  omega

@[simp] theorem immOf_formatC : immOf (formatC imm f2 f1 f0 bsel opc) = imm := by
  unfold immOf
  ext i hi
  simp only [BitVec.getElem_extractLsb', formatC_getLsbD]
  simp [show ¬ 16 + i < 8 by omega, show ¬ 16 + i < 12 by omega, show ¬ 16 + i = 12 by omega,
    show ¬ 16 + i = 13 by omega, show ¬ 16 + i = 14 by omega, show ¬ 16 + i = 15 by omega]
  exact BitVec.getLsbD_eq_getElem hi

@[simp] theorem flgOf_zero_formatC : flgOf (formatC imm f2 f1 f0 bsel opc) 0 = f0 := by
  unfold flgOf
  rw [formatC_getLsbD]
  simp

@[simp] theorem flgOf_one_formatC : flgOf (formatC imm f2 f1 f0 bsel opc) 1 = f1 := by
  unfold flgOf
  rw [formatC_getLsbD]
  simp

@[simp] theorem flgOf_two_formatC : flgOf (formatC imm f2 f1 f0 bsel opc) 2 = f2 := by
  unfold flgOf
  rw [formatC_getLsbD]
  simp

/-- OPC as an unsigned integer is the word masked to its low byte. -/
theorem opcOf_toNat (w : Word) : (opcOf w).toNat = (w &&& 0xFF).toNat := by
  unfold opcOf
  simp only [BitVec.extractLsb'_toNat, BitVec.toNat_and]
  have := Nat.and_two_pow_sub_one_eq_mod w.toNat 8
  simpa using this.symm

end Sys2Proof
end

