-- ==== Sys2Proof/Laws/Ends.lean ====
section
/-! SUPPORT. The two ways a command ends, in the terms the statements use, and the reads and operand forms they need. -/

namespace Sys2Proof.Machine

/-- The end with a code that is not fatal (R252). -/
theorem Status.commandEnd_of_not_fatal {c : ResultCode} (h : c.isFatal = false) (st : Status) :
    st.commandEnd c = st.endedOk c := by
  simp [Status.commandEnd, Status.endedOk, h]

/-- The end with a fatal code (R254). -/
theorem Status.commandEnd_of_fatal {c : ResultCode} (h : c.isFatal = true) (st : Status) :
    st.commandEnd c = st.endedFatal c := by
  simp [Status.commandEnd, Status.endedFatal, h]

theorem State.finish_of_not_fatal (s : State) {c : ResultCode} (h : c.isFatal = false) :
    s.finish c = { s with status := s.status.endedOk c } := by
  rw [State.finish, Status.commandEnd_of_not_fatal h]

theorem State.raiseFatal_of_fatal (s : State) {c : ResultCode} (h : c.isFatal = true) :
    s.raiseFatal c = { s with status := s.status.endedFatal c } := by
  rw [State.raiseFatal, State.finish, Status.commandEnd_of_fatal h]

/-- A code is fatal exactly when bit 7 of its byte is set (R250). -/
theorem ResultCode.isFatal_iff (c : ResultCode) : c.isFatal = c.code.getLsbD 7 := by cases c <;> decide

/-- A byte outside the range written keeps its value. -/
theorem Memory.byte_writeList_of_out (m : Memory) (a : Nat) (vs : List Byte) {b : Nat} (h : b < a ∨ a + vs.length ≤ b) :
    Memory.byte (Store.writeList m a vs) b = Memory.byte m b :=
  Store.read_writeList_of_out (α := Byte) m a vs h

/-- A byte of the range written is the byte written there. -/
theorem Memory.byte_writeList_of_in (m : Memory) (hm : Memory.wf m = true) (a : Nat) (vs : List Byte) (j : Nat)
    (h : j < vs.length) : Memory.byte (Store.writeList m a vs) (a + j) = vs[j] :=
  Store.read_writeList_of_in (α := Byte) m hm a vs j h

/-- The reserved selects name no buffer (R103). -/
theorem bufferOf_reserved {bsel : BitVec 4} (h : 4 ≤ bsel.toNat) : bufferOf bsel = none := by
  unfold bufferOf
  split <;> first | omega | rfl

/-- OPC of a word whose low byte is `k`. -/
theorem opcOf_of_low_byte {w : Word} {k : Nat} (h : w &&& 0xFF = BitVec.ofNat 32 k) (hk : k < 256) :
    (opcOf w).toNat = k := by
  rw [opcOf_toNat, h, BitVec.toNat_ofNat]
  omega

/-- `b[i..len(b))` drops the first `i`. -/
theorem slice_to_end {α : Type} (b : List α) (i : Nat) : slice b i b.length = b.drop i := by simp [slice]

/-- `b[i..i+n)` drops the first `i` and takes `n`. -/
theorem slice_add {α : Type} (b : List α) (i n : Nat) : slice b i (i + n) = (b.drop i).take n := by
  simp [slice, List.drop_take]

end Sys2Proof.Machine
end

