-- ==== Sys2Proof/Laws/PerInstr.lean ====
section
/-! SUPPORT. A fact of every command's encoding, one lemma per command: its word matches its row of
spec/opcode_table.json (the low byte is the row's OPC, R102). -/

namespace Sys2Proof.Laws

/-- The row's OPC byte (R102). -/
def opcode : Instr → Byte
  | .nop => 0x00
  | .crc8 _ => 0x01
  | .rxFlush => 0x02
  | .frameDecode => 0x03
  | .frameEncode => 0x04
  | .bitsUnpack _ _ => 0x05
  | .bitsToInt _ => 0x06
  | .bitsPack _ _ => 0x07
  | .findProfile _ _ => 0x08
  | .fieldDecode => 0x09
  | .fieldEncode _ => 0x0A
  | .dispatch => 0x0B
  | .parse _ _ _ => 0x0C
  | .recv _ _ _ => 0x0D
  | .create _ _ _ _ => 0x0E
  | .chainFlush => 0x0F

/-- The encoding of a command carries its row's OPC. -/
def MatchesTable.Statement (i : Instr) : Prop := opcOf (encode i) = opcode i

theorem MatchesTable.nop : MatchesTable.Statement .nop := opcOf_formatC ..

theorem MatchesTable.crc8 (b : BitVec 4) : MatchesTable.Statement (.crc8 b) := opcOf_formatC ..

theorem MatchesTable.rxFlush : MatchesTable.Statement .rxFlush := opcOf_formatC ..

theorem MatchesTable.frameDecode : MatchesTable.Statement .frameDecode := opcOf_formatC ..

theorem MatchesTable.frameEncode : MatchesTable.Statement .frameEncode := opcOf_formatC ..

theorem MatchesTable.bitsUnpack (b : BitVec 4) (f : Bool) : MatchesTable.Statement (.bitsUnpack b f) := opcOf_formatC ..

theorem MatchesTable.bitsToInt (f : Bool) : MatchesTable.Statement (.bitsToInt f) := opcOf_formatC ..

theorem MatchesTable.bitsPack (b : BitVec 4) (f : Bool) : MatchesTable.Statement (.bitsPack b f) := opcOf_formatC ..

theorem MatchesTable.findProfile (f : Bool) (g : Bool) : MatchesTable.Statement (.findProfile f g) := opcOf_formatC ..

theorem MatchesTable.fieldDecode : MatchesTable.Statement .fieldDecode := opcOf_formatC ..

theorem MatchesTable.fieldEncode (n : BitVec 16) : MatchesTable.Statement (.fieldEncode n) := opcOf_formatC ..

theorem MatchesTable.dispatch : MatchesTable.Statement .dispatch := opcOf_formatC ..

theorem MatchesTable.parse (f : Bool) (g : Bool) (h : Bool) : MatchesTable.Statement (.parse f g h) := opcOf_formatC ..

theorem MatchesTable.recv (f : Bool) (g : Bool) (h : Bool) : MatchesTable.Statement (.recv f g h) := opcOf_formatC ..

theorem MatchesTable.create (f : Bool) (g : Bool) (h : Bool) (n : BitVec 16) : MatchesTable.Statement (.create f g h n) := opcOf_formatC ..

theorem MatchesTable.chainFlush : MatchesTable.Statement .chainFlush := opcOf_formatC ..

end Sys2Proof.Laws
end

