-- ==== Sys2Proof/Tests/Slice0.lean ====
section
/-! SUPPORT. Tests, three kinds. The WellFormed smoke tests and the decoding of words written out from
spec/30_encoding.md R100 and R107. One step of each command, its expected result taken from a vector of
spec/95_test_vectors.md, named in the docstring. And, for every obligation that has hypotheses, a witness that meets
them, with the boundary value of each clause. -/

/- Each kernel evaluation below waits for everything before it. Elaborated all at once, the waiting theorems would hold
more threads than the checker's memory limit has stacks for. -/
set_option Elab.async false

namespace Sys2Proof.Tests

open Sys2Proof Sys2Proof.Machine

/-! ### Well-formedness and decoding -/

/-- R103: BSEL 4 names no buffer. -/
theorem test_wf_crc8 : (Instr.crc8 4).wellFormed = false ∧ (Instr.crc8 3).wellFormed = true := by decide

theorem test_wf_bitsUnpack :
    (Instr.bitsUnpack 15 true).wellFormed = false ∧ (Instr.bitsUnpack 3 true).wellFormed = true := by decide

/-- R107: BITS_PACK admits FDATA and FOPT alone. -/
theorem test_wf_bitsPack :
    (Instr.bitsPack 2 false).wellFormed = false ∧ (Instr.bitsPack 1 false).wellFormed = true := by decide

theorem test_decode_nop : decode 0xFFFFF000 = .ok .nop := by decide

theorem test_decode_crc8 : decode 0x00000301 = .ok (.crc8 3) := by decide

theorem test_decode_rxFlush : decode 0x00000002 = .ok .rxFlush := by decide

theorem test_decode_frameDecode : decode 0x00000003 = .ok .frameDecode := by decide

theorem test_decode_frameEncode : decode 0x00000004 = .ok .frameEncode := by decide

theorem test_decode_bitsUnpack : decode 0x00001205 = .ok (.bitsUnpack 2 true) := by decide

theorem test_decode_bitsToInt : decode 0x00001006 = .ok (.bitsToInt true) := by decide

theorem test_decode_bitsPack : decode 0x00001107 = .ok (.bitsPack 1 true) := by decide

/-- `FIND_PROFILE +D`, then `+C`: FLG[1] is bit 13 and FLG[2] bit 14. -/
theorem test_decode_findProfile :
    decode 0x00002008 = .ok (.findProfile true false) ∧ decode 0x00004008 = .ok (.findProfile false true) := by decide

theorem test_decode_fieldDecode : decode 0x00000009 = .ok .fieldDecode := by decide

theorem test_decode_fieldEncode : decode 0x0101000A = .ok (.fieldEncode 257) := by decide

theorem test_decode_dispatch : decode 0x0000000B = .ok .dispatch := by decide

theorem test_decode_parse :
    decode 0x0000100C = .ok (.parse true false false) ∧ decode 0x0000600C = .ok (.parse false true true) := by decide

theorem test_decode_recv :
    decode 0x0000200D = .ok (.recv false true false) ∧ decode 0x0000500D = .ok (.recv true false true) := by decide

/-- Program P4's word, and one with every flag. -/
theorem test_decode_create :
    decode 0x0001100E = .ok (.create true false false 1) ∧ decode 0x8001700E = .ok (.create true true true 0x8001) := by
  decide

theorem test_decode_chainFlush : decode 0x0000000F = .ok .chainFlush := by decide

theorem test_decode_illegal : decode 0x00000010 = .error .illegalOpcode ∧ decode 0x000000FF = .error .illegalOpcode := by
  decide

theorem test_table_word : decodeTableWord 8 0x0B = some .dispatch ∧ decodeTableWord 32 0x10 = none := by decide

/-! ### A small machine -/

/-- A descriptor without a scale. -/
def descriptor (shortcut : BitVec 16) (kind : FieldKind) (src : FieldSrc) (offset size : Nat) (items : List Nat)
    (ranges : List (Nat × Nat)) : FieldDesc where
  shortcut := shortcut
  kind := kind
  src := src
  offset := offset
  size := size
  items := items.map fun v => { value := v, label := 0 }
  ranges := ranges.map fun r => { start := r.1, stop := r.2, label := 0 }
  scale := none
  name := 0
  unit := none

/-- E[0].B[0] of the example catalog (95_test_vectors.md section 0.1). -/
def rpsBlock : DataBlock where
  direction := none
  command := none
  bits := none
  fields :=
    [descriptor 1 .enum .data 0 3 [0, 1, 2, 3] [], descriptor 2 .enum .data 3 1 [0, 1] [],
      descriptor 3 .status .status 2 1 [] [], descriptor 4 .status .status 3 1 [] []]

/-- E[2].B[1] of the example catalog. -/
def vldBlock : DataBlock where
  direction := none
  command := some 4
  bits := some 24
  fields :=
    [descriptor 0x20 .value .data 4 4 [] [], descriptor 0x21 .enum .data 11 5 [30, 31] [(0, 29)],
      descriptor 0x22 .value .data 17 7 [] []]

/-- E[1] of the example catalog without the scale of its first descriptor. -/
def fourBsBlock : DataBlock where
  direction := none
  command := none
  bits := some 32
  fields := [descriptor 0x10 .value .data 16 8 [] [], descriptor 0x11 .enum .data 28 1 [0, 1] []]

def catalog : List Profile :=
  [{ rorg := 0xF6, func := 2, ptype := 1, hasCmds := false, blocks := [rpsBlock] },
    { rorg := 0xA5, func := 2, ptype := 5, hasCmds := false, blocks := [fourBsBlock] },
    { rorg := 0xD2, func := 1, ptype := 2, hasCmds := true, blocks := [vldBlock] }]

/-- A small legal configuration: Q = 0x33, room for 3 field records, 2 chain slots of 17 bytes. -/
def cfg : Cfg where
  dcrcType := true
  rorgCdmProp := 0x33
  shortcutCmd := 0x20
  rxbufCap := 64
  fieldCap := 3
  nvCap := 4
  chainSlots := 2
  chainMaxLen := 17
  catalog := catalog

/-- The machine after reset under `cfg`. -/
def machine : State := State.resetWith cfg

/-- The optional bytes OPT of the vectors. -/
def opt : List Byte := [0x01, 0xFF, 0xFF, 0xFF, 0xFF, 0x2D, 0x00]

/-- The RPS telegram of FR-1. -/
def rps : List Byte := [0xF6, 0x50, 0x01, 0x02, 0x03, 0x04, 0x30]

/-- Its frame F1. -/
def f1 : List Byte :=
  [0x55, 0x00, 0x07, 0x07, 0x01, 0x7A, 0xF6, 0x50, 0x01, 0x02, 0x03, 0x04, 0x30, 0x01, 0xFF, 0xFF, 0xFF, 0xFF, 0x2D,
    0x00, 0x4C]

/-- A packet in the F registers of the small machine. -/
def holding (t : Byte) (d o : List Byte) : State := machine.loadFrame t d o

/-- The state a command leaves. -/
def after (i : Instr) (s : State) : State :=
  match exec i s with
  | .next t => t
  | _ => s

/-- STATUS as the host reads it. -/
def statusWord (s : State) : Word := readReg s .status

/-! ### One step of each command -/

/-- NP-1. -/
theorem test_nop : after .nop machine = { machine with status := { machine.status with done := true } } := by decide +kernel

/-- CK-C1. -/
theorem test_crc8 :
    let t := after (.crc8 0) { holding 1 [0x00, 0x07, 0x07, 0x01] [] with arg1 := 4 }
    (statusWord t, t.res0) = (0x00000002, 0x7A) := by decide +kernel

/-- CK-C9: the sum is not wrapped. -/
theorem test_crc8_range :
    statusWord (after (.crc8 0) { machine with arg0 := 0xFFFFFFFF, arg1 := 1 }) = 0x00008106 := by decide +kernel

/-- RF-1. -/
theorem test_rxFlush :
    let t := after .rxFlush (machine.setRx [0x11, 0x22, 0x33, 0x44, 0x55])
    (statusWord t, t.res0, t.rxlen, readTarget t (.rxbuf 0)) = (2, 5, 0, 0) := by decide +kernel

/-- FD-5. -/
theorem test_frameDecode :
    let t := after .frameDecode (machine.setRx ([0x11, 0x22] ++ f1))
    (statusWord t, t.res0, t.res1, t.rxlen) = (2, 23, 0, 0) ∧ (t.dataBytes, t.optBytes, t.cntFrames) = (rps, opt, 1) := by
  decide +kernel

/-- FD-11, cut to the frame alone: the corrupted length takes 20 bytes away. -/
theorem test_frameDecode_mismatch :
    let t := after .frameDecode (machine.setRx (f1.set 2 0x06))
    (statusWord t, t.res0, t.res1, t.rxBytes, t.cntCrcerr) = (0x0202, 20, 1, [0x4C], 1) := by decide +kernel

/-- FE-2. -/
theorem test_frameEncode :
    let t := after .frameEncode (holding 1 rps opt)
    (statusWord t, t.txBytes, t.txlen, t.res0) = (2, f1, 21, 21) := by decide +kernel

/-- BU-2. -/
theorem test_bitsUnpack :
    let t := after (.bitsUnpack 0 false) { holding 1 [0xA5, 0x01] [] with arg1 := 2, arg2 := 20 }
    (statusWord t, t.bvDlen, readTarget t (.bvData 0), t.res0) = (2, 20, 0x0A501000, 20) := by decide +kernel

/-- BU-5. -/
theorem test_bitsUnpack_capacity :
    statusWord (after (.bitsUnpack 0 true) { holding 1 [0x01, 0x00] [] with arg1 := 2 }) = 0x8606 := by decide +kernel

/-- BI-1. -/
theorem test_bitsToInt :
    let t := after (.bitsToInt false) { machine.setBvData (bitsOf 16 0xA501) with arg0 := 4, arg1 := 8 }
    (statusWord t, t.res0, t.res1, t.res2) = (2, 0x50, 0, 0) := by decide +kernel

/-- BI-8: a 1 bit above bit 63 is lost. -/
theorem test_bitsToInt_lost :
    let t := after (.bitsToInt false) { machine.setBvData (true :: List.replicate 64 false) with arg1 := 65 }
    (statusWord t, t.res0, t.res1, t.res2) = (2, 0, 0, 1) := by decide +kernel

/-- BP-1. -/
theorem test_bitsPack :
    let t := after (.bitsPack 0 false)
      { machine.setBvData (bitsOf 16 0xA501) with arg0 := 3, arg1 := 2, arg2 := 4 }
    (statusWord t, t.fdata, t.res0, t.fDlen) = (2, [(3, 0x50), (4, 0x10)], 2, 0) := by decide +kernel

/-- BP-7. -/
theorem test_bitsPack_rx : statusWord (after (.bitsPack 2 false) machine) = 0x8106 := by decide +kernel

/-- FP-6, with this catalog's only VLD block. -/
theorem test_findProfile :
    let t := after (.findProfile false true) { machine with arg0 := 0x000201D2, arg1 := 0x0400 }
    (statusWord t, t.res0, readReg t .psel) = (2, 0, 0x80020000) := by decide +kernel

/-- FP-11: command 0 is a real value. -/
theorem test_findProfile_level :
    let t := after (.findProfile false true) { machine with arg0 := 0x000201D2, psel := pselOf 0 0 }
    (statusWord t, t.res0, readReg t .psel) = (0x0302, 4, 0) := by decide +kernel

/-- The RPS vectors of FF-1 with E[0].B[0] selected. -/
def rpsSelected : State :=
  { (machine.setBvData (bitsOf 8 0x50)).setBvStat (bitsOf 8 0x30) with psel := pselOf 0 0 }

/-- FF-1 with room for 3 records: the fourth is omitted, and FLDOVF set (R180). -/
theorem test_fieldDecode :
    let t := after .fieldDecode rpsSelected
    (statusWord t, t.nfields, t.res0, readTarget t (.field 0 0), readTarget t (.field 0 1), readTarget t (.field 0 3)) =
      (0x42, 3, 3, 0x00050001, 2, 2) ∧ readTarget t (.field 2 0) = 0x00020003 ∧ readTarget t (.field 3 0) = 0 := by
  decide +kernel

/-- FN-6's NV pairs, word by word. -/
def rpsPairs : Store Word := [(0, 1), (1, 3), (4, 2), (5, 1), (8, 3), (9, 1), (12, 4), (13, 1)]

/-- FN-6. -/
theorem test_fieldEncode :
    let s := (machine.setBvData (bitsOf 8 0)).setBvStat (bitsOf 8 0)
    let t := after (.fieldEncode 4) { s with psel := pselOf 0 0, nv := rpsPairs }
    (statusWord t, t.res0, t.dataBits, t.statBits) = (2, 0, bitsOf 8 0x70, bitsOf 8 0x30) := by decide +kernel

/-- FN-5. -/
theorem test_fieldEncode_rejected :
    let s := { machine.setBvData (bitsOf 8 0) with psel := pselOf 0 0, nv := [(0, 1), (1, 2), (4, 3), (5, 1)] }
    let t := after (.fieldEncode 2) s
    (statusWord t, t.res0, t.bvData) = (0x0A02, 1, s.bvData) := by decide +kernel

/-- R190: the UTE test comes before the packet type. -/
theorem test_dispatch : (after .dispatch (holding 2 [0xD4] [])).res0 = 2 ∧
    (after .dispatch (holding 2 [0x33] [])).res0 = 6 := by decide +kernel

/-- The RPS telegram parsed with its profile (PARSE +P, ARG0 = 0x0102). -/
theorem test_parse :
    let t := after (.parse true false false) { holding 1 rps opt with arg0 := 0x0102 }
    (statusWord t, t.res0, readReg t .psel, t.nfields) = (0x42, 1, 0x80000000, 3) ∧
      (t.view.sender, t.view.dest, t.view.dbm, t.view.statb) = (0x01020304, 0xFFFFFFFF, 0xFFFFFFD3, 0x30) ∧
      readReg t .vFlags = 0x05 := by decide +kernel

/-- A 4BS teach-in (R206): FUNC, TYPE and MANUF from the three bytes 08 2F FF. -/
theorem test_parse_teachIn :
    let t := after (.parse false false false) (holding 1 [0xA5, 0x08, 0x2F, 0xFF, 0x80, 1, 0x80, 0xF6, 0x2B, 0] opt)
    (t.view.func, t.view.vtype, t.view.manuf) = (2, 5, 0x7FF) ∧ readReg t .vFlags = 0x123 := by decide +kernel

/-- Fragment A1 of section 1.2 through RECV. -/
theorem test_recv :
    let t := after (.recv false false false)
      (machine.setRx
        [0x55, 0x00, 0x0F, 0x07, 0x01, 0x2B, 0x40, 0x40, 0x00, 0x11, 1, 2, 3, 4, 5, 6, 0xAA, 0xBB, 0xCC, 0xDD, 0x00,
          0x01, 0xFF, 0xFF, 0xFF, 0xFF, 0x2D, 0x00, 0x79])
    (statusWord t, t.res0, t.res2, t.chainOcc, readReg t .vChain) = (0x0502, 29, 6, 1, 0x240) := by decide +kernel

/-- Section 1.4's CREATE: the frame it builds. -/
theorem test_create :
    let t := after (.create true false false 1)
      { machine with
        arg0 := 0x0502A501, arg1 := 0x00440000, arg2 := 0x0180F62B, arg3 := 0x01020304, nv := [(0, 0x10), (1, 0x80)] }
    (statusWord t, t.txBytes, t.view.sender, t.view.dest) =
      (2, [0x55, 0x00, 0x0A, 0x07, 0x01, 0xEB, 0xA5, 0x00, 0x00, 0x80, 0x00, 0x01, 0x80, 0xF6, 0x2B, 0x00, 0x03, 0x01,
        0x02, 0x03, 0x04, 0xFF, 0x00, 0x61], 0x0180F62B, 0x01020304) ∧
      ((Store.read t.ft 0).shortcut, (Store.read t.ft 0).raw) = (0x10, 0x80) := by decide +kernel

/-- R215: the address lengths are checked before the count. -/
theorem test_create_order :
    statusWord (after (.create false false false 9) { machine with arg0 := 0x0502A501, arg1 := 0x00050000 }) =
      0x8406 := by decide +kernel

/-- A slot that waits for four bytes. -/
def slot (seq : BitVec 4) (decl : Nat) (acc : List Byte) : ChainSlot :=
  { sender := 0xAABBCCDD, seq := seq, decl := decl, acc := acc, opt := opt }

theorem test_chainFlush :
    let t := after .chainFlush { machine with chain := [none, some (slot 4 6 [1])] }
    (statusWord t, t.res0, t.chain, readReg t .chainOcc) = (2, 1, [none, none], 0) := by decide +kernel

/-! ### Reset and the host -/

/-- R281's table: ID, VERSION, STATUS, V_VARIANT and CHAIN_OCC. -/
theorem test_reset :
    [Reg.id, .version, .status, .vVariant, .chainOcc].map (readReg State.reset) = [0x45535033, 1, 0, 7, 0] := by
  decide +kernel

/-- The state after a host line. -/
def afterLine (line : HostLine) (s : State) : State :=
  match runLine s line with
  | .next t => t
  | _ => s

/-- R39: `wr RXPUSH, 0x155` stores 0x55. -/
theorem test_host_push :
    let t := afterLine (asmWr .rxpush 0x155) machine
    (t.rxBytes, t.host.pc, t.host.resp) = ([0x55], 1, .ack) := by decide

/-- R91: a write to ARG0 of a busy block is dropped and sets BUSYWR; R83: a halfword access is a bus error. -/
theorem test_host_busy :
    let t := afterLine (asmWr .arg0 7) (machine.pendingCommand 0)
    (t.arg0, statusWord t) = (0, 0x11) ∧ (afterLine (.write 0x014 2 7) machine).host.resp = .busError := by decide

/-! ### Witnesses

`witness_<Name>` meets the hypotheses of `Obligations.<Name>`. Statements without hypotheses have none. -/

/-- Every command answers a next state, so `after` is that state. -/
theorem exec_after (i : Instr) (s : State) : exec i s = .next (after i s) := by cases i <;> rfl

theorem machine_inv : machine.Inv := by
  constructor <;> first | decide +kernel | exact View.inv_cleared | exact fun _ => FieldRec.ok_blank

/-- The least and the greatest capacities R6 admits. -/
theorem witness_ResetMeetsInv :
    ({ cfg with rxbufCap := 7, fieldCap := 1, nvCap := 1, chainSlots := 1, chainMaxLen := 0, catalog := [] } : Cfg).legal
        = true ∧
      ({ cfg with rxbufCap := 262144, fieldCap := 32768, nvCap := 65536, chainMaxLen := 65529 } : Cfg).legal = true := by
  decide +kernel

theorem witness_DecodeReadsUsedBits : decode 0xFFFFFF01 = .ok (.crc8 15) ∧ decode 0x0000000F = .ok .chainFlush := by
  decide

/-- Each of the 16 opcodes, with every other bit set, and the ends of the illegal range. -/
theorem witness_OpcodeSelectsCommand :
    (∀ k < 16, (BitVec.ofNat 32 (0xFFFFFF00 + k) &&& 0xFF : Word) = BitVec.ofNat 32 k) ∧
      0x10 ≤ ((0x10 : Word) &&& 0xFF).toNat ∧ 0x10 ≤ ((0xFFFFFFFF : Word) &&& 0xFF).toNat := by decide

/-- A pending command whose drawn host steps have passed, one whose host is idle, and a table row's word. -/
theorem witness_StepRunsDecodedCommand :
    (machine.pendingCommand 0).mayRun ∧ ({ machine.pendingCommand 2 with delay := 5 } : State).mayRun ∧
      decode (machine.pendingCommand 0).cmdl = .ok .nop ∧ decodeTableWord 8 0x0F = some .chainFlush :=
  ⟨⟨rfl, .inl rfl⟩, ⟨rfl, .inr rfl⟩, rfl, rfl⟩

theorem witness_IllegalOpcodeEndsFatal :
    machine.status.busy = false ∧ (machine.pendingCommand 0x10).mayRun ∧
      0x10 ≤ ((machine.pendingCommand 0x10).cmdl &&& 0xFF).toNat ∧
      (machine.pendingCommand 0xFF).mayRun ∧ 0x10 ≤ ((machine.pendingCommand 0xFF).cmdl &&& 0xFF).toNat :=
  ⟨rfl, ⟨rfl, .inl rfl⟩, by decide, ⟨rfl, .inl rfl⟩, by decide⟩

/-- A host that branches to a label its program lacks while a command waits. -/
def lostHost : State :=
  { machine.pendingCommand 0 with delay := 1, host := { HostAgent.none with prog := [.goto 7] } }

/-- A pending command that ends at the next step, and one whose host's program has no meaning. -/
theorem witness_PendingCommandEnds :
    (machine.pendingCommand 0).status.busy = true ∧ lostHost.status.busy = true ∧
      (Host.Core.run Sys2Proof.core 1 (machine.pendingCommand 0) = .next (after .nop (machine.pendingCommand 0))) ∧
      Host.Core.run Sys2Proof.core 1 lostHost = .fault Fault.undefinedLabel := ⟨rfl, rfl, rfl, rfl⟩

/-- A state with every condition flag set. -/
def flagged : State :=
  { machine with
    status := { machine.status with fatal := true, rxovf := true, busywr := true, lenooc := true, fldovf := true } }

theorem witness_EveryCommandEnds : flagged.status.lenooc = true ∧ flagged.status.fldovf = true := ⟨rfl, rfl⟩

theorem witness_FatalEndChangesOnlyStatus :
    blockStep (machine.pendingCommand 0x0407) = .next (after (.bitsPack 4 false) (machine.pendingCommand 0x0407)) ∧
      (after (.bitsPack 4 false) (machine.pendingCommand 0x0407)).status.result.code.getLsbD 7 = true := by
  exact ⟨rfl, by decide⟩

theorem witness_ResultCodesByCommand : exec (.crc8 4) machine = .next (after (.crc8 4) machine) := exec_after _ _

theorem witness_CommandsLeaveOperands : exec .rxFlush machine = .next (after .rxFlush machine) := exec_after _ _

/-- The enables on, then off; a fatal end; a raised line; an end that is not fatal. -/
theorem witness_IrqIsALevel :
    let s : State := { flagged with ctrl := { ieDone := true, ieErr := true } }
    s.ctrl.ieDone = true ∧ s.ctrl.ieErr = true ∧ s.irq = true ∧
      (after (.crc8 4) s).status.result.code.getLsbD 7 = true ∧
      machine.ctrl.ieDone = false ∧ machine.ctrl.ieErr = false ∧ machine.status.fatal = false ∧
      (after .nop machine).status.result.code.getLsbD 7 = false := by decide

/-- An idle machine, a pending command, and a host access. -/
theorem witness_StepKeepsInv :
    machine.Inv ∧ (∃ t, step machine = .next t) ∧ (machine.pendingCommand 2).Inv ∧
      (∃ t, step (machine.pendingCommand 2) = .next t) ∧
      ∃ t, step { machine with host := { HostAgent.none with prog := [asmWr .cmd 0] } } = .next t :=
  ⟨machine_inv, ⟨_, rfl⟩, { machine_inv with }, ⟨_, rfl⟩, ⟨_, rfl⟩⟩

theorem witness_CtrlWriteResetsOrEnables :
    (0x80000003 : Word).getLsbD 31 = true ∧ (0x7FFFFFFF : Word).getLsbD 31 = false := by decide

/-- A halfword access, an unaligned one, the hole after V_CHAIN and the one past FDATA; an idle block; a register, a window's
last byte and the last named-value word. -/
theorem witness_BusErrorsAndReads :
    ¬(2 = 4) ∧ ¬(0x00E % 4 = 0) ∧ mapAddr cfg 0x0BC = none ∧ mapAddr cfg 0x23FFFC = none ∧
      machine.status.busy = false ∧ 0x0B8 % 4 = 0 ∧ mapAddr machine.cfg 0x0B8 = some (.reg .vChain) ∧
      mapAddr machine.cfg (0x200000 + 4 * 65534) = some (.fdata 65534) ∧
      mapAddr machine.cfg (0x800000 + 16 * 3 + 12) = some (.nv 3 3) := by decide +kernel

/-- The ends of the register block's hole, and the windows' ends. -/
theorem witness_AddressMap :
    cfg.legal = true ∧ mapAddr cfg 0x064 = some (.reg .cntOrphan) ∧ mapAddr cfg 0x068 = none ∧
      mapAddr cfg 0x07C = none ∧ mapAddr cfg 0x080 = some (.reg .vVariant) ∧
      mapAddr cfg 0x0B8 = some (.reg .vChain) ∧ mapAddr cfg (0x100000 + 4 * 63) = some (.rxbuf 63) ∧
      mapAddr cfg (0x200000 + 4 * 65534) = some (.fdata 65534) ∧ mapAddr cfg (0x300000 + 4 * 254) = some (.fopt 254) ∧
      mapAddr cfg (0x400000 + 4 * 65796) = some (.txbuf 65796) ∧
      mapAddr cfg (0x500000 + 4 * 16383) = some (.bvData 16383) ∧ mapAddr cfg 0x600000 = some .bvStat ∧
      mapAddr cfg (0x700000 + 32 * 2 + 28) = some (.field 2 7) ∧ mapAddr cfg (0x800000 + 16 * 3 + 12) = some (.nv 3 3) := by
  decide +kernel

/-- A busy block, and one address for each clause. -/
theorem witness_BusyAccess :
    (machine.pendingCommand 0).status.busy = true ∧ mapAddr cfg 0x00C = some (.reg .status) ∧
      mapAddr cfg 0x008 = some (.reg .ctrl) ∧ mapAddr cfg 0x000 = some (.reg .id) ∧
      mapAddr cfg 0x004 = some (.reg .version) ∧ mapAddr cfg 0x010 = some (.reg .cmd) ∧
      mapAddr cfg 0x100000 = some (.rxbuf 0) := by decide +kernel

theorem witness_CmdWriteLatches : machine.status.busy = false ∧ (machine.pendingCommand 3).status.busy = true :=
  ⟨rfl, rfl⟩

/-- A receive buffer with one byte, and a full one. -/
theorem witness_RxPushAppendsOrDrops :
    (machine.setRx [0x55]).Inv ∧ (machine.setRx [0x55]).rxlen < cfg.rxbufCap ∧
      (machine.setRx (List.replicate 64 0x11)).Inv ∧ (machine.setRx (List.replicate 64 0x11)).rxlen = cfg.rxbufCap ∧
      (machine.pendingCommand 0).Inv ∧ (machine.pendingCommand 0).status.busy = true :=
  ⟨machine_inv.setRx (by decide), by decide, machine_inv.setRx (by decide), by decide, { machine_inv with }, rfl⟩

theorem witness_RegisterWrites : machine.status.busy = false := rfl

theorem witness_BitWindowsPackMsbFirst : machine.Inv ∧ machine.status.busy = false := ⟨machine_inv, rfl⟩

theorem witness_WindowAccess :
    machine.Inv ∧ machine.status.busy = false ∧ machine.rxlen ≤ 0 ∧ machine.txlen ≤ 0 ∧ machine.nfields ≤ 0 ∧
      0 < (machine.setRx [0x55]).rxlen ∧ 0 < (after .frameEncode machine).txlen ∧
      0 < (after .fieldDecode rpsSelected).nfields :=
  ⟨machine_inv, rfl, le_rfl, le_rfl, le_rfl, by decide, by decide, by decide +kernel⟩

theorem witness_CrcLaws : ([0x12, 0x34] : List Byte).length = ([0xFF, 0x00] : List Byte).length ∧ 7 < 8 := by decide

theorem witness_NopAndFlushes :
    (0xFFFFFF00 : Word) &&& 0xFF = 0 ∧ (0xFFFFFF02 : Word) &&& 0xFF = 2 ∧ (0xFFFFFF0F : Word) &&& 0xFF = 0x0F := by
  decide

/-- A range that ends at the valid length of FDATA, one that passes it by one, and the reserved selects. -/
theorem witness_Crc8Checksums :
    (0x00000F01 : Word) &&& 0xFF = 1 ∧ bufferOf 0 = some .fdata ∧
      (65535 : Word).toNat + (0 : Word).toNat ≤ machine.validLen .fdata ∧
      machine.validLen .fdata < (65535 : Word).toNat + (1 : Word).toNat ∧
      4 ≤ (4 : BitVec 4).toNat ∧ 4 ≤ (15 : BitVec 4).toNat := by decide

/-- No marker; a short header (3 bytes); a frame one byte short, whole, and with each checksum wrong. -/
theorem witness_FrameDecodeCases :
    (∀ x ∈ ([0x11, 0x22] : List Byte), x ≠ 0x55) ∧ ([0x55, 0x00, 0x07] : List Byte).length < 4 ∧
      f1.head? = some 0x55 ∧ 4 ≤ f1.length ∧ (f1.take 20).length < 21 ∧ 21 ≤ f1.length ∧
      (f1.set 5 0).getD 5 0 ≠ crc8 [0x00, 0x07, 0x07, 0x01] ∧ f1.getD 5 0 = crc8 [0x00, 0x07, 0x07, 0x01] ∧
      (f1.set 20 0).getD 20 0 ≠ crc8 (dci true 0x01 rps opt) ∧ f1.getD 20 0 = crc8 (dci true 0x01 rps opt) ∧
      rps = (f1.drop 6).take 7 ∧ opt = (f1.drop 13).take 7 := by decide +kernel

theorem witness_FrameRoundTrip :
    (List.replicate 65535 (0x55 : Byte)).length ≤ 65535 ∧ (List.replicate 255 (0x55 : Byte)).length ≤ 255 := ⟨by rw [List.length_replicate], by rw [List.length_replicate]⟩

theorem witness_OnlyFramesDecode :
    (frameDecode true ([0x11] ++ f1)).frame = some { ftype := 1, data := rps, opt := opt } := by decide +kernel

/-- A frame, a mismatch and an incomplete buffer. -/
theorem witness_FrameDecodeCommand :
    (0xFFFFFF03 : Word) &&& 0xFF = 3 ∧ (machine.setRx f1).Inv ∧
      (frameDecode true (machine.setRx f1).rxBytes).status = .ok ∧ (machine.setRx (f1.set 5 0)).Inv ∧
      (frameDecode true (machine.setRx (f1.set 5 0)).rxBytes).status = .crcMismatch ∧
      (frameDecode true machine.rxBytes).status = .incomplete :=
  ⟨by decide, machine_inv.setRx (by decide), by decide +kernel, machine_inv.setRx (by decide), by decide +kernel,
    by decide +kernel⟩

theorem witness_FrameEncodeCommand : (0xFFFFFF04 : Word) &&& 0xFF = 4 ∧ machine.Inv := ⟨by decide, machine_inv⟩

/-- R164 past the end: twelve bits packed into three bytes. -/
theorem witness_BitCodecLaws :
    8 * ([0xA5, 0x01] : List Byte).length ≤ 16 ∧ (bitsOf 16 0xA501).length % 8 = 0 ∧ 2 < 3 ∧ 7 < 8 ∧
      bitsToBytes (bitsOf 12 0xA5F) 3 = [0xA5, 0xF0, 0x00] := by decide

/-- The greatest length the byte range admits, then one more; the target capacities at their ends. -/
theorem witness_BitsUnpackCommand :
    (0x00001F05 : Word) &&& 0xFF = 5 ∧ machine.Inv ∧ 4 ≤ (4 : BitVec 4).toNat ∧ bufferOf 1 = some .fopt ∧
      machine.validLen .fopt < (255 : Word).toNat + (1 : Word).toNat ∧
      (255 : Word).toNat + (0 : Word).toNat ≤ machine.validLen .fopt ∧
      (bytesToBits [] 8).length ≤ 8 ∧ 8 < (bytesToBits [] 9).length :=
  ⟨by decide, machine_inv, by decide, rfl, by decide, by decide, by decide, by decide⟩

/-- BV_DATA's capacity at its end, and one bit more. -/
theorem witness_BitsUnpackCommand_data :
    524280 < (bytesToBits [] 524281).length ∧ (bytesToBits [] 524280).length ≤ 524280 := by
  have h : ∀ n, (bytesToBits [] n).length = n := by intro n; simp [bytesToBits, unpackLen, combine, bitlen]
  rw [h, h]; decide

/-- A source of 16 bits: a range that ends there, and one that passes it. -/
theorem witness_BitsToIntCommand :
    let s := machine.setBvData (bitsOf 16 0xA501)
    (0x00001006 : Word) &&& 0xFF = 6 ∧ s.dataBits.length < (15 : Word).toNat + (2 : Word).toNat ∧
      (15 : Word).toNat + (1 : Word).toNat ≤ s.dataBits.length := by decide +kernel

theorem witness_BitsPackCommand :
    (0x00001107 : Word) &&& 0xFF = 7 ∧ machine.Inv ∧ 2 ≤ (2 : BitVec 4).toNat ∧
      65535 < (65535 : Word).toNat + (1 : Word).toNat ∧ (65534 : Word).toNat + (1 : Word).toNat ≤ 65535 ∧
      255 < (250 : Word).toNat + (6 : Word).toNat ∧ (250 : Word).toNat + (5 : Word).toNat ≤ 255 :=
  ⟨by decide, machine_inv, by decide, by decide, by decide, by decide, by decide⟩

/-- A block found, and each level at which a search fails. -/
theorem witness_FindProfileSearch :
    findProfile catalog 0xD2 1 2 none (some 4) = .block 2 0 ∧ findProfile catalog 0xA6 2 1 none none = .missing 1 ∧
      findProfile catalog 0xF6 3 1 none none = .missing 2 ∧ findProfile catalog 0xF6 2 2 none none = .missing 3 ∧
      findProfile catalog 0xD2 1 2 none (some 7) = .missing 4 := by decide

theorem witness_FindProfileCommand :
    (0xFFFFFF08 : Word) &&& 0xFF = 8 ∧ machine.Inv ∧
      findProfile cfg.catalog ((0x000102F6 : Word).extractLsb' 0 8) ((0x000102F6 : Word).extractLsb' 8 8)
        ((0x000102F6 : Word).extractLsb' 16 8) none none = .block 0 0 :=
  ⟨by decide, machine_inv, by decide⟩

/-- An item, the end of a range, and a value with neither. -/
theorem witness_EnumMatchPrecedence :
    let F := descriptor 0x21 .enum .data 11 5 [30, 31] [(0, 28)]
    enumMatch F 31 = some (1, 1) ∧ enumMatch F 28 = some (2, 0) ∧ enumMatch F 29 = none := by decide

/-- A size of 0, 65 bits, a range that passes the vector, and one that ends with it; then every kind of record. -/
theorem witness_FieldDecodeRecords :
    let F := descriptor 1 .enum .data 0 3 [0, 1] []
    (descriptor 1 .value .data 0 0 [] []).size = 0 ∧ 64 < (descriptor 1 .value .data 0 65 [] []).size ∧
      (bitsOf 2 1).length < F.offset + F.size ∧ 1 ≤ F.size ∧ F.size ≤ 64 ∧ F.offset + F.size ≤ (bitsOf 3 1).length ∧
      enumMatch F (bitsToInt (((bitsOf 3 1).drop 0).take 3)) = some (1, 1) ∧
      enumMatch F (bitsToInt (((bitsOf 3 7).drop 0).take 3)) = none ∧ F.kind = .enum ∧
      ({ descriptor 1 .value .data 0 3 [] [] with scale := some 0 } : FieldDesc).scale ≠ none ∧
      (descriptor 1 .value .data 0 3 [] []).scale = none ∧ (descriptor 3 .status .status 2 1 [] []).kind = .status := by
  decide +kernel

/-- The machine of FF-1 meets the invariant. -/
theorem rpsSelected_inv : rpsSelected.Inv := by
  constructor <;> first | decide +kernel | exact View.inv_cleared | exact fun _ => FieldRec.ok_blank

/-- No block selected, a block with more records than the table has room for, and the last entry it fills. -/
theorem witness_FieldDecodeCommand :
    (0xFFFFFF09 : Word) &&& 0xFF = 9 ∧ machine.Inv ∧ machine.psel.valid = false ∧ rpsSelected.Inv ∧
      rpsSelected.psel.valid = true ∧
      catalogBlock cfg.catalog rpsSelected.psel.entry.toNat rpsSelected.psel.block.toNat = some rpsBlock ∧
      cfg.fieldCap < (fieldDecode rpsBlock rpsSelected.dataBits rpsSelected.statBits).length ∧
      2 < (after .fieldDecode rpsSelected).nfields :=
  ⟨by decide, machine_inv, rfl, rpsSelected_inv, rfl, rfl, by decide +kernel, by decide +kernel⟩

/-- FN-4 and FN-5's rejections, FN-6's data write, FN-3's two pairs, and the descriptors found: the last bit of the first
field lies outside the second. -/
theorem witness_FieldEncodeChecksThenWrites :
    fieldEncode rpsBlock (bitsOf 8 0) [] [(1, 3), (0x99, 1)] = .rejected .unknownField 1 ∧
      fieldEncode rpsBlock (bitsOf 8 0) [] [(1, 2), (3, 1)] = .rejected .badDescriptor 1 ∧
      fieldEncode rpsBlock (bitsOf 8 0) [] [(1, 3), (2, 1)] = .done (bitsOf 8 0x70) [] ∧
      fieldEncode rpsBlock (bitsOf 8 0) [] [(1, 3), (1, 4)] = .done (bitsOf 8 0x80) [] ∧
      descriptorOf rpsBlock 1 = some (descriptor 1 .enum .data 0 3 [0, 1, 2, 3] []) ∧
      descriptorOf rpsBlock 2 = some (descriptor 2 .enum .data 3 1 [0, 1] []) ∧
      (0 + 2 < 3 ∨ 3 + 1 ≤ 0 + 2) :=
  ⟨by decide +kernel, by decide +kernel, by decide +kernel, by decide +kernel, rfl, rfl, by decide⟩

/-- `rpsSelected` with FN-6's pairs. -/
def rpsNamed : State := { rpsSelected with nv := rpsPairs }

theorem rpsNamed_inv : rpsNamed.Inv := { rpsSelected_inv with nvWf := by decide, nvBelow := by decide }

/-- The greatest count and one more; no block selected; an encode that is done, and one that is rejected. -/
theorem witness_FieldEncodeCommand :
    (0xFFFF000A : Word) &&& 0xFF = 0x0A ∧ rpsNamed.Inv ∧ cfg.nvCap < (5 : BitVec 16).toNat ∧
      (4 : BitVec 16).toNat ≤ cfg.nvCap ∧ machine.psel.valid = false ∧ rpsNamed.psel.valid = true ∧
      fieldEncode rpsBlock rpsNamed.dataBits rpsNamed.statBits
        ((List.range 4).map fun k =>
          ((readTarget rpsNamed (.nv k 0)).extractLsb' 0 16,
            (readTarget rpsNamed (.nv k 1)).toNat + 2 ^ 32 * (readTarget rpsNamed (.nv k 2)).toNat)) =
        .done (bitsOf 8 0x70) (bitsOf 8 0x30) ∧
      fieldEncode rpsBlock rpsNamed.dataBits rpsNamed.statBits [(0, 0)] = .rejected .unknownField 0 :=
  ⟨by decide, rpsNamed_inv, by decide, by decide, rfl, rfl, by decide +kernel, by decide +kernel⟩

/-- One category and type for each line of R190's table. -/
theorem witness_DispatchCommand :
    (0x0000000B : Word) &&& 0xFF = 0x0B ∧ dispatchOf cfg 0x02 [0xD4] = .ute ∧ dispatchOf cfg 0x02 [0x40] = .chained ∧
      dispatchOf cfg 0x04 [0x33] = .chained ∧ dispatchOf cfg 0x02 [0xD1] = .response ∧
      dispatchOf cfg 0x04 [0xD1] = .event ∧ dispatchOf cfg 0x01 [0xD1] = .msc ∧ dispatchOf cfg 0x01 [0xF6] = .radio ∧
      dispatchOf cfg 0x03 [0xF6] = .generic := by decide

theorem witness_ParsePlainPackets :
    dispatchOf cfg (holding 5 [] []).fType (holding 5 [] []).dataBytes = .generic ∧
      dispatchOf cfg (holding 2 [0] []).fType (holding 2 [0] []).dataBytes = .response ∧
      dispatchOf cfg (holding 4 [2, 1] []).fType (holding 4 [2, 1] []).dataBytes = .event := by decide +kernel

/-- One byte short of each variant's least length. -/
theorem witness_ParseDegradesShortPackets :
    (let s := holding 1 [0xF6, 1, 2, 3, 4] opt; dispatchOf cfg s.fType s.dataBytes = .radio ∧ s.fDlen.toNat < 6) ∧
    (let s := holding 1 rps (opt.take 5); dispatchOf cfg s.fType s.dataBytes = .radio ∧ s.fOlen.toNat < 6) ∧
    (let s := holding 1 ([0xD4] ++ List.replicate 11 1) opt; dispatchOf cfg s.fType s.dataBytes = .ute ∧ s.fDlen.toNat < 13) ∧
    (let s := holding 1 [0x40] opt; dispatchOf cfg s.fType s.dataBytes = .chained ∧ s.fDlen.toNat < 2) ∧
    (let s := holding 1 [0x40, 0x40, 0, 9, 1, 2, 3, 4] opt; dispatchOf cfg s.fType s.dataBytes = .chained ∧ fragIdx s.dataBytes = 0 ∧ s.fDlen.toNat < 9) ∧
    (let s := holding 1 [0x40, 0x41, 1, 2, 3, 4] opt; dispatchOf cfg s.fType s.dataBytes = .chained ∧ fragIdx s.dataBytes ≠ 0 ∧ s.fDlen.toNat < 7) := by decide +kernel

theorem holding_inv (t : Byte) (d o : List Byte) (hd : d.length ≤ 65535) (ho : o.length ≤ 255) : (holding t d o).Inv :=
  machine_inv.loadFrame t hd ho

/-- The least lengths of a radio telegram and of a UTE one. -/
theorem witness_ParseRadioAttributes :
    (holding 1 [0xF6, 1, 2, 3, 4, 0] (opt.take 6)).Inv ∧
      (holding 1 [0xF6, 1, 2, 3, 4, 0] (opt.take 6)).holdsRadio .radio ∧
      (holding 1 ([0xD4] ++ List.replicate 12 1) opt).holdsRadio .ute :=
  ⟨holding_inv _ _ _ (by decide) (by decide),
    ⟨.inl rfl, by decide +kernel, by decide +kernel, by decide +kernel, by decide⟩,
    ⟨.inr (.inr rfl), by decide +kernel, by decide +kernel, by decide +kernel, by decide +kernel⟩⟩

/-- A 4BS teach-in, an MSC packet and a UTE teach-in; a VLD telegram with its command nibble. -/
theorem witness_ParseSubFields :
    (let s := holding 1 [0xA5, 0x08, 0x2F, 0xFF, 0x80, 1, 0x80, 0xF6, 0x2B, 0] opt; s.Inv ∧ s.holdsRadio .radio ∧ (after (.parse false false false) s).view.flags.containsEep = true) ∧
    (let s := holding 1 [0xD1, 0x07, 0xFF, 1, 0x80, 0xF6, 0x2B, 0] opt; s.Inv ∧ s.holdsRadio .msc ∧ 2 ≤ s.dataBytes.length - 6) ∧
    (let s := holding 1 [0xD4, 0xA0, 0xFF, 0x46, 0x00, 0x01, 0x02, 0xF6, 1, 2, 3, 4, 0] opt; s.Inv ∧ s.holdsRadio .ute) ∧
    (let s := holding 1 [0xD2, 0x04, 1, 0x80, 0xF6, 0x2B, 0] opt; s.Inv ∧ s.holdsRadio .radio ∧ 1 ≤ s.dataBytes.length - 6 ∧
        (after (.parse true false true) s).view.flags.ftValid = false) :=
  ⟨⟨holding_inv _ _ _ (by decide) (by decide),
      ⟨.inl rfl, by decide +kernel, by decide +kernel, by decide +kernel, by decide⟩, by decide +kernel⟩,
    ⟨holding_inv _ _ _ (by decide) (by decide),
      ⟨.inr (.inl rfl), by decide +kernel, by decide +kernel, by decide +kernel, by decide⟩, by decide +kernel⟩,
    ⟨holding_inv _ _ _ (by decide) (by decide),
      ⟨.inr (.inr rfl), by decide +kernel, by decide +kernel, by decide +kernel, by decide +kernel⟩⟩,
    holding_inv _ _ _ (by decide) (by decide),
      ⟨.inl rfl, by decide +kernel, by decide +kernel, by decide +kernel, by decide⟩, by decide +kernel,
      by decide +kernel⟩

/-- A request the catalog holds, and one it does not. -/
theorem witness_ParseFieldStep :
    let s : State := { holding 1 rps opt with arg0 := 0x0102 }
    let t := after (.parse true false false) s
    s.Inv ∧ s.holdsRadio .radio ∧ exec (.parse true false false) s = .next t ∧
      findProfile cfg.catalog t.view.rorg (s.arg0.extractLsb' 0 8) (s.arg0.extractLsb' 8 8) none
        (if t.view.flags.cmdValid then some t.view.cmd else none) = .block 0 0 ∧
      findProfile cfg.catalog t.view.rorg 9 9 none none = .missing 2 :=
  ⟨{ holding_inv 1 rps opt (by decide) (by decide) with },
    ⟨.inl rfl, by decide +kernel, by decide +kernel, by decide +kernel, by decide⟩, exec_after _ _, by decide +kernel,
    by decide +kernel⟩

/-- The least first fragment (declared length `decl`), with its category. -/
def firstOf (c : Byte) (hi lo : Byte) : State := holding 1 [c, 0x40, hi, lo, 0xAA, 0xBB, 0xCC, 0xDD, 0] opt

/-- The least continuation: no chunk byte. -/
def nextOf (chunk : List Byte) : State := holding 1 ([0x40, 0x41] ++ chunk ++ [0xAA, 0xBB, 0xCC, 0xDD, 0]) opt

theorem firstOf_inv (c hi lo : Byte) : (firstOf c hi lo).Inv := by
  exact holding_inv _ _ _ (by simp) (by decide)

theorem firstOf_holds (c hi lo : Byte) (h : dispatchOf cfg (firstOf c hi lo).fType (firstOf c hi lo).dataBytes = .chained)
    (hi' : fragIdx (firstOf c hi lo).dataBytes = 0) : (firstOf c hi lo).holdsFragment :=
  ⟨h, fun _ => le_rfl, fun hne => absurd hi' hne⟩

/-- Both framings; an optional field that reaches the signal level and one that is a byte short. -/
theorem witness_FragmentFields :
    (firstOf 0x40 0 17).holdsFragment ∧ (firstOf 0x33 0 0x11).holdsFragment ∧ (firstOf 0x33 0 0x11).fragProp = true ∧
      6 ≤ (opt.take 6).length ∧ (opt.take 5).length < 6 :=
  ⟨firstOf_holds _ _ _ (by decide +kernel) (by decide +kernel), firstOf_holds _ _ _ (by decide +kernel) (by decide +kernel),
    by decide +kernel, by decide, by decide⟩

/-- A chain table: slot 0 free or not, slot 1 holding the fragment's key or another. -/
def chained (s : State) (x y : Option ChainSlot) : State := { s with chain := [x, y] }

/-- The greatest declared length and one more; a key that has a slot; a free slot; a full table. -/
theorem witness_FirstFragment :
    (firstOf 0x40 0 18).Inv ∧ (firstOf 0x40 0 18).holdsFragment ∧ fragIdx (firstOf 0x40 0 18).dataBytes = 0 ∧
      cfg.chainMaxLen < 18 ∧ 17 ≤ cfg.chainMaxLen ∧
      (chained (firstOf 0x40 0 17) none (some (slot 4 6 [1]))).Inv ∧
      (chained (firstOf 0x40 0 17) none (some (slot 4 6 [1]))).fragKey (slot 4 6 [1]) ∧
      ¬(chained (firstOf 0x40 0 17) (some (slot 3 6 [1])) (some (slot 5 6 [1]))).fragKey (slot 3 6 [1]) ∧
      none ∉ (chained (firstOf 0x40 0 17) (some (slot 3 6 [1])) (some (slot 5 6 [1]))).chain ∧
      (machine.chain[0]? = some none) :=
  ⟨firstOf_inv _ _ _, firstOf_holds _ _ _ (by decide +kernel) (by decide +kernel), by decide +kernel, by decide, by decide,
    { firstOf_inv 0x40 0 17 with
      chainLen := by decide, chainSlotsOk := by decide, chainKeys := by decide },
    ⟨by decide +kernel, by decide +kernel⟩, fun h => absurd h.2 (by decide +kernel), by decide +kernel, rfl⟩

theorem nextOf_holds (s : State) (h : dispatchOf s.cfg s.fType s.dataBytes = .chained) (h1 : fragIdx s.dataBytes ≠ 0)
    (h7 : 7 ≤ s.fDlen.toNat) : s.holdsFragment := ⟨h, fun h0 => absurd h0 h1, fun _ => h7⟩

/-- The least continuation, of a chain with no slot, and of one that still waits. -/
theorem witness_Continuation :
    (nextOf []).Inv ∧ (nextOf []).holdsFragment ∧ fragIdx (nextOf []).dataBytes ≠ 0 ∧
      (∀ c, some c ∈ (nextOf []).chain → ¬(nextOf []).fragKey c) ∧
      (chained (nextOf [2]) none (some (slot 4 3 [1]))).Inv ∧
      (chained (nextOf [2]) none (some (slot 4 3 [1]))).fragKey (slot 4 3 [1]) ∧
      (slot 4 3 [1]).acc.length + (slice (nextOf [2]).dataBytes 2 ((nextOf [2]).dataBytes.length - 5)).length < 3 :=
  ⟨holding_inv _ _ _ (by decide) (by decide), nextOf_holds _ (by decide +kernel) (by decide +kernel) (by decide +kernel),
    by decide +kernel, fun c h => absurd h (by simp [nextOf, holding, machine, State.loadFrame, State.resetWith, cfg]),
    { holding_inv 1 ([0x40, 0x41] ++ [2] ++ [0xAA, 0xBB, 0xCC, 0xDD, 0]) opt (by decide) (by decide) with
      chainLen := by decide, chainSlotsOk := by decide, chainKeys := by decide },
    ⟨by decide +kernel, by decide +kernel⟩, by decide +kernel⟩

/-- The chunk that reaches the declared length exactly, and one that passes it. -/
theorem witness_Completion :
    let s := chained (nextOf [2, 3]) none (some (slot 4 3 [1]))
    s.Inv ∧ s.holdsFragment ∧ fragIdx s.dataBytes ≠ 0 ∧ s.chain[1]? = some (some (slot 4 3 [1])) ∧
      s.fragKey (slot 4 3 [1]) ∧
      (slot 4 3 [1]).decl ≤ (slot 4 3 [1]).acc.length + (slice s.dataBytes 2 (s.dataBytes.length - 5)).length ∧
      (slot 4 2 [1]).decl ≤ (slot 4 2 [1]).acc.length + (slice s.dataBytes 2 (s.dataBytes.length - 5)).length :=
  ⟨{ holding_inv 1 ([0x40, 0x41] ++ [2, 3] ++ [0xAA, 0xBB, 0xCC, 0xDD, 0]) opt (by decide) (by decide) with
      chainLen := by decide, chainSlotsOk := by decide, chainKeys := by decide },
    nextOf_holds _ (by decide +kernel) (by decide +kernel) (by decide +kernel), by decide +kernel, rfl,
    ⟨by decide +kernel, by decide +kernel⟩, by decide +kernel, by decide +kernel⟩

theorem witness_ChainKeepsFirstDeclBytes : (slot 4 3 [1, 2, 3]).acc = ([1, 2, 3, 4] : List Byte).take (slot 4 3 [1, 2, 3]).decl := by
  decide

/-- A slot of another key beside the fragment's; and two tables that hold the fragment's slot at different places. -/
theorem witness_ChainsDoNotInterfere :
    let s := chained (nextOf [2]) (some (slot 5 6 [9])) (some (slot 4 3 [1]))
    let s' := chained (nextOf [2]) (some (slot 4 3 [1])) none
    s.Inv ∧ s'.Inv ∧ s' = { s with chain := s'.chain } ∧ fragIdx s.dataBytes ≠ 0 ∧
      s.chain[0]? = some (some (slot 5 6 [9])) ∧ ¬s.fragKey (slot 5 6 [9]) ∧
      s.chain[1]? = some (some (slot 4 3 [1])) ∧ s'.chain[0]? = some (some (slot 4 3 [1])) ∧ s.fragKey (slot 4 3 [1]) ∧
      exec (.parse false false false) s = .next (after (.parse false false false) s) :=
  ⟨{ holding_inv 1 ([0x40, 0x41] ++ [2] ++ [0xAA, 0xBB, 0xCC, 0xDD, 0]) opt (by decide) (by decide) with
      chainLen := by decide, chainSlotsOk := by decide, chainKeys := by decide },
    { holding_inv 1 ([0x40, 0x41] ++ [2] ++ [0xAA, 0xBB, 0xCC, 0xDD, 0]) opt (by decide) (by decide) with
      chainLen := by decide, chainSlotsOk := by decide, chainKeys := by decide },
    rfl, by decide +kernel, rfl, fun h => absurd h.2 (by decide +kernel), rfl, rfl,
    ⟨by decide +kernel, by decide +kernel⟩, exec_after _ _⟩

theorem witness_RecvIsDecodeThenParse :
    (frameDecode true machine.rxBytes).frame = none ∧ (machine.setRx f1).Inv ∧
      (frameDecode true (machine.setRx f1).rxBytes).frame = some { ftype := 1, data := rps, opt := opt } :=
  ⟨by decide +kernel, machine_inv.setRx (by decide), by decide +kernel⟩

/-- Section 1.4's operands. -/
def creating : State :=
  { machine with
    arg0 := 0x0502A501, arg1 := 0x00440000, arg2 := 0x0180F62B, arg3 := 0x01020304, nv := [(0, 0x10), (1, 0x80)] }

theorem creating_inv : creating.Inv := { machine_inv with nvWf := by decide, nvBelow := by decide }

theorem creating_valid (n : BitVec 16) (h : n.toNat ≤ 4) : (createArgs true false false n creating).valid cfg :=
  ⟨rfl, .inr (.inr (.inl rfl)), ⟨.inr rfl, .inr rfl⟩, h⟩

/-- A wrong type, a wrong category, a wrong length and a count one too great; a profile not found; a pair rejected. -/
theorem witness_CreateEndsEarly :
    (0x02 : Byte) ≠ 0x01 ∧ ((0xD4 : Byte) ≠ 0xF6 ∧ (0xD4 : Byte) ≠ 0xD5 ∧ (0xD4 : Byte) ≠ 0xA5 ∧ (0xD4 : Byte) ≠ 0xD2) ∧
      ¬(((5 : BitVec 4) = 0 ∨ (5 : BitVec 4) = 4) ∧ ((0 : BitVec 4) = 0 ∨ (0 : BitVec 4) = 4)) ∧
      cfg.nvCap < (5 : BitVec 16).toNat ∧
      (createArgs true false false 4 { creating with arg0 := 0x0902A501 }).valid cfg ∧
      findProfile cfg.catalog 0xA5 2 9 none none = .missing 3 ∧
      (createArgs true false false 2 creating).valid cfg ∧ findProfile cfg.catalog 0xA5 2 5 none none = .block 1 0 ∧
      catalogBlock cfg.catalog 1 0 = some fourBsBlock ∧ commandPair cfg fourBsBlock none = [] ∧
      fieldEncode fourBsBlock (List.replicate 32 false) (List.replicate 8 false) (creating.namedValues 2) =
        .rejected .unknownField 1 :=
  ⟨by decide, by decide, by decide, by decide, ⟨by decide, by decide, by decide, by decide⟩, by decide,
    creating_valid _ (by decide), by decide, rfl, rfl, by decide +kernel⟩

/-- One category and block for each clause about the length and the command pair. -/
theorem witness_CreateBuilds_clauses :
    userLen 0xF6 vldBlock = 1 ∧ userLen 0xA5 vldBlock = 4 ∧ vldBlock.bits = some 24 ∧ userLen 0xD2 vldBlock = 3 ∧
      userLen 0xD2 { vldBlock with bits := some 0 } = 0 ∧ userLen 0xD2 { vldBlock with bits := some 0xFFFF } = 8192 ∧
      userLen 0xD2 { vldBlock with bits := none } = 1 ∧ (∃ F ∈ vldBlock.fields, F.shortcut = cfg.shortcutCmd) ∧
      commandPair cfg vldBlock (some 0) = [(0x20, 0)] ∧ (∀ F ∈ fourBsBlock.fields, F.shortcut ≠ cfg.shortcutCmd) ∧
      commandPair cfg fourBsBlock (some 1) = [] := by decide

/-- Section 1.4's telegram: every hypothesis at its values. -/
theorem witness_CreateBuilds :
    creating.Inv ∧ (createArgs true false false 1 creating).valid cfg ∧
      (createArgs true false false 1 creating).cat ≠ cfg.rorgCdmProp ∧
      findProfile cfg.catalog 0xA5 2 5 none none = .block 1 0 ∧ catalogBlock cfg.catalog 1 0 = some fourBsBlock ∧
      userLen 0xA5 fourBsBlock = 4 ∧
      fieldEncode fourBsBlock (List.replicate (8 * 4) false) (List.replicate 8 false)
        (commandPair cfg fourBsBlock none ++ creating.namedValues 1) =
        .done (bitsOf 32 0x8000) (List.replicate 8 false) ∧
      bitsToBytes (bitsOf 32 0x8000) 4 = [0, 0, 0x80, 0] :=
  ⟨creating_inv, creating_valid _ (by decide), by decide, by decide, rfl, by decide, by decide +kernel, by decide +kernel⟩

/-- The state section 1.4's CREATE leaves. -/
def created : State := after (.create true false false 1) creating

/-- The receiver of section 1.4: the frame CREATE built in its receive buffer, ARG0 = 0x0502. -/
def receiver : State := { machine.setRx created.txBytes with arg0 := 0x0502 }

theorem created_fits : created.txBytes.length ≤ cfg.rxbufCap := by decide +kernel

theorem inv_arg0 (s : State) (w : Word) (h : s.Inv) : State.Inv { s with arg0 := w } := { h with }

theorem receiver_inv : receiver.Inv := inv_arg0 _ _ (machine_inv.setRx created_fits)

theorem witness_CreateShowsWhatAReceiverSees :
    creating.Inv ∧ receiver.Inv ∧ exec (.create true false false 1) creating = .next created ∧
      created.status.result = .ok ∧ creating.arg0.extractLsb' 8 8 ≠ creating.cfg.rorgCdmProp ∧
      receiver.cfg = creating.cfg ∧ receiver.rxBytes = created.txBytes ∧
      reqOfArg true false false receiver.arg0 =
        { prof := true, func := creating.arg0.extractLsb' 16 8, ptype := creating.arg0.extractLsb' 24 8
          dir := none, cmd := none } :=
  ⟨creating_inv, receiver_inv, exec_after _ _, by decide +kernel, by decide, rfl, by decide +kernel, by decide⟩

end Sys2Proof.Tests
end

/-! Every step keeps the invariant. One lemma per command and per host line, each assembled from what the named updates
keep (Laws/Inv, Laws/Chain) and from the bounds of what is stored; a command's outcome is judged through `KeepsInv`. -/

namespace Sys2Proof.Machine

section
variable {s : State}

/-! ### What an outcome keeps -/

/-- The next state, where the outcome is one, meets the invariant. -/
def KeepsInv (o : Host.Outcome State Fault Refusal) : Prop := ∀ t, o = .next t → t.Inv

@[simp] theorem keepsInv_next (t : State) : KeepsInv (.next t) ↔ t.Inv :=
  ⟨fun h => h t rfl, fun h _ ht => Host.Outcome.next.inj ht ▸ h⟩

@[simp] theorem keepsInv_fault (f : Fault) : KeepsInv (.fault f) := fun _ ht => nomatch ht

/-! ### Frame codec and bit codec -/

theorem length_rxBytes (s : State) : s.rxBytes.length = s.rxlen := Store.length_readList ..

theorem length_dataBytes_le (s : State) : s.dataBytes.length ≤ pDataCap := by
  have hd : s.dataBytes.length = s.fDlen.toNat := Store.length_readList ..
  have hlt := s.fDlen.isLt
  rw [hd]
  show _ ≤ 65535
  omega

theorem length_optBytes_le (s : State) : s.optBytes.length ≤ pOptCap := by
  have ho : s.optBytes.length = s.fOlen.toNat := Store.length_readList ..
  have hlt := s.fOlen.isLt
  rw [ho]
  show _ ≤ 255
  omega

/-- A decoded frame fits FDATA and FOPT: its length fields have 16 and 8 bits (R108). -/
theorem frameDecode_frame_fits {p : Bool} {buf : List Byte} {f : Frame} (hf : (frameDecode p buf).frame = some f) :
    f.data.length ≤ pDataCap ∧ f.opt.length ≤ pOptCap := by
  rcases (frameDecode_cases p buf).2 with ⟨_, hnone, _⟩ | ⟨_, hnone, _⟩ | ⟨_, _, f', hf', hd, ho⟩
  · simp [hnone] at hf
  · simp [hnone] at hf
  · obtain rfl : f' = f := by simpa [hf'] using hf
    exact ⟨hd, ho⟩

/-- What `FrameDecode` leaves of the receive buffer fits it. -/
theorem State.Inv.consumeDecoded (h : s.Inv) : (s.consumeRx (frameDecode s.cfg.dcrcType s.rxBytes)).Inv := by
  have hrem := (frameDecode_cases s.cfg.dcrcType s.rxBytes).1
  rw [length_rxBytes] at hrem
  exact h.consumeRx _ (hrem.trans h.rxlenLe)

/-- An encoded frame fits TXBUF when its parts fit FDATA and FOPT (R41). -/
theorem State.Inv.setTxFrame (h : s.Inv) (p : Bool) (t : Byte) {d o : List Byte} (hd : d.length ≤ pDataCap)
    (ho : o.length ≤ pOptCap) : (s.setTx (frameEncode p t d o)).Inv := by
  have hd' : d.length ≤ 65535 := hd
  have ho' : o.length ≤ 255 := ho
  refine h.setTx ?_ ?_ <;> rw [length_frameEncode]
  · omega
  · show _ ≤ 65797
    omega

theorem State.Inv.execCrc8 (h : s.Inv) (bsel : BitVec 4) : KeepsInv (execCrc8 bsel s) := by
  rw [Machine.execCrc8, keepsInv_next]
  split
  · exact h.raiseFatal _
  · split
    · exact h.raiseFatal _
    · exact (h.setRes0 _).finish _

theorem State.Inv.execFrameDecode (h : s.Inv) : KeepsInv (execFrameDecode s) := by
  rw [Machine.execFrameDecode, keepsInv_next]
  refine State.Inv.finish (State.Inv.countMismatch ?_ _) _
  split
  · rename_i f hf
    obtain ⟨hd, ho⟩ := frameDecode_frame_fits hf
    exact (h.consumeDecoded.loadFrame f.ftype hd ho).countFrame
  · exact h.consumeDecoded

theorem State.Inv.execFrameEncode (h : s.Inv) : KeepsInv (execFrameEncode s) := by
  rw [Machine.execFrameEncode, keepsInv_next]
  exact ((h.setTxFrame _ _ (length_dataBytes_le s) (length_optBytes_le s)).setRes0 _).finish _

/-- The vector FLG[0] names takes every sequence its capacity admits (R161). -/
theorem State.Inv.setBits (h : s.Inv) {stat : Bool} {r : List Bool}
    (hr : r.length ≤ if stat then pBsCap else pBvCap) : (if stat then s.setBvStat r else s.setBvData r).Inv := by
  cases stat with
  | true => exact h.setBvStat hr
  | false => exact h.setBvData hr

theorem State.Inv.execBitsUnpack (h : s.Inv) (bsel : BitVec 4) (stat : Bool) : KeepsInv (execBitsUnpack bsel stat s) := by
  rw [Machine.execBitsUnpack, keepsInv_next]
  split
  · exact h.raiseFatal _
  · split
    · exact h.raiseFatal _
    · rename_i bytes _
      have hlen : (bytesToBits bytes s.arg2.toNat).length = unpackLen bytes s.arg2.toNat := length_bytesToBits ..
      by_cases hcap : (if stat then pBsCap else pBvCap) < unpackLen bytes s.arg2.toNat
      · simpa only [if_pos hcap] using h.raiseFatal _
      · have hfits := h.setBits (hlen.trans_le (Nat.le_of_not_lt hcap))
        simpa only [if_neg hcap] using (hfits.setRes0 _).finish _

theorem State.Inv.execBitsToInt (h : s.Inv) (stat : Bool) : KeepsInv (execBitsToInt stat s) := by
  rw [Machine.execBitsToInt, keepsInv_next]
  split
  · exact h.raiseFatal _
  · exact (((h.setRes0 _).setRes1 _).setRes2 _).finish _

theorem State.Inv.execBitsPack (h : s.Inv) (bsel : BitVec 4) (stat : Bool) : KeepsInv (execBitsPack bsel stat s) := by
  rw [Machine.execBitsPack, keepsInv_next]
  split
  · split
    · exact h.raiseFatal _
    · exact ((h.writeFdata (by rw [length_bitsToBytes]; omega)).setRes0 _).finish _
  · split
    · exact h.raiseFatal _
    · exact ((h.writeFopt (by rw [length_bitsToBytes]; omega)).setRes0 _).finish _
  · exact h.raiseFatal _

/-! ### Field codec -/

theorem State.Inv.execFindProfile (h : s.Inv) (hasDir hasCmd : Bool) : KeepsInv (execFindProfile hasDir hasCmd s) := by
  rw [Machine.execFindProfile, keepsInv_next]
  split
  · rename_i x y hfound
    obtain ⟨_, _, _, _, _, _, _, hb⟩ := findProfile_block hfound
    exact ((h.setRes0 0).setPsel hb).finish _
  · exact ((h.setRes0 _).dropPsel).finish _

theorem State.Inv.execFieldDecode (h : s.Inv) : KeepsInv (execFieldDecode s) := by
  rw [Machine.execFieldDecode, keepsInv_next]
  split
  · exact (h.noFields.setRes0 _).finish _
  · exact ((h.writeFields fun _ hr => FieldRec.ok_of_mem_fieldDecode hr).setRes0 _).finish _

/-- An encode over the stored vectors fits them: it keeps their lengths (R179). -/
theorem State.Inv.writeEncoded (h : s.Inv) {blk : DataBlock} {nv : List (BitVec 16 × Nat)} {vd vs : List Bool}
    (he : fieldEncode blk s.dataBits s.statBits nv = .done vd vs) : (s.writeBits vd vs).Inv := by
  obtain ⟨hd, hs⟩ := fieldEncode_lengths he
  have hdl : s.dataBits.length = s.bvDlen := Store.length_readList ..
  have hsl : s.statBits.length = s.bvSlen := Store.length_readList ..
  exact h.writeBits (by rw [hd, hdl]; exact h.bvDlenLe) (by rw [hs, hsl]; exact h.bvSlenLe)

theorem State.Inv.execFieldEncode (h : s.Inv) (n : BitVec 16) : KeepsInv (execFieldEncode n s) := by
  rw [Machine.execFieldEncode, keepsInv_next]
  split
  · exact h.raiseFatal _
  · split
    · exact (h.setRes0 _).finish _
    · split
      · exact (h.setRes0 _).finish _
      · rename_i he
        exact ((h.setRes0 0).writeEncoded he).finish _

/-! ### Packet model and chains -/

theorem State.Inv.flushChains (h : s.Inv) : s.flushChains.Inv := by
  have hnone : ∀ x ∈ s.chain.map fun _ => (none : Option ChainSlot), x = none := by simp
  refine h.setChain (by simp [h.chainLen]) (fun x hx => ?_) (List.pairwise_of_forall_mem_list fun x hx y _ => ?_)
  · rw [hnone x hx]
    rfl
  · rw [hnone x hx]
    rfl

theorem State.Inv.execParse (h : s.Inv) (prof hasDir hasCmd : Bool) : KeepsInv (execParse prof hasDir hasCmd s) := by
  rw [Machine.execParse, keepsInv_next]
  exact ((h.parsePacket _ _ _ _ (length_dataBytes_le s) (length_optBytes_le s)).setRes0 _).finish _

theorem State.Inv.execRecv (h : s.Inv) (prof hasDir hasCmd : Bool) : KeepsInv (execRecv prof hasDir hasCmd s) := by
  have h1 := h.consumeDecoded.countMismatch (frameDecode s.cfg.dcrcType s.rxBytes).status
  rw [Machine.execRecv, keepsInv_next]
  split
  · exact (h1.clearView.setRes2 _).finish _
  · rename_i f hf
    obtain ⟨hd, ho⟩ := frameDecode_frame_fits hf
    exact (((h1.countFrame.loadFrame f.ftype hd ho).parsePacket _ _ _ _ hd ho).setRes2 _).finish _

/-! ### CREATE -/

/-- A block's user data has at most the 8192 bytes its 16-bit bit count rounds up to (R170, R218). -/
theorem userLen_le (c : Byte) (blk : DataBlock) : userLen c blk ≤ 8192 := by
  unfold userLen
  split
  · rename_i u hu
    unfold pFixedUlen at hu
    split_ifs at hu <;> simp only [Option.some.injEq] at hu <;> omega
  · split
    · rename_i b _
      have := b.isLt
      omega
    · decide

theorem length_addressOf (len : BitVec 4) (w : Word) {p : List Byte} (hp : p.length = 4) :
    (addressOf len w p).length = 4 := by
  unfold addressOf
  split
  · rfl
  · exact hp

@[simp] theorem length_applyLearnBit (c : Byte) (learn : Bool) (u : List Byte) :
    (applyLearnBit c learn u).length = u.length := by
  unfold applyLearnBit
  split <;> simp

@[simp] theorem length_createData (a : CreateArgs) (u : Nat) (vd vs : List Bool) :
    (createData a u vd vs).length = u + 6 := by
  simp [createData, length_addressOf a.sl a.snd (p := pDefaultSender) rfl]

@[simp] theorem length_createOpt (a : CreateArgs) : (createOpt a).length = 7 := by
  simp [createOpt, length_addressOf a.dl a.dst (p := pDefaultDest) rfl]

theorem State.Inv.buildTelegram (h : s.Inv) {d o : List Byte} {vd vs : List Bool} (hd : d.length ≤ pDataCap)
    (ho : o.length ≤ pOptCap) (hvd : vd.length ≤ pBvCap) (hvs : vs.length ≤ pBsCap) :
    (s.buildTelegram d o vd vs).Inv :=
  (((h.setTxFrame _ _ hd ho).loadFrame _ hd ho).setBvData hvd).setBvStat hvs

theorem State.Inv.roundTrip (h : s.Inv) (req : Req) : (s.roundTrip req).Inv := by
  unfold State.roundTrip
  split
  · rename_i f hf
    obtain ⟨hd, ho⟩ := frameDecode_frame_fits hf
    exact h.parsePacket _ _ _ _ hd ho
  · exact h

theorem State.Inv.createValid (h : s.Inv) (a : CreateArgs) : (createValid a s).Inv := by
  unfold Machine.createValid
  split
  · exact (h.setRes0 _).finish _
  · rename_i x y _
    dsimp only
    split
    · exact (h.setRes0 _).finish _
    · rename_i vd vs he
      obtain ⟨hvd, hvs⟩ := fieldEncode_lengths he
      rw [List.length_replicate] at hvd hvs
      have hu := userLen_le a.cat ((catalogBlock s.cfg.catalog x y).getD default)
      refine ((State.Inv.roundTrip (h.buildTelegram ?_ ?_ ?_ hvs.le) _).setRes0 _).finish _
      · rw [length_createData]
        show _ ≤ 65535
        omega
      · rw [length_createOpt]
        decide
      · rw [hvd]
        show _ ≤ 524280
        omega

theorem State.Inv.execCreate (h : s.Inv) (learn hasDir hasCmd : Bool) (n : BitVec 16) :
    KeepsInv (execCreate learn hasDir hasCmd n s) := by
  rw [Machine.execCreate, keepsInv_next]
  split
  · exact h.raiseFatal _
  · exact h.createValid _

/-! ### The block step -/

/-- Every command keeps the invariant. -/
theorem State.Inv.exec (h : s.Inv) (i : Instr) : KeepsInv (exec i s) := by
  cases i with
  | nop => exact (keepsInv_next _).mpr (h.finish _)
  | crc8 bsel => exact h.execCrc8 bsel
  | rxFlush => exact (keepsInv_next _).mpr ((h.setRes0 _).flushRx.finish _)
  | frameDecode => exact h.execFrameDecode
  | frameEncode => exact h.execFrameEncode
  | bitsUnpack bsel stat => exact h.execBitsUnpack bsel stat
  | bitsToInt stat => exact h.execBitsToInt stat
  | bitsPack bsel stat => exact h.execBitsPack bsel stat
  | findProfile hasDir hasCmd => exact h.execFindProfile hasDir hasCmd
  | fieldDecode => exact h.execFieldDecode
  | fieldEncode n => exact h.execFieldEncode n
  | dispatch => exact (keepsInv_next _).mpr ((h.setRes0 _).finish _)
  | parse prof hasDir hasCmd => exact h.execParse prof hasDir hasCmd
  | recv prof hasDir hasCmd => exact h.execRecv prof hasDir hasCmd
  | create learn hasDir hasCmd n => exact h.execCreate learn hasDir hasCmd n
  | chainFlush => exact (keepsInv_next _).mpr ((h.setRes0 _).flushChains.finish _)

theorem State.Inv.blockStep (h : s.Inv) : KeepsInv (blockStep s) := by
  unfold Machine.blockStep
  split
  · exact h.exec _
  · exact (keepsInv_next _).mpr (h.raiseFatal _)

/-! ### Reset -/

/-- The reset state of a legal configuration meets the invariant (R281). -/
theorem State.inv_resetWith {cfg : Cfg} (hcfg : cfg.legal = true) : (State.resetWith cfg).Inv where
  cfgLegal := hcfg
  rxbufWf := rfl
  rxbufBelow := rfl
  rxlenLe := Nat.zero_le _
  txbufWf := rfl
  txbufBelow := rfl
  txlenRange := .inl rfl
  fdataWf := rfl
  fdataBelow := rfl
  foptWf := rfl
  foptBelow := rfl
  bvDataWf := rfl
  bvDataBelow := rfl
  bvDlenLe := Nat.zero_le _
  bvStatWf := rfl
  bvStatBelow := rfl
  bvSlenLe := Nat.zero_le _
  pselBlock := fun hv => nomatch hv
  pselZero := fun _ => ⟨rfl, rfl⟩
  ftWf := rfl
  ftBelow := rfl
  nfieldsLe := Nat.zero_le _
  ftRecords := fun _ => FieldRec.ok_blank
  nvWf := rfl
  nvBelow := rfl
  chainLen := List.length_replicate
  chainSlotsOk := fun _ hx => List.eq_of_mem_replicate hx ▸ rfl
  chainKeys := List.pairwise_replicate.mpr (.inr rfl)
  viewInv := View.inv_cleared

theorem State.Inv.blockReset (h : s.Inv) : s.blockReset.Inv := { State.inv_resetWith h.cfgLegal with }

/-! ### The host bus -/

/-- The indices of a target lie in its window (R82). -/
def Target.InWindow (cfg : Cfg) : Target → Prop
  | .reg _ | .bvStat => True
  | .rxbuf i => i < cfg.rxbufCap
  | .fdata i => i < pDataCap
  | .fopt i => i < pOptCap
  | .txbuf i => i < pTxCap
  | .bvData k => k < bvWords
  | .field i w => i < cfg.fieldCap ∧ w < 8
  | .nv i w => i < cfg.nvCap ∧ w < 4

/-- A bounded target lies in its window when the bound says so. -/
theorem bounded_inWindow {cfg : Cfg} {i cap : Nat} {t u : Target} (h : bounded i cap u = some t)
    (hu : i < cap → u.InWindow cfg) : t.InWindow cfg := by
  unfold bounded at h
  split at h
  · cases h
    exact hu ‹_›
  · cases h

/-- A mapped address selects a target inside its window: one case per window, in the map's order. -/
theorem mapAddr_inWindow {cfg : Cfg} {a : Nat} {t : Target} (h : mapAddr cfg a = some t) : t.InWindow cfg := by
  unfold mapAddr at h
  split_ifs at h
  · obtain ⟨r, -, rfl⟩ := Option.map_eq_some_iff.mp h
    trivial
  · exact bounded_inWindow h id
  · exact bounded_inWindow h id
  · exact bounded_inWindow h id
  · exact bounded_inWindow h id
  · exact bounded_inWindow h id
  · cases h
    trivial
  · exact bounded_inWindow h fun hi => ⟨hi, by omega⟩
  · exact bounded_inWindow h fun hi => ⟨hi, by omega⟩

theorem accept_inWindow {cfg : Cfg} {a n : Nat} {t : Target} (h : accept cfg a n = some t) : t.InWindow cfg := by
  unfold accept at h
  split at h
  · exact mapAddr_inWindow h
  · cases h

theorem State.Inv.writeCtrl (h : s.Inv) (w : Word) : (writeCtrl s w).Inv := by
  unfold Machine.writeCtrl
  split
  · exact h.blockReset
  · exact { h with }

theorem State.Inv.pushRx (h : s.Inv) (w : Word) : (pushRx s w).Inv := by
  unfold Machine.pushRx
  split
  · rename_i hroom
    exact { h with
      rxbufWf := Store.wf_write _ h.rxbufWf _ _
      rxbufBelow := Store.below_write _ h.rxbufBelow hroom _
      rxlenLe := hroom }
  · exact { h with }

theorem State.Inv.writeReg (h : s.Inv) (r : Reg) (w : Word) : (writeReg s r w).Inv := by
  cases r
  case ctrl => exact h.writeCtrl w
  case rxpush => exact h.pushRx w
  case bvDlen =>
    unfold Machine.writeReg
    dsimp only
    split
    · exact { h with bvDlenLe := ‹_› }
    · exact h
  case bvSlen =>
    unfold Machine.writeReg
    dsimp only
    split
    · exact { h with bvSlenLe := ‹_› }
    · exact h
  all_goals exact { h with }

/-- A window word's bits stay below the vector's capacity when the word begins below it. -/
theorem writeBitsWord_below {m : Bits} {cap start : Nat} (hm : Store.below cap m = true) (hs : start ≤ cap) (n : Nat)
    (w : Word) : Store.below cap (writeBitsWord m cap start n w) = true := by
  refine Store.below_writeList m hm _ _ ?_
  rw [List.length_take]
  omega

theorem writeBitsWord_wf {m : Bits} (hm : Store.wf m = true) (cap start n : Nat) (w : Word) :
    Store.wf (writeBitsWord m cap start n w) = true :=
  Store.wf_writeList m hm _ _

theorem State.Inv.writeTarget (h : s.Inv) {t : Target} (ht : t.InWindow s.cfg) (w : Word) :
    (writeTarget s t w).Inv := by
  cases t with
  | reg r => exact h.writeReg r w
  | fdata i =>
    exact { h with fdataWf := Store.wf_write _ h.fdataWf _ _, fdataBelow := Store.below_write _ h.fdataBelow ht _ }
  | fopt i =>
    exact { h with foptWf := Store.wf_write _ h.foptWf _ _, foptBelow := Store.below_write _ h.foptBelow ht _ }
  | bvData k =>
    have hk : k < 16384 := ht
    have hstart : 32 * k ≤ pBvCap := by
      show _ ≤ 524280
      omega
    exact { h with
      bvDataWf := writeBitsWord_wf h.bvDataWf _ _ _ _
      bvDataBelow := writeBitsWord_below h.bvDataBelow hstart _ _ }
  | bvStat =>
    exact { h with
      bvStatWf := writeBitsWord_wf h.bvStatWf _ _ _ _
      bvStatBelow := writeBitsWord_below h.bvStatBelow (Nat.zero_le _) _ _ }
  | nv i k =>
    obtain ⟨hi, hk⟩ := ht
    exact { h with
      nvWf := Store.wf_write _ h.nvWf _ _
      nvBelow := Store.below_write _ h.nvBelow (by omega) _ }
  | rxbuf _ | txbuf _ | field _ _ => exact h

theorem State.Inv.acceptedWrite (h : s.Inv) {t : Target} (ht : t.InWindow s.cfg) (w : Word) :
    (acceptedWrite s t w).Inv := by
  unfold Machine.acceptedWrite
  split
  · exact { h with }
  · exact h.writeTarget ht w

theorem State.Inv.acceptedRead (h : s.Inv) (t : Target) : (acceptedRead s t).1.Inv := by
  unfold Machine.acceptedRead
  split
  · exact { h with }
  · exact h

theorem State.Inv.memWrite (h : s.Inv) (a n : Nat) (v : Word) : (memWrite s a n v).Inv := by
  unfold Machine.memWrite
  split
  · exact h.respond _
  · rename_i t ht
    exact (h.acceptedWrite (accept_inWindow ht) v).respond _

theorem State.Inv.memRead (h : s.Inv) (a n : Nat) : (memRead s a n).Inv := by
  unfold Machine.memRead
  split
  · exact h.respond _
  · exact (h.acceptedRead _).respondData _

/-! ### The host step -/

theorem State.Inv.gotoLabel (h : s.Inv) (l : Nat) : KeepsInv (gotoLabel s l) := by
  unfold Machine.gotoLabel
  split
  · exact (keepsInv_next _).mpr (h.branchHost _)
  · exact keepsInv_fault _

/-- A conditional branch goes to its label or on to the next line (R114). -/
theorem State.Inv.branchIf (h : s.Inv) (c : Prop) [Decidable c] (l : Nat) :
    KeepsInv (if c then Machine.gotoLabel s l else .next s.advanceHost) := by
  split
  · exact h.gotoLabel l
  · exact (keepsInv_next _).mpr h.advanceHost

theorem State.Inv.runLine (h : s.Inv) (line : HostLine) : KeepsInv (runLine s line) := by
  cases line with
  | write a n v => exact (keepsInv_next _).mpr (h.advanceHost.memWrite a n v)
  | read a n => exact (keepsInv_next _).mpr (h.advanceHost.memRead a n)
  | label l => exact (keepsInv_next _).mpr h.advanceHost
  | ifEq hi lo v l => exact h.branchIf _ l
  | ifNe hi lo v l => exact h.branchIf _ l
  | goto l => exact h.gotoLabel l
  | halt => exact (keepsInv_next _).mpr h
  | hardReset => exact (keepsInv_next _).mpr h.advanceHost.blockReset

theorem State.Inv.hostStep (h : s.Inv) : KeepsInv (hostStep s) := by
  unfold Machine.hostStep
  split
  · exact (keepsInv_next _).mpr h
  · exact h.runLine _

theorem State.Inv.step (h : s.Inv) : KeepsInv (step s) := by
  unfold Machine.step
  split
  · exact h.blockStep
  · exact h.hostStep

end

/-- Settles O14: a step is the block's or the host's, and each command and each host line keeps the invariant. -/
theorem stepKeepsInv : Obligations.StepKeepsInv := fun _ t h ht => h.step t ht

end Sys2Proof.Machine

/-! The bit codec: the bits of a packed byte, and R166's symmetry laws. -/

namespace Sys2Proof.Machine

/-- Bit `i` of a sequence, counted from its first, is the integer's bit of that weight. -/
theorem testBit_bitsToInt (b : List Bool) (i : Nat) (h : i < b.length) :
    (bitsToInt b).testBit (b.length - 1 - i) = b[i] := by
  have hb : (bitsOf b.length (bitsToInt b))[i]'(by simpa using h) = b[i] := by simp only [bitsOf_bitsToInt]
  rw [← hb, getElem_bitsOf]

/-- R164: bit `7 - i` of packed byte `j` is bit `8j + i` of the sequence, 0 past its end. -/
theorem getLsbD_packByte (v : List Bool) (j : Nat) {i : Nat} (hi : i < 8) :
    (packByte v j).getLsbD (7 - i) = v.getD (8 * j + i) false := by
  have hbit := testBit_bitsToInt ((List.range 8).map fun i => v.getD (8 * j + i) false) i (by simpa using hi)
  rw [packByte, BitVec.getLsbD_ofNat, decide_eq_true (show 7 - i < 8 by omega), Bool.true_and]
  simpa using hbit

theorem getLsbD_bitsToBytes (v : List Bool) {m j i : Nat} (hj : j < m) (hi : i < 8) :
    ((bitsToBytes v m).getD j 0).getLsbD (7 - i) = v.getD (8 * j + i) false := by
  have hj' : j < (bitsToBytes v m).length := by simpa using hj
  rw [List.getD_eq_getElem _ _ hj', getElem_bitsToBytes, getLsbD_packByte v j hi]

theorem combine_concat (b : List Byte) (x : Byte) : combine (b ++ [x]) = combine b * 256 + x.toNat := by
  simp [combine_append, combine_cons]

theorem bitsToInt_concat (v : List Bool) (x : Bool) : bitsToInt (v ++ [x]) = 2 * bitsToInt v + if x then 1 else 0 := by
  rw [bitsToInt_append, bitsToInt_cons]
  cases x <;> simp [Nat.mul_comm]

/-- R166: packing the unpacked bytes gives them back. -/
theorem bitsToBytes_bytesToBits (b : List Byte) : bitsToBytes (bytesToBits b (8 * b.length)) b.length = b := by
  rw [bytesToBits_exact, bitsToBytes_flatMap_byteBits]

/-- R166: unpacking the packed bits of a whole number of bytes gives them back. -/
theorem bytesToBits_bitsToBytes {v : List Bool} {m : Nat} (h : v.length = 8 * m) :
    bytesToBits (bitsToBytes v m) v.length = v := by
  have hexact := bytesToBits_exact (bitsToBytes v m)
  rw [length_bitsToBytes, ← h, flatMap_byteBits_bitsToBytes m v h] at hexact
  exact hexact

/-- Settles O34: each clause is a law of the codec, from Laws/Bits or from the lemmas above. -/
theorem bitCodecLaws : Obligations.BitCodecLaws :=
  ⟨⟨combine_nil, combine_concat⟩,
    ⟨bitsToInt_nil, bitsToInt_concat⟩,
    fun b w => ⟨length_bytesToBits b w, bitsToInt_bytesToBits b w, bytesToBits_of_le b w, bitlen_le_iff⟩,
    fun v m => ⟨length_bitsToBytes v m, fun _ hj _ hi => getLsbD_bitsToBytes v hj hi⟩,
    fun b => bitsToInt_bytesToBits b _,
    bitsToBytes_bytesToBits,
    fun _ hv => bytesToBits_bitsToBytes (by omega)⟩

end Sys2Proof.Machine

/-! What no command writes (R33, R36, R37, R51): the configuration, the operand registers, NV and the agents' own fields,
gathered into one projection of the state that every update a command makes leaves as it is. -/

namespace Sys2Proof.Machine

/-- The fields no command writes: the operands of R30's tuple, with the parameters and the model's own fields. -/
structure Operands where
  cfg : Cfg
  ctrl : Ctrl
  cmdl : Word
  arg0 : Word
  arg1 : Word
  arg2 : Word
  arg3 : Word
  nv : Store Word
  host : HostAgent
  delay : Nat
  draws : Nat

/-- The state as far as no command writes it. -/
def State.operands (s : State) : Operands :=
  ⟨s.cfg, s.ctrl, s.cmdl, s.arg0, s.arg1, s.arg2, s.arg3, s.nv, s.host, s.delay, s.draws⟩

section
variable (s : State)

/-! ### The updates of commands keep the operands -/

@[simp] theorem State.operands_setRes0 (w : Word) : (s.setRes0 w).operands = s.operands := rfl
@[simp] theorem State.operands_setRes1 (w : Word) : (s.setRes1 w).operands = s.operands := rfl
@[simp] theorem State.operands_setRes2 (w : Word) : (s.setRes2 w).operands = s.operands := rfl
@[simp] theorem State.operands_setPsel (p : Psel) : (s.setPsel p).operands = s.operands := rfl
@[simp] theorem State.operands_setChain (c : List (Option ChainSlot)) : (s.setChain c).operands = s.operands := rfl
@[simp] theorem State.operands_clearView : s.clearView.operands = s.operands := rfl
@[simp] theorem State.operands_noFields : s.noFields.operands = s.operands := rfl
@[simp] theorem State.operands_setRx (rem : List Byte) : (s.setRx rem).operands = s.operands := rfl
@[simp] theorem State.operands_flushRx : s.flushRx.operands = s.operands := rfl
@[simp] theorem State.operands_setTx (f : List Byte) : (s.setTx f).operands = s.operands := rfl
@[simp] theorem State.operands_loadFrame (t : Byte) (d o : List Byte) :
    (s.loadFrame t d o).operands = s.operands := rfl
@[simp] theorem State.operands_setBvData (r : List Bool) : (s.setBvData r).operands = s.operands := rfl
@[simp] theorem State.operands_setBvStat (r : List Bool) : (s.setBvStat r).operands = s.operands := rfl
@[simp] theorem State.operands_writeBits (vd vs : List Bool) : (s.writeBits vd vs).operands = s.operands := rfl
@[simp] theorem State.operands_countFrame : s.countFrame.operands = s.operands := rfl
@[simp] theorem State.operands_countCrcerr : s.countCrcerr.operands = s.operands := rfl
@[simp] theorem State.operands_writeFields (out : List FieldRec) : (s.writeFields out).operands = s.operands := rfl
@[simp] theorem State.operands_writeFdata (a : Nat) (b : List Byte) : (s.writeFdata a b).operands = s.operands := rfl
@[simp] theorem State.operands_writeFopt (a : Nat) (b : List Byte) : (s.writeFopt a b).operands = s.operands := rfl
@[simp] theorem State.operands_finish (c : ResultCode) : (s.finish c).operands = s.operands := rfl
@[simp] theorem State.operands_raiseFatal (c : ResultCode) : (s.raiseFatal c).operands = s.operands := rfl
@[simp] theorem State.operands_consumeRx (r : DecodeResult) : (s.consumeRx r).operands = s.operands := by
  simp [State.consumeRx]
@[simp] theorem State.operands_flushChains : s.flushChains.operands = s.operands := s.operands_setChain _

@[simp] theorem State.operands_countMismatch (c : ResultCode) : (s.countMismatch c).operands = s.operands := by
  unfold State.countMismatch
  split <;> rfl

/-- Parse's frame (Laws/Parse) covers the operands. -/
theorem ParseFrame.operands {s t : State} (h : ParseFrame s t) : t.operands = s.operands := by
  simp only [State.operands, h.cfg, h.ctrl, h.cmdl, h.arg0, h.arg1, h.arg2, h.arg3, h.nv, h.host, h.delay, h.draws]

@[simp] theorem State.operands_parsePacket (t : Byte) (d o : List Byte) (req : Req) :
    (parsePacket t d o req s).1.operands = s.operands :=
  (ParseOk.parsePacket s t d o req).1.operands

@[simp] theorem State.operands_buildTelegram (d o : List Byte) (vd vs : List Bool) :
    (s.buildTelegram d o vd vs).operands = s.operands := by
  simp [State.buildTelegram]

@[simp] theorem State.operands_roundTrip (req : Req) : (s.roundTrip req).operands = s.operands := by
  unfold State.roundTrip
  split
  · exact s.operands_parsePacket ..
  · rfl

/-! ### The commands keep the operands -/

/-- The next state, where the outcome is one, has the operands of `s`. -/
def KeepsOperands (s : State) (o : Host.Outcome State Fault Refusal) : Prop :=
  ∀ t, o = .next t → t.operands = s.operands

@[simp] theorem keepsOperands_next (t : State) : KeepsOperands s (.next t) ↔ t.operands = s.operands :=
  ⟨fun h => h t rfl, fun h _ ht => Host.Outcome.next.inj ht ▸ h⟩

theorem keepsOperands_execCrc8 (bsel : BitVec 4) : KeepsOperands s (execCrc8 bsel s) := by
  rw [execCrc8, keepsOperands_next]
  split
  · simp
  · split <;> simp

theorem keepsOperands_execFrameDecode : KeepsOperands s (execFrameDecode s) := by
  rw [execFrameDecode, keepsOperands_next]
  split <;> simp

theorem keepsOperands_execBitsUnpack (bsel : BitVec 4) (stat : Bool) :
    KeepsOperands s (execBitsUnpack bsel stat s) := by
  rw [execBitsUnpack, keepsOperands_next]
  split
  · simp
  · split
    · simp
    · simp [apply_ite State.operands]

theorem keepsOperands_execBitsToInt (stat : Bool) : KeepsOperands s (execBitsToInt stat s) := by
  rw [execBitsToInt, keepsOperands_next]
  split <;> simp

theorem keepsOperands_execBitsPack (bsel : BitVec 4) (stat : Bool) : KeepsOperands s (execBitsPack bsel stat s) := by
  rw [execBitsPack, keepsOperands_next]
  split
  · split <;> simp
  · split <;> simp
  · simp

theorem keepsOperands_execFindProfile (hasDir hasCmd : Bool) : KeepsOperands s (execFindProfile hasDir hasCmd s) := by
  rw [execFindProfile, keepsOperands_next]
  split <;> simp

theorem keepsOperands_execFieldDecode : KeepsOperands s (execFieldDecode s) := by
  rw [execFieldDecode, keepsOperands_next]
  split <;> simp

theorem keepsOperands_execFieldEncode (n : BitVec 16) : KeepsOperands s (execFieldEncode n s) := by
  rw [execFieldEncode, keepsOperands_next]
  split
  · simp
  · split
    · simp
    · split <;> simp

theorem keepsOperands_execParse (prof hasDir hasCmd : Bool) : KeepsOperands s (execParse prof hasDir hasCmd s) := by
  rw [execParse, keepsOperands_next]
  simp

theorem keepsOperands_execRecv (prof hasDir hasCmd : Bool) : KeepsOperands s (execRecv prof hasDir hasCmd s) := by
  rw [execRecv, keepsOperands_next]
  split <;> simp

@[simp] theorem State.operands_createValid (a : CreateArgs) : (createValid a s).operands = s.operands := by
  unfold createValid
  split
  · simp
  · dsimp only
    split <;> simp

theorem keepsOperands_execCreate (learn hasDir hasCmd : Bool) (n : BitVec 16) :
    KeepsOperands s (execCreate learn hasDir hasCmd n s) := by
  rw [execCreate, keepsOperands_next]
  split <;> simp

/-- No command writes the operands. -/
theorem keepsOperands_exec (i : Instr) : KeepsOperands s (exec i s) := by
  cases i with
  | nop => exact (keepsOperands_next s _).mpr (s.operands_finish _)
  | crc8 bsel => exact keepsOperands_execCrc8 s bsel
  | rxFlush => exact (keepsOperands_next s _).mpr (by simp)
  | frameDecode => exact keepsOperands_execFrameDecode s
  | frameEncode => exact (keepsOperands_next s _).mpr (by simp)
  | bitsUnpack bsel stat => exact keepsOperands_execBitsUnpack s bsel stat
  | bitsToInt stat => exact keepsOperands_execBitsToInt s stat
  | bitsPack bsel stat => exact keepsOperands_execBitsPack s bsel stat
  | findProfile hasDir hasCmd => exact keepsOperands_execFindProfile s hasDir hasCmd
  | fieldDecode => exact keepsOperands_execFieldDecode s
  | fieldEncode n => exact keepsOperands_execFieldEncode s n
  | dispatch => exact (keepsOperands_next s _).mpr (by simp)
  | parse prof hasDir hasCmd => exact keepsOperands_execParse s prof hasDir hasCmd
  | recv prof hasDir hasCmd => exact keepsOperands_execRecv s prof hasDir hasCmd
  | create learn hasDir hasCmd n => exact keepsOperands_execCreate s learn hasDir hasCmd n
  | chainFlush => exact (keepsOperands_next s _).mpr (by simp)

end

/-- Settles O11: each command is a composition of updates none of which writes an operand. -/
theorem commandsLeaveOperands : Obligations.CommandsLeaveOperands := by
  intro i s t ht
  have hkept : t.operands = s.operands := keepsOperands_exec s i t ht
  simpa only [State.operands, Operands.mk.injEq] using hkept

end Sys2Proof.Machine

/-! The host's register accesses (R81, R88, R91) and the step of a pending command: what a read or a write of a register's
offset is for an idle and for a busy block, and the rules of STATUS, CMD, RXPUSH and the stored registers from it. -/

namespace Sys2Proof.Machine

section
variable (s : State)

/-! ### Accesses to a register's offset -/

/-- A word access at a register's offset is accepted and selects the register (R81, R82). -/
theorem accept_offset (cfg : Cfg) (r : Reg) : accept cfg r.offset 4 = some (.reg r) := by
  cases r <;> rfl

theorem memWrite_offset (r : Reg) (w : Word) :
    memWrite s r.offset 4 w = (acceptedWrite s (.reg r) w).respond .ack := by
  rw [memWrite, accept_offset]

/-- A write to CTRL or STATUS acts whether or not a command is pending (R91). -/
theorem memWrite_live {r : Reg} (hr : (Target.reg r).liveWrite = true) (w : Word) :
    memWrite s r.offset 4 w = (writeReg s r w).respond .ack := by
  simp [memWrite_offset, acceptedWrite, hr, writeTarget]

theorem memWrite_idle (hidle : s.status.busy = false) (r : Reg) (w : Word) :
    memWrite s r.offset 4 w = (writeReg s r w).respond .ack := by
  simp [memWrite_offset, acceptedWrite, hidle, writeTarget]

/-- While BUSY = 1 a write to any register but CTRL and STATUS is dropped and sets BUSYWR (R91). -/
theorem memWrite_busy (hbusy : s.status.busy = true) {r : Reg} (hr : (Target.reg r).liveWrite = false) (w : Word) :
    memWrite s r.offset 4 w =
      { s with status := { s.status with busywr := true }, host := { s.host with resp := .ack } } := by
  simp [memWrite_offset, acceptedWrite, hbusy, hr, State.respond]

theorem memRead_idle (hidle : s.status.busy = false) (r : Reg) :
    memRead s r.offset 4 = s.respondData (readReg s r) := by
  simp [memRead, accept_offset, acceptedRead, hidle, readTarget]

/-! ### STATUS -/

/-- The places of STATUS (R34): a flag in each of bits 0 to 6, RESULT in bits 15 to 8. -/
theorem Status.getLsbD_word (st : Status) (k : Nat) : st.word.getLsbD k =
    if k = 0 then st.busy else if k = 1 then st.done else if k = 2 then st.fatal else if k = 3 then st.rxovf
    else if k = 4 then st.busywr else if k = 5 then st.lenooc else if k = 6 then st.fldovf
    else if 8 ≤ k ∧ k < 16 then st.result.code.getLsbD (k - 8) else false := by
  simp only [Status.word, BitVec.getLsbD_append]
  by_cases hlow : k < 8
  · interval_cases k <;> simp
  · obtain ⟨j, rfl⟩ := Nat.exists_eq_add_of_le' (Nat.le_of_not_lt hlow)
    simp [show j + 8 < 16 ↔ j < 8 by omega]

/-- The W1C bits are bits 1 to 6. -/
theorem getLsbD_w1cMask {k : Nat} (hk : k < 32) : (0x7E : Word).getLsbD k = decide (1 ≤ k ∧ k ≤ 6) := by
  revert k
  decide

/-- A write of `w` to STATUS clears the W1C bits of `w` and keeps every other bit (R34). -/
theorem Status.word_write1c (st : Status) (w : Word) : (st.write1c w).word = st.word &&& ~~~(w &&& 0x7E) := by
  refine BitVec.eq_of_getLsbD_eq fun k hk => ?_
  simp only [BitVec.getLsbD_and, BitVec.getLsbD_not, getLsbD_w1cMask hk, decide_eq_true hk, Bool.true_and,
    Status.getLsbD_word, Status.write1c]
  by_cases hw1c : 1 ≤ k ∧ k ≤ 6
  · obtain ⟨hlo, hhi⟩ := hw1c
    interval_cases k <;> simp
  · have hflag : ∀ n, 1 ≤ n ∧ n ≤ 6 → k ≠ n := fun n hn => by omega
    simp [hw1c, hflag]

/-! ### RXPUSH -/

/-- A write just past a range appends to what the range reads. -/
theorem Store.readList_write_end {α : Type} [Inhabited α] [DecidableEq α] {m : Store α} (hm : Store.wf m = true)
    (n : Nat) (v : α) : Store.readList (Store.write m n v) 0 (n + 1) = Store.readList m 0 n ++ [v] := by
  refine List.ext_getElem (by simp) fun j hj _ => ?_
  rw [Store.getElem_readList, Nat.zero_add]
  have hle : j ≤ n := by simpa [Nat.lt_succ_iff] using hj
  rcases Nat.lt_or_eq_of_le hle with hlt | rfl
  · rw [Store.read_write_of_ne m v hlt.ne, List.getElem_append_left (by simpa using hlt), Store.getElem_readList,
      Nat.zero_add]
  · rw [Store.read_write_self m hm, List.getElem_append_right (by simp)]
    simp

/-- A push with room stores the low byte at RXLEN (R39). -/
theorem pushRx_room (hroom : s.rxlen < s.cfg.rxbufCap) (w : Word) :
    pushRx s w =
      { s with
        rxbuf := Store.write (α := Byte) s.rxbuf s.rxlen (w.extractLsb' 0 8), rxlen := s.rxlen + 1 } :=
  if_pos hroom

/-- A push with no room drops the byte (R39). -/
theorem pushRx_full (hfull : ¬s.rxlen < s.cfg.rxbufCap) (w : Word) :
    pushRx s w = { s with status := { s.status with rxovf := true } } :=
  if_neg hfull

/-! ### The length registers and the read-only registers -/

/-- BV_DLEN ignores a length above P_BV_CAP (R47). -/
theorem writeReg_bvDlen (w : Word) :
    writeReg s .bvDlen w =
      { s with bvDlen := if w.toNat % 2 ^ 20 ≤ 524280 then w.toNat % 2 ^ 20 else s.bvDlen } := by
  have hlow : (w.extractLsb' 0 20).toNat = w.toNat % 2 ^ 20 := BitVec.extractLsb'_toNat ..
  rw [writeReg, hlow, pBvCap]
  split <;> rfl

/-- BV_SLEN ignores a length above 8 (R48). -/
theorem writeReg_bvSlen (w : Word) :
    writeReg s .bvSlen w = { s with bvSlen := if w.toNat % 2 ^ 4 ≤ 8 then w.toNat % 2 ^ 4 else s.bvSlen } := by
  have hlow : (w.extractLsb' 0 4).toNat = w.toNat % 2 ^ 4 := BitVec.extractLsb'_toNat ..
  rw [writeReg, hlow, pBsCap]
  split <;> rfl

/-- The read-only registers, in the order of their offsets (R31 to R68). -/
def readOnlyRegs : List Reg :=
  [.id, .version, .res0, .res1, .res2, .rxlen, .txlen, .psel, .nfields, .chainOcc, .cntFrames, .cntCrcerr, .cntOrphan,
    .vVariant, .vType, .vRorg, .vStatb, .vDbm, .vSender, .vDest, .vFlags, .vFunc, .vVtype, .vManuf, .vCmd, .vCode, .vUte,
    .vChain]

/-- A read-only register ignores writes (R88). -/
theorem writeReg_readOnly {r : Reg} (hr : r ∈ readOnlyRegs) (w : Word) : writeReg s r w = s := by
  cases r
  case ctrl | status | cmd | arg0 | arg1 | arg2 | arg3 | rxpush | fType | fDlen | fOlen | bvDlen | bvSlen =>
    exact absurd hr (by decide)
  all_goals rfl

/-! ### The step of a pending command -/

/-- A block that may run takes the step with the command in CMDL (R36, R90). -/
theorem step_of_mayRun {s : State} {i : Instr} (hrun : s.mayRun) (hi : decode s.cmdl = .ok i) : step s = exec i s := by
  obtain ⟨hbusy, hturn⟩ := hrun
  have hblock : blockTurn s = true := by
    rcases hturn with hdelay | hidle
    · simp [blockTurn, hbusy, hdelay]
    · simp [blockTurn, hbusy, hidle]
  rw [step, if_pos hblock, blockStep, fetchWord, hi]

/-- A placed word is a command the block may run. -/
theorem mayRun_withFetchWord (nbits w : Nat) : (s.withFetchWord nbits w).mayRun := ⟨rfl, .inl rfl⟩

theorem decode_of_decodeTableWord {nbits w : Nat} {i : Instr} (h : decodeTableWord nbits w = some i) :
    decode (tableWord nbits w) = .ok i := by
  unfold decodeTableWord at h
  cases hd : decode (tableWord nbits w) with
  | ok i' =>
    rw [hd] at h
    exact congrArg _ (Option.some.inj h)
  | error e =>
    rw [hd] at h
    exact nomatch h

end

/-- Settles O20: the places are `Status.getLsbD_word`'s, and STATUS is written while busy or not. -/
theorem statusWrite1ToClear : Obligations.StatusWrite1ToClear := by
  refine ⟨fun s => s.status.getLsbD_word, fun s w => ?_⟩
  have hwrite : memWrite s 0x00C 4 w = (writeReg s .status w).respond .ack := memWrite_live s (r := .status) rfl w
  rw [hwrite]
  exact ⟨rfl, s.status.word_write1c w⟩

/-- Settles O22. With room the byte goes to index RXLEN, just past the valid contents. -/
theorem rxPushAppendsOrDrops : Obligations.RxPushAppendsOrDrops := by
  intro s w hinv
  have hwrite : s.status.busy = false → memWrite s 0x030 4 w = (pushRx s w).respond .ack :=
    fun hidle => memWrite_idle s hidle .rxpush w
  refine ⟨fun hidle hroom => ?_, fun hidle hfull => ?_, fun hbusy => ?_, fun hidle => ?_⟩
  · rw [hwrite hidle, pushRx_room s hroom]
    exact ⟨rfl, Store.readList_write_end (α := Byte) hinv.rxbufWf _ _,
      fun k hk => Store.read_write_of_ne (α := Byte) s.rxbuf _ hk⟩
  · rw [hwrite hidle, pushRx_full s hfull.not_lt]
    rfl
  · exact memWrite_busy s hbusy (r := .rxpush) rfl w
  · exact memRead_idle s hidle .rxpush

/-- Settles O5: a placed word is pending with no delay left, so both clauses are the step of a block that may run. -/
theorem stepRunsDecodedCommand : Obligations.StepRunsDecodedCommand :=
  ⟨fun _ _ => step_of_mayRun,
    fun s nbits w _ hi => step_of_mayRun (mayRun_withFetchWord s nbits w) (decode_of_decodeTableWord hi)⟩

/-- Settles O21: an idle block's write to CMD is `writeCmd`, which draws the delay as it latches the word. -/
theorem cmdWriteLatches : Obligations.CmdWriteLatches := by
  refine fun s w =>
    ⟨fun hidle => ⟨?_, memRead_idle s hidle .cmd⟩, fun hbusy => memWrite_busy s hbusy (r := .cmd) rfl w⟩
  have hwrite : memWrite s 0x010 4 w = (writeCmd s w).respond .ack := memWrite_idle s hidle .cmd w
  rw [hwrite]
  rfl

/-- Settles O23: each offset is a register's, and `writeReg` stores the register's implemented bits. -/
theorem registerWrites : Obligations.RegisterWrites := by
  intro s w hidle
  have hwrite := memWrite_idle s hidle
  refine ⟨hwrite .arg0 w, hwrite .arg1 w, hwrite .arg2 w, hwrite .arg3 w, hwrite .fType w, hwrite .fDlen w,
    hwrite .fOlen w, ?_, ?_, fun a ha => ?_⟩
  · exact (hwrite .bvDlen w).trans (congrArg (State.respond · .ack) (writeReg_bvDlen s w))
  · exact (hwrite .bvSlen w).trans (congrArg (State.respond · .ack) (writeReg_bvSlen s w))
  · have ha' : a ∈ readOnlyRegs.map Reg.offset := ha
    obtain ⟨r, hr, rfl⟩ := List.mem_map.mp ha'
    exact (hwrite r w).trans (congrArg (State.respond · .ack) (writeReg_readOnly s hr w))

end Sys2Proof.Machine

/-! The host address map (R82): each target's byte address, and that in a legal configuration the map is the inverse of
it on the aligned addresses. -/

namespace Sys2Proof.Machine

/-- The byte address of a target (R82); `mapAddr_eq_some_iff` ties it to `mapAddr`. -/
def Target.addr : Target → Nat
  | .reg r => r.offset
  | .rxbuf i => 0x100000 + 4 * i
  | .fdata i => 0x200000 + 4 * i
  | .fopt i => 0x300000 + 4 * i
  | .txbuf i => 0x400000 + 4 * i
  | .bvData k => 0x500000 + 4 * k
  | .bvStat => 0x600000
  | .field i w => 0x700000 + 32 * i + 4 * w
  | .nv i w => 0x800000 + 16 * i + 4 * w

theorem Reg.offset_le (r : Reg) : r.offset ≤ 0xB8 := by
  cases r <;> decide

theorem Reg.offset_mod_four (r : Reg) : r.offset % 4 = 0 := by
  cases r <;> rfl

/-- No register lies between CNT_ORPHAN and V_VARIANT (R82). -/
theorem Reg.offset_not_hole (r : Reg) : r.offset < 0x068 ∨ 0x07C < r.offset := by
  cases r <;> decide

theorem Target.addr_mod_four (t : Target) : t.addr % 4 = 0 := by
  cases t with
  | reg r => exact r.offset_mod_four
  | rxbuf | fdata | fopt | txbuf | bvData | field | nv =>
    simp only [Target.addr]
    omega
  | bvStat => rfl

theorem accept_eq_some_iff {cfg : Cfg} {a n : Nat} {t : Target} :
    accept cfg a n = some t ↔ n = 4 ∧ a % 4 = 0 ∧ mapAddr cfg a = some t := by
  simp [accept, and_assoc]

theorem accept_eq_none {cfg : Cfg} {a n : Nat} (h : ¬(n = 4 ∧ a % 4 = 0 ∧ ∃ t, mapAddr cfg a = some t)) :
    accept cfg a n = none := by
  refine Option.eq_none_iff_forall_ne_some.mpr fun t ht => h ?_
  obtain ⟨hsize, haligned, hmap⟩ := accept_eq_some_iff.mp ht
  exact ⟨hsize, haligned, t, hmap⟩

theorem mapAddr_offset (cfg : Cfg) (r : Reg) : mapAddr cfg r.offset = some (.reg r) :=
  (accept_eq_some_iff.mp (accept_offset cfg r)).2.2

theorem bounded_of_lt {i cap : Nat} (h : i < cap) (t : Target) : bounded i cap t = some t := if_pos h

theorem bounded_eq_some {i cap : Nat} {t u : Target} (h : bounded i cap u = some t) : u = t := by
  unfold bounded at h
  split at h
  · exact Option.some.inj h
  · cases h

/-- R6's bounds on the capacities whose windows the map holds. -/
theorem Cfg.legal_windows {cfg : Cfg} (h : cfg.legal = true) :
    cfg.rxbufCap ≤ 262144 ∧ cfg.fieldCap ≤ 32768 ∧ cfg.nvCap ≤ 65536 := by
  simp only [Cfg.legal, Bool.and_eq_true, decide_eq_true_eq] at h
  omega

/-- The index of word `i` of a window at `b`. -/
theorem windowIndex (b i : Nat) : (b + 4 * i - b) / 4 = i := by omega

/-- In a legal configuration no window reaches the next, so each target inside its window answers at its address. -/
theorem mapAddr_addr {cfg : Cfg} (hcfg : cfg.legal = true) {t : Target} (ht : t.InWindow cfg) :
    mapAddr cfg t.addr = some t := by
  obtain ⟨hrx, hft, hnv⟩ := Cfg.legal_windows hcfg
  cases t with
  | reg r => exact mapAddr_offset cfg r
  | rxbuf i =>
    have hi : i < cfg.rxbufCap := ht
    simp (disch := omega) only [Target.addr, mapAddr, windowIndex, if_neg, if_pos]
    exact bounded_of_lt ht _
  | fdata i =>
    have hi : i < 65535 := ht
    simp (disch := omega) only [Target.addr, mapAddr, windowIndex, if_neg, if_pos]
    exact bounded_of_lt ht _
  | fopt i =>
    have hi : i < 255 := ht
    simp (disch := omega) only [Target.addr, mapAddr, windowIndex, if_neg, if_pos]
    exact bounded_of_lt ht _
  | txbuf i =>
    have hi : i < 65797 := ht
    simp (disch := omega) only [Target.addr, mapAddr, windowIndex, if_neg, if_pos]
    exact bounded_of_lt ht _
  | bvData k =>
    have hk : k < 16384 := ht
    simp (disch := omega) only [Target.addr, mapAddr, windowIndex, if_neg, if_pos]
    exact bounded_of_lt ht _
  | bvStat => rfl
  | field i w =>
    obtain ⟨hi, hw⟩ := ht
    have hentry : (0x700000 + 32 * i + 4 * w - 0x700000) / 32 = i := by omega
    have hword : (0x700000 + 32 * i + 4 * w - 0x700000) % 32 / 4 = w := by omega
    simp (disch := omega) only [Target.addr, mapAddr, hentry, hword, if_neg, if_pos]
    exact bounded_of_lt hi _
  | nv i w =>
    obtain ⟨hi, hw⟩ := ht
    have hentry : (0x800000 + 16 * i + 4 * w - 0x800000) / 16 = i := by omega
    have hword : (0x800000 + 16 * i + 4 * w - 0x800000) % 16 / 4 = w := by omega
    simp (disch := omega) only [Target.addr, mapAddr, hentry, hword, if_neg, if_pos]
    exact bounded_of_lt hi _

theorem regAt_eq_some {a : Nat} {r : Reg} (h : regAt a = some r) : a = r.offset := by
  have hoff := List.find?_some h
  exact (beq_iff_eq.mp hoff).symm

theorem addr_of_bounded {a i cap : Nat} {t u : Target} (h : bounded i cap u = some t) (hu : a = u.addr) : a = t.addr :=
  bounded_eq_some h ▸ hu

/-- A mapped aligned address is its target's: one case per window, in the map's order. -/
theorem eq_addr_of_mapAddr {cfg : Cfg} {a : Nat} {t : Target} (haligned : a % 4 = 0) (h : mapAddr cfg a = some t) :
    a = t.addr := by
  unfold mapAddr at h
  split_ifs at h
  · obtain ⟨r, hr, rfl⟩ := Option.map_eq_some_iff.mp h
    exact regAt_eq_some hr
  · exact addr_of_bounded h (by simp only [Target.addr]; omega)
  · exact addr_of_bounded h (by simp only [Target.addr]; omega)
  · exact addr_of_bounded h (by simp only [Target.addr]; omega)
  · exact addr_of_bounded h (by simp only [Target.addr]; omega)
  · exact addr_of_bounded h (by simp only [Target.addr]; omega)
  · cases h
    assumption
  · exact addr_of_bounded h (by simp only [Target.addr]; omega)
  · exact addr_of_bounded h (by simp only [Target.addr]; omega)

/-- The address map in a legal configuration: an aligned address selects the target that has it, inside its window. -/
theorem mapAddr_eq_some_iff {cfg : Cfg} (hcfg : cfg.legal = true) {a : Nat} (haligned : a % 4 = 0) {t : Target} :
    mapAddr cfg a = some t ↔ t.InWindow cfg ∧ a = t.addr :=
  ⟨fun h => ⟨mapAddr_inWindow h, eq_addr_of_mapAddr haligned h⟩, fun ⟨ht, ha⟩ => ha ▸ mapAddr_addr hcfg ht⟩

/-- Nothing answers in the register block's hole (R82). -/
theorem mapAddr_hole (cfg : Cfg) {a : Nat} (hlo : 0x068 ≤ a) (hhi : a ≤ 0x07C) : mapAddr cfg a = none := by
  have hreg : regAt a = none := by
    refine Option.eq_none_iff_forall_ne_some.mpr fun r hr => ?_
    have hoff := regAt_eq_some hr
    rcases r.offset_not_hole with hbefore | hafter <;> omega
  rw [mapAddr, if_pos (by omega), hreg]
  rfl

/-- Settles O18: the map is `Target.addr` both ways, on the targets inside their windows (`mapAddr_eq_some_iff`). -/
theorem addressMap : Obligations.AddressMap := by
  refine ⟨by decide, fun cfg hcfg => ?_⟩
  have hmap : ∀ t : Target, t.InWindow cfg → mapAddr cfg t.addr = some t := fun _ => mapAddr_addr hcfg
  refine ⟨mapAddr_offset cfg, fun _ => mapAddr_hole cfg, fun i hi => hmap (.rxbuf i) hi, fun i hi => hmap (.fdata i) hi,
    fun i hi => hmap (.fopt i) hi, fun i hi => hmap (.txbuf i) hi, fun k hk => hmap (.bvData k) hk, rfl,
    fun i hi w hw => hmap (.field i w) ⟨hi, hw⟩, fun i hi w hw => hmap (.nv i w) ⟨hi, hw⟩, fun a t haligned h => ?_⟩
  obtain ⟨hwin, rfl⟩ := (mapAddr_eq_some_iff hcfg haligned).mp h
  cases t with
  | reg r => exact .inl ⟨r, rfl, r.offset_le⟩
  | rxbuf i => exact .inr (.inl ⟨i, hwin, rfl⟩)
  | fdata i => exact .inr (.inr (.inl ⟨i, hwin, rfl⟩))
  | fopt i => exact .inr (.inr (.inr (.inl ⟨i, hwin, rfl⟩)))
  | txbuf i => exact .inr (.inr (.inr (.inr (.inl ⟨i, hwin, rfl⟩))))
  | bvData k => exact .inr (.inr (.inr (.inr (.inr (.inl ⟨k, hwin, rfl⟩)))))
  | bvStat => exact .inr (.inr (.inr (.inr (.inr (.inr (.inl rfl))))))
  | field i w =>
    obtain ⟨hi, hw⟩ := hwin
    exact .inr (.inr (.inr (.inr (.inr (.inr (.inr (.inl ⟨i, hi, w, hw, rfl⟩)))))))
  | nv i w =>
    obtain ⟨hi, hw⟩ := hwin
    exact .inr (.inr (.inr (.inr (.inr (.inr (.inr (.inr ⟨i, hi, w, hw, rfl⟩)))))))

end Sys2Proof.Machine

/-! The host's accesses through the map (R81 to R91): what an access that is not accepted does, what a read or a write of
a target is for an idle and for a busy block, and what a read leaves unchanged. -/

namespace Sys2Proof.Machine

section
variable (s : State)

/-! ### Accepted and refused accesses -/

theorem memWrite_of_accept {a n : Nat} {t : Target} (h : accept s.cfg a n = some t) (w : Word) :
    memWrite s a n w = (acceptedWrite s t w).respond .ack := by
  rw [memWrite, h]

theorem memRead_of_accept {a n : Nat} {t : Target} (h : accept s.cfg a n = some t) :
    memRead s a n = (acceptedRead s t).1.respondData (acceptedRead s t).2 := by
  rw [memRead, h]

theorem memWrite_busError {a n : Nat} (h : accept s.cfg a n = none) (w : Word) :
    memWrite s a n w = s.respond .busError := by
  rw [memWrite, h]

theorem memRead_busError {a n : Nat} (h : accept s.cfg a n = none) : memRead s a n = s.respond .busError := by
  rw [memRead, h]

/-! ### Idle and busy -/

theorem acceptedWrite_idle (hidle : s.status.busy = false) (t : Target) (w : Word) :
    acceptedWrite s t w = writeTarget s t w := by
  simp [acceptedWrite, hidle]

theorem acceptedWrite_live {t : Target} (ht : t.liveWrite = true) (w : Word) :
    acceptedWrite s t w = writeTarget s t w := by
  simp [acceptedWrite, ht]

/-- While BUSY = 1 a write that is not live is dropped and sets BUSYWR (R91). -/
theorem acceptedWrite_dropped (hbusy : s.status.busy = true) {t : Target} (ht : t.liveWrite = false) (w : Word) :
    acceptedWrite s t w = { s with status := { s.status with busywr := true } } := by
  simp [acceptedWrite, hbusy, ht]

theorem acceptedRead_idle (hidle : s.status.busy = false) (t : Target) : acceptedRead s t = (s, readTarget s t) := by
  simp [acceptedRead, hidle]

theorem acceptedRead_stable {t : Target} (ht : t.stable = true) : acceptedRead s t = (s, readTarget s t) := by
  simp [acceptedRead, ht]

theorem memRead_accepted_idle (hidle : s.status.busy = false) {a n : Nat} {t : Target}
    (h : accept s.cfg a n = some t) : memRead s a n = s.respondData (readTarget s t) := by
  rw [memRead_of_accept s h, acceptedRead_idle s hidle]

/-- While BUSY = 1 a target that is not stable reads a fresh draw (R91). -/
theorem acceptedRead_draw (hbusy : s.status.busy = true) {t : Target} (ht : t.stable = false) :
    acceptedRead s t = ({ s with draws := s.draws + 1 }, Config.busyRead s.draws) := by
  simp [acceptedRead, hbusy, ht]

/-- A write of an idle block at an address of its map acts on the target that has the address. -/
theorem memWrite_addr_idle (hcfg : s.cfg.legal = true) (hidle : s.status.busy = false) {t : Target}
    (ht : t.InWindow s.cfg) (w : Word) : memWrite s t.addr 4 w = (writeTarget s t w).respond .ack := by
  have haccept : accept s.cfg t.addr 4 = some t :=
    accept_eq_some_iff.mpr ⟨rfl, t.addr_mod_four, mapAddr_addr hcfg ht⟩
  rw [memWrite_of_accept s haccept, acceptedWrite_idle s hidle]

theorem Target.liveWrite_iff (t : Target) : t.liveWrite = true ↔ t = .reg .status ∨ t = .reg .ctrl := by
  cases t with
  | reg r => cases r <;> simp [Target.liveWrite]
  | _ => simp [Target.liveWrite]

theorem Target.stable_iff (t : Target) :
    t.stable = true ↔ ∃ r : Reg, t = .reg r ∧ (r = .id ∨ r = .version ∨ r = .ctrl ∨ r = .status) := by
  cases t with
  | reg r => cases r <;> simp [Target.stable]
  | _ => simp [Target.stable]

/-! ### What a read leaves unchanged -/

/-- A read touches the host's record and the draw counter alone (R89). -/
theorem memRead_frame (a n : Nat) :
    memRead s a n = { s with host := (memRead s a n).host, draws := (memRead s a n).draws } := by
  unfold memRead
  split
  · rfl
  · unfold acceptedRead
    split <;> rfl

/-- What a target shows does not depend on the host. -/
theorem readTarget_respondData (w : Word) (t : Target) : readTarget (s.respondData w) t = readTarget s t := by
  cases t with
  | reg r => cases r <;> rfl
  | _ => rfl

/-- Reading an idle block again gives the same answer (R89). -/
theorem memRead_memRead_idle (hidle : s.status.busy = false) (a n : Nat) :
    memRead (memRead s a n) a n = memRead s a n := by
  cases h : accept s.cfg a n with
  | none =>
    rw [memRead_busError s h]
    exact memRead_busError _ h
  | some t =>
    rw [memRead_accepted_idle s hidle h]
    refine (memRead_accepted_idle (s.respondData _) hidle h).trans ?_
    rw [readTarget_respondData]
    rfl

theorem memRead_draws_idle (hidle : s.status.busy = false) (a n : Nat) : (memRead s a n).draws = s.draws := by
  cases h : accept s.cfg a n with
  | none => rw [memRead_busError s h]; rfl
  | some t => rw [memRead_accepted_idle s hidle h]; rfl

/-! ### Register values -/

/-- PSEL as the register reads (R49). -/
theorem Psel.toNat_word (p : Psel) :
    p.word.toNat = 2 ^ 31 * (if p.valid then 1 else 0) + 2 ^ 16 * p.entry.toNat + p.block.toNat := by
  have hentry := p.entry.isLt
  have hblock := p.block.isLt
  simp only [Psel.word, BitVec.toNat_append]
  rw [← Nat.shiftLeft_add_eq_or_of_lt hentry, ← Nat.shiftLeft_add_eq_or_of_lt hblock]
  cases p.valid <;> simp [Nat.shiftLeft_eq] <;> omega

end

/-- Settles O17: an access is accepted or a bus error, and an accepted read answers through `acceptedRead`. -/
theorem busErrorsAndReads : Obligations.BusErrorsAndReads := by
  refine ⟨fun s a n v h => ?_, fun s a n => ⟨memRead_frame s a n, fun hidle => ?_⟩, fun s a t hidle haligned hmap => ?_,
    fun s => ⟨fun _ => rfl, ?_⟩⟩
  · have hnone := accept_eq_none h
    exact ⟨memWrite_busError s hnone v, memRead_busError s hnone⟩
  · exact ⟨memRead_draws_idle s hidle a n, memRead_memRead_idle s hidle a n⟩
  · exact memRead_accepted_idle s hidle (accept_eq_some_iff.mpr ⟨rfl, haligned, hmap⟩)
  · have hocc : s.chainOcc = (s.chain.filter (·.isSome)).length := List.countP_eq_length_filter
    simp [readReg, BitVec.toNat_setWidth_of_le, -BitVec.toNat_setWidth, Psel.toNat_word, hocc]

/-- Settles O19: the live targets are STATUS and CTRL, the stable ones ID, VERSION, CTRL and STATUS. -/
theorem busyAccess : Obligations.BusyAccess := by
  intro s a t v hbusy haligned hmap
  have haccept := accept_eq_some_iff.mpr ⟨rfl, haligned, hmap⟩
  rw [memWrite_of_accept s haccept, memRead_of_accept s haccept]
  refine ⟨fun hlive => ?_, fun hstatus hctrl => ?_, fun r hr hstable => ?_, fun hid hversion hctrl hstatus => ?_⟩
  · rw [acceptedWrite_live s (t.liveWrite_iff.mpr hlive)]
  · have hdead : t.liveWrite = false := Bool.eq_false_iff.mpr fun h => (t.liveWrite_iff.mp h).elim hstatus hctrl
    rw [acceptedWrite_dropped s hbusy hdead]
    rfl
  · rw [acceptedRead_stable s (t.stable_iff.mpr ⟨r, hr, hstable⟩), hr]
    rfl
  · have hunstable : t.stable = false := by
      refine Bool.eq_false_iff.mpr fun h => ?_
      obtain ⟨r, rfl, rfl | rfl | rfl | rfl⟩ := t.stable_iff.mp h
      exacts [hid rfl, hversion rfl, hctrl rfl, hstatus rfl]
    exact ⟨Config.busyRead s.draws, by rw [acceptedRead_draw s hbusy hunstable]⟩

end Sys2Proof.Machine

/-! The host's windows (R84, R87, R88): what a word of each window shows of the storage behind it, and what a write of it
stores. -/

namespace Sys2Proof.Machine

section
variable (s : State)

/-! ### The bit windows -/

theorem testBit_bitsToInt_range (f : Nat → Bool) {j : Nat} (hj : j < 32) :
    (bitsToInt ((List.range 32).map f)).testBit (31 - j) = f j := by
  have hbit := testBit_bitsToInt ((List.range 32).map f) j (by simpa using hj)
  simpa using hbit

/-- A window word shows the bits below the count and the capacity, and 0 elsewhere (R84). -/
theorem getLsbD_bitsWord (m : Bits) (cap start n : Nat) {j : Nat} (hj : j < 32) :
    (bitsWord m cap start n).getLsbD (31 - j) =
      (decide (j < n ∧ start + j < cap) && Store.read m (start + j)) := by
  rw [bitsWord, BitVec.getLsbD_ofNat, testBit_bitsToInt_range _ hj]
  have hbit : 31 - j < 32 := by omega
  by_cases h : j < n ∧ start + j < cap <;> simp [h, hbit]

theorem getLsbD_readTarget_bvData (k : Nat) {j : Nat} (hj : j < 32) :
    (readTarget s (.bvData k)).getLsbD (31 - j) =
      (decide (32 * k + j < 524280) && Store.read s.bvData (32 * k + j)) := by
  simp [readTarget, getLsbD_bitsWord _ _ _ _ hj, hj, pBvCap]

theorem getLsbD_readTarget_bvStat {j : Nat} (hj : j < 32) :
    (readTarget s .bvStat).getLsbD (31 - j) = (decide (j < 8) && Store.read s.bvStat j) := by
  simp [readTarget, getLsbD_bitsWord _ _ _ _ hj, pBsCap]

/-- A window word's write puts word bit 31-j at bit `start + j` (R84). -/
theorem read_writeBitsWord_of_in {m : Bits} (hm : Store.wf m = true) {cap start n j : Nat} (hn : j < n) (hj : j < 32)
    (hcap : start + j < cap) (w : Word) :
    Store.read (writeBitsWord m cap start n w) (start + j) = w.getLsbD (31 - j) := by
  have hlen : j < ((bitsOf 32 w.toNat).take (min n (cap - start))).length := by
    rw [List.length_take, length_bitsOf]
    omega
  rw [writeBitsWord, Store.read_writeList_of_in m hm _ _ _ hlen, List.getElem_take, getElem_bitsOf]
  rfl

/-- A window word's write leaves the bits of the other words alone. -/
theorem read_writeBitsWord_of_out (m : Bits) (cap n : Nat) {start x : Nat} (hx : x < start ∨ start + 32 ≤ x) (w : Word) :
    Store.read (writeBitsWord m cap start n w) x = Store.read m x := by
  refine Store.read_writeList_of_out _ _ _ (hx.imp_right fun h => ?_)
  rw [List.length_take, length_bitsOf]
  omega

/-! ### The byte windows -/

theorem toNat_zextByte (b : Byte) : (zextByte b).toNat = b.toNat := BitVec.toNat_setWidth_of_le (by decide)

/-- The low byte of a word, zero-extended (R84). -/
theorem zextByte_low (w : Word) : zextByte (w.extractLsb' 0 8) = w &&& 0xFF := by
  refine BitVec.eq_of_toNat_eq ?_
  rw [toNat_zextByte, BitVec.extractLsb'_toNat, BitVec.toNat_and]
  exact (Nat.and_two_pow_sub_one_eq_mod w.toNat 8).symm

end

/-- Settles O24: a written word lands bit by bit (`read_writeBitsWord_of_in`) and is shown bit by bit. -/
theorem bitWindowsPackMsbFirst : Obligations.BitWindowsPackMsbFirst := by
  refine ⟨fun s k j hj => ⟨getLsbD_readTarget_bvData s k hj, getLsbD_readTarget_bvStat s hj⟩, fun s w hinv hidle => ?_⟩
  refine ⟨fun k hk => ⟨_, memWrite_addr_idle s hinv.cfgLegal hidle (t := .bvData k) hk w, rfl, ?_⟩,
    ⟨_, memWrite_addr_idle s hinv.cfgLegal hidle (t := .bvStat) trivial w, rfl, ?_⟩⟩
  · have hput : ∀ j < 32, 32 * k + j < 524280 →
        Store.read (writeBitsWord s.bvData pBvCap (32 * k) 32 w) (32 * k + j) = w.getLsbD (31 - j) :=
      fun j hj hcap => read_writeBitsWord_of_in hinv.bvDataWf hj hj hcap w
    refine ⟨hput, fun x hx => read_writeBitsWord_of_out _ _ _ hx w, fun j hj => ?_⟩
    rw [getLsbD_readTarget_bvData _ k hj]
    by_cases hcap : 32 * k + j < 524280
    · exact congrArg (decide (32 * k + j < 524280) && ·) (hput j hj hcap)
    · simp [hcap]
  · have hput : ∀ j < 8, Store.read (writeBitsWord s.bvStat pBsCap 0 8 w) j = w.getLsbD (31 - j) := fun j hj => by
      simpa using read_writeBitsWord_of_in hinv.bvStatWf (cap := pBsCap) (start := 0) hj (by omega) (by simpa [pBsCap]) w
    refine ⟨hput, fun j hj => ?_⟩
    rw [getLsbD_readTarget_bvStat _ hj]
    by_cases hbit : j < 8
    · exact congrArg (decide (j < 8) && ·) (hput j hbit)
    · simp [hbit]

/-- Settles O25: a byte window stores the low byte, NV the word, and the read-only windows nothing. -/
theorem windowAccess : Obligations.WindowAccess := by
  refine ⟨fun s i j => ⟨toNat_zextByte _, toNat_zextByte _,
    fun hi => (congrArg BitVec.toNat (if_pos hi)).trans (toNat_zextByte _),
    fun hi => (congrArg BitVec.toNat (if_pos hi)).trans (toNat_zextByte _), fun hi => if_pos hi, rfl⟩,
    fun s w hinv hidle => ?_⟩
  have hwrite : ∀ t : Target, t.InWindow s.cfg → memWrite s t.addr 4 w = (writeTarget s t w).respond .ack :=
    fun t ht => memWrite_addr_idle s hinv.cfgLegal hidle ht w
  refine ⟨fun i hi => ⟨_, hwrite (.fdata i) hi, rfl, ?_, fun k hk => Store.read_write_of_ne _ _ hk⟩,
    fun i hi => ⟨_, hwrite (.fopt i) hi, rfl, ?_, fun k hk => Store.read_write_of_ne _ _ hk⟩,
    fun i hi j hj => ⟨_, hwrite (.nv i j) ⟨hi, hj⟩, rfl, Store.read_write_self s.nv hinv.nvWf _ w,
      fun k hk => Store.read_write_of_ne _ _ hk⟩,
    fun i hi => hwrite (.rxbuf i) hi, fun i hi => hwrite (.txbuf i) hi,
    fun i hi j hj => hwrite (.field i j) ⟨hi, hj⟩, fun i hi => if_neg hi.not_gt, fun i hi => if_neg hi.not_gt,
    fun i j hi => if_neg hi.not_gt⟩
  · exact (congrArg zextByte (Store.read_write_self s.fdata hinv.fdataWf i _)).trans (zextByte_low w)
  · exact (congrArg zextByte (Store.read_write_self s.fopt hinv.foptWf i _)).trans (zextByte_low w)

end Sys2Proof.Machine

/-! The command word read both ways (R100 to R107): a word decodes to a command exactly when its OPC is the command's
and its fields hold the command's operands; the bits R107 gives a command are a mask over the fields of format C. -/

namespace Sys2Proof

open Laws

/-- The command with every operand its row of R107 names read from the word's fields, whatever it was before. -/
def Instr.withOperands (w : Word) : Instr → Instr
  | .nop => .nop
  | .crc8 _ => .crc8 (bselOf w)
  | .rxFlush => .rxFlush
  | .frameDecode => .frameDecode
  | .frameEncode => .frameEncode
  | .bitsUnpack _ _ => .bitsUnpack (bselOf w) (flgOf w 0)
  | .bitsToInt _ => .bitsToInt (flgOf w 0)
  | .bitsPack _ _ => .bitsPack (bselOf w) (flgOf w 0)
  | .findProfile _ _ => .findProfile (flgOf w 1) (flgOf w 2)
  | .fieldDecode => .fieldDecode
  | .fieldEncode _ => .fieldEncode (immOf w)
  | .dispatch => .dispatch
  | .parse _ _ _ => .parse (flgOf w 0) (flgOf w 1) (flgOf w 2)
  | .recv _ _ _ => .recv (flgOf w 0) (flgOf w 1) (flgOf w 2)
  | .create _ _ _ _ => .create (flgOf w 0) (flgOf w 1) (flgOf w 2) (immOf w)
  | .chainFlush => .chainFlush

/-! ### Decoding -/

section
variable {w : Word} {i : Instr}

theorem opcode_lt (i : Instr) : (opcode i).toNat < 0x10 := by cases i <;> simp [opcode]

/-- OPC alone selects the command (R102); the other fields are its operands. -/
theorem decode_of_opcOf (h : opcOf w = opcode i) : decode w = .ok (i.withOperands w) := by
  unfold decode
  rw [h]
  cases i <;> rfl

/-- A word that decodes carries the OPC of the command it decodes to. -/
theorem opcOf_of_decode (h : decode w = .ok i) : opcOf w = opcode i := by
  unfold decode at h
  split at h <;> cases h <;> exact BitVec.eq_of_toNat_eq ‹_›

theorem decode_eq_ok_iff : decode w = .ok i ↔ opcOf w = opcode i ∧ i.withOperands w = i := by
  constructor
  · intro h
    have hopc := opcOf_of_decode h
    exact ⟨hopc, Except.ok.inj ((decode_of_opcOf hopc).symm.trans h)⟩
  · rintro ⟨hopc, hops⟩
    exact (decode_of_opcOf hopc).trans (congrArg Except.ok hops)

/-- OPC 0x10 and above is no command's (R104). -/
theorem decode_of_opcOf_ge (h : 0x10 ≤ (opcOf w).toNat) : decode w = .error .illegalOpcode := by
  cases hdec : decode w with
  | error e => cases e; rfl
  | ok i => exact absurd (opcOf_of_decode hdec ▸ opcode_lt i) h.not_gt

theorem opcOf_of_and_eq {b : Byte} (h : w &&& 0xFF = b.setWidth 32) : opcOf w = b := by
  refine BitVec.eq_of_toNat_eq ?_
  rw [opcOf_toNat, h, BitVec.toNat_setWidth_of_le (by decide)]

/-- `decode_of_opcOf` with OPC written as the word's masked low byte. -/
theorem decode_of_and_eq (i : Instr) (h : w &&& 0xFF = (opcode i).setWidth 32) : decode w = .ok (i.withOperands w) :=
  decode_of_opcOf (opcOf_of_and_eq h)

end

/-! ### Encoding -/

theorem opcOf_encode : ∀ i : Instr, opcOf (encode i) = opcode i
  | .nop => MatchesTable.nop
  | .crc8 b => MatchesTable.crc8 b
  | .rxFlush => MatchesTable.rxFlush
  | .frameDecode => MatchesTable.frameDecode
  | .frameEncode => MatchesTable.frameEncode
  | .bitsUnpack b f => MatchesTable.bitsUnpack b f
  | .bitsToInt f => MatchesTable.bitsToInt f
  | .bitsPack b f => MatchesTable.bitsPack b f
  | .findProfile d c => MatchesTable.findProfile d c
  | .fieldDecode => MatchesTable.fieldDecode
  | .fieldEncode n => MatchesTable.fieldEncode n
  | .dispatch => MatchesTable.dispatch
  | .parse p d c => MatchesTable.parse p d c
  | .recv p d c => MatchesTable.recv p d c
  | .create l d c n => MatchesTable.create l d c n
  | .chainFlush => MatchesTable.chainFlush

/-- The fields of a command's word hold its operands. -/
theorem withOperands_encode (i : Instr) : i.withOperands (encode i) = i := by
  cases i <;> simp [Instr.withOperands, encode]

theorem decode_encode (i : Instr) : decode (encode i) = .ok i :=
  decode_eq_ok_iff.mpr ⟨opcOf_encode i, withOperands_encode i⟩

theorem decode_of_encode_eq {w : Word} {i : Instr} (h : encode i = w) : decode w = .ok i :=
  h ▸ decode_encode i

/-! ### The bits a command uses -/

/-- The commands whose row of R107 has a BSEL set. -/
def Instr.usesBsel : Instr → Bool
  | .crc8 _ | .bitsUnpack _ _ | .bitsPack _ _ => true
  | _ => false

/-- The commands whose row of R107 gives FLG[0] a meaning. -/
def Instr.usesFlg0 : Instr → Bool
  | .bitsUnpack _ _ | .bitsToInt _ | .bitsPack _ _ | .parse _ _ _ | .recv _ _ _ | .create _ _ _ _ => true
  | _ => false

/-- The commands whose row of R107 gives FLG[1] and FLG[2] a meaning: a direction and a command are present. -/
def Instr.usesFlg12 : Instr → Bool
  | .findProfile _ _ | .parse _ _ _ | .recv _ _ _ | .create _ _ _ _ => true
  | _ => false

/-- The commands whose row of R107 has a count in IMM16. -/
def Instr.usesImm : Instr → Bool
  | .fieldEncode _ | .create _ _ _ _ => true
  | _ => false

/-- Masking a word masks each field of format C; the mask's FLG[3] is 0. -/
theorem and_formatC (w : Word) (imm : BitVec 16) (f2 f1 f0 : Bool) (bsel : BitVec 4) (opc : Byte) :
    w &&& formatC imm f2 f1 f0 bsel opc =
      formatC (immOf w &&& imm) (flgOf w 2 && f2) (flgOf w 1 && f1) (flgOf w 0 && f0) (bselOf w &&& bsel)
        (opcOf w &&& opc) := by
  refine BitVec.eq_of_getLsbD_eq fun k hk => ?_
  rw [BitVec.getLsbD_and, formatC_getLsbD, formatC_getLsbD]
  split_ifs with hopc hbsel h0 h1 h2 h3
  · simp [opcOf, hopc]
  · simp [bselOf, show k - 8 < 4 by omega, show 8 + (k - 8) = k by omega]
  · simp [flgOf, h0]
  · simp [flgOf, h1]
  · simp [flgOf, h2]
  · simp
  · simp [immOf, show k - 16 < 16 by omega, show 16 + (k - 16) = k by omega]

theorem and_fill {n : Nat} (x : BitVec n) (u : Bool) : x &&& BitVec.fill n u = bif u then x else 0 := by
  cases u <;> simp

/-- The used bits are the whole of OPC and of each field the command's row of R107 names. -/
theorem usedBits_eq_formatC (i : Instr) :
    Machine.usedBits i =
      formatC (.fill 16 i.usesImm) i.usesFlg12 i.usesFlg12 i.usesFlg0 (.fill 4 i.usesBsel) (.fill 8 true) := by
  cases i <;>
    simp [Machine.usedBits, formatC, Instr.usesImm, Instr.usesFlg12, Instr.usesFlg0, Instr.usesBsel]

/-- The word of a command whose operands were read from `w`: the fields it uses as in `w`, the others 0. -/
theorem encode_withOperands (w : Word) (i : Instr) :
    encode (i.withOperands w) =
      formatC (bif i.usesImm then immOf w else 0) (flgOf w 2 && i.usesFlg12) (flgOf w 1 && i.usesFlg12)
        (flgOf w 0 && i.usesFlg0) (bif i.usesBsel then bselOf w else 0) (opcode i) := by
  cases i <;>
    simp [encode, opcode, Instr.withOperands, Instr.usesImm, Instr.usesFlg12, Instr.usesFlg0, Instr.usesBsel]

theorem encode_withOperands_of_opcOf {w : Word} {i : Instr} (h : opcOf w = opcode i) :
    encode (i.withOperands w) = w &&& Machine.usedBits i := by
  rw [encode_withOperands, usedBits_eq_formatC, and_formatC, and_fill, and_fill, and_fill, h, cond_true]

end Sys2Proof

namespace Sys2Proof.Machine

/-- Settles O1: an encoded command carries its row's OPC and its operands, which is what decoding to it takes. -/
theorem decodeEncodeAgree : Obligations.DecodeEncodeAgree := decode_encode

/-- Settles O2: a decoded command's operands are the word's fields, and masking by the used bits masks each field. -/
theorem decodeReadsUsedBits : Obligations.DecodeReadsUsedBits := by
  intro w i h
  obtain ⟨hopc, hops⟩ := decode_eq_ok_iff.mp h
  calc encode i = encode (i.withOperands w) := by rw [hops]
    _ = w &&& usedBits i := encode_withOperands_of_opcOf hopc

/-- Settles O3: each row's OPC gives that row's command with the operands of the word (`decode_of_and_eq`), and an OPC of
no row gives none. -/
theorem opcodeSelectsCommand : Obligations.OpcodeSelectsCommand := fun w =>
  ⟨decode_of_and_eq .nop,
    fun h => ⟨_, decode_of_and_eq (.crc8 0) h⟩,
    decode_of_and_eq .rxFlush,
    decode_of_and_eq .frameDecode,
    decode_of_and_eq .frameEncode,
    fun h => ⟨_, _, decode_of_and_eq (.bitsUnpack 0 false) h⟩,
    fun h => ⟨_, decode_of_and_eq (.bitsToInt false) h⟩,
    fun h => ⟨_, _, decode_of_and_eq (.bitsPack 0 false) h⟩,
    fun h => ⟨_, _, decode_of_and_eq (.findProfile false false) h⟩,
    decode_of_and_eq .fieldDecode,
    fun h => ⟨_, decode_of_and_eq (.fieldEncode 0) h⟩,
    decode_of_and_eq .dispatch,
    fun h => ⟨_, _, _, decode_of_and_eq (.parse false false false) h⟩,
    fun h => ⟨_, _, _, decode_of_and_eq (.recv false false false) h⟩,
    fun h => ⟨_, _, _, _, decode_of_and_eq (.create false false false 0) h⟩,
    decode_of_and_eq .chainFlush,
    fun h => decode_of_opcOf_ge (opcOf_toNat w ▸ h)⟩

/-- Settles O4: each word is the one R114 assembles for its command, `imm<<16 | FLG<<12 | BSEL<<8 | OPC`. -/
theorem specWordsDecode : Obligations.SpecWordsDecode :=
  ⟨decode_of_encode_eq (by decide), decode_of_encode_eq (by decide), decode_of_encode_eq (by decide),
    decode_of_encode_eq (by decide), decode_of_encode_eq (by decide), decode_of_encode_eq (by decide),
    decode_of_encode_eq (by decide), decode_of_encode_eq (by decide)⟩

end Sys2Proof.Machine

/-! The checksum unit and the frame codec (spec/40_checksum_frame.md): the CRC-8 as a linear and injective round, the
frame decoder by the parts of an aligned buffer, and the commands that use them. -/

namespace Sys2Proof.Machine

/-! ### CRC-8 (R140) -/

/-- The eight shifts of one input byte. -/
theorem crcByte_eq_iterate (c b : Byte) : crcByte c b = crcShift^[8] (c ^^^ b) := rfl

theorem crcShift_eq (c : Byte) : crcShift c = if c.getLsbD 7 = true then (c <<< 1) ^^^ 0x07 else c <<< 1 := by
  rw [crcShift, BitVec.msb_eq_getLsbD_last]
  rfl

theorem crcShift_zero : crcShift 0 = 0 := by decide

/-- A shift is linear: the polynomial is added once for each operand with its top bit set. -/
theorem crcShift_xor (c d : Byte) : crcShift (c ^^^ d) = crcShift c ^^^ crcShift d := by
  have hpoly (u v : Byte) : u ^^^ pCrcPoly ^^^ (v ^^^ pCrcPoly) = u ^^^ v := by
    rw [BitVec.xor_comm v, BitVec.xor_assoc, ← BitVec.xor_assoc pCrcPoly, BitVec.xor_self, BitVec.zero_xor]
  simp only [crcShift, BitVec.msb_xor, BitVec.shiftLeft_xor_distrib]
  cases hc : c.msb <;> cases hd : d.msb
  · rfl
  · exact BitVec.xor_assoc ..
  · show c <<< 1 ^^^ d <<< 1 ^^^ pCrcPoly = c <<< 1 ^^^ pCrcPoly ^^^ d <<< 1
    ac_rfl
  · exact (hpoly ..).symm

/-- Bit 0 of the polynomial is set, so a shift to 0 took no polynomial and lost no bit. -/
theorem crcShift_eq_zero {c : Byte} (h : crcShift c = 0) : c = 0 := by
  revert c
  decide

theorem crcShift_injective : Function.Injective crcShift := fun c d h => by
  have hxor : crcShift (c ^^^ d) = 0 := by rw [crcShift_xor, h, BitVec.xor_self]; rfl
  exact BitVec.xor_eq_zero_iff.mp (crcShift_eq_zero hxor)

theorem crcShift_iterate_xor (n : Nat) (c d : Byte) : crcShift^[n] (c ^^^ d) = crcShift^[n] c ^^^ crcShift^[n] d := by
  induction n generalizing c d with
  | zero => rfl
  | succ n ih => simp only [Function.iterate_succ_apply, crcShift_xor, ih]

theorem crcByte_xor (c d x y : Byte) : crcByte (c ^^^ d) (x ^^^ y) = crcByte c x ^^^ crcByte d y := by
  have hswap : c ^^^ d ^^^ (x ^^^ y) = c ^^^ x ^^^ (d ^^^ y) := by ac_rfl
  rw [crcByte_eq_iterate, hswap, crcShift_iterate_xor]
  rfl

theorem crcByte_self (c : Byte) : crcByte c c = 0 := by
  rw [crcByte_eq_iterate, BitVec.xor_self]
  exact Function.iterate_fixed crcShift_zero 8

theorem crcByte_left_injective (b : Byte) : Function.Injective (crcByte · b) := fun _ _ h =>
  (BitVec.xor_left_inj _).mp (crcShift_injective.iterate 8 h)

theorem crcByte_right_injective (c : Byte) : Function.Injective (crcByte c) := fun _ _ h =>
  (BitVec.xor_right_inj _).mp (crcShift_injective.iterate 8 h)

theorem crc8_append (a b : List Byte) : crc8 (a ++ b) = b.foldl crcByte (crc8 a) := List.foldl_append

theorem crc8_concat (b : List Byte) (x : Byte) : crc8 (b ++ [x]) = crcByte (crc8 b) x := List.foldl_concat ..

/-- Whatever follows, different checksums so far stay different. -/
theorem foldl_crcByte_injective (b : List Byte) : Function.Injective fun c => b.foldl crcByte c := by
  induction b with
  | nil => exact Function.injective_id
  | cons x b ih => exact ih.comp (crcByte_left_injective x)

theorem foldl_crcByte_xor : ∀ {a b : List Byte}, a.length = b.length → ∀ c d : Byte,
    (List.zipWith (· ^^^ ·) a b).foldl crcByte (c ^^^ d) = a.foldl crcByte c ^^^ b.foldl crcByte d
  | [], [], _, _, _ => rfl
  | x :: a, y :: b, h, c, d => by
    have hlen : a.length = b.length := Nat.succ.inj h
    simp only [List.zipWith_cons_cons, List.foldl_cons, crcByte_xor, foldl_crcByte_xor hlen]

theorem crc8_xor {a b : List Byte} (h : a.length = b.length) :
    crc8 (List.zipWith (· ^^^ ·) a b) = crc8 a ^^^ crc8 b :=
  foldl_crcByte_xor h 0 0

/-- Two sequences that differ in one byte have different checksums. -/
theorem crc8_ne_of_byte_ne (a b : List Byte) {x y : Byte} (h : x ≠ y) :
    crc8 (a ++ [x] ++ b) ≠ crc8 (a ++ [y] ++ b) := fun heq => by
  have hbyte : crcByte (crc8 a) x = crcByte (crc8 a) y := by
    simp only [crc8_append] at heq
    exact foldl_crcByte_injective b heq
  exact h (crcByte_right_injective _ hbyte)

theorem xor_twoPow_ne (x : Byte) {j : Nat} (hj : j < 8) : x ^^^ BitVec.twoPow 8 j ≠ x := fun h => by
  have hbit := congrArg (·.getLsbD j) h
  simp [hj] at hbit

/-- Settles O26: each clause is a law of the round, which is linear (`crcByte_xor`) and injective in either argument. -/
theorem crcLaws : Obligations.CrcLaws := by
  have hshift : (fun c : Byte => if c.getLsbD 7 = true then (c <<< 1) ^^^ 0x07 else c <<< 1) = crcShift :=
    funext fun c => (crcShift_eq c).symm
  refine ⟨rfl, fun b x => ?_, rfl, rfl, by decide +kernel, fun a b => crc8_xor, fun b => ?_, fun a x b j hj => ?_⟩
  · rw [hshift, crc8_concat, crcByte_eq_iterate]
  · rw [crc8_concat, crcByte_self]
  · exact crc8_ne_of_byte_ne a b (xor_twoPow_ne x hj)

end Sys2Proof.Machine

/-! `FrameDecode` (R143) by the parts of an aligned buffer, against `FrameEncode` (R145). -/

namespace Sys2Proof.Machine

/-! ### The parts of a buffer aligned at a marker -/

/-- The four header bytes: len_hi, len_lo, opt_len, type (R108). -/
def alignedHeader (a : List Byte) : List Byte := [a.getD 1 0, a.getD 2 0, a.getD 3 0, a.getD 4 0]

/-- The data length the header declares. -/
def alignedDlen (a : List Byte) : Nat := (a.getD 1 0).toNat * 256 + (a.getD 2 0).toNat

/-- The optional length the header declares. -/
def alignedOlen (a : List Byte) : Nat := (a.getD 3 0).toNat

/-- The length of the whole frame the header declares, `n` of R143. -/
def alignedLen (a : List Byte) : Nat := 6 + alignedDlen a + alignedOlen a + 1

/-- The data bytes. -/
def alignedData (a : List Byte) : List Byte := (a.drop 6).take (alignedDlen a)

/-- The optional bytes. -/
def alignedOpt (a : List Byte) : List Byte := (a.drop (6 + alignedDlen a)).take (alignedOlen a)

section
variable {a : List Byte} (p : Bool) (k : Nat)

theorem length_alignedData (h : alignedLen a ≤ a.length) : (alignedData a).length = alignedDlen a := by
  unfold alignedLen at h
  rw [alignedData, List.length_take, List.length_drop]
  omega

theorem length_alignedOpt (h : alignedLen a ≤ a.length) : (alignedOpt a).length = alignedOlen a := by
  unfold alignedLen at h
  rw [alignedOpt, List.length_take, List.length_drop]
  omega

/-! ### The aligned decoder, by its branches -/

theorem frameDecodeAligned_of_short (h : a.length < 4) :
    frameDecodeAligned p k a = { status := .incomplete, rem := a, frame := none, failAt := 0, skipped := k } :=
  if_pos h

theorem frameDecodeAligned_of_incomplete (h : a.length < alignedLen a) :
    frameDecodeAligned p k a = { status := .incomplete, rem := a, frame := none, failAt := 0, skipped := k } := by
  by_cases h4 : a.length < 4
  · exact frameDecodeAligned_of_short p k h4
  · exact (if_neg h4).trans (if_pos h)

theorem getD_slice_zero {n i : Nat} (h : i < n) : (slice a 0 n).getD i 0 = a.getD i 0 := by
  simp [slice, List.getD_eq_getElem?_getD, List.getElem?_take_of_lt h]

theorem slice_slice_zero {n i j : Nat} (h : j ≤ n) : slice (slice a 0 n) i j = slice a i j := by
  simp [slice, List.take_take, Nat.min_eq_left h]

theorem slice_header (h : 5 ≤ a.length) : slice a 1 5 = alignedHeader a := by
  match a, h with
  | _ :: _ :: _ :: _ :: _ :: _, _ => rfl

/-- Both checksums of a whole candidate frame decide what is delivered. -/
theorem frameDecodeAligned_of_whole (h : alignedLen a ≤ a.length) :
    frameDecodeAligned p k a =
      if a.getD 5 0 ≠ crc8 (alignedHeader a) then
        { status := .crcMismatch, rem := a.drop (alignedLen a), frame := none, failAt := 1, skipped := k }
      else if a.getD (alignedLen a - 1) 0 ≠ crc8 (dci p (a.getD 4 0) (alignedData a) (alignedOpt a)) then
        { status := .crcMismatch, rem := a.drop (alignedLen a), frame := none, failAt := 2, skipped := k }
      else
        { status := .ok, rem := a.drop (alignedLen a)
          frame := some { ftype := a.getD 4 0, data := alignedData a, opt := alignedOpt a }, failAt := 0
          skipped := k } := by
  have hn : alignedLen a = 6 + alignedDlen a + alignedOlen a + 1 := rfl
  have hheader : slice (slice a 0 (alignedLen a)) 1 5 = alignedHeader a := by
    rw [slice_slice_zero (by omega), slice_header (by omega)]
  have hdata : slice (slice a 0 (alignedLen a)) 6 (6 + alignedDlen a) = alignedData a := by
    rw [slice_slice_zero (by omega), slice_add, alignedData]
  have hopt : slice (slice a 0 (alignedLen a)) (6 + alignedDlen a) (6 + alignedDlen a + alignedOlen a) =
      alignedOpt a := by
    rw [slice_slice_zero (by omega), slice_add, alignedOpt]
  have hbyte {i : Nat} (hi : i < alignedLen a) := getD_slice_zero (a := a) hi
  unfold frameDecodeAligned
  rw [if_neg (by omega)]
  dsimp only
  simp only [← alignedDlen.eq_def, ← alignedOlen.eq_def, ← alignedLen.eq_def]
  rw [if_neg (by omega), hbyte (by omega), hbyte (by omega), hbyte (by omega), hheader, hdata, hopt, slice_to_end]

theorem frameDecodeAligned_of_bad_header (h : alignedLen a ≤ a.length) (hh : a.getD 5 0 ≠ crc8 (alignedHeader a)) :
    frameDecodeAligned p k a =
      { status := .crcMismatch, rem := a.drop (alignedLen a), frame := none, failAt := 1, skipped := k } := by
  rw [frameDecodeAligned_of_whole p k h, if_pos hh]

theorem frameDecodeAligned_of_bad_data (h : alignedLen a ≤ a.length) (hh : a.getD 5 0 = crc8 (alignedHeader a))
    (hd : a.getD (alignedLen a - 1) 0 ≠ crc8 (dci p (a.getD 4 0) (alignedData a) (alignedOpt a))) :
    frameDecodeAligned p k a =
      { status := .crcMismatch, rem := a.drop (alignedLen a), frame := none, failAt := 2, skipped := k } := by
  rw [frameDecodeAligned_of_whole p k h, if_neg (not_not_intro hh), if_pos hd]

theorem frameDecodeAligned_of_good (h : alignedLen a ≤ a.length) (hh : a.getD 5 0 = crc8 (alignedHeader a))
    (hd : a.getD (alignedLen a - 1) 0 = crc8 (dci p (a.getD 4 0) (alignedData a) (alignedOpt a))) :
    frameDecodeAligned p k a =
      { status := .ok, rem := a.drop (alignedLen a)
        frame := some { ftype := a.getD 4 0, data := alignedData a, opt := alignedOpt a }, failAt := 0
        skipped := k } := by
  rw [frameDecodeAligned_of_whole p k h, if_neg (not_not_intro hh), if_neg (not_not_intro hd)]

/-- Only a whole frame with both checksums right is delivered. -/
theorem checks_of_frameDecodeAligned {f : Frame} (hf : (frameDecodeAligned p k a).frame = some f) :
    alignedLen a ≤ a.length ∧ a.getD 5 0 = crc8 (alignedHeader a) ∧
      a.getD (alignedLen a - 1) 0 = crc8 (dci p (a.getD 4 0) (alignedData a) (alignedOpt a)) := by
  by_cases hlen : a.length < alignedLen a
  · rw [frameDecodeAligned_of_incomplete p k hlen] at hf
    cases hf
  have hle := Nat.le_of_not_lt hlen
  refine ⟨hle, ?_⟩
  by_cases hh : a.getD 5 0 = crc8 (alignedHeader a)
  · refine ⟨hh, ?_⟩
    by_contra hd
    rw [frameDecodeAligned_of_bad_data p k hle hh hd] at hf
    cases hf
  · rw [frameDecodeAligned_of_bad_header p k hle hh] at hf
    cases hf

/-! ### The marker -/

theorem frameDecode_of_no_marker {buf : List Byte} (h : ∀ x ∈ buf, x ≠ 0x55) :
    frameDecode p buf = { status := .incomplete, rem := buf, frame := none, failAt := 0, skipped := 0 } := by
  have hnone : buf.findIdx? (· == pMarker) = none := by simpa [List.findIdx?_eq_none_iff, pMarker] using h
  rw [frameDecode, hnone]

/-- The bytes before the first marker are dropped. -/
theorem frameDecode_of_marker {junk : List Byte} (hj : ∀ x ∈ junk, x ≠ 0x55) (ha : a.head? = some 0x55) :
    frameDecode p (junk ++ a) = frameDecodeAligned p junk.length a := by
  obtain ⟨a, rfl⟩ := List.head?_eq_some_iff.mp ha
  have hnone : junk.findIdx? (· == pMarker) = none := by simpa [List.findIdx?_eq_none_iff, pMarker] using hj
  have hsome : (junk ++ 0x55 :: a).findIdx? (· == pMarker) = some junk.length := by
    rw [List.findIdx?_append, hnone, List.findIdx?_cons]
    simp [pMarker]
  rw [frameDecode, hsome]
  dsimp only
  rw [slice_to_end, List.drop_left]

theorem exists_marker_split (buf : List Byte) :
    (∀ x ∈ buf, x ≠ 0x55) ∨
      ∃ junk a : List Byte, (∀ x ∈ junk, x ≠ 0x55) ∧ a.head? = some 0x55 ∧ buf = junk ++ a := by
  by_cases h : 0x55 ∈ buf
  · obtain ⟨junk, a, hbuf, hj⟩ := List.eq_append_cons_of_mem h
    exact .inr ⟨junk, 0x55 :: a, fun x hx hx' => hj (hx' ▸ hx), rfl, hbuf⟩
  · exact .inl fun x hx hx' => h (hx' ▸ hx)

/-! ### Encoded frames -/

theorem take_six_eq_header (h : 6 ≤ a.length) : a.take 6 = [a.getD 0 0] ++ alignedHeader a ++ [a.getD 5 0] := by
  match a, h with
  | _ :: _ :: _ :: _ :: _ :: _ :: _, _ => rfl

/-- A whole candidate frame is its marker byte, header, header checksum, data, optional and data checksum. -/
theorem aligned_layout (h : alignedLen a ≤ a.length) :
    a = [a.getD 0 0] ++ alignedHeader a ++ [a.getD 5 0] ++ alignedData a ++ alignedOpt a ++
      [a.getD (alignedLen a - 1) 0] ++ a.drop (alignedLen a) := by
  have hn : alignedLen a = 6 + alignedDlen a + alignedOlen a + 1 := rfl
  have hfront : a.take 6 = [a.getD 0 0] ++ alignedHeader a ++ [a.getD 5 0] := take_six_eq_header (by omega)
  have hlast : a.drop (6 + alignedDlen a + alignedOlen a) = a.getD (alignedLen a - 1) 0 :: a.drop (alignedLen a) := by
    rw [show alignedLen a - 1 = 6 + alignedDlen a + alignedOlen a by omega, List.getD_eq_getElem _ _ (by omega), hn]
    exact List.drop_eq_getElem_cons (by omega)
  calc a = a.take 6 ++ a.drop 6 := (List.take_append_drop ..).symm
    _ = a.take 6 ++ (alignedData a ++ a.drop (6 + alignedDlen a)) := by
      rw [← List.drop_drop, alignedData, List.take_append_drop (alignedDlen a)]
    _ = a.take 6 ++ (alignedData a ++ (alignedOpt a ++ a.drop (6 + alignedDlen a + alignedOlen a))) := by
      rw [← List.drop_drop (i := alignedOlen a), alignedOpt, List.take_append_drop]
    _ = _ := by rw [hfront, hlast]; simp only [List.append_assoc, List.cons_append, List.nil_append]

/-- The header of a frame's own parts is the header it came with: the length bytes are the lengths' digits. -/
theorem frameHeader_aligned (h : alignedLen a ≤ a.length) :
    frameHeader (a.getD 4 0) (alignedData a) (alignedOpt a) = alignedHeader a := by
  have h2 := (a.getD 2 0).isLt
  have hhi : alignedDlen a / 256 = (a.getD 1 0).toNat := by unfold alignedDlen; omega
  have hlo : alignedDlen a % 256 = (a.getD 2 0).toNat := by unfold alignedDlen; omega
  rw [frameHeader, length_alignedData h, length_alignedOpt h, hhi, hlo, alignedOlen]
  simp only [BitVec.ofNat_toNat, BitVec.setWidth_eq]
  rfl

/-- A delivered frame stood encoded in the buffer, before the remainder. -/
theorem aligned_eq_frameEncode {f : Frame} (ha : a.head? = some 0x55) (hf : (frameDecodeAligned p k a).frame = some f) :
    a = frameEncode p f.ftype f.data f.opt ++ (frameDecodeAligned p k a).rem := by
  obtain ⟨hlen, hh, hd⟩ := checks_of_frameDecodeAligned p k hf
  have hgood := frameDecodeAligned_of_good p k hlen hh hd
  rw [hgood] at hf ⊢
  cases hf
  have hmarker : a.getD 0 0 = pMarker := by rw [List.getD_eq_getElem?_getD, ← List.head?_eq_getElem?, ha]; rfl
  conv_lhs => rw [aligned_layout hlen, hmarker, hh, hd]
  rw [frameEncode, frameHeader_aligned hlen]

section
variable {t : Byte} {d o : List Byte} (r : List Byte)

theorem alignedDlen_frameEncode (hd : d.length ≤ 65535) : alignedDlen (frameEncode p t d o ++ r) = d.length := by
  show (BitVec.ofNat 8 (d.length / 256)).toNat * 256 + (BitVec.ofNat 8 (d.length % 256)).toNat = d.length
  rw [BitVec.toNat_ofNat, BitVec.toNat_ofNat]
  omega

theorem alignedOlen_frameEncode (ho : o.length ≤ 255) : alignedOlen (frameEncode p t d o ++ r) = o.length := by
  show (BitVec.ofNat 8 o.length).toNat = o.length
  rw [BitVec.toNat_ofNat]
  omega

theorem alignedLen_frameEncode (hd : d.length ≤ 65535) (ho : o.length ≤ 255) :
    alignedLen (frameEncode p t d o ++ r) = (frameEncode p t d o).length := by
  rw [alignedLen, alignedDlen_frameEncode p r hd, alignedOlen_frameEncode p r ho, length_frameEncode]
  omega

theorem getD_concat_append (b : List Byte) (x : Byte) (r : List Byte) :
    (b ++ [x] ++ r).getD ((b ++ [x]).length - 1) 0 = x := by
  simp [List.getD_eq_getElem?_getD]

/-- R145: an encoded frame with any bytes after it decodes to the frame and those bytes. -/
theorem frameDecodeAligned_frameEncode (hd : d.length ≤ 65535) (ho : o.length ≤ 255) :
    frameDecodeAligned p k (frameEncode p t d o ++ r) =
      { status := .ok, rem := r, frame := some { ftype := t, data := d, opt := o }, failAt := 0, skipped := k } := by
  have hlen := alignedLen_frameEncode p (t := t) r hd ho
  have hwhole : alignedLen (frameEncode p t d o ++ r) ≤ (frameEncode p t d o ++ r).length := by
    rw [hlen, List.length_append]
    omega
  have hlayout : frameEncode p t d o ++ r =
      pMarker :: frameHeader t d o ++ [crc8 (frameHeader t d o)] ++ (d ++ (o ++ (crc8 (dci p t d o) :: r))) := by
    simp [frameEncode]
  have htail : (frameEncode p t d o ++ r).drop 6 = d ++ (o ++ (crc8 (dci p t d o) :: r)) := by rw [hlayout]; rfl
  have hdata : alignedData (frameEncode p t d o ++ r) = d := by
    rw [alignedData, alignedDlen_frameEncode p r hd, htail, List.take_left]
  have hopt : alignedOpt (frameEncode p t d o ++ r) = o := by
    rw [alignedOpt, alignedDlen_frameEncode p r hd, alignedOlen_frameEncode p r ho, ← List.drop_drop, htail,
      List.drop_left, List.take_left]
  have hrest : (frameEncode p t d o ++ r).drop (alignedLen (frameEncode p t d o ++ r)) = r := by
    rw [hlen, List.drop_left]
  have hsum : (frameEncode p t d o ++ r).getD (alignedLen (frameEncode p t d o ++ r) - 1) 0 = crc8 (dci p t d o) := by
    rw [hlen]
    exact getD_concat_append ..
  have hgood := frameDecodeAligned_of_good p k hwhole rfl (by rw [hdata, hopt, hsum]; rfl)
  rw [hdata, hopt, hrest] at hgood
  exact hgood

end

end

/-- Settles O29: the marker splits the buffer, and the aligned rest is decoded by its declared lengths and checksums. -/
theorem frameDecodeCases : Obligations.FrameDecodeCases := by
  intro p buf
  refine ⟨frameDecode_of_no_marker p, ?_⟩
  rintro junk a hj ha rfl
  rw [frameDecode_of_marker p hj ha]
  refine ⟨frameDecodeAligned_of_short p _, ?_⟩
  rintro - _ _ _ rfl rfl rfl
  refine ⟨frameDecodeAligned_of_incomplete p _, fun hlen => ⟨frameDecodeAligned_of_bad_header p _ hlen, ?_⟩⟩
  rintro hh _ _ rfl rfl
  exact ⟨frameDecodeAligned_of_bad_data p _ hlen hh, frameDecodeAligned_of_good p _ hlen hh⟩

/-- Settles O30: an encoded frame is aligned at its own marker, so no byte is dropped before it. -/
theorem frameRoundTrip : Obligations.FrameRoundTrip := by
  refine ⟨fun t d o => ⟨rfl, rfl⟩, fun p t d o r hd ho => ⟨?_, ?_, ?_⟩⟩
  · rintro _ rfl
    rfl
  · rw [length_frameEncode]
    omega
  · have hmarker : (frameEncode p t d o ++ r).head? = some 0x55 := rfl
    have hnojunk := frameDecode_of_marker p (junk := []) (fun _ hx => nomatch hx) hmarker
    rw [List.nil_append] at hnojunk
    rw [hnojunk, List.length_nil, frameDecodeAligned_frameEncode p 0 r hd ho]

/-- Settles O31: a buffer that gives a frame has a marker, and its aligned rest is the frame's encoding and the
remainder (`aligned_eq_frameEncode`). -/
theorem onlyFramesDecode : Obligations.OnlyFramesDecode := by
  intro p buf f hf
  rcases exists_marker_split buf with hnone | ⟨junk, a, hj, ha, rfl⟩
  · rw [frameDecode_of_no_marker p hnone] at hf
    cases hf
  obtain ⟨hd, ho⟩ := frameDecode_frame_fits hf
  rw [frameDecode_of_marker p hj ha] at hf ⊢
  obtain ⟨hlen, hh, hs⟩ := checks_of_frameDecodeAligned p _ hf
  have hgood := frameDecodeAligned_of_good p junk.length hlen hh hs
  refine ⟨by rw [hgood], hd, ho, junk, hj, by rw [hgood], ?_⟩
  rw [List.append_assoc, ← aligned_eq_frameEncode p _ ha hf]

end Sys2Proof.Machine

/-! The commands of the checksum unit and the frame codec (R141, R144, R146, R148, R149), and CHAIN_FLUSH (R244): what
each leaves, written as a change of the state it started from. -/

namespace Sys2Proof.Machine

section
variable (s : State)

/-! ### NOP, RX_FLUSH, CHAIN_FLUSH -/

theorem exec_nop : exec .nop s = .next { s with status := s.status.endedOk .ok } :=
  congrArg Host.Outcome.next (s.finish_of_not_fatal rfl)

theorem exec_rxFlush :
    exec .rxFlush s =
      .next { s with res0 := BitVec.ofNat 32 s.rxlen, rxlen := 0, status := s.status.endedOk .ok } :=
  congrArg Host.Outcome.next (State.finish_of_not_fatal _ rfl)

theorem exec_chainFlush :
    exec .chainFlush s =
      .next
        { s with
          res0 := BitVec.ofNat 32 (s.chain.filter (·.isSome)).length, chain := List.replicate s.chain.length none
          status := s.status.endedOk .ok } := by
  have hocc : s.chainOcc = (s.chain.filter (·.isSome)).length := List.countP_eq_length_filter
  have hfree : s.chain.map (fun _ => (none : Option ChainSlot)) = List.replicate s.chain.length none :=
    List.map_const' ..
  rw [← hocc, ← hfree]
  exact congrArg Host.Outcome.next (State.finish_of_not_fatal _ rfl)

/-- Free slots alone are none in use. -/
theorem chainOcc_of_free {n : Nat} (h : s.chain = List.replicate n none) : s.chainOcc = 0 := by
  rw [State.chainOcc, h, List.countP_replicate]
  rfl

/-- Past RXLEN the window reads 0 (R87). -/
theorem readTarget_rxbuf_past {i : Nat} (h : s.rxlen ≤ i) : readTarget s (.rxbuf i) = 0 := if_neg (by omega)

/-- Past TXLEN the window reads 0 (R87). -/
theorem readTarget_txbuf_past {i : Nat} (h : s.txlen ≤ i) : readTarget s (.txbuf i) = 0 := if_neg (by omega)

/-! ### CRC8 -/

variable {b : Buffer} {bsel : BitVec 4}

theorem exec_crc8_of_range (hb : bufferOf bsel = some b) (h : s.arg0.toNat + s.arg1.toNat ≤ s.validLen b) :
    exec (.crc8 bsel) s =
      .next
        { s with
          res0 := (crc8 (Store.readList (α := Byte) (s.buffer b) s.arg0.toNat s.arg1.toNat)).setWidth 32
          status := s.status.endedOk .ok } := by
  have hread : s.bufRead b s.arg0.toNat s.arg1.toNat =
      some (Store.readList (α := Byte) (s.buffer b) s.arg0.toNat s.arg1.toNat) := if_neg (by omega)
  show execCrc8 bsel s = _
  simp only [execCrc8, hb, hread]
  exact congrArg Host.Outcome.next (State.finish_of_not_fatal _ rfl)

theorem exec_crc8_past_range (hb : bufferOf bsel = some b) (h : s.validLen b < s.arg0.toNat + s.arg1.toNat) :
    exec (.crc8 bsel) s = .next { s with status := s.status.endedFatal .badArg } := by
  have hread : s.bufRead b s.arg0.toNat s.arg1.toNat = none := if_pos h
  show execCrc8 bsel s = _
  simp only [execCrc8, hb, hread]
  exact congrArg Host.Outcome.next (s.raiseFatal_of_fatal rfl)

theorem exec_crc8_reserved (h : bufferOf bsel = none) :
    exec (.crc8 bsel) s = .next { s with status := s.status.endedFatal .badArg } := by
  show execCrc8 bsel s = _
  simp only [execCrc8, h]
  exact congrArg Host.Outcome.next (s.raiseFatal_of_fatal rfl)

end

/-! ### FRAME_ENCODE -/

/-- A byte past those written from index 0 keeps its value. -/
theorem Memory.byte_writeList_past (m : Memory) (vs : List Byte) {k : Nat} (h : vs.length ≤ k) :
    Memory.byte (Store.writeList m 0 vs) k = Memory.byte m k :=
  Memory.byte_writeList_of_out m 0 vs (.inr ((Nat.zero_add _).trans_le h))

section
variable {s : State}

theorem length_encoded (s : State) :
    (frameEncode s.cfg.dcrcType s.fType s.dataBytes s.optBytes).length = 7 + s.fDlen.toNat + s.fOlen.toNat := by
  rw [length_frameEncode, State.dataBytes, State.optBytes, Store.length_readList, Store.length_readList]

/-- What a `setTx` leaves in TXBUF[0..TXLEN) is what it was given. -/
theorem State.Inv.txBytes_setTx (h : s.Inv) (f : List Byte) : (s.setTx f).txBytes = f :=
  Store.readList_writeList (α := Byte) s.txbuf h.txbufWf 0 f

theorem exec_frameEncode (s : State) :
    exec .frameEncode s =
      .next
        { s.setTx (frameEncode s.cfg.dcrcType s.fType s.dataBytes s.optBytes) with
          res0 := BitVec.ofNat 32 (7 + s.fDlen.toNat + s.fOlen.toNat), status := s.status.endedOk .ok } := by
  rw [← length_encoded]
  exact congrArg Host.Outcome.next (State.finish_of_not_fatal _ rfl)

/-! ### FRAME_DECODE -/

/-- What a `setRx` leaves in RXBUF[0..RXLEN) is what it was given. -/
theorem State.Inv.rxBytes_setRx (h : s.Inv) (r : List Byte) : (s.setRx r).rxBytes = r :=
  Store.readList_writeList (α := Byte) s.rxbuf h.rxbufWf 0 r

/-- A loaded data field is read back where F_DLEN can hold its length. -/
theorem State.Inv.dataBytes_loadFrame (h : s.Inv) (t : Byte) {d : List Byte} (o : List Byte) (hd : d.length ≤ 65535) :
    (s.loadFrame t d o).fDlen.toNat = d.length ∧ (s.loadFrame t d o).dataBytes = d := by
  have hlen : (s.loadFrame t d o).fDlen.toNat = d.length := by
    rw [State.loadFrame_fDlen, BitVec.toNat_ofNat]
    omega
  refine ⟨hlen, ?_⟩
  rw [State.dataBytes, hlen]
  exact Store.readList_writeList (α := Byte) s.fdata h.fdataWf 0 d

/-- A loaded optional field is read back where F_OLEN can hold its length. -/
theorem State.Inv.optBytes_loadFrame (h : s.Inv) (t : Byte) (d : List Byte) {o : List Byte} (ho : o.length ≤ 255) :
    (s.loadFrame t d o).fOlen.toNat = o.length ∧ (s.loadFrame t d o).optBytes = o := by
  have hlen : (s.loadFrame t d o).fOlen.toNat = o.length := by
    rw [State.loadFrame_fOlen, BitVec.toNat_ofNat]
    omega
  refine ⟨hlen, ?_⟩
  rw [State.optBytes, hlen]
  exact Store.readList_writeList (α := Byte) s.fopt h.foptWf 0 o

/-- `FrameDecode` gives a frame when it ends OK, and none when it is incomplete or a checksum is wrong. -/
theorem frameDecode_ends (p : Bool) (buf : List Byte) :
    ((frameDecode p buf).frame = none ∧
      ((frameDecode p buf).status = .incomplete ∨ (frameDecode p buf).status = .crcMismatch)) ∨
    ∃ f, (frameDecode p buf).frame = some f ∧ (frameDecode p buf).status = .ok := by
  rcases (frameDecode_cases p buf).2 with ⟨hst, hnone, _⟩ | ⟨hst, hnone, _⟩ | ⟨hst, _, f, hf, _⟩
  · exact .inl ⟨hnone, .inl hst⟩
  · exact .inl ⟨hnone, .inr hst⟩
  · exact .inr ⟨f, hf, hst⟩

variable {r : DecodeResult}

/-- A decode that delivers nothing consumes bytes and may count a mismatch (R144). -/
theorem exec_frameDecode_none (hr : r = frameDecode s.cfg.dcrcType s.rxBytes) (hf : r.frame = none)
    (hst : r.status = .incomplete ∨ r.status = .crcMismatch) :
    exec .frameDecode s =
      .next
        { s.setRx r.rem with
          res0 := BitVec.ofNat 32 (s.rxlen - r.rem.length), res1 := BitVec.ofNat 32 r.failAt
          cntCrcerr := if r.status = .crcMismatch then s.cntCrcerr + 1 else s.cntCrcerr
          status := s.status.endedOk r.status } := by
  show execFrameDecode s = _
  simp only [execFrameDecode, ← hr, hf]
  rcases hst with hst | hst <;> rw [hst, State.finish_of_not_fatal _ rfl] <;> rfl

/-- A decode that delivers a frame consumes it, loads it and counts it (R144). -/
theorem exec_frameDecode_some (hr : r = frameDecode s.cfg.dcrcType s.rxBytes) {f : Frame} (hf : r.frame = some f)
    (hst : r.status = .ok) :
    exec .frameDecode s =
      .next
        { (s.setRx r.rem).loadFrame f.ftype f.data f.opt with
          res0 := BitVec.ofNat 32 (s.rxlen - r.rem.length), res1 := BitVec.ofNat 32 r.failAt
          cntFrames := s.cntFrames + 1, status := s.status.endedOk .ok } := by
  show execFrameDecode s = _
  simp only [execFrameDecode, ← hr, hf, hst]
  rw [State.finish_of_not_fatal _ rfl]
  rfl

end

/-- Settles O27: each command's next state is written out by its `exec` lemma; an empty RXBUF and free slots read 0. -/
theorem nopAndFlushes : Obligations.NopAndFlushes := by
  refine ⟨⟨fun _ => decode_of_and_eq .nop, exec_nop⟩, ⟨fun _ => decode_of_and_eq .rxFlush, fun s => ?_⟩,
    fun _ => decode_of_and_eq .chainFlush, fun s => ?_⟩
  · exact ⟨_, exec_rxFlush s, rfl, fun _ => rfl, fun i => readTarget_rxbuf_past _ (Nat.zero_le i)⟩
  · refine ⟨_, exec_chainFlush s, rfl, ?_⟩
    rw [readReg, chainOcc_of_free _ rfl]
    rfl

/-- Settles O28: the range check of R150 passes or fails, and a reserved select names no buffer. -/
theorem crc8Checksums : Obligations.Crc8Checksums :=
  ⟨⟨fun _ => decode_of_and_eq (.crc8 0), fun s _ =>
      ⟨fun _ => exec_crc8_of_range s, fun _ => exec_crc8_past_range s,
        fun h => exec_crc8_reserved s (bufferOf_reserved h)⟩⟩,
    fun _ => ⟨⟨.fdata, rfl, rfl, rfl⟩, ⟨.fopt, rfl, rfl, rfl⟩, ⟨.rxbuf, rfl, rfl, rfl⟩,
      ⟨.txbuf, rfl, rfl, rfl⟩, fun _ => bufferOf_reserved⟩⟩

/-- Settles O33: TXBUF is the old one with the frame written from index 0 (`exec_frameEncode`). -/
theorem frameEncodeCommand : Obligations.FrameEncodeCommand := by
  refine ⟨fun _ => decode_of_and_eq .frameEncode, fun s h => ⟨_, exec_frameEncode s, ?_, ?_, ?_, ?_⟩⟩
  · rw [← length_encoded]
    rfl
  · exact h.txBytes_setTx _
  · exact fun _ => Memory.byte_writeList_past _ _
  · exact fun k => readTarget_txbuf_past _

/-- Settles O32: by whether the decode delivers a frame; what RXBUF, FDATA and FOPT then hold are the laws of the
storage arrays. -/
theorem frameDecodeCommand : Obligations.FrameDecodeCommand := by
  refine ⟨fun _ => decode_of_and_eq .frameDecode, fun s h r hr => ?_⟩
  rcases hr ▸ frameDecode_ends s.cfg.dcrcType s.rxBytes with ⟨hf, hst⟩ | ⟨f, hf, hst⟩
  · have hnok : r.status ≠ .ok := by rcases hst with hst | hst <;> simp [hst]
    refine ⟨_, exec_frameDecode_none hr hf hst, ?_, h.rxBytes_setRx _, fun _ => Memory.byte_writeList_past _ _,
      fun _ => ⟨rfl, rfl, rfl, rfl, rfl⟩, fun hok => absurd hok hnok⟩
    rw [if_neg hnok]
    rfl
  · obtain ⟨hd, ho⟩ := frameDecode_frame_fits (hr ▸ hf)
    obtain ⟨hdlen, hdata⟩ := h.dataBytes_loadFrame f.ftype f.opt hd
    obtain ⟨holen, hopt⟩ := h.optBytes_loadFrame f.ftype f.data ho
    refine ⟨_, exec_frameDecode_some hr hf hst, ?_, h.rxBytes_setRx _, fun _ => Memory.byte_writeList_past _ _,
      fun hnok => absurd hst hnok, fun _ => ⟨f, hf, rfl, hdlen, holen, hdata, hopt,
        fun _ => Memory.byte_writeList_past _ _, fun _ => Memory.byte_writeList_past _ _⟩⟩
    rw [hst]
    rfl

end Sys2Proof.Machine

/-! The commands of the bit codec (R161, R163, R165): what each leaves, written as a change of the state it started
from. -/

namespace Sys2Proof.Machine

/-! ### BITS_UNPACK -/

section
variable {s : State} {b : Buffer} {bsel : BitVec 4} (stat : Bool)

/-- What a `setBvData` leaves in BV_DATA[0..BV_DLEN) is what it was given. -/
theorem State.Inv.dataBits_setBvData (h : s.Inv) (r : List Bool) : (s.setBvData r).dataBits = r :=
  Store.readList_writeList s.bvData h.bvDataWf 0 r

/-- What a `setBvStat` leaves in BV_STAT[0..BV_SLEN) is what it was given. -/
theorem State.Inv.statBits_setBvStat (h : s.Inv) (r : List Bool) : (s.setBvStat r).statBits = r :=
  Store.readList_writeList s.bvStat h.bvStatWf 0 r

/-- An element past those written from index 0 keeps its value. -/
theorem Store.read_writeList_past {α : Type} [Inhabited α] [DecidableEq α] (m : Store α) (vs : List α) {x : Nat}
    (h : vs.length ≤ x) : Store.read (Store.writeList m 0 vs) x = Store.read m x :=
  Store.read_writeList_of_out m 0 vs (.inr ((Nat.zero_add _).trans_le h))

theorem exec_bitsUnpack_reserved (h : bufferOf bsel = none) :
    exec (.bitsUnpack bsel stat) s = .next { s with status := s.status.endedFatal .badArg } := by
  show execBitsUnpack bsel stat s = _
  simp only [execBitsUnpack, h]
  exact congrArg Host.Outcome.next (s.raiseFatal_of_fatal rfl)

theorem exec_bitsUnpack_past_range (hb : bufferOf bsel = some b) (h : s.validLen b < s.arg0.toNat + s.arg1.toNat) :
    exec (.bitsUnpack bsel stat) s = .next { s with status := s.status.endedFatal .badArg } := by
  have hread : s.bufRead b s.arg0.toNat s.arg1.toNat = none := if_pos h
  show execBitsUnpack bsel stat s = _
  simp only [execBitsUnpack, hb, hread]
  exact congrArg Host.Outcome.next (s.raiseFatal_of_fatal rfl)

variable {r : List Bool} (hb : bufferOf bsel = some b) (h : s.arg0.toNat + s.arg1.toNat ≤ s.validLen b)
    (hr : r = bytesToBits (Store.readList (α := Byte) (s.buffer b) s.arg0.toNat s.arg1.toNat) s.arg2.toNat)

include hb h hr

/-- With the source range valid, the length of the unpacked vector against the target's capacity decides (R161). -/
theorem exec_bitsUnpack_of_range :
    exec (.bitsUnpack bsel stat) s =
      .next
        (if (if stat then pBsCap else pBvCap) < r.length then s.raiseFatal .capacity
        else
          ((if stat then s.setBvStat r else s.setBvData r).setRes0 (BitVec.ofNat 32 r.length)).finish .ok) := by
  have hread : s.bufRead b s.arg0.toNat s.arg1.toNat =
      some (Store.readList (α := Byte) (s.buffer b) s.arg0.toNat s.arg1.toNat) := if_neg (by omega)
  have hlen : unpackLen (Store.readList (α := Byte) (s.buffer b) s.arg0.toNat s.arg1.toNat) s.arg2.toNat =
      r.length := by
    rw [hr, length_bytesToBits, unpackLen]
  show execBitsUnpack bsel stat s = _
  simp only [execBitsUnpack, hb, hread, hlen, ← hr]

theorem exec_bitsUnpack_too_long (hcap : (if stat then pBsCap else pBvCap) < r.length) :
    exec (.bitsUnpack bsel stat) s = .next { s with status := s.status.endedFatal .capacity } := by
  rw [exec_bitsUnpack_of_range stat hb h hr, if_pos hcap, s.raiseFatal_of_fatal rfl]

theorem exec_bitsUnpack_data (hcap : r.length ≤ pBvCap) :
    exec (.bitsUnpack bsel false) s =
      .next { s.setBvData r with res0 := BitVec.ofNat 32 r.length, status := s.status.endedOk .ok } :=
  (exec_bitsUnpack_of_range false hb h hr).trans
    (congrArg Host.Outcome.next ((if_neg hcap.not_gt).trans (State.finish_of_not_fatal _ rfl)))

theorem exec_bitsUnpack_stat (hcap : r.length ≤ pBsCap) :
    exec (.bitsUnpack bsel true) s =
      .next { s.setBvStat r with res0 := BitVec.ofNat 32 r.length, status := s.status.endedOk .ok } :=
  (exec_bitsUnpack_of_range true hb h hr).trans
    (congrArg Host.Outcome.next ((if_neg hcap.not_gt).trans (State.finish_of_not_fatal _ rfl)))

end

/-! ### BITS_TO_INT -/

/-- The low two words of an integer hold it modulo 2^64. -/
theorem low_words_toNat (x : Nat) :
    (BitVec.ofNat 32 (x % 2 ^ 32)).toNat + 2 ^ 32 * (BitVec.ofNat 32 (x / 2 ^ 32 % 2 ^ 32)).toNat = x % 2 ^ 64 := by
  rw [BitVec.toNat_ofNat, BitVec.toNat_ofNat]
  omega

section
variable {s : State} {stat : Bool}

theorem exec_bitsToInt_past_range (h : (s.sourceBits stat).length < s.arg0.toNat + s.arg1.toNat) :
    exec (.bitsToInt stat) s = .next { s with status := s.status.endedFatal .badArg } := by
  show execBitsToInt stat s = _
  simp only [execBitsToInt, if_pos h]
  exact congrArg Host.Outcome.next (s.raiseFatal_of_fatal rfl)

theorem exec_bitsToInt_of_range (h : s.arg0.toNat + s.arg1.toNat ≤ (s.sourceBits stat).length) {x : Nat}
    (hx : x = bitsToInt (((s.sourceBits stat).drop s.arg0.toNat).take s.arg1.toNat)) :
    exec (.bitsToInt stat) s =
      .next
        { s with
          res0 := BitVec.ofNat 32 (x % 2 ^ 32), res1 := BitVec.ofNat 32 (x / 2 ^ 32 % 2 ^ 32)
          res2 := if x < 2 ^ 64 then 0 else 1, status := s.status.endedOk .ok } := by
  have hloss : (if 2 ^ 64 ≤ x then 1 else 0 : Word) = if x < 2 ^ 64 then 0 else 1 := by
    rw [← ite_not]
    simp only [not_le]
  show execBitsToInt stat s = _
  simp only [execBitsToInt, if_neg h.not_gt, slice_add, ← hx, hloss]
  exact congrArg Host.Outcome.next (State.finish_of_not_fatal _ rfl)

end

/-! ### BITS_PACK -/

/-- Selects 2 and above name no buffer BITS_PACK may write (R165). -/
theorem bufferOf_not_writable {bsel : BitVec 4} (h : 2 ≤ bsel.toNat) :
    bufferOf bsel ≠ some .fdata ∧ bufferOf bsel ≠ some .fopt := by
  unfold bufferOf
  split
  case h_1 | h_2 => omega
  all_goals simp

/-- A range of bytes written reads back byte by byte, and the bytes outside it keep their values. -/
theorem Memory.byte_writeList (m : Memory) (hm : Memory.wf m = true) (a : Nat) {vs : List Byte} {n : Nat}
    (hn : vs.length = n) :
    (∀ j < n, Memory.byte (Store.writeList m a vs) (a + j) = vs.getD j 0) ∧
      ∀ k, k < a ∨ a + n ≤ k → Memory.byte (Store.writeList m a vs) k = Memory.byte m k := by
  subst hn
  refine ⟨fun j hj => ?_, fun k => Memory.byte_writeList_of_out m a vs⟩
  rw [Memory.byte_writeList_of_in m hm a vs j hj, List.getD_eq_getElem _ _ hj]

section
variable {s : State} {stat : Bool} {bsel : BitVec 4}

theorem exec_bitsPack_of_not_writable (hd : bufferOf bsel ≠ some .fdata) (ho : bufferOf bsel ≠ some .fopt) :
    exec (.bitsPack bsel stat) s = .next { s with status := s.status.endedFatal .badArg } := by
  show execBitsPack bsel stat s = _
  unfold execBitsPack
  split
  · contradiction
  · contradiction
  · rw [s.raiseFatal_of_fatal rfl]

theorem exec_bitsPack_fdata_past (h : pDataCap < s.arg0.toNat + s.arg1.toNat) :
    exec (.bitsPack 0 stat) s = .next { s with status := s.status.endedFatal .badArg } :=
  congrArg Host.Outcome.next ((if_pos h).trans (s.raiseFatal_of_fatal rfl))

theorem exec_bitsPack_fopt_past (h : pOptCap < s.arg0.toNat + s.arg1.toNat) :
    exec (.bitsPack 1 stat) s = .next { s with status := s.status.endedFatal .badArg } :=
  congrArg Host.Outcome.next ((if_pos h).trans (s.raiseFatal_of_fatal rfl))

variable {bytes : List Byte}

theorem exec_bitsPack_fdata (h : s.arg0.toNat + s.arg1.toNat ≤ pDataCap)
    (hbytes : bytes = bitsToBytes ((s.sourceBits stat).drop s.arg2.toNat) s.arg1.toNat) :
    exec (.bitsPack 0 stat) s =
      .next { s.writeFdata s.arg0.toNat bytes with res0 := s.arg1, status := s.status.endedOk .ok } := by
  rw [hbytes, ← slice_to_end]
  exact congrArg Host.Outcome.next ((if_neg h.not_gt).trans (State.finish_of_not_fatal _ rfl))

theorem exec_bitsPack_fopt (h : s.arg0.toNat + s.arg1.toNat ≤ pOptCap)
    (hbytes : bytes = bitsToBytes ((s.sourceBits stat).drop s.arg2.toNat) s.arg1.toNat) :
    exec (.bitsPack 1 stat) s =
      .next { s.writeFopt s.arg0.toNat bytes with res0 := s.arg1, status := s.status.endedOk .ok } := by
  rw [hbytes, ← slice_to_end]
  exact congrArg Host.Outcome.next ((if_neg h.not_gt).trans (State.finish_of_not_fatal _ rfl))

end

/-- Settles O35: the select, the source range and the target's capacity decide, in this order, and the target vector
is the old one with the unpacked bits written from index 0. -/
theorem bitsUnpackCommand : Obligations.BitsUnpackCommand := by
  refine ⟨fun _ => decode_of_and_eq (.bitsUnpack 0 false), fun s bsel hinv =>
    ⟨fun stat h => exec_bitsUnpack_reserved stat (bufferOf_reserved h), fun b hb =>
      ⟨fun stat => exec_bitsUnpack_past_range stat hb, fun hrange r hr => ⟨?_, ?_, ?_, ?_⟩⟩⟩⟩
  · exact exec_bitsUnpack_too_long false hb hrange hr
  · exact exec_bitsUnpack_too_long true hb hrange hr
  · exact fun hcap => ⟨_, exec_bitsUnpack_data hb hrange hr hcap, rfl, hinv.dataBits_setBvData r,
      fun _ => Store.read_writeList_past _ _⟩
  · exact fun hcap => ⟨_, exec_bitsUnpack_stat hb hrange hr hcap, rfl, hinv.statBits_setBvStat r,
      fun _ => Store.read_writeList_past _ _⟩

/-- Settles O36: the range check passes or fails, and RES0 and RES1 are the low two words of the integer. -/
theorem bitsToIntCommand : Obligations.BitsToIntCommand := by
  refine ⟨fun _ => decode_of_and_eq (.bitsToInt false), ?_⟩
  rintro s stat _ rfl
  exact ⟨exec_bitsToInt_past_range, fun hrange x hx =>
    ⟨_, exec_bitsToInt_of_range hrange hx, rfl, low_words_toNat x, rfl⟩⟩

/-- Settles O37: the select names FDATA or FOPT or neither, and the buffer is the old one with the packed bytes written
at the destination. -/
theorem bitsPackCommand : Obligations.BitsPackCommand := by
  refine ⟨fun _ => decode_of_and_eq (.bitsPack 0 false), fun s stat hinv =>
    ⟨fun bsel h => ?_, exec_bitsPack_fdata_past, exec_bitsPack_fopt_past, fun bytes hbytes => ?_⟩⟩
  · obtain ⟨hd, ho⟩ := bufferOf_not_writable h
    exact exec_bitsPack_of_not_writable hd ho
  · have hlen : bytes.length = s.arg1.toNat := by rw [hbytes, length_bitsToBytes]
    exact ⟨fun hrange => ⟨_, exec_bitsPack_fdata hrange hbytes, rfl, Memory.byte_writeList _ hinv.fdataWf _ hlen⟩,
      fun hrange => ⟨_, exec_bitsPack_fopt hrange hbytes, rfl, Memory.byte_writeList _ hinv.foptWf _ hlen⟩⟩

end Sys2Proof.Machine

/-! "The first in document order" (R172, R175, R178): the least index of a list at which a property holds, and the
searches of the model as statements about it. -/

namespace Sys2Proof.Machine

section
variable {α : Type} {l : List α} {P : α → Prop} {i : Nat} {a b : α}

/-- `a` stands at index `i` of `l` and has the property, and no element before it has. -/
def FirstAt (l : List α) (P : α → Prop) (i : Nat) (a : α) : Prop :=
  l[i]? = some a ∧ P a ∧ ∀ j < i, ∀ b, l[j]? = some b → ¬P b

theorem FirstAt.head (ha : P a) : FirstAt (a :: l) P 0 a := ⟨rfl, ha, fun _ hj => absurd hj (Nat.not_lt_zero _)⟩

theorem FirstAt.cons (hb : ¬P b) (h : FirstAt l P i a) : FirstAt (b :: l) P (i + 1) a := by
  obtain ⟨hget, ha, hleast⟩ := h
  refine ⟨by rwa [List.getElem?_cons_succ], ha, fun j hj c hc => ?_⟩
  cases j with
  | zero => exact Option.some.inj hc ▸ hb
  | succ j => exact hleast j (by omega) c (by rwa [List.getElem?_cons_succ] at hc)

/-- A property that some element has, a first one has. -/
theorem exists_firstAt (h : ∃ a ∈ l, P a) : ∃ i a, FirstAt l P i a := by
  induction l with
  | nil => simp at h
  | cons b l ih =>
    by_cases hb : P b
    · exact ⟨0, b, .head hb⟩
    · obtain ⟨i, a, hia⟩ := ih (by simpa [hb] using h)
      exact ⟨i + 1, a, hia.cons hb⟩

variable (p : α → Bool)

theorem find?_eq_some_iff_firstAt : l.find? p = some a ↔ ∃ i, FirstAt l (p · = true) i a := by
  rw [List.find?_eq_some_iff_getElem]
  constructor
  · rintro ⟨ha, i, hi, rfl, hleast⟩
    refine ⟨i, List.getElem?_eq_getElem hi, ha, fun j hj b hb => ?_⟩
    obtain ⟨_, rfl⟩ := List.getElem?_eq_some_iff.mp hb
    simpa using hleast j hj
  · rintro ⟨i, hget, ha, hleast⟩
    obtain ⟨hi, rfl⟩ := List.getElem?_eq_some_iff.mp hget
    exact ⟨ha, i, hi, rfl, fun j hj => by simpa using hleast j hj _ (List.getElem?_eq_getElem (hj.trans hi))⟩

theorem findIdx?_eq_some_iff_firstAt : l.findIdx? p = some i ↔ ∃ a, FirstAt l (p · = true) i a := by
  rw [List.findIdx?_eq_some_iff_getElem]
  constructor
  · rintro ⟨hi, ha, hleast⟩
    refine ⟨l[i], List.getElem?_eq_getElem hi, ha, fun j hj b hb => ?_⟩
    obtain ⟨_, rfl⟩ := List.getElem?_eq_some_iff.mp hb
    exact hleast j hj
  · rintro ⟨a, hget, ha, hleast⟩
    obtain ⟨hi, rfl⟩ := List.getElem?_eq_some_iff.mp hget
    exact ⟨hi, ha, fun j hj => hleast j hj _ (List.getElem?_eq_getElem (hj.trans hi))⟩

theorem firstAt_zipIdx {k : Nat} (h : FirstAt l P i a) : FirstAt (l.zipIdx k) (fun q => P q.1) i (a, i + k) := by
  obtain ⟨hget, ha, hleast⟩ := h
  refine ⟨by rw [List.getElem?_zipIdx, hget, Option.map_some, Nat.add_comm], ha, fun j hj b hb => ?_⟩
  rw [List.getElem?_zipIdx] at hb
  obtain ⟨c, hc, rfl⟩ := Option.map_eq_some_iff.mp hb
  exact hleast j hj c hc

/-- The indexed candidates of a search, in order, begin with its first hit. -/
theorem filter_zipIdx_of_firstAt (h : FirstAt l (p · = true) i a) :
    ∃ rest, (l.zipIdx.filter fun q => p q.1) = (a, i) :: rest := by
  have hhead : (l.zipIdx.filter fun q => p q.1).head? = some (a, i) := by
    rw [List.head?_filter, find?_eq_some_iff_firstAt]
    exact ⟨i, firstAt_zipIdx h⟩
  exact List.head?_eq_some_iff.mp hhead

theorem filter_zipIdx_eq_nil (h : ∀ a ∈ l, ¬p a = true) : (l.zipIdx.filter fun q => p q.1) = [] := by
  rw [List.filter_eq_nil_iff]
  exact fun q hq => h q.1 (List.fst_mem_of_mem_zipIdx hq)

theorem filter_zipIdx_ne_nil (h : ∃ a ∈ l, p a = true) : (l.zipIdx.filter fun q => p q.1) ≠ [] := by
  obtain ⟨i, a, ha⟩ := exists_firstAt h
  obtain ⟨rest, hrest⟩ := filter_zipIdx_of_firstAt p ha
  exact hrest ▸ List.cons_ne_nil _ _

end

end Sys2Proof.Machine

/-! `FindProfile` (R172) and `EnumMatch` (R175): a search down the catalog's hierarchy, and one through an enum map. -/

namespace Sys2Proof.Machine

section
variable {cat : List Profile} {c f t : Byte} {dir cmd : Option Byte}

/-- What R172's search of the catalog gives: the first level at which nothing is left, or the first fitting block of the
first profile with the keys. -/
inductive ProfileSearch (cat : List Profile) (c f t : Byte) (dir cmd : Option Byte) : Found → Prop
  | noCategory (h : ∀ e ∈ cat, e.rorg ≠ c) : ProfileSearch cat c f t dir cmd (.missing 1)
  | noFunction (hc : ∃ e ∈ cat, e.rorg = c) (h : ∀ e ∈ cat, ¬(e.rorg = c ∧ e.func = f)) :
    ProfileSearch cat c f t dir cmd (.missing 2)
  | noType (hf : ∃ e ∈ cat, e.rorg = c ∧ e.func = f) (h : ∀ e ∈ cat, ¬e.hasKeys c f t) :
    ProfileSearch cat c f t dir cmd (.missing 3)
  | noBlock {x : Nat} {e : Profile} (he : FirstAt cat (Profile.hasKeys · c f t) x e)
    (h : ∀ b ∈ e.blocks, ¬b.fits dir cmd) : ProfileSearch cat c f t dir cmd (.missing 4)
  | block {x y : Nat} {e : Profile} {b : DataBlock} (he : FirstAt cat (Profile.hasKeys · c f t) x e)
    (hb : FirstAt e.blocks (DataBlock.fits · dir cmd) y b) : ProfileSearch cat c f t dir cmd (.block x y)

/-- One of the five always holds. -/
theorem exists_profileSearch : ∃ r, ProfileSearch cat c f t dir cmd r := by
  by_cases hc : ∃ e ∈ cat, e.rorg = c
  swap
  · exact ⟨_, .noCategory fun e he hr => hc ⟨e, he, hr⟩⟩
  by_cases hf : ∃ e ∈ cat, e.rorg = c ∧ e.func = f
  swap
  · exact ⟨_, .noFunction hc fun e he hr => hf ⟨e, he, hr⟩⟩
  by_cases ht : ∃ e ∈ cat, e.hasKeys c f t
  swap
  · exact ⟨_, .noType hf fun e he hr => ht ⟨e, he, hr⟩⟩
  obtain ⟨x, e, he⟩ := exists_firstAt ht
  by_cases hb : ∃ b ∈ e.blocks, b.fits dir cmd
  swap
  · exact ⟨_, .noBlock he fun b hbm hr => hb ⟨b, hbm, hr⟩⟩
  obtain ⟨y, b, hb⟩ := exists_firstAt hb
  exact ⟨_, .block he hb⟩

theorem discMatches_iff (want have_ : Option Byte) :
    discMatches want have_ = true ↔ want = none ∨ have_ = none ∨ have_ = want := by
  simp [discMatches, or_assoc]

theorem blockFits_iff (b : DataBlock) :
    (discMatches cmd b.command && discMatches dir b.direction) = true ↔ b.fits dir cmd := by
  rw [Bool.and_eq_true, discMatches_iff, discMatches_iff, DataBlock.fits]

theorem blockCandidates_eq_nil {e : Profile} (h : ∀ b ∈ e.blocks, ¬b.fits dir cmd) :
    blockCandidates e dir cmd = [] :=
  filter_zipIdx_eq_nil (fun b : DataBlock => discMatches cmd b.command && discMatches dir b.direction)
    fun b hb => (blockFits_iff b).not.mpr (h b hb)

theorem blockCandidates_of_firstAt {e : Profile} {y : Nat} {b : DataBlock}
    (h : FirstAt e.blocks (DataBlock.fits · dir cmd) y b) : ∃ rest, blockCandidates e dir cmd = (b, y) :: rest :=
  filter_zipIdx_of_firstAt (fun b : DataBlock => discMatches cmd b.command && discMatches dir b.direction)
    (by simpa only [blockFits_iff] using h)

/-- The profiles left after the three levels of keys begin with the first that has all three. -/
theorem filter_keys_of_firstAt {x : Nat} {e : Profile} (he : FirstAt cat (Profile.hasKeys · c f t) x e) :
    ∃ rest,
      (((cat.zipIdx.filter fun q => q.1.rorg == c).filter fun q => q.1.func == f).filter fun q => q.1.ptype == t) =
        (e, x) :: rest := by
  simp only [List.filter_filter]
  refine filter_zipIdx_of_firstAt (fun e : Profile => e.ptype == t && (e.func == f && e.rorg == c)) ?_
  have hkeys (e : Profile) : (e.ptype == t && (e.func == f && e.rorg == c)) = true ↔ e.hasKeys c f t := by
    simp only [Bool.and_eq_true, beq_iff_eq, Profile.hasKeys]
    tauto
  simpa only [hkeys] using he

theorem ne_nil_of_filter_ne_nil {α : Type} {l : List α} {p : α → Bool} (h : l.filter p ≠ []) : l ≠ [] := by
  rintro rfl
  exact h List.filter_nil

/-- With a profile found, the blocks that fit decide. -/
theorem findProfile_of_firstAt {x : Nat} {e : Profile} (he : FirstAt cat (Profile.hasKeys · c f t) x e) :
    findProfile cat c f t dir cmd =
      ((blockCandidates e dir cmd).head?.map fun q => Found.block x q.2).getD (.missing 4) := by
  obtain ⟨rest, hrest⟩ := filter_keys_of_firstAt he
  have hfunc := ne_nil_of_filter_ne_nil (hrest ▸ List.cons_ne_nil (e, x) rest)
  have hrorg := ne_nil_of_filter_ne_nil hfunc
  simp only [findProfile, List.isEmpty_iff, if_neg hrorg, if_neg hfunc, hrest]
  cases blockCandidates e dir cmd <;> rfl

/-- `FindProfile` computes the search: each level's filter is empty exactly when no profile has its keys. -/
theorem ProfileSearch.findProfile_eq {r : Found} (h : ProfileSearch cat c f t dir cmd r) :
    findProfile cat c f t dir cmd = r := by
  cases h with
  | noCategory h =>
    have hrorg := filter_zipIdx_eq_nil (l := cat) (fun e => e.rorg == c) (by simpa using h)
    simp [findProfile, hrorg]
  | noFunction hc h =>
    have hfunc := filter_zipIdx_eq_nil (l := cat) (fun e => e.func == f && e.rorg == c)
      (by simpa [and_comm] using h)
    have hrorg := filter_zipIdx_ne_nil (l := cat) (fun e => e.rorg == c) (by simpa using hc)
    simp [findProfile, hrorg, List.filter_filter, hfunc]
  | noType hf h =>
    have htype := filter_zipIdx_eq_nil (l := cat) (fun e => e.ptype == t && (e.func == f && e.rorg == c))
      (by simpa [Profile.hasKeys, and_comm, and_left_comm] using h)
    have hfunc := filter_zipIdx_ne_nil (l := cat) (fun e => e.func == f && e.rorg == c)
      (by simpa [and_comm] using hf)
    have hrorg := ne_nil_of_filter_ne_nil (List.filter_filter ▸ hfunc)
    simp [findProfile, hrorg, List.filter_filter, hfunc, htype]
  | noBlock he h => rw [findProfile_of_firstAt he, blockCandidates_eq_nil h]; rfl
  | block he hb =>
    obtain ⟨rest, hrest⟩ := blockCandidates_of_firstAt hb
    rw [findProfile_of_firstAt he, hrest]
    rfl

theorem findProfile_eq_iff {r : Found} :
    findProfile cat c f t dir cmd = r ↔ ProfileSearch cat c f t dir cmd r := by
  obtain ⟨r', hr'⟩ := exists_profileSearch (cat := cat) (c := c) (f := f) (t := t) (dir := dir) (cmd := cmd)
  exact ⟨fun h => by rwa [← h, hr'.findProfile_eq], ProfileSearch.findProfile_eq⟩

end

/-- Settles O38: `FindProfile` computes `ProfileSearch`, whose five cases are the clauses. -/
theorem findProfileSearch : Obligations.FindProfileSearch := by
  intro cat c f t dir cmd
  simp only [findProfile_eq_iff]
  refine ⟨fun x y h => ?_, ?_, ?_, ?_, ?_, fun l h => ?_⟩
  · cases h with
    | block he hb => exact ⟨_, _, he.1, he.2.1, he.2.2, hb⟩
  · exact ⟨fun | .noCategory h => h, .noCategory⟩
  · exact ⟨fun | .noFunction hc h => ⟨hc, h⟩, fun ⟨hc, h⟩ => .noFunction hc h⟩
  · exact ⟨fun | .noType hf h => ⟨hf, h⟩, fun ⟨hf, h⟩ => .noType hf h⟩
  · exact ⟨fun | .noBlock ⟨hget, hkeys, hleast⟩ h => ⟨_, _, hget, hkeys, hleast, h⟩,
      fun ⟨_, _, hget, hkeys, hleast, h⟩ => .noBlock ⟨hget, hkeys, hleast⟩ h⟩
  · cases h <;> decide

section
variable {F : FieldDesc} {raw : Nat}

/-- What R175's search of an enum map gives: the first item of the value, else the first range that holds it. -/
inductive EnumSearch (F : FieldDesc) (raw : Nat) : Option (BitVec 2 × Nat) → Prop
  | item {j : Nat} {e : EnumItem} (h : FirstAt F.items (fun e => e.value = raw) j e) : EnumSearch F raw (some (1, j))
  | range {j : Nat} {e : EnumRange} (hi : ∀ e ∈ F.items, e.value ≠ raw)
    (h : FirstAt F.ranges (fun e => e.start ≤ raw ∧ raw ≤ e.stop) j e) : EnumSearch F raw (some (2, j))
  | unmapped (hi : ∀ e ∈ F.items, e.value ≠ raw) (h : ∀ e ∈ F.ranges, ¬(e.start ≤ raw ∧ raw ≤ e.stop)) :
    EnumSearch F raw none

theorem enumSearch_enumMatch : EnumSearch F raw (enumMatch F raw) := by
  unfold enumMatch
  split
  next j hj =>
    obtain ⟨e, he⟩ := (findIdx?_eq_some_iff_firstAt _).mp hj
    exact .item (by simpa only [beq_iff_eq] using he)
  next hnone =>
    have hi : ∀ e ∈ F.items, e.value ≠ raw := by simpa using hnone
    split
    next j hj =>
      obtain ⟨e, he⟩ := (findIdx?_eq_some_iff_firstAt _).mp hj
      exact .range hi (by simpa only [Bool.and_eq_true, decide_eq_true_eq] using he)
    next hnone => exact .unmapped hi (by simpa using hnone)

theorem EnumSearch.enumMatch_eq {r : Option (BitVec 2 × Nat)} (h : EnumSearch F raw r) : enumMatch F raw = r := by
  have hitem (hi : ∀ e ∈ F.items, e.value ≠ raw) : F.items.findIdx? (fun e => e.value == raw) = none := by
    simpa using hi
  cases h with
  | item h =>
    have hj := (findIdx?_eq_some_iff_firstAt fun e : EnumItem => e.value == raw).mpr
      ⟨_, by simpa only [beq_iff_eq] using h⟩
    simp [enumMatch, hj]
  | range hi h =>
    have hj := (findIdx?_eq_some_iff_firstAt fun e : EnumRange => decide (e.start ≤ raw) && decide (raw ≤ e.stop)).mpr
      ⟨_, by simpa only [Bool.and_eq_true, decide_eq_true_eq] using h⟩
    simp [enumMatch, hitem hi, hj]
  | unmapped hi h =>
    have hnone : F.ranges.findIdx? (fun e => decide (e.start ≤ raw) && decide (raw ≤ e.stop)) = none := by
      simpa using h
    simp [enumMatch, hitem hi, hnone]

theorem enumMatch_eq_iff {r : Option (BitVec 2 × Nat)} : enumMatch F raw = r ↔ EnumSearch F raw r :=
  ⟨fun h => h ▸ enumSearch_enumMatch, EnumSearch.enumMatch_eq⟩

end

/-- Settles O40: `EnumMatch` computes `EnumSearch`, whose three cases are the clauses. -/
theorem enumMatchPrecedence : Obligations.EnumMatchPrecedence := by
  intro F raw
  simp only [enumMatch_eq_iff]
  refine ⟨fun j => ⟨?_, ?_⟩, fun j => ⟨?_, ?_⟩, ⟨?_, ?_⟩, fun m j h => ?_⟩
  · rintro (⟨hget, hv, hleast⟩ | _)
    exact ⟨⟨_, hget, hv⟩, hleast⟩
  · rintro ⟨⟨e, hget, hv⟩, hleast⟩
    exact .item ⟨hget, hv, hleast⟩
  · rintro (_ | ⟨hi, hget, hv, hleast⟩)
    exact ⟨hi, ⟨_, hget, hv⟩, hleast⟩
  · rintro ⟨hi, ⟨e, hget, hv⟩, hleast⟩
    exact .range hi ⟨hget, hv, hleast⟩
  · rintro (_ | _ | ⟨hi, h⟩)
    exact ⟨hi, h⟩
  · rintro ⟨hi, h⟩
    exact .unmapped hi h
  · exact enumMatch_kind (enumMatch_eq_iff.mpr h)

end Sys2Proof.Machine

/-! What one descriptor of a block decodes to (R174), and the words of a field record (R50). -/

namespace Sys2Proof.Machine

section
variable {F : FieldDesc} {vd vs v : List Bool} {i raw : Nat}

theorem descVector_eq (F : FieldDesc) (vd vs : List Bool) : descVector F vd vs = if F.src = .data then vd else vs := by
  unfold descVector
  cases F.src <;> rfl

/-- A descriptor whose range leaves its vector, or whose size is not 1..64, gives no record. -/
theorem decodeField_of_not_fits (h : descFits F (descVector F vd vs).length = false) (i : Nat) :
    decodeField vd vs F i = none := by
  simp [decodeField, h]

/-- The records of a block are its descriptors' one after the other. -/
theorem fieldDecode_concat (blk : DataBlock) (vd vs : List Bool) (F : FieldDesc) :
    fieldDecode { blk with fields := blk.fields ++ [F] } vd vs =
      fieldDecode blk vd vs ++ (decodeField vd vs F blk.fields.length).toList := by
  simp only [fieldDecode, List.zipIdx_append, List.filterMap_append, Nat.zero_add]
  cases h : decodeField vd vs F blk.fields.length <;> simp [h]

section
variable (hfits : descFits F (descVector F vd vs).length = true)
  (hraw : raw = bitsToInt (((descVector F vd vs).drop F.offset).take F.size))
include hfits hraw

theorem decodeField_enum_unmapped (hk : F.kind = .enum) (hm : enumMatch F raw = none) :
    decodeField vd vs F i = none := by
  simp [decodeField, hfits, slice_add, ← hraw, hk, hm]

theorem decodeField_enum {m : BitVec 2} {j : Nat} (hk : F.kind = .enum) (hm : enumMatch F raw = some (m, j)) :
    decodeField vd vs F i =
      some { shortcut := F.shortcut, kind := .enum, fmatch := m, raw := BitVec.ofNat 64 raw
             item := BitVec.ofNat 16 j, desc := BitVec.ofNat 16 i, scaled := false, display := 0 } := by
  simp [decodeField, hfits, slice_add, ← hraw, hk, hm]

theorem decodeField_scaled (hk : F.kind = .value) (hs : F.scale ≠ none) :
    decodeField vd vs F i =
      some { shortcut := F.shortcut, kind := .value, fmatch := 0, raw := BitVec.ofNat 64 raw, item := 0
             desc := BitVec.ofNat 16 i, scaled := true, display := Config.scale F raw } := by
  have hs : F.scale.isSome = true := Option.isSome_iff_ne_none.mpr hs
  simp [decodeField, hfits, slice_add, ← hraw, hk, hs]

theorem decodeField_plain (hk : F.kind = .status ∨ F.kind = .value ∧ F.scale = none) :
    decodeField vd vs F i =
      some { shortcut := F.shortcut, kind := F.kind, fmatch := 0, raw := BitVec.ofNat 64 raw, item := 0
             desc := BitVec.ofNat 16 i, scaled := false, display := 0 } := by
  rcases hk with hk | ⟨hk, hs⟩
  · simp [decodeField, hfits, slice_add, ← hraw, hk]
  · simp [decodeField, hfits, slice_add, ← hraw, hk, hs]

end

end

/-- A raw value of at most 64 bits keeps them all in RAW (R50). -/
theorem bitsToInt_take_lt (v : List Bool) {n : Nat} (hn : n ≤ 64) : bitsToInt (v.take n) < 2 ^ 64 :=
  (bitsToInt_lt _).trans_le (Nat.pow_le_pow_right (by decide) ((List.length_take_le n v).trans hn))

/-- Settles O41: a block with one more descriptor has that descriptor's records at the end, none or one by its kind. -/
theorem fieldDecodeRecords : Obligations.FieldDecodeRecords := by
  intro blk vd vs
  refine ⟨rfl, fun F v hv => ⟨_, fieldDecode_concat blk vd vs F, fun hout => ?_, fun h1 h64 hin raw hraw => ?_⟩⟩
  all_goals rw [← descVector_eq] at hv; subst hv
  · have hfits : descFits F (descVector F vd vs).length = false := by
      rw [← Bool.not_eq_true, descFits_iff]
      omega
    rw [decodeField_of_not_fits hfits, Option.toList_none]
  · have hfits := (descFits_iff F _).mpr ⟨by omega, h64, hin⟩
    refine ⟨hraw ▸ bitsToInt_take_lt _ h64, fun hk hm => ?_, fun hk m j hm => ?_, fun hk hs => ?_, fun hk => ?_⟩
    · rw [decodeField_enum_unmapped hfits hraw hk hm, Option.toList_none]
    · rw [decodeField_enum hfits hraw hk hm, Option.toList_some]
    · rw [decodeField_scaled hfits hraw hk hs, Option.toList_some]
    · rw [decodeField_plain hfits hraw hk, Option.toList_some]

/-- Fields of these widths, put together, stand at the places R50 gives them in word 0 of a record. -/
theorem recordWord_fields (z : BitVec 11) (scaled : Bool) (m k : BitVec 2) (sc : BitVec 16)
    {w : BitVec (11 + 1 + 2 + 2 + 16)} (hw : w = z ++ BitVec.ofBool scaled ++ m ++ k ++ sc) :
    w.extractLsb' 0 16 = sc ∧ w.extractLsb' 16 2 = k ∧ w.extractLsb' 18 2 = m ∧ w.getLsbD 20 = scaled ∧
      w.extractLsb' 21 11 = z := by
  subst hw
  refine ⟨BitVec.extractLsb'_append_eq_right, ?_, ?_, ?_, ?_⟩
  · rw [BitVec.extractLsb'_append_eq_of_le (by decide), BitVec.extractLsb'_append_eq_right]
  · rw [BitVec.extractLsb'_append_eq_of_le (by decide), BitVec.extractLsb'_append_eq_of_le (by decide),
      BitVec.extractLsb'_append_eq_right]
  · simp only [BitVec.getLsbD_append]
    simp
  · rw [BitVec.extractLsb'_append_eq_of_le (by decide), BitVec.extractLsb'_append_eq_of_le (by decide),
      BitVec.extractLsb'_append_eq_of_le (by decide), BitVec.extractLsb'_append_eq_left]

section
variable (r : FieldRec)

/-- Word 0 of a record, field by field (R50). -/
theorem FieldRec.word_zero_fields :
    (r.word 0).extractLsb' 0 16 = r.shortcut ∧ (r.word 0).extractLsb' 16 2 = kindCode r.kind ∧
      (r.word 0).extractLsb' 18 2 = r.fmatch ∧ (r.word 0).getLsbD 20 = r.scaled ∧
      (r.word 0).extractLsb' 21 11 = 0 :=
  recordWord_fields 0 r.scaled r.fmatch (kindCode r.kind) r.shortcut rfl

/-- A record has five words (R50). -/
theorem FieldRec.word_of_ge {w : Nat} (h : 5 ≤ w) : r.word w = 0 := by
  obtain ⟨v, rfl⟩ := Nat.exists_eq_add_of_le' h
  rfl

/-- Word 3 of a record (R50). -/
theorem FieldRec.word_three_fields :
    (r.word 3).extractLsb' 0 16 = r.item ∧ (r.word 3).extractLsb' 16 16 = r.desc :=
  ⟨BitVec.extractLsb'_append_eq_right, BitVec.extractLsb'_append_eq_left⟩

end

end Sys2Proof.Machine

/-! The commands of the field codec (R173, R177, R179): what each leaves, written as a change of the state it started
from. -/

namespace Sys2Proof.Machine

section
variable {s : State} {blk : DataBlock}

/-! ### PSEL -/

theorem State.selected_of_invalid (h : s.psel.valid = false) : s.selected = none := by
  simp [State.selected, h]

theorem State.selected_of_valid (h : s.psel.valid = true) :
    s.selected = catalogBlock s.cfg.catalog s.psel.entry.toNat s.psel.block.toNat := if_pos h

/-- A block of a legal catalog, selected, reads as its two indices below VALID (R49, R173). -/
theorem word_pselOf {x y : Nat} (hx : x < 32768) (hy : y < 65536) :
    (pselOf x y).word = BitVec.ofNat 32 (2 ^ 31 + 2 ^ 16 * x + y) := by
  apply BitVec.eq_of_toNat_eq
  rw [Psel.toNat_word, pselOf_entry hx, pselOf_block hy, BitVec.toNat_ofNat]
  simp only [pselOf, if_true]
  omega

/-- PSEL with nothing selected reads 0 (R49). -/
theorem word_invalid : Psel.invalid.word = 0 := by decide

/-! ### FIND_PROFILE -/

/-- The search FIND_PROFILE makes with its operands (R173). -/
def State.foundProfile (s : State) (hasDir hasCmd : Bool) : Found :=
  findProfile s.cfg.catalog (byteArg s.arg0 0) (byteArg s.arg0 1) (byteArg s.arg0 2)
    (optArg hasDir (byteArg s.arg1 0)) (optArg hasCmd (byteArg s.arg1 1))

variable {hasDir hasCmd : Bool}

theorem exec_findProfile_block {x y : Nat} (h : s.foundProfile hasDir hasCmd = .block x y) :
    exec (.findProfile hasDir hasCmd) s =
      .next { s with res0 := 0, psel := pselOf x y, status := s.status.endedOk .ok } := by
  show execFindProfile hasDir hasCmd s = _
  unfold State.foundProfile at h
  simp only [execFindProfile, h]
  exact congrArg Host.Outcome.next (State.finish_of_not_fatal _ rfl)

theorem exec_findProfile_missing {l : Nat} (h : s.foundProfile hasDir hasCmd = .missing l) :
    exec (.findProfile hasDir hasCmd) s =
      .next { s with res0 := BitVec.ofNat 32 l, psel := Psel.invalid, status := s.status.endedOk .notFound } := by
  show execFindProfile hasDir hasCmd s = _
  unfold State.foundProfile at h
  simp only [execFindProfile, h]
  exact congrArg Host.Outcome.next (State.finish_of_not_fatal _ rfl)

/-! ### FIELD_DECODE -/

theorem exec_fieldDecode_unselected (h : s.selected = none) :
    exec .fieldDecode s = .next { s with nfields := 0, res0 := 0, status := s.status.endedOk .notFound } := by
  show execFieldDecode s = _
  simp only [execFieldDecode, h]
  exact congrArg Host.Outcome.next (State.finish_of_not_fatal _ rfl)

theorem exec_fieldDecode_selected (h : s.selected = some blk) {out : List FieldRec}
    (hout : out = fieldDecode blk s.dataBits s.statBits) :
    exec .fieldDecode s =
      .next
        { s.writeFields out with
          res0 := BitVec.ofNat 32 (min out.length s.cfg.fieldCap)
          status := (s.writeFields out).status.endedOk .ok } := by
  show execFieldDecode s = _
  simp only [execFieldDecode, h, ← hout]
  exact congrArg Host.Outcome.next (State.finish_of_not_fatal _ rfl)

/-- An entry below NFIELDS holds its record (R180). -/
theorem State.Inv.read_writeFields (hinv : s.Inv) (out : List FieldRec) {k : Nat}
    (hk : k < min out.length s.cfg.fieldCap) : out[k]? = some (Store.read (s.writeFields out).ft k) := by
  have hk' : k < (out.take s.cfg.fieldCap).length := by rw [List.length_take]; omega
  have hread := Store.read_writeList_of_in s.ft hinv.ftWf 0 (out.take s.cfg.fieldCap) k hk'
  rw [Nat.zero_add] at hread
  show _ = some (Store.read (Store.writeList s.ft 0 (out.take s.cfg.fieldCap)) k)
  rw [hread, List.getElem_take, List.getElem?_eq_getElem]

/-- Entries from NFIELDS on keep their storage (R180). -/
theorem State.read_writeFields_past (s : State) (out : List FieldRec) {k : Nat}
    (hk : min out.length s.cfg.fieldCap ≤ k) : Store.read (s.writeFields out).ft k = Store.read s.ft k :=
  Store.read_writeList_past s.ft _ (by rw [List.length_take]; omega)

theorem readTarget_field {k : Nat} (w : Nat) (h : k < s.nfields) :
    readTarget s (.field k w) = (Store.read s.ft k).word w := if_pos h

theorem readTarget_field_past {k : Nat} (w : Nat) (h : s.nfields ≤ k) : readTarget s (.field k w) = 0 :=
  if_neg h.not_gt

/-! ### FIELD_ENCODE -/

variable {n : BitVec 16}

theorem exec_fieldEncode_too_many (h : s.cfg.nvCap < n.toNat) :
    exec (.fieldEncode n) s = .next { s with status := s.status.endedFatal .badArg } := by
  show execFieldEncode n s = _
  simp only [execFieldEncode, if_pos h]
  exact congrArg Host.Outcome.next (s.raiseFatal_of_fatal rfl)

theorem exec_fieldEncode_unselected (hn : n.toNat ≤ s.cfg.nvCap) (h : s.selected = none) :
    exec (.fieldEncode n) s = .next { s with res0 := 0, status := s.status.endedOk .notFound } := by
  show execFieldEncode n s = _
  simp only [execFieldEncode, if_neg hn.not_gt, h]
  exact congrArg Host.Outcome.next (State.finish_of_not_fatal _ rfl)

variable (hn : n.toNat ≤ s.cfg.nvCap) (h : s.selected = some blk)
include hn h

/-- A rejected pair's code is not fatal, so nothing but RES0 and the end is left (R179). -/
theorem exec_fieldEncode_rejected {c : ResultCode} {bad : Nat}
    (hr : fieldEncode blk s.dataBits s.statBits (s.namedValues n.toNat) = .rejected c bad) :
    exec (.fieldEncode n) s = .next { s with res0 := BitVec.ofNat 32 bad, status := s.status.endedOk c } := by
  have hc : c.isFatal = false := by rcases fieldEncode_code hr with rfl | rfl <;> rfl
  show execFieldEncode n s = _
  simp only [execFieldEncode, if_neg hn.not_gt, h, hr]
  exact congrArg Host.Outcome.next (State.finish_of_not_fatal _ hc)

theorem exec_fieldEncode_done {vd vs : List Bool}
    (hr : fieldEncode blk s.dataBits s.statBits (s.namedValues n.toNat) = .done vd vs) :
    exec (.fieldEncode n) s = .next { s.writeBits vd vs with res0 := 0, status := s.status.endedOk .ok } := by
  show execFieldEncode n s = _
  simp only [execFieldEncode, if_neg hn.not_gt, h, hr]
  exact congrArg Host.Outcome.next (State.finish_of_not_fatal _ rfl)

end

/-- Vectors of the lengths in force, written, are the valid bits afterwards; the bits past them keep their values. -/
theorem State.Inv.bits_writeBits {s : State} (hinv : s.Inv) {vd vs : List Bool} (hd : vd.length = s.bvDlen)
    (hs : vs.length = s.bvSlen) :
    (s.writeBits vd vs).dataBits = vd ∧ (s.writeBits vd vs).statBits = vs ∧
      (∀ x, s.bvDlen ≤ x → Store.read (s.writeBits vd vs).bvData x = Store.read s.bvData x) ∧
      ∀ x, s.bvSlen ≤ x → Store.read (s.writeBits vd vs).bvStat x = Store.read s.bvStat x := by
  refine ⟨?_, ?_, fun x hx => Store.read_writeList_past _ _ (hd.trans_le hx),
    fun x hx => Store.read_writeList_past _ _ (hs.trans_le hx)⟩
  · show Store.readList (Store.writeList s.bvData 0 vd) 0 s.bvDlen = vd
    rw [← hd, Store.readList_writeList _ hinv.bvDataWf]
  · show Store.readList (Store.writeList s.bvStat 0 vs) 0 s.bvSlen = vs
    rw [← hs, Store.readList_writeList _ hinv.bvStatWf]

/-- Settles O39: the search decides, and a block found has indices that PSEL's fields hold whole. -/
theorem findProfileCommand : Obligations.FindProfileCommand := by
  refine ⟨fun _ => decode_of_and_eq (.findProfile false false), fun s hasDir hasCmd hinv r hr => ⟨?_, ?_⟩⟩
  · rintro x y rfl
    obtain ⟨_, _, _, _, _, _, _, hb⟩ := findProfile_block hr.symm
    obtain ⟨hx, hy⟩ := Cfg.catalogLegal_bounds (Cfg.legal_catalog hinv.cfgLegal) hb
    exact ⟨_, exec_findProfile_block hr.symm, rfl, word_pselOf hx hy⟩
  · rintro l rfl
    exact ⟨_, exec_findProfile_missing hr.symm, rfl, word_invalid⟩

/-- Settles O42: the words of a record, the two ways FIELD_DECODE ends, and the table it leaves. -/
theorem fieldDecodeCommand : Obligations.FieldDecodeCommand := by
  refine ⟨fun s k r word hk hr hword => ?_, fun _ => decode_of_and_eq .fieldDecode, fun s hinv =>
    ⟨fun hv => exec_fieldDecode_unselected (s.selected_of_invalid hv), fun blk out hv hblk hout => ?_⟩⟩
  · have hw (w : Nat) : word w = r.word w := by rw [hword, readTarget_field w hk, hr]
    obtain ⟨hshortcut, hkind, hmatch, hscaled, hzero⟩ := r.word_zero_fields
    obtain ⟨hitem, hdesc⟩ := r.word_three_fields
    simp only [hw]
    refine ⟨hshortcut, hkind.trans ?_, hmatch, hscaled, hzero, rfl, rfl, hitem, hdesc, rfl, fun w h5 => ?_⟩
    · cases r.kind <;> rfl
    · exact r.word_of_ge h5
  · exact ⟨_, exec_fieldDecode_selected ((s.selected_of_valid hv).trans hblk) hout, rfl,
      fun k => hinv.read_writeFields out, fun k => s.read_writeFields_past out,
      fun k w => readTarget_field_past w⟩

/-- Settles O44: the count, the selection and the encode decide, in this order; NV's words read as they are stored. -/
theorem fieldEncodeCommand : Obligations.FieldEncodeCommand := by
  refine ⟨fun _ => decode_of_and_eq (.fieldEncode 0), fun s n hinv =>
    ⟨exec_fieldEncode_too_many, fun hn => ⟨fun hv => exec_fieldEncode_unselected hn (s.selected_of_invalid hv), ?_⟩⟩⟩
  rintro blk hv hblk nv rfl
  have hsel := (s.selected_of_valid hv).trans hblk
  refine ⟨fun c bad hr => exec_fieldEncode_rejected hn hsel hr, fun vd vs hr => ?_⟩
  obtain ⟨hd, hs⟩ := fieldEncode_lengths hr
  exact ⟨_, exec_fieldEncode_done hn hsel hr, rfl,
    hinv.bits_writeBits (hd.trans (Store.length_readList ..)) (hs.trans (Store.length_readList ..))⟩

end Sys2Proof.Machine

/-! `FieldEncode` (R178), phase by phase: the first pair that fails its check, and each bit after the writes. -/

namespace Sys2Proof.Machine

/-! ### The check phase -/

section
variable {blk : DataBlock} {vd vs : List Bool} {nv : List (BitVec 16 × Nat)} {p : BitVec 16 × Nat}

theorem descriptorOf_eq_some_iff (sc : BitVec 16) (F : FieldDesc) :
    descriptorOf blk sc = some F ↔ ∃ i, FirstAt blk.fields (fun F => F.shortcut = sc) i F := by
  unfold descriptorOf
  simp only [find?_eq_some_iff_firstAt, beq_iff_eq]

theorem descriptorOf_eq_none_iff (sc : BitVec 16) :
    descriptorOf blk sc = none ↔ ∀ F ∈ blk.fields, F.shortcut ≠ sc := by
  simp [descriptorOf]

/-- The vector a source names (R171), of the two an encode writes. -/
def srcBits (src : FieldSrc) (vv : List Bool × List Bool) : List Bool := if src = .data then vv.1 else vv.2

/-- `pairOk` by the vector the descriptor writes. -/
theorem pairOk_iff {vv : List Bool × List Bool} :
    pairOk blk vv.1.length vv.2.length p ↔
      ∃ F, descriptorOf blk p.1 = some F ∧ F.size ≠ 0 ∧ F.size ≤ 64 ∧
        F.offset + F.size ≤ (srcBits F.src vv).length := by
  refine exists_congr fun F => and_congr_right fun _ => ?_
  rw [← descFits_iff, srcBits]
  cases F.src <;> rfl

theorem pairOk.fits {vv : List Bool × List Bool} {F : FieldDesc} (h : pairOk blk vv.1.length vv.2.length p)
    (hF : descriptorOf blk p.1 = some F) : F.offset + F.size ≤ (srcBits F.src vv).length := by
  obtain ⟨G, hG, _, _, hfits⟩ := pairOk_iff.mp h
  cases hF.symm.trans hG
  exact hfits

/-- The code a pair that fails its check is rejected with (R178). -/
def pairFault (blk : DataBlock) (p : BitVec 16 × Nat) : ResultCode :=
  if descriptorOf blk p.1 = none then .unknownField else .badDescriptor

theorem encodeCheck_cons_ok (h : pairOk blk vd.length vs.length p) (k : Nat) :
    encodeCheck blk vd vs k (p :: nv) = encodeCheck blk vd vs (k + 1) nv := by
  obtain ⟨F, hF, hfits⟩ := h
  rw [← length_descVector] at hfits
  simp [encodeCheck, hF, hfits]

theorem encodeCheck_cons_bad (h : ¬pairOk blk vd.length vs.length p) (k : Nat) :
    encodeCheck blk vd vs k (p :: nv) = some (pairFault blk p, k) := by
  cases hF : descriptorOf blk p.1 with
  | none => simp [encodeCheck, pairFault, hF]
  | some F =>
    have hfits : ¬descFits F (descVector F vd vs).length = true := fun hfits =>
      h ⟨F, hF, by rwa [← length_descVector]⟩
    simp [encodeCheck, pairFault, hF, hfits]

/-- The check phase stops at the first pair that fails. -/
theorem encodeCheck_some {k n : Nat} {c : ResultCode} (h : encodeCheck blk vd vs k nv = some (c, n)) :
    ∃ j p, n = k + j ∧ c = pairFault blk p ∧ FirstAt nv (fun p => ¬pairOk blk vd.length vs.length p) j p := by
  induction nv generalizing k with
  | nil => cases h
  | cons p nv ih =>
    by_cases hp : pairOk blk vd.length vs.length p
    · rw [encodeCheck_cons_ok hp] at h
      obtain ⟨j, q, rfl, hc, hq⟩ := ih h
      exact ⟨j + 1, q, by omega, hc, hq.cons (not_not.mpr hp)⟩
    · rw [encodeCheck_cons_bad hp] at h
      cases h
      exact ⟨0, p, rfl, rfl, .head hp⟩

theorem fieldEncode_rejected_iff {c : ResultCode} {k : Nat} :
    fieldEncode blk vd vs nv = .rejected c k ↔ encodeCheck blk vd vs 0 nv = some (c, k) := by
  cases h : encodeCheck blk vd vs 0 nv with
  | none => simp [fieldEncode, h]
  | some ck => simp [fieldEncode, h, Prod.ext_iff]

theorem fieldEncode_rejected {c : ResultCode} {k : Nat} (h : fieldEncode blk vd vs nv = .rejected c k) :
    ∃ p, c = pairFault blk p ∧ FirstAt nv (fun p => ¬pairOk blk vd.length vs.length p) k p := by
  obtain ⟨j, p, hj, hc, hp⟩ := encodeCheck_some (fieldEncode_rejected_iff.mp h)
  rw [Nat.zero_add] at hj
  exact ⟨p, hc, hj ▸ hp⟩

theorem exists_fieldEncode_rejected_iff :
    (∃ c k, fieldEncode blk vd vs nv = .rejected c k) ↔ ¬∀ p ∈ nv, pairOk blk vd.length vs.length p := by
  simp only [fieldEncode_rejected_iff, ← encodeCheck_none_iff blk vd vs 0 nv, ← ne_eq, Option.ne_none_iff_exists',
    Prod.exists]

/-- An encode that is not rejected passed every pair and wrote them in list order. -/
theorem fieldEncode_done {vd' vs' : List Bool} (h : fieldEncode blk vd vs nv = .done vd' vs') :
    (∀ p ∈ nv, pairOk blk vd.length vs.length p) ∧ nv.foldl (encodeOne blk) (vd, vs) = (vd', vs') := by
  cases hc : encodeCheck blk vd vs 0 nv with
  | none =>
    simp only [fieldEncode, hc] at h
    cases h
    exact ⟨(encodeCheck_none_iff blk vd vs 0 nv).mp hc, rfl⟩
  | some ck => simp [fieldEncode, hc] at h

end

/-! ### The write phase -/

section
variable {blk : DataBlock} {src : FieldSrc} {x : Nat} {vv : List Bool × List Bool} {p : BitVec 16 × Nat}
  {nv pre post : List (BitVec 16 × Nat)} {F : FieldDesc}

/-- The field the pair names does not hold bit `x` of the source's vector. -/
def pairMisses (blk : DataBlock) (src : FieldSrc) (x : Nat) (p : BitVec 16 × Nat) : Prop :=
  ∀ F, descriptorOf blk p.1 = some F → F.src = src → x < F.offset ∨ F.offset + F.size ≤ x

/-- A pair writes its value's low bits over its field, and leaves the vector its field is not in. -/
theorem srcBits_encodeOne (hF : descriptorOf blk p.1 = some F) (src : FieldSrc) :
    srcBits src (encodeOne blk vv p) =
      if F.src = src then overwrite (srcBits src vv) F.offset (bitsOf F.size (p.2 % 2 ^ F.size))
      else srcBits src vv := by
  simp only [encodeOne, hF]
  cases F.src <;> cases src <;> rfl

theorem getElem?_encodeOne_of_misses (hok : pairOk blk vv.1.length vv.2.length p) (hm : pairMisses blk src x p) :
    (srcBits src (encodeOne blk vv p))[x]? = (srcBits src vv)[x]? := by
  obtain ⟨F, hF, _, _, hfits⟩ := pairOk_iff.mp hok
  by_cases hs : F.src = src
  · subst hs
    rw [srcBits_encodeOne hF, if_pos rfl, getElem?_overwrite_of_out] <;> rw [length_bitsOf]
    exacts [hfits, hm F hF rfl]
  · rw [srcBits_encodeOne hF, if_neg hs]

theorem getElem?_overwrite_of_in {v bs : List Bool} {off j : Nat} (h : off + bs.length ≤ v.length) (hj : j < bs.length) :
    (overwrite v off bs)[off + j]? = bs[j]? := by
  calc (overwrite v off bs)[off + j]? = (((overwrite v off bs).drop off).take bs.length)[j]? := by
        rw [List.getElem?_take_of_lt hj, List.getElem?_drop]
    _ = bs[j]? := by rw [slice_overwrite h]

/-- Bit `j` of the field a pair names, most significant first, is that bit of its value. -/
theorem getElem?_encodeOne_of_field (hok : pairOk blk vv.1.length vv.2.length p) (hF : descriptorOf blk p.1 = some F)
    {j : Nat} (hj : j < F.size) :
    (srcBits F.src (encodeOne blk vv p))[F.offset + j]? = some (p.2.testBit (F.size - 1 - j)) := by
  have hj' : j < (bitsOf F.size (p.2 % 2 ^ F.size)).length := by rwa [length_bitsOf]
  have hlow : F.size - 1 - j < F.size := by omega
  rw [srcBits_encodeOne hF, if_pos rfl, getElem?_overwrite_of_in (by rw [length_bitsOf]; exact hok.fits hF) hj',
    List.getElem?_eq_getElem hj', getElem_bitsOf, Nat.testBit_mod_two_pow, decide_eq_true hlow, Bool.true_and]

theorem getElem?_foldl_encodeOne_of_misses (hok : ∀ p ∈ nv, pairOk blk vv.1.length vv.2.length p)
    (hm : ∀ p ∈ nv, pairMisses blk src x p) :
    (srcBits src (nv.foldl (encodeOne blk) vv))[x]? = (srcBits src vv)[x]? := by
  induction nv generalizing vv with
  | nil => rfl
  | cons p nv ih =>
    rw [List.forall_mem_cons] at hok hm
    obtain ⟨hd, hs⟩ := encodeOne_lengths hok.1
    rw [List.foldl_cons, ih (by rw [hd, hs]; exact hok.2) hm.2, getElem?_encodeOne_of_misses hok.1 hm.1]

/-- The last pair whose field holds a bit decides it: the later pair's bits win. -/
theorem getElem?_foldl_encodeOne_of_last (hok : ∀ q ∈ pre ++ p :: post, pairOk blk vv.1.length vv.2.length q)
    (hF : descriptorOf blk p.1 = some F) {j : Nat} (hj : j < F.size)
    (hm : ∀ q ∈ post, pairMisses blk F.src (F.offset + j) q) :
    (srcBits F.src ((pre ++ p :: post).foldl (encodeOne blk) vv))[F.offset + j]? =
      some (p.2.testBit (F.size - 1 - j)) := by
  rw [List.forall_mem_append, List.forall_mem_cons] at hok
  obtain ⟨hpre, hp, hpost⟩ := hok
  obtain ⟨hd, hs⟩ := foldl_encodeOne_lengths hpre
  rw [← hd, ← hs] at hp hpost
  obtain ⟨hd', hs'⟩ := encodeOne_lengths hp
  rw [← hd', ← hs'] at hpost
  rw [List.foldl_append, List.foldl_cons, getElem?_foldl_encodeOne_of_misses hpost hm,
    getElem?_encodeOne_of_field hp hF hj]

end

/-- Settles O43: the check phase stops at the first bad pair; in the write phase a bit that no later field holds is the
last one written. -/
theorem fieldEncodeChecksThenWrites : Obligations.FieldEncodeChecksThenWrites := by
  constructor
  · intro blk vd vs nv good bad hgood hbad
    have hok (p : BitVec 16 × Nat) : good p ↔ pairOk blk vd.length vs.length p :=
      (hgood p).trans (by rw [pairOk_iff (vv := (vd, vs))]; rfl)
    have hnone (p : BitVec 16 × Nat) : bad p ↔ descriptorOf blk p.1 = none :=
      (hbad p).trans (descriptorOf_eq_none_iff p.1).symm
    simp only [hok, hnone]
    refine ⟨fun c k h => ?_, exists_fieldEncode_rejected_iff, descriptorOf_eq_some_iff⟩
    obtain ⟨p, hc, hget, hp, hleast⟩ := fieldEncode_rejected h
    exact ⟨p, hget, fun k' hk' q hq => not_not.mp (hleast k' hk' q hq), hp, fun hF => hc.trans (if_pos hF),
      fun hF => hc.trans (if_neg hF)⟩
  · intro blk vd vs vd' vs' nv h
    obtain ⟨hd, hs⟩ := fieldEncode_lengths h
    obtain ⟨hok, hfold⟩ := fieldEncode_done h
    have hmiss (src : FieldSrc) (x : Nat) (hm : ∀ p ∈ nv, pairMisses blk src x p) :
        (srcBits src (vd', vs'))[x]? = (srcBits src (vd, vs))[x]? :=
      hfold ▸ getElem?_foldl_encodeOne_of_misses (vv := (vd, vs)) hok hm
    refine ⟨hd, hs, hmiss .data, hmiss .status, fun k p F hp hF j hj hlast => ?_⟩
    obtain ⟨hk, rfl⟩ := List.getElem?_eq_some_iff.mp hp
    have hsplit : nv = nv.take k ++ nv[k] :: nv.drop (k + 1) := by simp
    have hpost : ∀ q ∈ nv.drop (k + 1), pairMisses blk F.src (F.offset + j) q := by
      intro q hq G hG hsrc
      obtain ⟨i, hi⟩ := List.mem_iff_getElem?.mp hq
      rw [List.getElem?_drop] at hi
      exact hlast (k + 1 + i) q G (by omega) hi hG hsrc
    have hbit := getElem?_foldl_encodeOne_of_last (vv := (vd, vs)) (hsplit ▸ hok) hF hj hpost
    rw [← hsplit, hfold] at hbit
    exact hbit

end Sys2Proof.Machine

/-! Dispatch (R190) and PARSE of the packets that decode no field (R194 to R196, R200): what each leaves, written as a
change of the state it started from. -/

namespace Sys2Proof.Machine

/-! ### Dispatch -/

section
variable {cfg : Cfg} {t c : Byte} {u : List Byte}

theorem dispatchOf_ute (hc : c = pRorgUte) : dispatchOf cfg t (c :: u) = .ute := if_pos hc

theorem dispatchOf_chained (hu : c ≠ pRorgUte) (hc : c = pRorgCdm ∨ c = cfg.rorgCdmProp) :
    dispatchOf cfg t (c :: u) = .chained :=
  (if_neg hu).trans (if_pos hc)

/-- A packet with data that is neither UTE nor chained dispatches by its type, and a RADIO_ERP1 one by its category
(R190). -/
theorem dispatchOf_by_type (hu : c ≠ pRorgUte) (hc : c ≠ pRorgCdm) (hp : c ≠ cfg.rorgCdmProp) :
    dispatchOf cfg t (c :: u) =
      if t = pTypeResponse then .response else if t = pTypeEvent then .event
      else if t = pTypeRadio then (if c = pRorgMsc then .msc else .radio) else .generic :=
  (if_neg hu).trans (if_neg (not_or.mpr ⟨hc, hp⟩))

end

/-! ### What PARSE leaves -/

section
variable (s : State)

theorem exec_dispatch :
    exec .dispatch s =
      .next { s with res0 := (dispatchOf s.cfg s.fType s.dataBytes).word, status := s.status.endedOk .ok } :=
  congrArg Host.Outcome.next (State.finish_of_not_fatal _ rfl)

/-- The state a variant's parse starts from: no view, no fields, and no selection when a profile is requested (R194). -/
def State.parseStart (req : Req) : State := s.clearView.dropProfile req

theorem State.parseStart_eq (req : Req) :
    s.parseStart req = { s with view := View.cleared, nfields := 0, psel := s.pselAfter req.prof } := by
  unfold State.parseStart State.dropProfile State.pselAfter
  cases req.prof <;> rfl

@[simp] theorem State.parseStart_view (req : Req) : (s.parseStart req).view = View.cleared := dropProfile_view ..

@[simp] theorem State.parseStart_cfg (req : Req) : (s.parseStart req).cfg = s.cfg := dropProfile_cfg ..

theorem State.Inv.parseStart {s : State} (h : s.Inv) (req : Req) : (s.parseStart req).Inv := h.clearView.dropProfile req

/-- No code a parse returns is fatal (R246, R250). -/
theorem not_fatal_of_mem_parseCodes {c : ResultCode} (h : c ∈ parseCodes) : c.isFatal = false := by
  revert h
  cases c <;> decide

variable {s} {t : Byte} {d o : List Byte} {req : Req}

theorem parsePacket_generic (h : dispatchOf s.cfg t d = .generic) :
    parsePacket t d o req s = parseGeneric t d (s.parseStart req) := by
  simp only [parsePacket, parseWith, h]
  rfl

theorem parsePacket_response (h : dispatchOf s.cfg t d = .response) :
    parsePacket t d o req s = parseCode .response t d (s.parseStart req) := by
  simp only [parsePacket, parseWith, h]
  rfl

theorem parsePacket_event (h : dispatchOf s.cfg t d = .event) :
    parsePacket t d o req s = parseCode .event t d (s.parseStart req) := by
  simp only [parsePacket, parseWith, h]
  rfl

theorem parsePacket_radio {v : Variant} (hv : v = .radio ∨ v = .msc ∨ v = .ute) (h : dispatchOf s.cfg t d = v) :
    parsePacket t d o req s = parseRadio v t d o req (s.parseStart req) := by
  rcases hv with rfl | rfl | rfl <;> simp only [parsePacket, parseWith, h] <;> rfl

theorem parsePacket_chained (h : dispatchOf s.cfg t d = .chained) :
    parsePacket t d o req s = chainFeed t d o req (s.parseStart req) := by
  simp only [parsePacket, parseWith, h]
  rfl

/-- PARSE runs `Parse` on the F registers, and shows its variant and its code (R192). -/
theorem exec_parse {prof hasDir hasCmd : Bool} {s' : State} {c : ResultCode}
    (h : parsePacket s.fType s.dataBytes s.optBytes (reqOfArg prof hasDir hasCmd s.arg0) s = (s', c)) :
    exec (.parse prof hasDir hasCmd) s =
      .next { s' with res0 := s'.view.variant.word, status := s'.status.endedOk c } := by
  have hc : c ∈ parseCodes := by
    have hok := ParseOk.parsePacket s s.fType s.dataBytes s.optBytes (reqOfArg prof hasDir hasCmd s.arg0)
    rw [h] at hok
    exact hok.2
  show execParse prof hasDir hasCmd s = _
  simp only [execParse, h, State.finish_of_not_fatal _ (not_fatal_of_mem_parseCodes hc)]
  rfl

/-! ### Packets that decode no field -/

theorem parseGeneric_parseStart :
    parseGeneric t d (s.parseStart req) =
      ({ s with
          view := { View.cleared with variant := .generic, ptype := t, rorg := category d }
          nfields := 0, psel := s.pselAfter req.prof }, .ok) := by
  rw [s.parseStart_eq]
  rfl

theorem parseCode_parseStart (v : Variant) :
    parseCode v t d (s.parseStart req) =
      ({ s with
          view := { View.cleared with variant := v, ptype := t, rorg := category d, code := category d }
          nfields := 0, psel := s.pselAfter req.prof }, .ok) := by
  rw [s.parseStart_eq]
  rfl

theorem degrade_parseStart :
    degrade t d (s.parseStart req) =
      ({ s with
          view :=
            { View.cleared with
              variant := .generic, ptype := t, rorg := category d
              flags := { View.cleared.flags with degraded := true } }
          nfields := 0, psel := s.pselAfter req.prof }, .malformed) := by
  rw [s.parseStart_eq]
  rfl

theorem length_dataBytes (s : State) : s.dataBytes.length = s.fDlen.toNat := Store.length_readList ..

theorem length_optBytes (s : State) : s.optBytes.length = s.fOlen.toNat := Store.length_readList ..

theorem radioTooShort_iff {v : Variant} :
    radioTooShort v d o = true ↔ d.length < 6 ∨ o.length < 6 ∨ v = .ute ∧ d.length < 13 := by
  simp [radioTooShort, or_assoc]

theorem fragTooShort_iff :
    fragTooShort d = true ↔
      d.length < 2 ∨ fragIdx d = 0 ∧ d.length < 9 ∨ fragIdx d ≠ 0 ∧ d.length < 7 := by
  simp [fragTooShort, or_assoc]

theorem parseRadio_short {v : Variant} (h : radioTooShort v d o = true) : parseRadio v t d o req s = degrade t d s :=
  if_pos h

theorem chainFeed_short (h : fragTooShort d = true) : chainFeed t d o req s = degrade t d s := if_pos h

end

/-- Settles O45: the tests of `dispatchOf` in their order, and the word of each variant. -/
theorem dispatchCommand : Obligations.DispatchCommand := by
  refine ⟨fun _ => decode_of_and_eq .dispatch, fun _ _ => rfl, fun cfg t c u =>
    ⟨dispatchOf_ute, dispatchOf_chained, fun hu hc hp => ?_⟩, fun s => ?_⟩
  swap
  · rw [exec_dispatch]
    cases dispatchOf s.cfg s.fType s.dataBytes <;> rfl
  rw [dispatchOf_by_type hu hc hp]
  refine ⟨?_, ?_, ?_, ?_, fun h1 h2 h4 => ?_⟩
  · rintro rfl
    rfl
  · rintro rfl
    rfl
  · rintro rfl rfl
    rfl
  · rintro rfl hm
    exact if_neg hm
  · rw [if_neg (show ¬t = pTypeResponse from h2), if_neg (show ¬t = pTypeEvent from h4),
      if_neg (show ¬t = pTypeRadio from h1)]

/-- Settles O46: a GENERIC, RESPONSE or EVENT packet is parsed from the cleared view (`parseStart_eq`). -/
theorem parsePlainPackets : Obligations.ParsePlainPackets := by
  refine ⟨fun s => BitVec.toNat_setWidth_of_le (by decide), fun s prof hasDir hasCmd => ⟨fun h => ?_, fun h => ?_, fun h => ?_⟩⟩
  · exact exec_parse ((parsePacket_generic h).trans parseGeneric_parseStart)
  · exact exec_parse ((parsePacket_response h).trans (parseCode_parseStart .response))
  · exact exec_parse ((parsePacket_event h).trans (parseCode_parseStart .event))

/-- Settles O47: both parses that have least lengths degrade below them, from the cleared view. -/
theorem parseDegradesShortPackets : Obligations.ParseDegradesShortPackets := by
  rintro s prof hasDir hasCmd v hv (⟨hk, hshort⟩ | ⟨rfl, hshort⟩)
  · rw [← length_dataBytes, ← length_optBytes, ← radioTooShort_iff] at hshort
    exact exec_parse (((parsePacket_radio hk hv).trans (parseRadio_short hshort)).trans degrade_parseStart)
  · rw [← length_dataBytes, ← fragTooShort_iff] at hshort
    exact exec_parse (((parsePacket_chained hv).trans (chainFeed_short hshort)).trans degrade_parseStart)

end Sys2Proof.Machine

/-! A radio-class packet's user data as bits (R160, R198, R206), and its parse (R197, R201, R202) as one update of the
state whose every part is a function of the packet, the request and the catalog. -/

namespace Sys2Proof.Machine

/-! ### Ranges of bits and bytes -/

/-- A range of bits split at a place inside it. -/
theorem bitsField_split {b : List Bool} {i j k : Nat} (hij : i ≤ j) (hjk : j ≤ k) (hk : k ≤ b.length) :
    bitsField b i k = bitsField b i j * 2 ^ (k - j) + bitsField b j k := by
  have hsplit : slice b i k = slice b i j ++ slice b j k := by
    have htake : b.take k = b.take j ++ slice b j k := by
      rw [slice, ← Nat.min_eq_left hjk, ← List.take_take, Nat.min_eq_left hjk, List.take_append_drop]
    rw [slice, htake, List.drop_append_of_le_length (by rw [List.length_take]; omega)]
    rfl
  have hlen : (slice b j k).length = k - j := by
    rw [slice, List.length_drop, List.length_take]
    omega
  rw [bitsField, hsplit, bitsToInt_append, hlen]
  rfl

/-- A range of bits, as digits of the whole sequence's integer. -/
theorem bitsField_eq {b : List Bool} {i k : Nat} (hik : i ≤ k) (hk : k ≤ b.length) :
    bitsField b i k = bitsToInt b / 2 ^ (b.length - k) % 2 ^ (k - i) := by
  have hlow := bitsToInt_lt (slice b k b.length)
  have hmid := bitsToInt_lt (slice b i k)
  have hwhole : bitsToInt b = (bitsField b 0 i * 2 ^ (k - i) + bitsField b i k) * 2 ^ (b.length - k) +
      bitsField b k b.length := by
    rw [← bitsField_split (Nat.zero_le i) hik hk, ← bitsField_split (Nat.zero_le k) hk le_rfl]
    simp [bitsField, slice]
  have hlen : (slice b k b.length).length = b.length - k := by simp [slice]
  have hlen' : (slice b i k).length = k - i := by
    rw [slice, List.length_drop, List.length_take]
    omega
  rw [hlen] at hlow
  rw [hlen'] at hmid
  rw [hwhole, Nat.add_comm, Nat.add_mul_div_right _ _ (Nat.two_pow_pos _),
    show bitsField b k b.length / 2 ^ (b.length - k) = 0 from Nat.div_eq_of_lt hlow, Nat.zero_add, Nat.add_comm,
    Nat.add_mul_mod_self_right]
  exact (Nat.mod_eq_of_lt hmid).symm

/-- The bits of a byte sequence, a byte at a time. -/
theorem getD_flatMap_byteBits {b : List Byte} {i j : Nat} (hj : j < b.length) (hi : i < 8) :
    (b.flatMap byteBits).getD (8 * j + i) false = (b.getD j 0).getLsbD (7 - i) := by
  rw [← getLsbD_bitsToBytes _ hj hi, bitsToBytes_flatMap_byteBits]

theorem slice_flatMap_byteBits {b : List Byte} {i j k : Nat} (hj : j < b.length) (hk : k ≤ 8) :
    slice (b.flatMap byteBits) (8 * j + i) (8 * j + k) = slice (byteBits (b.getD j 0)) i k := by
  induction b generalizing j with
  | nil => exact absurd hj (Nat.not_lt_zero j)
  | cons x b ih =>
    cases j with
    | zero =>
      rw [List.flatMap_cons, Nat.mul_zero, Nat.zero_add, Nat.zero_add, slice,
        List.take_append_of_le_length (by rwa [length_byteBits])]
      rfl
    | succ j =>
      rw [List.getD_cons_succ, ← ih (by simpa using hj), List.flatMap_cons, slice, slice,
        show 8 * (j + 1) + k = (byteBits x).length + (8 * j + k) by rw [length_byteBits]; omega,
        show 8 * (j + 1) + i = (byteBits x).length + (8 * j + i) by rw [length_byteBits]; omega,
        List.take_length_add_append, List.drop_length_add_append]

/-- A range of bits inside one byte. -/
theorem bitsField_flatMap_byteBits {b : List Byte} {i j k : Nat} (hj : j < b.length) (hik : i ≤ k) (hk : k ≤ 8) :
    bitsField (b.flatMap byteBits) (8 * j + i) (8 * j + k) = (b.getD j 0).toNat / 2 ^ (8 - k) % 2 ^ (k - i) := by
  have hbyte := bitsField_eq (b := byteBits (b.getD j 0)) hik (by rwa [length_byteBits])
  rw [length_byteBits, bitsToInt_byteBits] at hbyte
  rw [← hbyte, bitsField, slice_flatMap_byteBits hj hk]
  rfl

/-! ### User data -/

/-- The user-data bytes of a radio telegram, between the category and the sender (R110). -/
def userBytes (d : List Byte) : List Byte := (d.drop 1).take (d.length - 6)

/-- The bit vector of its user data (R198). -/
def userBits (d : List Byte) : List Bool := bytesToBits (userBytes d) (8 * (d.length - 6))

/-- The bit vector of its status byte (R198). -/
def statusBits (d : List Byte) : List Bool := bytesToBits [d.getD (d.length - 1) 0] 8

section
variable {d : List Byte}

@[simp] theorem length_userBytes (d : List Byte) : (userBytes d).length = d.length - 6 := by
  rw [userBytes, List.length_take, List.length_drop]
  omega

theorem userBits_eq_flatMap (d : List Byte) : userBits d = (userBytes d).flatMap byteBits := by
  rw [userBits, ← length_userBytes, bytesToBits_exact]

@[simp] theorem length_userBits (d : List Byte) : (userBits d).length = 8 * (d.length - 6) := by
  rw [userBits_eq_flatMap, length_flatMap_byteBits, length_userBytes]

@[simp] theorem length_statusBits (d : List Byte) : (statusBits d).length = 8 :=
  length_bytesToBits_of_le _ _ (by simp)

theorem getD_userBytes {j : Nat} (hj : j < d.length - 6) : (userBytes d).getD j 0 = d.getD (j + 1) 0 := by
  simp [userBytes, List.getD_eq_getElem?_getD, List.getElem?_take_of_lt hj]

theorem getD_userBits {i j : Nat} (hj : j < d.length - 6) (hi : i < 8) :
    (userBits d).getD (8 * j + i) false = (d.getD (j + 1) 0).getLsbD (7 - i) := by
  rw [userBits_eq_flatMap, getD_flatMap_byteBits (by rwa [length_userBytes]) hi, getD_userBytes hj]

/-- A range of bits inside user-data byte `m`, counted from 1 as the telegram has them (R110). -/
theorem bitsField_userBits {i k m x y : Nat} (hm : 1 ≤ m ∧ m ≤ d.length - 6) (hx : x + 8 = 8 * m + i)
    (hy : y + 8 = 8 * m + k) (hik : i ≤ k) (hk : k ≤ 8) :
    bitsField (userBits d) x y = (d.getD m 0).toNat / 2 ^ (8 - k) % 2 ^ (k - i) := by
  obtain ⟨j, rfl⟩ := Nat.exists_eq_add_of_le' hm.1
  rw [show x = 8 * j + i by omega, show y = 8 * j + k by omega, userBits_eq_flatMap,
    bitsField_flatMap_byteBits (by rw [length_userBytes]; omega) hik hk, getD_userBytes (by omega)]

end

/-! ### The field step -/

/-- What the field step selects (R202): PSEL and the records of the block the keys resolve to, when a profile is
requested and found. -/
def fieldHit (cat : List Profile) (c : Byte) (cmd : Option Byte) (req : Req) (vd vs : List Bool) :
    Option (Psel × List FieldRec) :=
  if req.prof then
    match findProfile cat c req.func req.ptype req.dir cmd with
    | .missing _ => none
    | .block x y => (catalogBlock cat x y).map fun blk => (pselOf x y, fieldDecode blk vd vs)
  else none

/-- The writes of a field step that selects a block (R202). -/
def State.select (s : State) : Option (Psel × List FieldRec) → State
  | none => s
  | some (p, recs) => (s.setPsel p).writeFields recs

theorem State.select_setView (s : State) (v : View) (hit : Option (Psel × List FieldRec)) :
    (s.setView v).select hit = (s.select hit).setView v := by
  cases hit <;> rfl

/-- The view after a field step (R202). -/
def View.stepped (v : View) (req : Req) (found : Bool) : View :=
  let w := if req.prof then v.withRequest req else v
  if found then { w with flags := { w.flags with profileFound := true } } else w

section
variable {cat : List Profile} {c : Byte} {cmd : Option Byte} {req : Req} {vd vs : List Bool}

theorem fieldHit_unrequested (h : req.prof = false) : fieldHit cat c cmd req vd vs = none := by
  simp [fieldHit, h]

theorem fieldHit_missing {l : Nat} (h : findProfile cat c req.func req.ptype req.dir cmd = .missing l) :
    fieldHit cat c cmd req vd vs = none := by
  simp [fieldHit, h]

theorem fieldHit_block {x y : Nat} {blk : DataBlock} (hp : req.prof = true)
    (h : findProfile cat c req.func req.ptype req.dir cmd = .block x y) (hb : catalogBlock cat x y = some blk) :
    fieldHit cat c cmd req vd vs = some (pselOf x y, fieldDecode blk vd vs) := by
  simp [fieldHit, hp, h, hb]

/-- The field step selects what it finds and shows whether it did. -/
theorem fieldStep_eq (s : State) (c : Byte) (cmd : Option Byte) (req : Req) {hit : Option (Psel × List FieldRec)}
    (hhit : hit = fieldHit s.cfg.catalog c cmd req s.dataBits s.statBits) :
    fieldStep c cmd req s = (s.select hit).setView (s.view.stepped req hit.isSome) := by
  subst hhit
  unfold fieldStep
  by_cases hp : req.prof = true
  · cases hfound : findProfile s.cfg.catalog c req.func req.ptype req.dir cmd with
    | missing l =>
      simp only [fieldHit_missing hfound, hp, if_true, View.stepped]
      rfl
    | block x y =>
      obtain ⟨_, blk, _, _, _, _, _, hblk⟩ := findProfile_block hfound
      simp only [fieldHit_block hp hfound hblk, hp, if_true, hblk, View.stepped, Option.isSome_some]
      rfl
  · rw [Bool.not_eq_true] at hp
    simp only [fieldHit_unrequested hp, hp, View.stepped]
    rfl

end

/-! ### The view of a radio-class packet -/

/-- The view with every register blank that the rows of R206 write. -/
def View.attributes (v : View) : View :=
  { v with
    func := 0, vtype := 0, manuf := 0, uteReq := 0, uteChannel := 0, uteRorg := 0
    flags :=
      { v.flags with
        learn := false, containsEep := false, ftValid := false, manufValid := false, unidir := false
        respExpected := false } }

section
variable (c : Byte) (u : Nat) (d : List Byte) (b : List Bool) (v : View)

@[simp] theorem attributes_setLearn (x : Bool) : (v.setLearn x).attributes = v.attributes := rfl

@[simp] theorem attributes_learnRow : (learnRow c u b v).attributes = v.attributes := by
  unfold learnRow
  split <;> rfl

@[simp] theorem attributes_eepRow : (eepRow c u b v).attributes = v.attributes := by
  unfold eepRow
  split <;> rfl

@[simp] theorem attributes_identityRow : (identityRow c u b v).attributes = v.attributes := by
  unfold identityRow
  split <;> rfl

@[simp] theorem attributes_mscRow : (mscRow c u b v).attributes = v.attributes := by
  unfold mscRow
  split <;> rfl

@[simp] theorem attributes_uteRow : (uteRow c d b v).attributes = v.attributes := by
  unfold uteRow
  split <;> rfl

@[simp] theorem attributes_subFields : (subFields d u b v).attributes = v.attributes := by simp [subFields]

end

section
variable {v : View}

theorem View.withCommand_eq (hcmd : v.cmd = 0) (hvalid : v.flags.cmdValid = false) (cmd : Option Byte) :
    v.withCommand cmd = { v with cmd := cmd.getD 0, flags := { v.flags with cmdValid := cmd.isSome } } := by
  cases cmd with
  | some x => rfl
  | none =>
    have hflags : { v.flags with cmdValid := false } = v.flags := by rw [← hvalid]
    simp only [View.withCommand, Option.getD_none, Option.isSome_none, hflags, ← hcmd]

theorem View.stepped_eq (hfound : v.flags.profileFound = false) (req : Req) (found : Bool) :
    v.stepped req found =
      { v with
        func := if req.prof && !v.flags.ftValid then req.func else v.func
        vtype := if req.prof && !v.flags.ftValid then req.ptype else v.vtype
        flags := { v.flags with profileFound := found } } := by
  have hkeys : (if req.prof then v.withRequest req else v) =
      { v with
        func := if req.prof && !v.flags.ftValid then req.func else v.func
        vtype := if req.prof && !v.flags.ftValid then req.ptype else v.vtype } := by
    unfold View.withRequest
    cases req.prof <;> cases v.flags.ftValid <;> rfl
  unfold View.stepped
  rw [hkeys]
  cases found with
  | true => rfl
  | false =>
    have hflags : { v.flags with profileFound := false } = v.flags := by rw [← hfound]
    simp only [hflags]
    rfl

end

/-- A radio-class packet's view once the rows of R206 are applied. -/
def radioRows (t : Byte) (d o : List Byte) : View :=
  subFields d (d.length - 6) (userBits d) ((radioAttributes t d o View.cleared).setLearn true)

/-- A radio-class packet's command (R201). -/
def radioCommand (d : List Byte) (req : Req) : Option Byte := commandOf (category d) (d.length - 6) (userBits d) req

/-- What its field step selects. -/
def radioHit (cat : List Profile) (d : List Byte) (req : Req) : Option (Psel × List FieldRec) :=
  fieldHit cat (category d) (radioCommand d req) req (userBits d) (statusBits d)

/-- Its view (R197): the rows', with the command, with the request's keys where the telegram gave none, and whether a
profile was found. -/
def radioView (v : Variant) (t : Byte) (d o : List Byte) (req : Req) (found : Bool) : View :=
  { radioRows t d o with
    variant := v
    func := if req.prof && !(radioRows t d o).flags.ftValid then req.func else (radioRows t d o).func
    vtype := if req.prof && !(radioRows t d o).flags.ftValid then req.ptype else (radioRows t d o).vtype
    cmd := (radioCommand d req).getD 0
    flags :=
      { (radioRows t d o).flags with cmdValid := (radioCommand d req).isSome, profileFound := found } }

section
variable (t : Byte) (d o : List Byte)

theorem attributes_radioRows : (radioRows t d o).attributes = (radioAttributes t d o View.cleared).attributes := by
  simp [radioRows]

theorem radioDone_radioRows : RadioDone (category d) (radioRows t d o) :=
  RadioView.subFields d _ _ ((RadioView.attributes t d o).setLearn true) ⟨rfl, rfl, rfl⟩

theorem radioView_eq (v : Variant) (req : Req) (found : Bool) :
    radioView v t d o req found =
      { ((radioRows t d o).withCommand (radioCommand d req)).stepped req found with variant := v } := by
  have hattr := attributes_radioRows t d o
  have hcmd : (radioRows t d o).cmd = 0 := congrArg View.cmd hattr
  have hvalid : (radioRows t d o).flags.cmdValid = false := congrArg (·.flags.cmdValid) hattr
  have hfound : (radioRows t d o).flags.profileFound = false := congrArg (·.flags.profileFound) hattr
  rw [View.withCommand_eq hcmd hvalid, View.stepped_eq (by exact hfound)]
  rfl

end

/-! ### The parse -/

/-- LoadBits as one update (R198). -/
theorem State.loadBits_eq (s : State) (d : List Byte) :
    s.loadBits d =
      { s with
        bvData := Store.writeList s.bvData 0 (userBits d), bvDlen := 8 * (d.length - 6)
        bvStat := Store.writeList s.bvStat 0 (statusBits d), bvSlen := 8 } := by
  have hload : s.loadBits d = (s.setBvData (userBits d)).setBvStat (statusBits d) := by
    rw [State.loadBits, slice_add]
    rfl
  rw [hload, State.setBvStat, State.setBvData, length_userBits, length_statusBits]

theorem State.Inv.dataBits_loadBits {s : State} (h : s.Inv) (d : List Byte) : (s.loadBits d).dataBits = userBits d := by
  rw [s.loadBits_eq, State.dataBits, ← length_userBits]
  exact Store.readList_writeList s.bvData h.bvDataWf 0 (userBits d)

theorem State.Inv.statBits_loadBits {s : State} (h : s.Inv) (d : List Byte) :
    (s.loadBits d).statBits = statusBits d := by
  rw [s.loadBits_eq, State.statBits, ← length_statusBits d]
  exact Store.readList_writeList s.bvStat h.bvStatWf 0 (statusBits d)

/-- V_VARIANT <- v (R197). -/
def State.setVariant (s : State) (v : Variant) : State := s.setView { s.view with variant := v }

/-- What the parse of a radio-class packet leaves (R197). -/
def State.showRadio (s : State) (v : Variant) (t : Byte) (d o : List Byte) (req : Req) : State :=
  (((s.parseStart req).loadBits d).select (radioHit s.cfg.catalog d req)).setView
    (radioView v t d o req (radioHit s.cfg.catalog d req).isSome)

section
variable {s : State} {v : Variant} {t : Byte} {d o : List Byte} {req : Req}

/-- The steps of ParseRadio, each on the vectors LoadBits leaves (R197). -/
theorem parseRadioFull_steps {b : List Bool} {cmd : Option Byte} (hb : b = (s.loadBits d).dataBits)
    (hcmd : cmd = commandOf (category d) (d.length - 6) b req) :
    parseRadioFull v t d o req s =
      (fieldStep (category d) cmd req
        ((s.loadBits d).setView
          ((subFields d (d.length - 6) b ((radioAttributes t d o s.view).setLearn true)).withCommand cmd))).setVariant
        v := by
  subst hb hcmd
  rfl

theorem parseRadioFull_eq (h : s.Inv) (hv : s.view = View.cleared) :
    parseRadioFull v t d o req s =
      ((s.loadBits d).select (radioHit s.cfg.catalog d req)).setView
        (radioView v t d o req (radioHit s.cfg.catalog d req).isSome) := by
  have hhit : radioHit s.cfg.catalog d req =
      fieldHit s.cfg.catalog (category d) (radioCommand d req) req (s.loadBits d).dataBits (s.loadBits d).statBits := by
    rw [h.dataBits_loadBits, h.statBits_loadBits]
    rfl
  rw [parseRadioFull_steps (h.dataBits_loadBits d).symm rfl, hv, fieldStep_eq _ _ _ _ hhit, radioView_eq,
    State.select_setView]
  rfl

/-- The parse of a radio-class packet that is long enough. -/
theorem parsePacket_long (h : s.Inv) (hk : v = .radio ∨ v = .msc ∨ v = .ute) (hv : dispatchOf s.cfg t d = v)
    (hlong : radioTooShort v d o = false) : parsePacket t d o req s = (s.showRadio v t d o req, .ok) := by
  rw [parsePacket_radio hk hv, parseRadio, hlong, if_neg Bool.false_ne_true,
    parseRadioFull_eq (h.parseStart req) (s.parseStart_view req), s.parseStart_cfg]
  rfl

end

end Sys2Proof.Machine

/-! PARSE of a radio-class packet (R192, R193, R197 to R206): the registers of its attributes, of its sub-fields as digits
of its data bytes, and of its field step. -/

namespace Sys2Proof.Machine

/-! ### What PARSE leaves -/

section
variable {s : State} {v : Variant} {t : Byte} {d o : List Byte} {req : Req}

/-- With nothing selected, the parse leaves the view and the bit vectors. -/
theorem State.showRadio_of_none (h : radioHit s.cfg.catalog d req = none) :
    s.showRadio v t d o req =
      { s with
        view := radioView v t d o req false, nfields := 0, psel := s.pselAfter req.prof
        bvData := Store.writeList s.bvData 0 (userBits d), bvDlen := 8 * (d.length - 6)
        bvStat := Store.writeList s.bvStat 0 (statusBits d), bvSlen := 8 } := by
  rw [State.showRadio, h, State.loadBits_eq, State.parseStart_eq]
  rfl

/-- With a block selected, it leaves PSEL and the field table as well. -/
theorem State.showRadio_of_some {p : Psel} {recs : List FieldRec} (h : radioHit s.cfg.catalog d req = some (p, recs)) :
    s.showRadio v t d o req =
      { s with
        view := radioView v t d o req true, nfields := min recs.length s.cfg.fieldCap, psel := p
        ft := Store.writeList s.ft 0 (recs.take s.cfg.fieldCap)
        bvData := Store.writeList s.bvData 0 (userBits d), bvDlen := 8 * (d.length - 6)
        bvStat := Store.writeList s.bvStat 0 (statusBits d), bvSlen := 8
        status := { s.status with fldovf := s.status.fldovf || decide (s.cfg.fieldCap < recs.length) } } := by
  rw [State.showRadio, h, State.loadBits_eq, State.parseStart_eq]
  rfl

section
variable {r : State} (hr : r = s.showRadio v t d o req)
include hr

/-- What the parse of a radio-class packet leaves alone, whatever it selects. -/
theorem State.showRadio_frame :
    r =
      { s with
        view := r.view, nfields := r.nfields, ft := r.ft, psel := r.psel
        bvData := r.bvData, bvDlen := 8 * (d.length - 6), bvStat := r.bvStat, bvSlen := 8
        status := { s.status with fldovf := r.status.fldovf } } := by
  subst hr
  rcases h : radioHit s.cfg.catalog d req with _ | ⟨p, recs⟩
  · rw [State.showRadio_of_none h]
  · rw [State.showRadio_of_some h]

theorem State.showRadio_view : r.view = radioView v t d o req (radioHit s.cfg.catalog d req).isSome := by
  rw [hr]
  rfl

theorem State.showRadio_bvData : r.bvData = Store.writeList s.bvData 0 (userBits d) := by
  rcases h : radioHit s.cfg.catalog d req with _ | ⟨p, recs⟩
  · rw [hr, State.showRadio_of_none h]
  · rw [hr, State.showRadio_of_some h]

theorem State.showRadio_bvStat : r.bvStat = Store.writeList s.bvStat 0 (statusBits d) := by
  rcases h : radioHit s.cfg.catalog d req with _ | ⟨p, recs⟩
  · rw [hr, State.showRadio_of_none h]
  · rw [hr, State.showRadio_of_some h]

theorem State.Inv.dataBits_showRadio (h : s.Inv) : r.dataBits = userBits d := by
  have hlen : r.bvDlen = (userBits d).length := (congrArg State.bvDlen (State.showRadio_frame hr)).trans (by simp)
  rw [State.dataBits, State.showRadio_bvData hr, hlen]
  exact Store.readList_writeList s.bvData h.bvDataWf 0 (userBits d)

theorem State.Inv.statBits_showRadio (h : s.Inv) : r.statBits = statusBits d := by
  have hlen : r.bvSlen = (statusBits d).length := (congrArg State.bvSlen (State.showRadio_frame hr)).trans (by simp)
  rw [State.statBits, State.showRadio_bvStat hr, hlen]
  exact Store.readList_writeList s.bvStat h.bvStatWf 0 (statusBits d)

/-- Bits past the user data keep their values. -/
theorem State.showRadio_bvData_past {x : Nat} (hx : 8 * (d.length - 6) ≤ x) :
    Store.read r.bvData x = Store.read s.bvData x := by
  rw [State.showRadio_bvData hr]
  exact Store.read_writeList_past _ _ (by rwa [length_userBits])

end

theorem State.holdsRadio.not_short (h : s.holdsRadio v) : radioTooShort v s.dataBytes s.optBytes = false := by
  obtain ⟨-, -, hd, ho, hu⟩ := h
  rw [← Bool.not_eq_true, radioTooShort_iff, length_dataBytes, length_optBytes]
  rintro (hd' | ho' | ⟨hv, hd'⟩)
  · omega
  · omega
  · exact absurd (hu hv) (by omega)

/-- PARSE of a radio-class packet ends OK with the state its parse leaves (R192). -/
theorem exec_parse_radio (hinv : s.Inv) (hr : s.holdsRadio v) (prof hasDir hasCmd : Bool) {r : State}
    (h : r = s.showRadio v s.fType s.dataBytes s.optBytes (reqOfArg prof hasDir hasCmd s.arg0)) :
    exec (.parse prof hasDir hasCmd) s = .next { r with res0 := v.word, status := r.status.endedOk .ok } := by
  subst h
  exact exec_parse (parsePacket_long hinv hr.1 hr.2.1 hr.not_short)

end

/-! ### The attributes -/

/-- Four address bytes shown as a word are its bytes (R60, R84). -/
theorem bytes4_addrWord {b : List Byte} (h : b.length = 4) : bytes4 (addrWord b) = b := by
  match b, h with
  | [w, x, y, z], _ =>
    have hw := w.isLt
    have hx := x.isLt
    have hy := y.isLt
    have hz := z.isLt
    have hword : (addrWord [w, x, y, z]).toNat = ((w.toNat * 256 + x.toNat) * 256 + y.toNat) * 256 + z.toNat := by
      simp only [addrWord, combine, List.foldl, BitVec.toNat_ofNat]
      omega
    simp only [bytes4, List.cons.injEq, and_true]
    refine ⟨?_, ?_, ?_, ?_⟩ <;> apply BitVec.eq_of_toNat_eq <;>
      rw [BitVec.extractLsb'_toNat, hword, Nat.shiftRight_eq_div_pow] <;> omega

/-- A byte's negation as a signed word (R59). -/
theorem toInt_neg_zextByte (b : Byte) : (-zextByte b).toInt = -(b.toNat : Int) := by
  have hb := b.isLt
  have hz : (zextByte b).toNat = b.toNat := toNat_zextByte b
  rw [BitVec.toInt_neg, BitVec.toInt_eq_toNat_bmod, hz]
  simp only [Int.bmod]
  omega

theorem some_getD {α : Type} {l : List α} {i : Nat} (h : i < l.length) (x : α) : some (l.getD i x) = l[i]? := by
  rw [List.getD_eq_getElem _ _ h, List.getElem?_eq_getElem h]

/-- The attributes at their fixed offsets (R197), which the rows of R206 keep. -/
theorem radioRows_attributes (t : Byte) {d o : List Byte} (hd : 6 ≤ d.length) (ho : 6 ≤ o.length) :
    some (radioRows t d o).rorg = d[0]? ∧ bytes4 (radioRows t d o).sender = (d.drop (d.length - 5)).take 4 ∧
      some (radioRows t d o).statb = d[d.length - 1]? ∧ bytes4 (radioRows t d o).dest = (o.drop 1).take 4 ∧
      (radioRows t d o).dbm.toInt = -((o.getD 5 0).toNat : Int) := by
  have hattr := attributes_radioRows t d o
  have hrorg : (radioRows t d o).rorg = d.getD 0 0 := congrArg View.rorg hattr
  have hsender : (radioRows t d o).sender = addrWord ((d.drop (d.length - 5)).take 4) := by
    rw [← slice_add, show d.length - 5 + 4 = d.length - 1 by omega]
    exact congrArg View.sender hattr
  have hstatb : (radioRows t d o).statb = d.getD (d.length - 1) 0 := congrArg View.statb hattr
  have hdest : (radioRows t d o).dest = addrWord ((o.drop 1).take 4) := by
    rw [← slice_add]
    exact congrArg View.dest hattr
  have hdbm : (radioRows t d o).dbm = -zextByte (o.getD 5 0) := congrArg View.dbm hattr
  rw [hrorg, hsender, hstatb, hdest, hdbm]
  refine ⟨some_getD (by omega) 0, bytes4_addrWord ?_, some_getD (by omega) 0, bytes4_addrWord ?_,
    toInt_neg_zextByte _⟩ <;> rw [List.length_take, List.length_drop] <;> omega

/-- Settles O48: the attributes of the rows' view (`radioRows_attributes`), the two bit vectors, and the frame of the
parse (`showRadio_frame`). -/
theorem parseRadioAttributes : Obligations.ParseRadioAttributes := by
  refine ⟨fun s => ⟨?_, BitVec.toNat_setWidth_of_le (by decide), BitVec.toNat_setWidth_of_le (by decide),
    BitVec.toNat_setWidth_of_le (by decide), rfl, rfl, rfl⟩, ?_⟩
  · show s.view.variant.word = _
    cases s.view.variant <;> rfl
  rintro s prof hasDir hasCmd v d o hinv hr rfl rfl
  obtain ⟨-, -, hd, ho, -⟩ := id hr
  rw [← length_dataBytes] at hd
  rw [← length_optBytes] at ho
  obtain ⟨hrorg, hsender, hstat, hdest, hdbm⟩ := radioRows_attributes s.fType hd ho
  have hattr := attributes_radioRows s.fType s.dataBytes s.optBytes
  have htype : (radioRows s.fType s.dataBytes s.optBytes).ptype = s.fType := congrArg View.ptype hattr
  have hstatb : (radioRows s.fType s.dataBytes s.optBytes).statb = s.dataBytes.getD (s.dataBytes.length - 1) 0 :=
    congrArg View.statb hattr
  have hdone := radioDone_radioRows s.fType s.dataBytes s.optBytes
  obtain ⟨r, hshow⟩ :=
    exists_eq (a' := s.showRadio v s.fType s.dataBytes s.optBytes (reqOfArg prof hasDir hasCmd s.arg0))
  have hview := State.showRadio_view hshow
  have hdata := hinv.dataBits_showRadio hshow
  have hstatus := hinv.statBits_showRadio hshow
  refine ⟨_, exec_parse_radio hinv hr prof hasDir hasCmd hshow,
    congrArg (fun x : State => { x with res0 := v.word, status := x.status.endedOk .ok })
      (State.showRadio_frame hshow), ?_⟩
  dsimp only
  rw [hview]
  refine ⟨rfl, htype, hrorg, hsender, hstat, hdest, hdbm, hdone.code, hdone.chainValid, hdone.degraded,
    hdata, ?_, fun x => State.showRadio_bvData_past hshow, fun hp => ?_⟩
  · exact hstatus.trans (congrArg (fun x => bytesToBits [x] 8) hstatb).symm
  · subst hp
    rw [hshow, State.showRadio_of_none (fieldHit_unrequested rfl)]
    exact ⟨rfl, rfl, rfl, by rw [radioHit, fieldHit_unrequested rfl]; rfl, rfl⟩

end Sys2Proof.Machine

/-! ### The field step of a PARSE that requests a profile -/

namespace Sys2Proof.Machine

/-- An option, read back from whether it is present and its value. -/
theorem ite_isSome_getD {α : Type} (x : Option α) (y : α) : (if x.isSome then some (x.getD y) else none) = x := by
  cases x <;> rfl

/-- Settles O50: the keys read from the view are the packet's own, so the search is the field step's, and its two
results are `showRadio_of_none` and `showRadio_of_some`. -/
theorem parseFieldStep : Obligations.ParseFieldStep := by
  intro s t hasDir hasCmd v found hinv hr ht hfound
  obtain ⟨req, hreq⟩ := exists_eq (a' := reqOfArg true hasDir hasCmd s.arg0)
  obtain ⟨r, hshow⟩ := exists_eq (a' := s.showRadio v s.fType s.dataBytes s.optBytes req)
  rw [exec_parse_radio hinv hr true hasDir hasCmd (hreq ▸ hshow), Host.Outcome.next.injEq] at ht
  have hdata := hinv.dataBits_showRadio hshow
  have hstat := hinv.statBits_showRadio hshow
  have hrorg : (radioRows s.fType s.dataBytes s.optBytes).rorg = category s.dataBytes :=
    (radioDone_radioRows s.fType s.dataBytes s.optBytes).rorg
  have hsearch : found = findProfile s.cfg.catalog (category s.dataBytes) req.func req.ptype req.dir
      (radioCommand s.dataBytes req) := by
    rw [hfound, ← hrorg, ← ite_isSome_getD (radioCommand s.dataBytes req) 0, ← ht, hshow, hreq]
    rfl
  subst ht
  refine ⟨?_, ?_⟩
  · rintro l rfl
    rw [hshow, State.showRadio_of_none (fieldHit_missing hsearch.symm), hreq]
    exact ⟨rfl, rfl, rfl, rfl, rfl, rfl⟩
  · rintro x y rfl
    obtain ⟨_, blk, _, _, _, _, _, hblk⟩ := findProfile_block hsearch.symm
    obtain ⟨hx, hy⟩ := Cfg.catalogLegal_bounds (Cfg.legal_catalog hinv.cfgLegal) hblk
    have hhit : radioHit s.cfg.catalog s.dataBytes req =
        some (pselOf x y, fieldDecode blk (userBits s.dataBytes) (statusBits s.dataBytes)) :=
      fieldHit_block (hreq ▸ rfl) hsearch.symm hblk
    rw [← hdata, ← hstat] at hhit
    generalize hout : fieldDecode blk r.dataBits r.statBits = out at hhit
    refine ⟨blk, out, hblk, hout.symm, ?_⟩
    rw [hshow, State.showRadio_of_some hhit]
    exact ⟨word_pselOf hx hy, rfl, fun k => hinv.read_writeFields out, fun k => s.read_writeFields_past out, rfl, rfl,
      rfl⟩

end Sys2Proof.Machine

/-! The sub-fields of a radio-class packet (R199, R201, R205, R206): each row of the table as digits of the data bytes. -/

namespace Sys2Proof.Machine

/-! ### Which row decides what -/

section
variable {d : List Byte} {u : Nat} {b : List Bool} {v : View}

theorem learn_subFields : (subFields d u b v).flags.learn = (learnRow (category d) u b v).flags.learn := by
  simp only [subFields, uteRow, mscRow, identityRow, eepRow, apply_ite View.flags, apply_ite VFlags.learn, ite_self]

theorem containsEep_subFields (hv : v.flags.containsEep = false) : (subFields d u b v).flags.containsEep =
    (decide (category d = pRorg4bs ∧ 3 ≤ u) && (subFields d u b v).flags.learn && b.getD (8 * u - 8) false) := by
  have hlast : (subFields d u b v).flags.containsEep =
      (eepRow (category d) u b (learnRow (category d) u b v)).flags.containsEep := by
    simp only [subFields, uteRow, mscRow, identityRow, apply_ite View.flags, apply_ite VFlags.containsEep, ite_self]
  have hnone : (learnRow (category d) u b v).flags.containsEep = false := by
    rw [← hv, ← ite_self (c := category d ∈ pLearnBitRorgs ∧ 1 ≤ u) v.flags.containsEep]
    simp only [learnRow, apply_ite View.flags, apply_ite VFlags.containsEep]
    rfl
  rw [hlast, learn_subFields, eepRow]
  split
  · rename_i h
    rw [decide_eq_true ⟨h.1, h.2.1⟩, h.2.2]
    rfl
  · rename_i h
    have hoff : (decide (category d = pRorg4bs ∧ 3 ≤ u) && (learnRow (category d) u b v).flags.learn) = false := by
      simpa [and_assoc] using h
    rw [hnone, hoff, Bool.false_and]

theorem subFields_of_4bs (hc : category d = pRorg4bs) :
    subFields d u b v = identityRow pRorg4bs u b (eepRow pRorg4bs u b (learnRow pRorg4bs u b v)) := by
  rw [subFields, hc]
  exact (if_neg (by decide)).trans (if_neg fun h => absurd h.1 (by decide))

theorem flags_identityRow {c : Byte} : (identityRow c u b v).flags.learn = v.flags.learn ∧
    (identityRow c u b v).flags.containsEep = v.flags.containsEep := by
  unfold identityRow
  split <;> exact ⟨rfl, rfl⟩

/-- CONTAINS_EEP is set only together with the identity (R206). -/
theorem subFields_identity (hv : v.flags.containsEep = false) (h : (subFields d u b v).flags.containsEep = true) :
    3 ≤ u ∧ (subFields d u b v).func = BitVec.ofNat 8 (bitsField b 0 6) ∧
      (subFields d u b v).vtype = BitVec.ofNat 8 (bitsField b 6 13) ∧
      (subFields d u b v).manuf = BitVec.ofNat 11 (bitsField b 13 24) := by
  have hrow := h
  rw [containsEep_subFields hv, Bool.and_eq_true, Bool.and_eq_true, decide_eq_true_eq] at hrow
  obtain ⟨⟨⟨hc, hu⟩, hlearn⟩, -⟩ := hrow
  rw [subFields_of_4bs hc] at h hlearn ⊢
  rw [flags_identityRow.1] at hlearn
  rw [flags_identityRow.2] at h
  rw [identityRow, if_pos ⟨rfl, hu, hlearn, h⟩]
  exact ⟨hu, rfl, rfl, rfl⟩

theorem subFields_of_msc (hc : category d = pRorgMsc) : subFields d u b v = mscRow pRorgMsc u b v := by
  have hlearn : learnRow pRorgMsc u b v = v := if_neg fun h => absurd h.1 (by decide)
  have heep (w : View) : eepRow pRorgMsc u b w = w := if_neg fun h => absurd h.1 (by decide)
  have hid (w : View) : identityRow pRorgMsc u b w = w := if_neg fun h => absurd h.1 (by decide)
  rw [subFields, hc, hlearn, heep, hid]
  exact if_neg (by decide)

/-- The UTE row overwrites what any row before it wrote (R206). -/
theorem subFields_of_ute (hc : category d = pRorgUte) :
    ∃ w, subFields d u b v = uteRow pRorgUte d b w := by
  rw [subFields, hc]
  exact ⟨_, rfl⟩

theorem keys_identityRow {c : Byte} (h : (identityRow c u b v).flags.ftValid = false) :
    (identityRow c u b v).func = v.func ∧ (identityRow c u b v).vtype = v.vtype := by
  unfold identityRow at h ⊢
  split at h
  · cases h
  · rename_i hc
    rw [if_neg hc]
    exact ⟨rfl, rfl⟩

theorem keys_uteRow {c : Byte} (h : (uteRow c d b v).flags.ftValid = false) : uteRow c d b v = v := by
  unfold uteRow at h ⊢
  split at h
  · cases h
  · rename_i hc
    exact if_neg hc

/-- A telegram that gave no function and type left the registers as they were (R63). -/
theorem keys_subFields (h : (subFields d u b v).flags.ftValid = false) :
    (subFields d u b v).func = v.func ∧ (subFields d u b v).vtype = v.vtype := by
  unfold subFields at h ⊢
  dsimp only at h ⊢
  have hute := keys_uteRow h
  rw [hute] at h
  rw [hute]
  have hid : (identityRow (category d) u b (eepRow (category d) u b (learnRow (category d) u b v))).flags.ftValid =
      false := by
    unfold mscRow at h
    split at h <;> exact h
  obtain ⟨hf, ht⟩ := keys_identityRow hid
  simp only [mscRow, apply_ite View.func, apply_ite View.vtype, ite_self, hf, ht]
  simp only [eepRow, learnRow, View.setLearn, apply_ite View.func, apply_ite View.vtype, ite_self, and_self]

end

/-! ### The rows on the packet's own bits -/

section
variable {t : Byte} {d o : List Byte}

/-- The bits of DB0, the last user-data byte (R206). -/
theorem userBits_db0 (hu : 1 ≤ d.length - 6) {i : Nat} (hi : 1 ≤ i) (hi' : i ≤ 8) :
    (userBits d).getD (8 * (d.length - 6) - i) false = (d.getD (d.length - 6) 0).getLsbD (i - 1) := by
  have hbit := getD_userBits (d := d) (j := d.length - 7) (i := 8 - i) (by omega) (by omega)
  rw [show 8 * (d.length - 6) - i = 8 * (d.length - 7) + (8 - i) by omega, hbit,
    show d.length - 7 + 1 = d.length - 6 by omega, show 7 - (8 - i) = i - 1 by omega]

theorem radioRows_learn : (radioRows t d o).flags.learn =
    if (category d = 0xD5 ∨ category d = 0xA5) ∧ 1 ≤ d.length - 6 then !(d.getD (d.length - 6) 0).getLsbD 3
    else true := by
  have hmem : category d ∈ pLearnBitRorgs ↔ category d = 0xD5 ∨ category d = 0xA5 := by
    simp [pLearnBitRorgs, pRorg1bs, pRorg4bs]
  rw [radioRows, learn_subFields, learnRow]
  simp only [hmem]
  by_cases h : (category d = 0xD5 ∨ category d = 0xA5) ∧ 1 ≤ d.length - 6
  · rw [if_pos h, if_pos h, ← userBits_db0 h.2 (i := 4) (by decide) (by decide)]
    rfl
  · rw [if_neg h, if_neg h]
    rfl

theorem radioRows_containsEep : (radioRows t d o).flags.containsEep =
    (decide (category d = 0xA5) && decide (3 ≤ d.length - 6) && !(d.getD (d.length - 6) 0).getLsbD 3 &&
      (d.getD (d.length - 6) 0).getLsbD 7) := by
  rw [radioRows, containsEep_subFields rfl, ← radioRows, radioRows_learn]
  by_cases hc : category d = 0xA5 ∧ 3 ≤ d.length - 6
  · have hlearns : (category d = 0xD5 ∨ category d = 0xA5) ∧ 1 ≤ d.length - 6 := ⟨.inr hc.1, by omega⟩
    rw [← userBits_db0 hlearns.2 (i := 8) (by decide) (by decide), if_pos hlearns, ← Bool.decide_and]
    rfl
  · rw [← Bool.decide_and, decide_eq_false hc]
    exact congrArg (fun x => x && _ && _) (decide_eq_false hc)

/-- The identity of a 4BS teach-in, by its bytes: 6 bits of function, 7 of type, 11 of manufacturer (R206). -/
theorem radioRows_identity (h : (radioRows t d o).flags.containsEep = true) :
    (radioRows t d o).func.toNat = (d.getD 1 0).toNat / 4 ∧
      (radioRows t d o).vtype.toNat = (d.getD 1 0).toNat % 4 * 32 + (d.getD 2 0).toNat / 8 ∧
      (radioRows t d o).manuf.toNat = (d.getD 2 0).toNat % 8 * 256 + (d.getD 3 0).toNat := by
  obtain ⟨hu, hfunc, htype, hmanuf⟩ := subFields_identity rfl h
  have h1 := (d.getD 1 0).isLt
  have h2 := (d.getD 2 0).isLt
  have h3 := (d.getD 3 0).isLt
  refine ⟨(congrArg BitVec.toNat hfunc).trans ?_, (congrArg BitVec.toNat htype).trans ?_,
    (congrArg BitVec.toNat hmanuf).trans ?_⟩
  · rw [bitsField_userBits (m := 1) (i := 0) (k := 6) (by omega) rfl rfl (by decide) (by decide), BitVec.toNat_ofNat]
    omega
  · rw [bitsField_split (j := 8) (by decide) (by decide) (by rw [length_userBits]; omega),
      bitsField_userBits (m := 1) (i := 6) (k := 8) (by omega) rfl rfl (by decide) (by decide),
      bitsField_userBits (m := 2) (i := 0) (k := 5) (by omega) rfl rfl (by decide) (by decide), BitVec.toNat_ofNat]
    omega
  · rw [bitsField_split (j := 16) (by decide) (by decide) (by rw [length_userBits]; omega),
      bitsField_userBits (m := 2) (i := 5) (k := 8) (by omega) rfl rfl (by decide) (by decide),
      bitsField_userBits (m := 3) (i := 0) (k := 8) (by omega) rfl rfl (by decide) (by decide), BitVec.toNat_ofNat]
    omega

/-- The 11 bits of an MSC packet's manufacturer, by its bytes (R206). -/
theorem radioRows_msc (hc : category d = pRorgMsc) (hu : 2 ≤ d.length - 6) :
    (radioRows t d o).flags.manufValid = true ∧
      (radioRows t d o).manuf.toNat = (d.getD 1 0).toNat * 8 + (d.getD 2 0).toNat / 32 := by
  have h1 := (d.getD 1 0).isLt
  have h2 := (d.getD 2 0).isLt
  rw [radioRows, subFields_of_msc hc, mscRow, if_pos ⟨rfl, hu⟩]
  refine ⟨rfl, ?_⟩
  rw [bitsField_split (j := 8) (by decide) (by decide) (by rw [length_userBits]; omega),
    bitsField_userBits (m := 1) (i := 0) (k := 8) (by omega) rfl rfl (by decide) (by decide),
    bitsField_userBits (m := 2) (i := 0) (k := 3) (by omega) rfl rfl (by decide) (by decide), BitVec.toNat_ofNat]
  omega

/-- A UTE teach-in's fields, by its bytes (R206). -/
theorem radioRows_ute (hc : category d = pRorgUte) (hd : 13 ≤ d.length) :
    (radioRows t d o).flags.unidir = (!(d.getD 1 0).getLsbD 7) ∧
      (radioRows t d o).flags.respExpected = (!(d.getD 1 0).getLsbD 6) ∧
      (radioRows t d o).uteReq.toNat = (d.getD 1 0).toNat / 16 % 4 ∧ some (radioRows t d o).uteChannel = d[2]? ∧
      (radioRows t d o).manuf.toNat = (d.getD 4 0).toNat % 8 * 256 + (d.getD 3 0).toNat ∧
      some (radioRows t d o).vtype = d[5]? ∧ some (radioRows t d o).func = d[6]? ∧
      some (radioRows t d o).uteRorg = d[7]? := by
  have h3 := (d.getD 3 0).isLt
  obtain ⟨w, hw⟩ := subFields_of_ute (d := d) (u := d.length - 6) (b := userBits d)
    (v := (radioAttributes t d o View.cleared).setLearn true) hc
  rw [radioRows, hw, uteRow, if_pos rfl]
  refine ⟨congrArg (!·) (getD_userBits (j := 0) (i := 0) (by omega) (by decide)),
    congrArg (!·) (getD_userBits (j := 0) (i := 1) (by omega) (by decide)), ?_, some_getD (by omega) 0, ?_,
    some_getD (by omega) 0, some_getD (by omega) 0, some_getD (by omega) 0⟩
  · show (BitVec.ofNat 2 (bitsField (userBits d) 2 4)).toNat = _
    rw [bitsField_userBits (m := 1) (i := 2) (k := 4) (by omega) rfl rfl (by decide) (by decide), BitVec.toNat_ofNat]
    omega
  · have hlow : (slice (userBits d) 16 24).length = 8 := by
      rw [slice, List.length_drop, List.length_take, length_userBits]
      omega
    have hhigh : bitsToInt (slice (userBits d) 29 32) = _ :=
      bitsField_userBits (m := 4) (i := 5) (k := 8) (by omega) rfl rfl (by decide) (by decide)
    have hbyte : bitsToInt (slice (userBits d) 16 24) = _ :=
      bitsField_userBits (m := 3) (i := 0) (k := 8) (by omega) rfl rfl (by decide) (by decide)
    show (BitVec.ofNat 11 (bitsToInt (slice (userBits d) 29 32 ++ slice (userBits d) 16 24))).toNat = _
    rw [bitsToInt_append, hlow, hhigh, hbyte, BitVec.toNat_ofNat]
    omega

theorem radioRows_ftValid :
    (radioRows t d o).flags.ftValid = ((radioRows t d o).flags.containsEep || decide (category d = 0xD4)) := by
  have hdone := radioDone_radioRows t d o
  rw [Bool.eq_iff_iff, Bool.or_eq_true, decide_eq_true_eq]
  exact ⟨hdone.telegram, fun h => h.elim (fun he => (hdone.identity he).2.2.1) fun hc => (hdone.uteIdentity hc).1⟩

theorem radioRows_manufValid :
    (radioRows t d o).flags.manufValid =
      ((radioRows t d o).flags.containsEep || decide (category d = 0xD1) && decide (2 ≤ d.length - 6) ||
        decide (category d = 0xD4)) := by
  have hdone := radioDone_radioRows t d o
  rw [Bool.eq_iff_iff, Bool.or_eq_true, Bool.or_eq_true, Bool.and_eq_true, decide_eq_true_eq, decide_eq_true_eq,
    decide_eq_true_eq]
  constructor
  · intro h
    rcases hdone.maker h with he | hc | hc
    · exact .inl (.inl he)
    · refine .inl (.inr ⟨hc, ?_⟩)
      by_contra hu
      rw [radioRows, subFields_of_msc hc, mscRow, if_neg fun hm => hu hm.2] at h
      cases h
    · exact .inr hc
  · rintro ((he | ⟨hc, hu⟩) | hc)
    · exact (hdone.identity he).2.2.2
    · exact (radioRows_msc hc hu).1
    · exact (hdone.uteIdentity hc).2

/-- The command: the request's, else the command nibble of a VLD packet that has one (R201). -/
theorem radioCommand_eq (d : List Byte) (req : Req) :
    radioCommand d req = req.cmd.or
      (if category d = 0xD2 ∧ 1 ≤ d.length - 6 then some (BitVec.ofNat 8 ((d.getD 1 0).toNat % 16)) else none) := by
  unfold radioCommand commandOf commandEntry
  cases req.cmd with
  | some x => rfl
  | none =>
    by_cases hc : category d = pRorgVld
    · by_cases hu : 1 ≤ d.length - 6
      · have hnibble := bitsField_userBits (d := d) (m := 1) (i := 4) (k := 8) (x := 4) (y := 8) (by omega) rfl rfl
          (by decide) (by decide)
        simp only [if_pos hc, if_pos (show category d = 0xD2 ∧ 1 ≤ d.length - 6 from ⟨hc, hu⟩),
          if_pos (show 4 + 4 ≤ 8 * (d.length - 6) by omega), hnibble]
        simp
      · simp only [if_pos hc, if_neg fun h : category d = 0xD2 ∧ 1 ≤ d.length - 6 => hu h.2,
          if_neg (show ¬4 + 4 ≤ 8 * (d.length - 6) by omega)]
        rfl
    · simp only [if_neg hc, if_neg fun h : category d = 0xD2 ∧ 1 ≤ d.length - 6 => hc h.1]
      rfl

end

end Sys2Proof.Machine

/-! ### The registers of the sub-fields -/

namespace Sys2Proof.Machine

/-- The places of V_FLAGS (R62). -/
theorem VFlags.getLsbD_word (f : VFlags) (k : Nat) : f.word.getLsbD k =
    if k = 0 then f.learn else if k = 1 then f.containsEep else if k = 2 then f.profileFound
    else if k = 3 then f.unidir else if k = 4 then f.respExpected else if k = 5 then f.ftValid
    else if k = 6 then f.cmdValid else if k = 7 then f.degraded else if k = 8 then f.manufValid else false := by
  simp only [VFlags.word, BitVec.getLsbD_append]
  by_cases hlow : k < 9
  · interval_cases k <;> simp
  · obtain ⟨j, rfl⟩ := Nat.exists_eq_add_of_le' (Nat.le_of_not_lt hlow)
    simp

/-- Fields of these widths, put together, stand at the places R67 gives them. -/
theorem uteWord_fields (z : Byte) (c : Byte) (r : Byte) (y : BitVec 6) (q : BitVec 2) {w : BitVec (8 + 8 + 8 + 6 + 2)}
    (hw : w = z ++ r ++ c ++ y ++ q) :
    w.extractLsb' 0 2 = q ∧ w.extractLsb' 2 6 = y ∧ w.extractLsb' 8 8 = c ∧ w.extractLsb' 16 8 = r ∧
      w.extractLsb' 24 8 = z := by
  subst hw
  refine ⟨BitVec.extractLsb'_append_eq_right, ?_, ?_, ?_, ?_⟩
  · rw [BitVec.extractLsb'_append_eq_of_le (by decide), BitVec.extractLsb'_append_eq_right]
  · rw [BitVec.extractLsb'_append_eq_of_le (by decide), BitVec.extractLsb'_append_eq_of_le (by decide),
      BitVec.extractLsb'_append_eq_right]
  · rw [BitVec.extractLsb'_append_eq_of_le (by decide), BitVec.extractLsb'_append_eq_of_le (by decide),
      BitVec.extractLsb'_append_eq_of_le (by decide), BitVec.extractLsb'_append_eq_right]
  · rw [BitVec.extractLsb'_append_eq_of_le (by decide), BitVec.extractLsb'_append_eq_of_le (by decide),
      BitVec.extractLsb'_append_eq_of_le (by decide), BitVec.extractLsb'_append_eq_left]

section
variable {v : Variant} {t : Byte} {d o : List Byte} {req : Req} {found : Bool}

/-- The function and type a telegram gave are shown (R202). -/
theorem radioView_keys_of_valid (h : (radioRows t d o).flags.ftValid = true) :
    (radioView v t d o req found).func = (radioRows t d o).func ∧
      (radioView v t d o req found).vtype = (radioRows t d o).vtype := by
  simp [radioView, h]

/-- Where it gave none, the request's are, and 0 without a request (R202). -/
theorem radioView_keys_of_invalid (h : (radioRows t d o).flags.ftValid = false) :
    (radioView v t d o req found).func = (if req.prof then req.func else 0) ∧
      (radioView v t d o req found).vtype = if req.prof then req.ptype else 0 := by
  obtain ⟨hf, ht⟩ := keys_subFields h
  have hf0 : (radioRows t d o).func = 0 := hf
  have ht0 : (radioRows t d o).vtype = 0 := ht
  simp [radioView, h, hf0, ht0]

theorem radioView_ute_of_ne (hc : category d ≠ pRorgUte) :
    (radioView v t d o req found).flags.unidir = false ∧ (radioView v t d o req found).flags.respExpected = false ∧
      (radioView v t d o req found).uteWord = 0 := by
  obtain ⟨hq, hch, hr, hu, hx⟩ := (radioDone_radioRows t d o).ute hc
  refine ⟨hu, hx, ?_⟩
  show (0#8 ++ (radioRows t d o).uteRorg ++ (radioRows t d o).uteChannel ++ 0#6 ++ (radioRows t d o).uteReq : BitVec 32) = 0
  rw [hq, hch, hr]
  rfl

/-- A command the request gives is the packet's command; otherwise a VLD packet's nibble is (R201). -/
theorem radioCommand_cases {hasCmd : Bool} {b : Byte} (hreq : req.cmd = optArg hasCmd b) :
    (radioCommand d req).isSome = (hasCmd || decide (category d = 0xD2) && decide (1 ≤ d.length - 6)) ∧
      (hasCmd = true → (radioCommand d req).getD 0 = b) ∧
      (hasCmd = false → category d = 0xD2 → 1 ≤ d.length - 6 →
        ((radioCommand d req).getD 0).toNat = (d.getD 1 0).toNat % 16) := by
  rw [radioCommand_eq, hreq, ← Bool.decide_and]
  cases hasCmd with
  | true => exact ⟨rfl, fun _ => rfl, fun h => absurd h (by decide)⟩
  | false =>
    by_cases hc : category d = 0xD2 ∧ 1 ≤ d.length - 6
    · rw [if_pos hc, decide_eq_true hc]
      refine ⟨rfl, fun h => absurd h (by decide), fun _ _ _ => ?_⟩
      show (BitVec.ofNat 8 ((d.getD 1 0).toNat % 16)).toNat = _
      rw [BitVec.toNat_ofNat]
      omega
    · rw [if_neg hc, decide_eq_false hc]
      exact ⟨rfl, fun h => absurd h (by decide), fun _ hd hu => absurd ⟨hd, hu⟩ hc⟩

end

/-- Settles O49: each register is the rows' (`radioRows_learn` to `radioRows_manufValid`), the command's or the
request's. -/
theorem parseSubFields : Obligations.ParseSubFields := by
  refine ⟨fun s => ⟨s.view.flags.getLsbD_word, BitVec.toNat_setWidth_of_le (by decide),
    BitVec.toNat_setWidth_of_le (by decide), BitVec.toNat_setWidth_of_le (by decide),
    BitVec.toNat_setWidth_of_le (by decide),
    uteWord_fields 0 s.view.uteChannel s.view.uteRorg 0 s.view.uteReq rfl⟩, ?_⟩
  rintro s t prof hasDir hasCmd v d u c db0 hinv hr rfl rfl rfl rfl ht
  obtain ⟨-, hdisp, -, -, hute⟩ := id hr
  rw [← length_dataBytes] at hute
  rw [exec_parse_radio hinv hr prof hasDir hasCmd rfl, Host.Outcome.next.injEq] at ht
  have hview : t.view = radioView v s.fType s.dataBytes s.optBytes (reqOfArg prof hasDir hasCmd s.arg0)
      (radioHit s.cfg.catalog s.dataBytes (reqOfArg prof hasDir hasCmd s.arg0)).isSome := by rw [← ht]; rfl
  have hdone := radioDone_radioRows s.fType s.dataBytes s.optBytes
  obtain ⟨hsome, hgiven, hnibble⟩ := radioCommand_cases (d := s.dataBytes)
    (req := reqOfArg prof hasDir hasCmd s.arg0) (hasCmd := hasCmd) rfl
  rw [hview]
  refine ⟨radioRows_learn, radioRows_containsEep, radioRows_ftValid, radioRows_manufValid, fun he => ?_,
    fun hc hu => (radioRows_msc hc hu).2, fun hc => ?_, radioView_ute_of_ne, hdone.manuf, fun hv => ?_,
    hsome, hgiven, hnibble, radioView_keys_of_invalid⟩
  · obtain ⟨hf, ht⟩ := radioView_keys_of_valid (hdone.identity he).2.2.1
    rw [hf, ht]
    exact radioRows_identity he
  · obtain ⟨hf, ht⟩ := radioView_keys_of_valid (hdone.uteIdentity hc).1
    rw [hf, ht]
    exact radioRows_ute hc (hute (hdisp.symm.trans (dispatchOf_eq_ute.mpr hc)))
  · have hnone : radioCommand s.dataBytes (reqOfArg prof hasDir hasCmd s.arg0) = none :=
      Option.not_isSome_iff_eq_none.mp (Bool.eq_false_iff.mp hv)
    exact congrArg (Option.getD · 0) hnone

end Sys2Proof.Machine

/-! RECV (R213) against FRAME_DECODE and PARSE: what a parse does does not depend on the command end before it. -/

namespace Sys2Proof.Machine

/-! ### A parse after a command end -/

/-- An earlier command's end shows in STATUS alone, and a parse carries it along (R252, R192). -/
def CommutesWithFinish (f : State → State × ResultCode) : Prop :=
  ∀ (s : State) (c : ResultCode), f (s.finish c) = ((f s).1.finish c, (f s).2)

section
variable (t : Byte) (d o : List Byte) (req : Req)

theorem commutesWithFinish_degrade : CommutesWithFinish (degrade t d) := fun _ _ => rfl

theorem State.select_finish (s : State) (hit : Option (Psel × List FieldRec)) (c : ResultCode) :
    (s.finish c).select hit = (s.select hit).finish c := by
  cases hit <;> rfl

theorem fieldStep_finish (k : Byte) (cmd : Option Byte) (s : State) (c : ResultCode) :
    fieldStep k cmd req (s.finish c) = (fieldStep k cmd req s).finish c := by
  have hhit : fieldHit s.cfg.catalog k cmd req s.dataBits s.statBits = fieldHit (s.finish c).cfg.catalog k cmd req
      (s.finish c).dataBits (s.finish c).statBits := rfl
  rw [fieldStep_eq (s.finish c) k cmd req hhit, fieldStep_eq s k cmd req rfl, State.select_finish]
  rfl

theorem State.setView_finish (s : State) (v : View) (c : ResultCode) :
    (s.finish c).setView v = (s.setView v).finish c := rfl

theorem parseRadioFull_finish (v : Variant) (s : State) (c : ResultCode) :
    parseRadioFull v t d o req (s.finish c) = (parseRadioFull v t d o req s).finish c := by
  have hload : (s.finish c).loadBits d = (s.loadBits d).finish c := rfl
  have hbits : ((s.loadBits d).finish c).dataBits = (s.loadBits d).dataBits := rfl
  rw [parseRadioFull_steps rfl rfl, parseRadioFull_steps rfl rfl, hload, hbits, State.finish_view, State.setView_finish,
    fieldStep_finish]
  rfl

theorem commutesWithFinish_parseRadio (v : Variant) : CommutesWithFinish (parseRadio v t d o req) := by
  intro s c
  unfold parseRadio
  split
  · exact commutesWithFinish_degrade t d s c
  · exact congrArg (·, ResultCode.ok) (parseRadioFull_finish t d o req v s c)

theorem parseStart_finish (s : State) (c : ResultCode) : (s.finish c).parseStart req = (s.parseStart req).finish c := by
  rw [State.parseStart_eq, State.parseStart_eq]
  rfl

theorem commutesWithFinish_parseWith {chained : State → State × ResultCode} (h : CommutesWithFinish chained) :
    CommutesWithFinish (parseWith chained t d o req) := by
  intro s c
  have hdisp : dispatchOf (s.finish c).cfg t d = dispatchOf s.cfg t d := rfl
  have hstart : (s.finish c).clearView.dropProfile req = (s.clearView.dropProfile req).finish c :=
    parseStart_finish req s c
  unfold parseWith
  simp only [hstart, hdisp]
  cases dispatchOf s.cfg t d with
  | generic | response | event | noPacket => rfl
  | radio | msc | ute => exact commutesWithFinish_parseRadio t d o req _ _ c
  | chained => exact h _ c

theorem commutesWithFinish_complete (i : Nat) (k : ChainSlot) : CommutesWithFinish (complete i k req) := by
  intro s c
  have hparse := commutesWithFinish_parseWith pTypeRadio (syntheticData k) k.opt req
    (commutesWithFinish_degrade pTypeRadio (syntheticData k))
    ((s.setChain (s.chain.set i none)).loadFrame pTypeRadio (syntheticData k) k.opt) c
  unfold complete parseSynthetic
  dsimp only
  exact congrArg (fun r : State × ResultCode => (r.1.setView { r.1.view with
    variant := .chained, chainIdx := s.view.chainIdx, chainSeq := s.view.chainSeq, chainProp := s.view.chainProp
    chainValid := s.view.chainValid }, r.2)) hparse

theorem commutesWithFinish_firstFragment (snd : Word) (seq : BitVec 4) (decl : Nat) (ch : List Byte) :
    CommutesWithFinish (firstFragment snd seq decl ch o) := by
  intro s c
  unfold firstFragment
  by_cases hlen : s.cfg.chainMaxLen < decl
  · rw [if_pos hlen, if_pos (show (s.finish c).cfg.chainMaxLen < decl from hlen)]
  · rw [if_neg hlen, if_neg (show ¬(s.finish c).cfg.chainMaxLen < decl from hlen), State.finish_chain]
    cases slotFor s.chain snd seq <;> rfl

theorem commutesWithFinish_continueChain (i : Nat) (k : ChainSlot) (ch : List Byte) :
    CommutesWithFinish (continueChain i k ch req) := by
  intro s c
  unfold continueChain
  dsimp only
  split
  · exact commutesWithFinish_complete req i (k.append ch) (s.setChain (s.chain.set i (some (k.append ch)))) c
  · rfl

theorem commutesWithFinish_chainFeed : CommutesWithFinish (chainFeed t d o req) := by
  intro s c
  unfold chainFeed
  split
  · exact commutesWithFinish_degrade t d s c
  obtain ⟨prop, hprop⟩ := exists_eq (a' := decide (category d = s.cfg.rorgCdmProp))
  have hprop' : decide (category d = (s.finish c).cfg.rorgCdmProp) = prop := hprop.symm
  dsimp only
  rw [hprop', ← hprop]
  obtain ⟨s1, hs1⟩ := exists_eq (a' := s.setView (fragmentView prop t d o s.view))
  have hs1' : (s.finish c).setView (fragmentView prop t d o (s.finish c).view) = s1.finish c := by rw [hs1]; rfl
  rw [hs1', ← hs1]
  split
  · exact commutesWithFinish_firstFragment o (addrWord (senderBytes d)) (fragSeq d) (declaredLen prop d) (firstChunk d)
      (s1.flagLenooc (lenOutOfContract prop d)) c
  · rw [State.finish_chain]
    rcases slotWithKey s1.chain (addrWord (senderBytes d)) (fragSeq d) with _ | ⟨i, k⟩
    · rfl
    · exact commutesWithFinish_continueChain req i k (nextChunk d) s1 c

theorem commutesWithFinish_parsePacket : CommutesWithFinish (parsePacket t d o req) :=
  commutesWithFinish_parseWith t d o req (commutesWithFinish_chainFeed t d o req)

end

end Sys2Proof.Machine

/-! RECV (R213) is FRAME_DECODE followed by PARSE. -/

namespace Sys2Proof.Machine

/-! ### What RECV leaves -/

/-- The state RECV parses a decoded frame in (R213): the bytes consumed, the frame counted and loaded. -/
def State.received (s : State) (r : DecodeResult) (f : Frame) : State :=
  (s.consumeRx r).countFrame.loadFrame f.ftype f.data f.opt

section
variable (s : State) (r : DecodeResult) (f : Frame)

@[simp] theorem State.received_cfg : (s.received r f).cfg = s.cfg := by simp [State.received, State.consumeRx]
@[simp] theorem State.received_arg0 : (s.received r f).arg0 = s.arg0 := by simp [State.received, State.consumeRx]
@[simp] theorem State.received_fType : (s.received r f).fType = f.ftype := by simp [State.received, State.consumeRx]
@[simp] theorem State.received_rxlen : (s.received r f).rxlen = r.rem.length := by
  simp [State.received, State.consumeRx]

end

section
variable {s : State} {r : DecodeResult} {f : Frame} {prof hasDir hasCmd : Bool}

theorem State.Inv.received (h : s.Inv) (hr : r = frameDecode s.cfg.dcrcType s.rxBytes) (hf : r.frame = some f) :
    (s.received r f).Inv := by
  obtain ⟨hd, ho⟩ := frameDecode_frame_fits (hr ▸ hf)
  exact (hr ▸ h.consumeDecoded).countFrame.loadFrame f.ftype hd ho

/-- The F registers hold the frame RECV delivers. -/
theorem State.Inv.contents_received (h : s.Inv) (hr : r = frameDecode s.cfg.dcrcType s.rxBytes)
    (hf : r.frame = some f) : (s.received r f).dataBytes = f.data ∧ (s.received r f).optBytes = f.opt := by
  obtain ⟨hd, ho⟩ := frameDecode_frame_fits (hr ▸ hf)
  have hcount : (s.consumeRx r).countFrame.Inv := (hr ▸ h.consumeDecoded).countFrame
  exact ⟨(hcount.dataBytes_loadFrame f.ftype f.opt hd).2, (hcount.optBytes_loadFrame f.ftype f.data ho).2⟩

theorem exec_recv_none (hr : r = frameDecode s.cfg.dcrcType s.rxBytes) (hf : r.frame = none) :
    exec (.recv prof hasDir hasCmd) s =
      .next ((((s.consumeRx r).countMismatch r.status).clearView.setRes2 7).finish r.status) := by
  show execRecv prof hasDir hasCmd s = _
  simp only [execRecv, ← hr, hf]

theorem exec_recv_some (hr : r = frameDecode s.cfg.dcrcType s.rxBytes) (hf : r.frame = some f) (hst : r.status = .ok)
    {s' : State} {c : ResultCode}
    (hp : parsePacket f.ftype f.data f.opt (reqOfArg prof hasDir hasCmd s.arg0) (s.received r f) = (s', c)) :
    exec (.recv prof hasDir hasCmd) s = .next ((s'.setRes2 s'.view.variant.word).finish c) := by
  have hcount : (s.consumeRx r).countMismatch .ok = s.consumeRx r := rfl
  unfold State.received at hp
  show execRecv prof hasDir hasCmd s = _
  simp only [execRecv, ← hr, hf, hst, hcount, hp]

theorem exec_frameDecode_received (hr : r = frameDecode s.cfg.dcrcType s.rxBytes) (hf : r.frame = some f)
    (hst : r.status = .ok) : exec .frameDecode s = .next ((s.received r f).finish .ok) := by
  show execFrameDecode s = _
  simp only [execFrameDecode, ← hr, hf, hst]
  rfl

/-- FRAME_DECODE's command end leaves nothing to the end of the PARSE after it. -/
theorem State.finish_ok_finish (s : State) (c : ResultCode) : (s.finish .ok).finish c = s.finish c :=
  congrArg (fun st => { s with status := st }) (Status.commandEnd_commandEnd s.status .ok c rfl)

end

/-- RECV of a frame that decodes is FRAME_DECODE, then PARSE (R213): its parse starts from the state FRAME_DECODE ends
in, but for FRAME_DECODE's command end, which a parse carries along (`commutesWithFinish_parsePacket`). -/
theorem exec_recv_eq_decode_parse {s : State} {r : DecodeResult} {f : Frame} {prof hasDir hasCmd : Bool} (hinv : s.Inv)
    (hr : r = frameDecode s.cfg.dcrcType s.rxBytes) (hf : r.frame = some f) (hst : r.status = .ok) :
    ∃ t u, exec .frameDecode s = .next t ∧ exec (.parse prof hasDir hasCmd) t = .next u ∧
      exec (.recv prof hasDir hasCmd) s = .next { u with res0 := t.res0, res2 := u.res0 } := by
  obtain ⟨hd, ho⟩ := hinv.contents_received hr hf
  obtain ⟨s', c, hparse, hres0⟩ : ∃ s' c,
      parsePacket f.ftype f.data f.opt (reqOfArg prof hasDir hasCmd s.arg0) (s.received r f) = (s', c) ∧
        s'.res0 = (s.received r f).res0 :=
    ⟨_, _, rfl, (ParseOk.parsePacket _ f.ftype f.data f.opt _).1.res0⟩
  have hrun : parsePacket f.ftype f.data f.opt (reqOfArg prof hasDir hasCmd s.arg0) ((s.received r f).finish .ok) =
      (s'.finish .ok, c) := by
    rw [commutesWithFinish_parsePacket, hparse]
  refine ⟨(s.received r f).finish .ok, (s'.setRes0 s'.view.variant.word).finish c,
    exec_frameDecode_received hr hf hst, ?_, ?_⟩
  · show execParse prof hasDir hasCmd _ = _
    have hdata : ((s.received r f).finish .ok).dataBytes = f.data := hd
    have hopt : ((s.received r f).finish .ok).optBytes = f.opt := ho
    simp only [execParse, hdata, hopt, State.finish_fType, State.received_fType, State.finish_arg0,
      State.received_arg0, hrun]
    exact congrArg Host.Outcome.next (State.finish_ok_finish (s'.setRes0 s'.view.variant.word) c)
  · rw [exec_recv_some hr hf hst hparse, State.finish_res0, ← hres0]
    rfl

/-- Settles O57: by whether a frame decodes; `exec_recv_eq_decode_parse` has the frame's case. -/
theorem recvIsDecodeThenParse : Obligations.RecvIsDecodeThenParse := by
  refine ⟨fun s prof hasDir hasCmd hf => ?_, fun s prof hasDir hasCmd f hinv hf => ?_⟩
  · obtain ⟨-, hst⟩ | ⟨f, hsome, -⟩ := frameDecode_ends s.cfg.dcrcType s.rxBytes
    · refine ⟨_, exec_frameDecode_none rfl hf hst, ?_, rfl⟩
      rw [exec_recv_none rfl hf]
      rcases hst with hst | hst <;> rw [hst, State.finish_of_not_fatal _ rfl] <;> rfl
    · rw [hf] at hsome
      cases hsome
  · obtain ⟨hnone, -⟩ | ⟨-, -, hst⟩ := frameDecode_ends s.cfg.dcrcType s.rxBytes
    · rw [hf] at hnone
      cases hnone
    · exact exec_recv_eq_decode_parse hinv rfl hf hst

end Sys2Proof.Machine

/-! CREATE's ends before a telegram is built (R215, R217, R219). -/

namespace Sys2Proof.Machine

/-! ### Validation -/

section
variable {cfg : Cfg} {a : CreateArgs}

theorem mem_pCreateRorgs {c : Byte} : c ∈ pCreateRorgs ↔ c = 0xF6 ∨ c = 0xD5 ∨ c = 0xA5 ∨ c = 0xD2 := by
  simp [pCreateRorgs, pRorgRps, pRorg1bs, pRorg4bs, pRorgVld]

/-! R215's four checks, the first that fails. -/

theorem createFatal_ptype (hp : a.ptype ≠ 0x01) : createFatal cfg a = some .unsupportedType := if_pos hp

theorem createFatal_category (hp : a.ptype = 0x01) (hc : a.cat ∉ pCreateRorgs) :
    createFatal cfg a = some .unsupportedCategory :=
  (if_neg (not_not.mpr hp)).trans (if_pos hc)

theorem createFatal_addrLen (hp : a.ptype = 0x01) (hc : a.cat ∈ pCreateRorgs)
    (hl : ¬((a.sl = 0 ∨ a.sl = 4) ∧ (a.dl = 0 ∨ a.dl = 4))) : createFatal cfg a = some .badAddrLen :=
  (if_neg (not_not.mpr hp)).trans ((if_neg (not_not.mpr hc)).trans (if_pos hl))

/-- The checks passed up to the last. -/
theorem createFatal_count (hp : a.ptype = 0x01) (hc : a.cat ∈ pCreateRorgs)
    (hl : (a.sl = 0 ∨ a.sl = 4) ∧ (a.dl = 0 ∨ a.dl = 4)) :
    createFatal cfg a = if cfg.nvCap < a.n then some .badArg else none :=
  (if_neg (not_not.mpr hp)).trans ((if_neg (not_not.mpr hc)).trans (if_neg (not_not.mpr hl)))

theorem createFatal_of_valid (h : a.valid cfg) : createFatal cfg a = none := by
  obtain ⟨hp, hc, hl, hn⟩ := h
  exact (createFatal_count hp (mem_pCreateRorgs.mpr hc) hl).trans (if_neg hn.not_gt)

/-- Validation ends with a code of R215, all of them fatal, or passes. -/
theorem createFatal_cases (cfg : Cfg) (a : CreateArgs) :
    (∃ c, createFatal cfg a = some c ∧ c.isFatal = true) ∨ createFatal cfg a = none ∧ a.valid cfg := by
  by_cases hp : a.ptype = 0x01
  swap
  · exact .inl ⟨_, createFatal_ptype hp, rfl⟩
  by_cases hc : a.cat ∈ pCreateRorgs
  swap
  · exact .inl ⟨_, createFatal_category hp hc, rfl⟩
  by_cases hl : (a.sl = 0 ∨ a.sl = 4) ∧ (a.dl = 0 ∨ a.dl = 4)
  swap
  · exact .inl ⟨_, createFatal_addrLen hp hc hl, rfl⟩
  by_cases hn : cfg.nvCap < a.n
  · exact .inl ⟨_, (createFatal_count hp hc hl).trans (if_pos hn), rfl⟩
  · have hvalid : a.valid cfg := ⟨hp, mem_pCreateRorgs.mp hc, hl, Nat.le_of_not_lt hn⟩
    exact .inr ⟨createFatal_of_valid hvalid, hvalid⟩

end

/-! ### The ends before the build -/

section
variable {s : State} {learn hasDir hasCmd : Bool} {n : BitVec 16} {a : CreateArgs}

theorem exec_create_fatal (ha : a = createArgs learn hasDir hasCmd n s) {c : ResultCode}
    (hc : createFatal s.cfg a = some c) (hfatal : c.isFatal = true) :
    exec (.create learn hasDir hasCmd n) s = .next { s with status := s.status.endedFatal c } := by
  show execCreate learn hasDir hasCmd n s = _
  simp only [execCreate, ← ha, hc]
  exact congrArg Host.Outcome.next (s.raiseFatal_of_fatal hfatal)

theorem exec_create_valid (ha : a = createArgs learn hasDir hasCmd n s) (hv : a.valid s.cfg) :
    exec (.create learn hasDir hasCmd n) s = .next (createValid a s) := by
  show execCreate learn hasDir hasCmd n s = _
  simp only [execCreate, ← ha, createFatal_of_valid hv]

theorem createValid_missing {l : Nat} (h : findProfile s.cfg.catalog a.cat a.func a.vtype a.dir a.cmd = .missing l) :
    createValid a s = { s with res0 := BitVec.ofNat 32 l, status := s.status.endedOk .notFound } := by
  simp only [createValid, h]
  exact State.finish_of_not_fatal _ rfl

section
variable {x y : Nat} {blk : DataBlock}
  (hfound : findProfile s.cfg.catalog a.cat a.func a.vtype a.dir a.cmd = .block x y)
  (hblk : catalogBlock s.cfg.catalog x y = some blk)
include hfound hblk

theorem createValid_rejected {c : ResultCode} {bad : Nat}
    (h : fieldEncode blk (List.replicate (8 * userLen a.cat blk) false) (List.replicate 8 false)
      (commandPair s.cfg blk a.cmd ++ s.namedValues a.n) = .rejected c bad) :
    createValid a s =
      { s with
        res0 := createBad (commandPair s.cfg blk a.cmd).length bad, status := s.status.endedOk c } := by
  have hc : c.isFatal = false := by rcases fieldEncode_code h with rfl | rfl <;> rfl
  simp only [createValid, hfound, hblk, Option.getD_some, h]
  exact State.finish_of_not_fatal _ hc

/-- CREATE's last steps (R220 to R222): the telegram is built and parsed, and RES0 gets its length. -/
theorem createValid_done {vd vs : List Bool} {s' : State}
    (h : fieldEncode blk (List.replicate (8 * userLen a.cat blk) false) (List.replicate 8 false)
      (commandPair s.cfg blk a.cmd ++ s.namedValues a.n) = .done vd vs)
    (hs' : s' = (s.buildTelegram (createData a (userLen a.cat blk) vd vs) (createOpt a) vd vs).roundTrip a.request) :
    createValid a s = { s' with res0 := BitVec.ofNat 32 s'.txlen, status := s'.status.endedOk .ok } := by
  simp only [createValid, hfound, hblk, Option.getD_some, h, ← hs']
  exact State.finish_of_not_fatal _ rfl

end

end

/-- Settles O58: the four checks of `createFatal` in their order, then the two ends of `createValid`. -/
theorem createEndsEarly : Obligations.CreateEndsEarly := by
  refine ⟨?_, ?_⟩
  · rintro s learn hasDir hasCmd n _ _ _ _ rfl rfl rfl rfl
    refine ⟨fun hp => exec_create_fatal rfl (createFatal_ptype hp) rfl, fun hp => ⟨fun hc => ?_, fun hc => ?_⟩⟩
    · have hout : (createArgs learn hasDir hasCmd n s).cat ∉ pCreateRorgs := by
        rw [mem_pCreateRorgs]
        push Not
        exact hc
      exact exec_create_fatal rfl (createFatal_category hp hout) rfl
    · have hin : (createArgs learn hasDir hasCmd n s).cat ∈ pCreateRorgs := mem_pCreateRorgs.mpr hc
      exact ⟨fun hl => exec_create_fatal rfl (createFatal_addrLen hp hin hl) rfl,
        fun hl hn => exec_create_fatal rfl ((createFatal_count hp hin hl).trans (if_pos hn)) rfl⟩
  · rintro s learn hasDir hasCmd n a ha hv
    refine ⟨fun l hl => ?_, ?_⟩
    · rw [exec_create_valid ha hv, createValid_missing hl]
    · rintro x y blk _ c bad hfound hblk rfl hrej
      have han : a.n = n.toNat := congrArg CreateArgs.n ha
      rw [← han] at hrej
      refine ⟨fieldEncode_code hrej, ?_⟩
      rw [exec_create_valid ha hv, createValid_rejected hfound hblk hrej]
      rfl

end Sys2Proof.Machine

/-! The telegram CREATE builds (R216, R218, R220, R221) and its round trip (R222). -/

namespace Sys2Proof.Machine

/-! ### Address words -/

/-- A word's four bytes, combined, are the word (R84). -/
theorem addrWord_bytes4 (w : Word) : addrWord (bytes4 w) = w := by
  have hw := w.isLt
  apply BitVec.eq_of_toNat_eq
  simp only [addrWord, bytes4, combine, List.foldl, BitVec.toNat_ofNat, BitVec.extractLsb'_toNat,
    Nat.shiftRight_eq_div_pow]
  omega

theorem bytes4_injective {v w : Word} (h : bytes4 v = bytes4 w) : v = w := by
  rw [← addrWord_bytes4 v, h, addrWord_bytes4]

theorem addressOf_eq_bytes4 (len : BitVec 4) (w : Word) {p : List Byte} {q : Word} (hp : p = bytes4 q) :
    addressOf len w p = bytes4 (if len = 4 then w else q) := by
  unfold addressOf
  split
  · rfl
  · exact hp

theorem pDefaultSender_eq : pDefaultSender = bytes4 0xDEADBEEF := rfl

theorem pDefaultDest_eq : pDefaultDest = bytes4 0xFFFFFFFF := rfl

/-! ### The telegram's fields -/

section
variable (a : CreateArgs) (u : Nat) (vd vs : List Bool)

theorem createData_eq_cons :
    createData a u vd vs =
      a.cat :: (applyLearnBit a.cat a.learn (bitsToBytes vd u) ++
        (addressOf a.sl a.snd pDefaultSender ++ bitsToBytes vs 1)) := by
  have hstat : [(bitsToBytes vs 1).getD 0 0] = bitsToBytes vs 1 := rfl
  rw [createData, hstat, List.append_assoc, List.append_assoc, List.singleton_append]

theorem userBytes_createData :
    userBytes (createData a u vd vs) = applyLearnBit a.cat a.learn (bitsToBytes vd u) := by
  rw [userBytes, length_createData, Nat.add_sub_cancel, createData_eq_cons, List.drop_one, List.tail_cons]
  exact List.take_left' (by simp)

theorem sender_createData :
    ((createData a u vd vs).drop ((createData a u vd vs).length - 5)).take 4 =
      addressOf a.sl a.snd pDefaultSender := by
  have hlen : (applyLearnBit a.cat a.learn (bitsToBytes vd u)).length = u := by simp
  rw [length_createData, show u + 6 - 5 = u + 1 by omega, createData_eq_cons, List.drop_succ_cons,
    List.drop_left' hlen]
  exact List.take_left' (length_addressOf _ _ rfl)

theorem dest_createOpt : ((createOpt a).drop 1).take 4 = addressOf a.dl a.dst pDefaultDest := by
  have hopt : (createOpt a).drop 1 = addressOf a.dl a.dst pDefaultDest ++ [pDbmTx, pSecNone] := by simp [createOpt]
  rw [hopt]
  exact List.take_left' (length_addressOf _ _ rfl)

variable {vs}

/-- The status byte of the telegram holds the encoded status vector (R220, R222). -/
theorem statusBits_createData (hvs : vs.length = 8) : statusBits (createData a u vd vs) = vs := by
  have hlast : (createData a u vd vs).getD ((createData a u vd vs).length - 1) 0 = (bitsToBytes vs 1).getD 0 0 := by
    have hfront : ([a.cat] ++ applyLearnBit a.cat a.learn (bitsToBytes vd u) ++
        addressOf a.sl a.snd pDefaultSender).length = u + 5 := by
      simp [length_addressOf a.sl a.snd (p := pDefaultSender) rfl]
    rw [length_createData, show u + 6 - 1 = u + 5 by omega, ← hfront, createData, List.getD_append_right _ _ _ _ le_rfl,
      Nat.sub_self, List.getD_cons_zero]
  have hbyte : [(bitsToBytes vs 1).getD 0 0] = bitsToBytes vs 1 := rfl
  rw [statusBits, hlast, hbyte, ← hvs]
  exact bytesToBits_bitsToBytes (by omega)

/-- CREATE's categories dispatch RADIO: none is UTE's, MSC's or the chain unit's (R190, R215). -/
theorem dispatchOf_createData {cfg : Cfg} {a : CreateArgs} (hv : a.valid cfg) (hprop : a.cat ≠ cfg.rorgCdmProp) :
    dispatchOf cfg pTypeRadio (createData a u vd vs) = .radio := by
  obtain ⟨-, hcat, -⟩ := hv
  have hother : a.cat ≠ pRorgUte ∧ a.cat ≠ pRorgCdm ∧ a.cat ≠ pRorgMsc := by
    rcases hcat with hc | hc | hc | hc <;> rw [hc] <;> decide
  obtain ⟨hute, hcdm, hmsc⟩ := hother
  rw [createData_eq_cons, dispatchOf_by_type hute hcdm hprop, if_neg (by decide), if_neg (by decide), if_pos rfl,
    if_neg hmsc]

theorem radioTooShort_create : radioTooShort .radio (createData a u vd vs) (createOpt a) = false := by
  rw [← Bool.not_eq_true, radioTooShort_iff, length_createData, length_createOpt]
  rintro (hd | ho | ⟨hv, -⟩)
  · omega
  · omega
  · cases hv

end

/-! ### The round trip -/

section
variable {s : State} {d o : List Byte} {vd vs : List Bool} {req : Req}

/-- What TXBUF and the F registers hold once a telegram is built. -/
theorem State.Inv.contents_buildTelegram (h : s.Inv) (hd : d.length ≤ 65535) (ho : o.length ≤ 255) :
    (s.buildTelegram d o vd vs).txBytes = frameEncode s.cfg.dcrcType pTypeRadio d o ∧
      (s.buildTelegram d o vd vs).fDlen.toNat = d.length ∧ (s.buildTelegram d o vd vs).dataBytes = d ∧
      (s.buildTelegram d o vd vs).optBytes = o := by
  have htx := h.setTxFrame s.cfg.dcrcType pTypeRadio hd ho
  obtain ⟨hdlen, hdata⟩ := htx.dataBytes_loadFrame pTypeRadio o hd
  obtain ⟨-, hopt⟩ := htx.optBytes_loadFrame pTypeRadio d ho
  refine ⟨?_, ?_, ?_, ?_⟩
  · rw [← h.txBytes_setTx (frameEncode s.cfg.dcrcType pTypeRadio d o)]
    simp only [State.buildTelegram, State.txBytes, State.setBvStat_txbuf, State.setBvStat_txlen,
      State.setBvData_txbuf, State.setBvData_txlen, State.loadFrame_txbuf, State.loadFrame_txlen]
  · exact hdlen
  · exact hdata
  · exact hopt

/-- Decoding the frame just built gives its contents, so the round trip is their parse (R145, R222). -/
theorem State.Inv.roundTrip_buildTelegram (h : s.Inv) (hd : d.length ≤ 65535) (ho : o.length ≤ 255) :
    (s.buildTelegram d o vd vs).roundTrip req =
      (Machine.parsePacket pTypeRadio d o req (s.buildTelegram d o vd vs)).1 := by
  have htx : (s.buildTelegram d o vd vs).txBytes = frameEncode s.cfg.dcrcType pTypeRadio d o ++ [] := by
    rw [List.append_nil]
    exact (h.contents_buildTelegram hd ho).1
  have hdec := (frameRoundTrip.2 s.cfg.dcrcType pTypeRadio d o [] hd ho).2.2
  have hcfg : (s.buildTelegram d o vd vs).cfg = s.cfg := by simp [State.buildTelegram]
  rw [State.roundTrip, hcfg, htx, hdec]

end

/-- The state CREATE's telegram, with user data of `u` bytes and the encoded vectors, is parsed in (R221). -/
def State.telegram (s : State) (a : CreateArgs) (u : Nat) (vd vs : List Bool) : State :=
  s.buildTelegram (createData a u vd vs) (createOpt a) vd vs

section
variable {s : State} {a : CreateArgs} {u : Nat} {vd vs : List Bool}

@[simp] theorem State.telegram_cfg (s : State) (a : CreateArgs) (u : Nat) (vd vs : List Bool) :
    (s.telegram a u vd vs).cfg = s.cfg := by
  simp [State.telegram, State.buildTelegram]

theorem State.Inv.telegram (h : s.Inv) (hu : u ≤ 8192) (hvd : vd.length = 8 * u) (hvs : vs.length = 8) :
    (s.telegram a u vd vs).Inv := by
  refine h.buildTelegram ?_ ?_ ?_ hvs.le
  · rw [length_createData]
    show _ ≤ 65535
    omega
  · rw [length_createOpt]
    decide
  · rw [hvd]
    show _ ≤ 524280
    omega

/-- What the F registers and TXBUF hold before the parse. -/
theorem State.Inv.contents_telegram (h : s.Inv) (hu : u ≤ 8192) :
    (s.telegram a u vd vs).txBytes = frameEncode s.cfg.dcrcType pTypeRadio (createData a u vd vs) (createOpt a) ∧
      (s.telegram a u vd vs).fDlen.toNat = (createData a u vd vs).length ∧
      (s.telegram a u vd vs).dataBytes = createData a u vd vs ∧ (s.telegram a u vd vs).optBytes = createOpt a := by
  refine h.contents_buildTelegram ?_ ?_
  · rw [length_createData]
    omega
  · rw [length_createOpt]
    decide

end

end Sys2Proof.Machine

/-! CREATE that ends OK (R214 to R222). -/

namespace Sys2Proof.Machine

/-! ### The operands -/

/-- The pair of a present command that the block has a descriptor for (R219). -/
theorem commandPair_some {cfg : Cfg} {blk : DataBlock} (x : Byte) (h : ∃ F ∈ blk.fields, F.shortcut = cfg.shortcutCmd) :
    commandPair cfg blk (some x) = [(cfg.shortcutCmd, x.toNat)] := by
  refine if_pos ?_
  rw [← Option.ne_none_iff_isSome, Ne, descriptorOf_eq_none_iff]
  push Not
  exact h

theorem commandPair_some_of_none {cfg : Cfg} {blk : DataBlock} (x : Byte)
    (h : ∀ F ∈ blk.fields, F.shortcut ≠ cfg.shortcutCmd) : commandPair cfg blk (some x) = [] := by
  refine if_neg ?_
  rw [(descriptorOf_eq_none_iff _).mpr h]
  exact Bool.false_ne_true

section
variable {c : Byte} {blk : DataBlock}

/-! The user-data length of a category without a fixed one (R218). -/

theorem pFixedUlen_none (h6 : c ≠ 0xF6) (h5 : c ≠ 0xD5) (ha : c ≠ 0xA5) : pFixedUlen c = none :=
  (if_neg h6).trans ((if_neg h5).trans (if_neg ha))

theorem userLen_of_bits (hc : pFixedUlen c = none) {b : BitVec 16} (hb : blk.bits = some b) :
    userLen c blk = (b.toNat + 7) / 8 := by
  simp only [userLen, hc, hb]

theorem userLen_of_no_bits (hc : pFixedUlen c = none) (hb : blk.bits = none) : userLen c blk = 1 := by
  simp only [userLen, hc, hb]

end

/-- The learn bit stands in the last byte and nowhere else (R220). -/
theorem getD_applyLearnBit (c : Byte) (learn : Bool) {b : List Byte} {j : Nat} (hj : j < b.length) :
    (applyLearnBit c learn b).getD j 0 =
      if (c = 0xD5 ∨ c = 0xA5) ∧ learn = false ∧ j + 1 = b.length then b.getD j 0 ||| 0x08 else b.getD j 0 := by
  have hmem : c ∈ pLearnBitRorgs ↔ c = 0xD5 ∨ c = 0xA5 := by simp [pLearnBitRorgs, pRorg1bs, pRorg4bs]
  simp only [applyLearnBit, hmem]
  by_cases hrow : (c = 0xD5 ∨ c = 0xA5) ∧ learn = false
  · obtain ⟨hc, hl⟩ := hrow
    rw [if_pos ⟨hc, hl, by omega⟩]
    by_cases hlast : j + 1 = b.length
    · obtain rfl : j = b.length - 1 := by omega
      rw [if_pos ⟨hc, hl, hlast⟩]
      simp [List.getD_eq_getElem?_getD, hj]
    · rw [if_neg (fun h => hlast h.2.2)]
      simp [List.getD_eq_getElem?_getD, show ¬b.length - 1 = j by omega]
  · rw [if_neg (fun h => hrow ⟨h.1, h.2.1⟩), if_neg (fun h => hrow ⟨h.1, h.2.1⟩)]

/-- A list of bytes is the one with those bytes. -/
theorem eq_of_getD_eq {b c : List Byte} (hlen : b.length = c.length) (h : ∀ j < b.length, b.getD j 0 = c.getD j 0) :
    b = c := by
  refine List.ext_getElem hlen fun j hb hc => ?_
  have hj := h j hb
  rwa [List.getD_eq_getElem _ _ hb, List.getD_eq_getElem _ _ hc] at hj

/-! ### The next state -/

section
variable {s : State} {learn hasDir hasCmd : Bool} {n : BitVec 16} {a : CreateArgs} {x y : Nat} {blk : DataBlock}
  {vd vs : List Bool} {r : State}

/-- The state CREATE parses its telegram to (R222), with user data of `u` bytes. -/
def State.created (s : State) (a : CreateArgs) (u : Nat) (vd vs : List Bool) : State :=
  (s.telegram a u vd vs).showRadio .radio pTypeRadio (createData a u vd vs) (createOpt a) a.request

/-- CREATE that builds a telegram ends OK with the state of its parse (R221, R222). -/
theorem exec_create_done (hinv : s.Inv) (ha : a = createArgs learn hasDir hasCmd n s) (hv : a.valid s.cfg)
    (hprop : a.cat ≠ s.cfg.rorgCdmProp)
    (hfound : findProfile s.cfg.catalog a.cat a.func a.vtype a.dir a.cmd = .block x y)
    (hblk : catalogBlock s.cfg.catalog x y = some blk)
    (henc : fieldEncode blk (List.replicate (8 * userLen a.cat blk) false) (List.replicate 8 false)
      (commandPair s.cfg blk a.cmd ++ s.namedValues n.toNat) = .done vd vs)
    (hr : r = s.created a (userLen a.cat blk) vd vs) :
    exec (.create learn hasDir hasCmd n) s =
      .next { r with res0 := BitVec.ofNat 32 r.txlen, status := r.status.endedOk .ok } := by
  have han : a.n = n.toNat := congrArg CreateArgs.n ha
  rw [← han] at henc
  obtain ⟨hvd, hvs⟩ := fieldEncode_lengths henc
  rw [List.length_replicate] at hvd hvs
  have hu := userLen_le a.cat blk
  have htel := hinv.telegram (a := a) hu hvd hvs
  have hdisp : dispatchOf (s.telegram a (userLen a.cat blk) vd vs).cfg pTypeRadio
      (createData a (userLen a.cat blk) vd vs) = .radio := by
    rw [State.telegram_cfg]
    exact dispatchOf_createData _ _ hv hprop
  have hparse : parsePacket pTypeRadio (createData a (userLen a.cat blk) vd vs) (createOpt a) a.request
      (s.telegram a (userLen a.cat blk) vd vs) = (r, .ok) := by
    rw [hr]
    exact parsePacket_long htel (.inl rfl) hdisp (radioTooShort_create _ _ _)
  have hround : (s.telegram a (userLen a.cat blk) vd vs).roundTrip a.request = r := by
    have hd : (createData a (userLen a.cat blk) vd vs).length ≤ 65535 := by rw [length_createData]; omega
    have ho : (createOpt a).length ≤ 255 := by rw [length_createOpt]; decide
    exact (hinv.roundTrip_buildTelegram hd ho).trans (congrArg Prod.fst hparse)
  rw [exec_create_valid ha hv, createValid_done hfound hblk henc hround.symm]

end

end Sys2Proof.Machine

/-! What CREATE that ends OK leaves (R216 to R222). -/

namespace Sys2Proof.Machine

/-! ### What the parse of a radio-class packet keeps -/

section
variable {s r : State} {v : Variant} {t : Byte} {d o : List Byte} {req : Req} (hr : r = s.showRadio v t d o req)
include hr

theorem State.showRadio_rxlen : r.rxlen = s.rxlen := (congrArg State.rxlen (State.showRadio_frame hr)).trans rfl

theorem State.showRadio_txbuf : r.txbuf = s.txbuf := (congrArg State.txbuf (State.showRadio_frame hr)).trans rfl

theorem State.showRadio_fType : r.fType = s.fType := (congrArg State.fType (State.showRadio_frame hr)).trans rfl

theorem State.showRadio_fDlen : r.fDlen = s.fDlen := (congrArg State.fDlen (State.showRadio_frame hr)).trans rfl

theorem State.showRadio_fdata : r.fdata = s.fdata := (congrArg State.fdata (State.showRadio_frame hr)).trans rfl

theorem State.showRadio_fopt : r.fopt = s.fopt := (congrArg State.fopt (State.showRadio_frame hr)).trans rfl

theorem State.showRadio_txBytes : r.txBytes = s.txBytes :=
  (congrArg State.txBytes (State.showRadio_frame hr)).trans rfl

theorem State.showRadio_dataBytes : r.dataBytes = s.dataBytes :=
  (congrArg State.dataBytes (State.showRadio_frame hr)).trans rfl

theorem State.showRadio_optBytes : r.optBytes = s.optBytes :=
  (congrArg State.optBytes (State.showRadio_frame hr)).trans rfl

end

/-! ### What CREATE leaves -/

section
variable {s r : State} {a : CreateArgs} {u : Nat} {vd vs : List Bool}

theorem State.buildTelegram_eq (s : State) (d o : List Byte) (vd vs : List Bool) :
    s.buildTelegram d o vd vs =
      { s with
        txbuf := Store.writeList s.txbuf 0 (frameEncode s.cfg.dcrcType pTypeRadio d o)
        txlen := (frameEncode s.cfg.dcrcType pTypeRadio d o).length
        fType := pTypeRadio, fDlen := BitVec.ofNat 16 d.length, fOlen := BitVec.ofNat 8 o.length
        fdata := Store.writeList s.fdata 0 d, fopt := Store.writeList s.fopt 0 o
        bvData := Store.writeList s.bvData 0 vd, bvDlen := vd.length
        bvStat := Store.writeList s.bvStat 0 vs, bvSlen := vs.length } := by
  simp only [State.buildTelegram, State.setBvStat, State.setBvData, State.loadFrame, State.setTx]

theorem State.telegram_eq (s : State) (a : CreateArgs) (u : Nat) (vd vs : List Bool) :
    s.telegram a u vd vs =
      { s with
        txbuf := Store.writeList s.txbuf 0
          (frameEncode s.cfg.dcrcType pTypeRadio (createData a u vd vs) (createOpt a))
        txlen := 7 + (u + 6) + 7, fType := pTypeRadio, fDlen := BitVec.ofNat 16 (u + 6), fOlen := 7
        fdata := Store.writeList s.fdata 0 (createData a u vd vs)
        fopt := Store.writeList s.fopt 0 (createOpt a)
        bvData := Store.writeList s.bvData 0 vd, bvDlen := vd.length
        bvStat := Store.writeList s.bvStat 0 vs, bvSlen := vs.length } := by
  have hopt : BitVec.ofNat 8 7 = 7 := rfl
  rw [State.telegram, State.buildTelegram_eq, length_frameEncode, length_createData, length_createOpt, hopt]

section
variable (hr : r = s.created a u vd vs)
include hr

/-- CREATE writes TXBUF, the F registers, the bit vectors and what a parse shows, and nothing else (R209, R221). -/
theorem State.created_frame :
    r =
      { s with
        txbuf := r.txbuf, txlen := 7 + (u + 6) + 7, fType := pTypeRadio, fDlen := r.fDlen, fOlen := 7
        fdata := r.fdata, fopt := r.fopt, bvData := r.bvData, bvDlen := 8 * u, bvStat := r.bvStat, bvSlen := 8
        psel := r.psel, nfields := r.nfields, ft := r.ft, view := r.view
        status := { s.status with fldovf := r.status.fldovf } } := by
  have hshow := State.showRadio_frame hr
  rw [length_createData, Nat.add_sub_cancel] at hshow
  rw [State.showRadio_txbuf hr, State.showRadio_fDlen hr, State.showRadio_fdata hr, State.showRadio_fopt hr]
  refine hshow.trans ?_
  rw [State.telegram_eq]

/-- Storage past the frame and its contents keeps its values. -/
theorem State.created_past (hvd : vd.length = 8 * u) :
    (∀ k, r.txlen ≤ k → r.txbuf.byte k = s.txbuf.byte k) ∧ (∀ k, u + 6 ≤ k → r.fdata.byte k = s.fdata.byte k) ∧
      (∀ k, 7 ≤ k → r.fopt.byte k = s.fopt.byte k) ∧
      ∀ k, 8 * u ≤ k → Store.read r.bvData k = Store.read s.bvData k := by
  have htxlen : r.txlen = 7 + (u + 6) + 7 := (congrArg State.txlen (State.created_frame hr)).trans rfl
  rw [htxlen, State.showRadio_txbuf hr, State.showRadio_fdata hr, State.showRadio_fopt hr, State.telegram_eq]
  refine ⟨fun k hk => Memory.byte_writeList_past _ _ ?_, fun k hk => Memory.byte_writeList_past _ _ ?_,
    fun k hk => Memory.byte_writeList_past _ _ ?_, fun k hk => ?_⟩
  · rw [length_frameEncode, length_createData, length_createOpt]
    omega
  · rwa [length_createData]
  · rwa [length_createOpt]
  · rw [State.showRadio_bvData_past hr (by rwa [length_createData, Nat.add_sub_cancel]), State.telegram_eq]
    exact Store.read_writeList_past _ _ (by rwa [hvd])

/-- The view shows the address operands, or their placeholders (R216, R222). -/
theorem State.created_view :
    r.view.variant = .radio ∧ r.view.sender = (if a.sl = 4 then a.snd else 0xDEADBEEF) ∧
      r.view.dest = (if a.dl = 4 then a.dst else 0xFFFFFFFF) := by
  obtain ⟨found, hview⟩ :
      ∃ found, r.view = radioView .radio pTypeRadio (createData a u vd vs) (createOpt a) a.request found :=
    ⟨_, State.showRadio_view hr⟩
  obtain ⟨-, hsender, -, hdest, -⟩ := radioRows_attributes pTypeRadio (d := createData a u vd vs) (o := createOpt a)
    (by rw [length_createData]; omega) (by rw [length_createOpt]; decide)
  rw [sender_createData, addressOf_eq_bytes4 _ _ pDefaultSender_eq] at hsender
  rw [dest_createOpt, addressOf_eq_bytes4 _ _ pDefaultDest_eq] at hdest
  rw [hview]
  exact ⟨rfl, bytes4_injective hsender, bytes4_injective hdest⟩

variable (hinv : s.Inv) (hu : u ≤ 8192) (hvd : vd.length = 8 * u) (hvs : vs.length = 8)
include hinv hu hvd hvs

/-- The bit vectors hold the user data, with its learn bit, and the encoded status vector (R198, R222). -/
theorem State.Inv.bits_created :
    r.dataBits = bytesToBits (applyLearnBit a.cat a.learn (bitsToBytes vd u)) (8 * u) ∧ r.statBits = vs := by
  have htel := hinv.telegram (a := a) hu hvd hvs
  refine ⟨(htel.dataBits_showRadio hr).trans ?_,
    (htel.statBits_showRadio hr).trans (statusBits_createData a u vd hvs)⟩
  rw [userBits, userBytes_createData, length_createData, Nat.add_sub_cancel]

end

end

end Sys2Proof.Machine

/-! The next state of a CREATE that builds a telegram, assembled (R214 to R222). -/

namespace Sys2Proof.Machine

/-- Settles O59: the operands by unfolding, the lengths and the command pair by cases; then the state of
`exec_create_done`, of which `created_frame` says what changes and the lemmas beside it what the rest holds. -/
theorem createBuilds : Obligations.CreateBuilds := by
  refine ⟨fun _ _ _ _ _ => rfl, fun _ _ => rfl, fun c blk => ⟨?_, ?_, fun h6 h5 ha => ⟨fun b hb => ?_, fun hb => ?_⟩⟩,
    fun cfg blk => ⟨rfl, fun x => ⟨commandPair_some x, commandPair_some_of_none x⟩⟩, ?_⟩
  · rintro (rfl | rfl) <;> rfl
  · rintro rfl
    rfl
  · rw [userLen_of_bits (pFixedUlen_none h6 h5 ha) hb]
    omega
  · exact userLen_of_no_bits (pFixedUlen_none h6 h5 ha) hb
  rintro s learn hasDir hasCmd n a x y blk vd vs d o user hinv ha hv hprop hfound hblk henc hlen huser hd ho
  obtain ⟨hlearn, hsnd, hdst⟩ : a.learn = learn ∧ a.snd = s.arg2 ∧ a.dst = s.arg3 := ha ▸ ⟨rfl, rfl, rfl⟩
  obtain ⟨hvd, hvs⟩ := fieldEncode_lengths henc
  rw [List.length_replicate] at hvd hvs
  obtain ⟨r, hr⟩ := exists_eq (a' := s.created a (userLen a.cat blk) vd vs)
  have hu := userLen_le a.cat blk
  have hexec := exec_create_done hinv ha hv hprop hfound hblk henc hr
  generalize userLen a.cat blk = u at *
  subst hlen
  have happly : applyLearnBit a.cat a.learn (bitsToBytes vd user.length) = user := by
    refine eq_of_getD_eq (by simp) fun j hj => ?_
    have hj' : j < user.length := by simpa using hj
    rw [huser j hj', getD_applyLearnBit _ _ (by simpa using hj), length_bitsToBytes, hlearn]
  have hdata : createData a user.length vd vs = d := by
    rw [hd, createData_eq_cons, happly, hsnd, List.append_assoc, List.append_assoc]
    rfl
  have hopt : createOpt a = o := by
    rw [ho, createOpt, hdst]
    rfl
  have hdlen : d.length = user.length + 6 := by rw [← hdata, length_createData]
  obtain ⟨htx, hfdlen, hfdata, hfopt⟩ := hinv.contents_telegram (a := a) (vd := vd) (vs := vs) hu
  obtain ⟨hbits, hstat⟩ := hinv.bits_created hr hu hvd hvs
  obtain ⟨hptx, hpdata, hpopt, hpbits⟩ := State.created_past hr hvd
  obtain ⟨hvariant, hsender, hdest⟩ := State.created_view hr
  have hframe := State.created_frame hr
  rw [hdata, hopt, ← State.showRadio_txBytes hr] at htx
  rw [hdata, ← State.showRadio_fDlen hr] at hfdlen
  rw [hdata, ← State.showRadio_dataBytes hr] at hfdata
  rw [hopt, ← State.showRadio_optBytes hr] at hfopt
  rw [happly] at hbits
  rw [← hdlen] at hframe hpdata
  rw [hsnd] at hsender
  rw [hdst] at hdest
  have htxlen : r.txlen = 7 + d.length + 7 := (congrArg State.txlen hframe).trans rfl
  refine ⟨_, hexec, ?_, htx, hfdlen, hfdata, hfopt, hptx, hpdata, hpopt, hpbits, hbits, hstat, hvariant, hsender,
    hdest⟩
  have hres0 : BitVec.ofNat 32 r.txlen = BitVec.ofNat 32 (7 + d.length + 7) := congrArg (BitVec.ofNat 32) htxlen
  calc ({ r with res0 := BitVec.ofNat 32 r.txlen, status := r.status.endedOk .ok } : State)
    _ = { r with res0 := BitVec.ofNat 32 (7 + d.length + 7), status := r.status.endedOk .ok } :=
      congrArg (fun w => { r with res0 := w, status := r.status.endedOk .ok }) hres0
    _ = _ := congrArg (fun p : State =>
      { p with res0 := BitVec.ofNat 32 (7 + d.length + 7), status := p.status.endedOk .ok }) hframe

end Sys2Proof.Machine

/-! A receiver of the frame CREATE built shows what CREATE shows (R213, R222). -/

namespace Sys2Proof.Machine

/-! ### Two parses of one packet -/

/-- `v` shows the packet `t` shows: the view, the selection, the fields, the F registers and the bit vectors (R222). -/
def State.ShowsSame (v t : State) : Prop :=
  v.view = t.view ∧ v.psel = t.psel ∧ v.nfields = t.nfields ∧
    (∀ k < v.nfields, Store.read v.ft k = Store.read t.ft k) ∧
    v.fType = t.fType ∧ v.dataBytes = t.dataBytes ∧ v.optBytes = t.optBytes ∧
    v.dataBits = t.dataBits ∧ v.statBits = t.statBits

section
variable {p q : State} {v : Variant} {t : Byte} {d o : List Byte} {req : Req}

/-- What the parse selects depends on the packet, the request and the catalog alone (R202). -/
theorem State.Inv.fields_showRadio (hp : p.Inv) (hq : q.Inv) (hcfg : p.cfg = q.cfg) (hreq : req.prof = true) :
    (p.showRadio v t d o req).psel = (q.showRadio v t d o req).psel ∧
      (p.showRadio v t d o req).nfields = (q.showRadio v t d o req).nfields ∧
      ∀ k < (p.showRadio v t d o req).nfields,
        Store.read (p.showRadio v t d o req).ft k = Store.read (q.showRadio v t d o req).ft k := by
  rcases hhit : radioHit p.cfg.catalog d req with _ | ⟨sel, recs⟩
  · rw [State.showRadio_of_none hhit, State.showRadio_of_none (hcfg ▸ hhit)]
    simp [State.pselAfter, hreq]
  · rw [State.showRadio_of_some hhit, State.showRadio_of_some (hcfg ▸ hhit)]
    refine ⟨rfl, by simp only [hcfg], fun k hk => Option.some.inj ?_⟩
    exact (hp.read_writeFields recs hk).symm.trans (hq.read_writeFields recs (hcfg ▸ hk))

/-- A radio-class packet in the F registers of two states of one configuration is parsed to the same. -/
theorem State.Inv.showsSame_showRadio (hp : p.Inv) (hq : q.Inv) (hcfg : p.cfg = q.cfg) (hreq : req.prof = true)
    (htype : p.fType = q.fType) (hdata : p.dataBytes = q.dataBytes) (hopt : p.optBytes = q.optBytes) :
    (p.showRadio v t d o req).ShowsSame (q.showRadio v t d o req) := by
  obtain ⟨hpsel, hnfields, hft⟩ := hp.fields_showRadio (v := v) (t := t) (d := d) (o := o) hq hcfg hreq
  refine ⟨?_, hpsel, hnfields, hft, ?_, ?_, ?_, ?_, ?_⟩
  · rw [State.showRadio_view rfl, State.showRadio_view rfl, hcfg]
  · rw [State.showRadio_fType rfl, State.showRadio_fType rfl, htype]
  · rw [State.showRadio_dataBytes rfl, State.showRadio_dataBytes rfl, hdata]
  · rw [State.showRadio_optBytes rfl, State.showRadio_optBytes rfl, hopt]
  · rw [hp.dataBits_showRadio rfl, hq.dataBits_showRadio rfl]
  · rw [hp.statBits_showRadio rfl, hq.statBits_showRadio rfl]

end

/-! ### CREATE that ends OK -/

/-- Where CREATE ends OK, its checks passed, the profile resolved and the fields encoded (R215 to R219). -/
theorem create_ok_cases {s t : State} {learn hasDir hasCmd : Bool} {n : BitVec 16} {a : CreateArgs}
    (ha : a = createArgs learn hasDir hasCmd n s) (ht : exec (.create learn hasDir hasCmd n) s = .next t)
    (hok : t.status.result = .ok) :
    a.valid s.cfg ∧ ∃ x y blk vd vs,
      findProfile s.cfg.catalog a.cat a.func a.vtype a.dir a.cmd = .block x y ∧
      catalogBlock s.cfg.catalog x y = some blk ∧
      fieldEncode blk (List.replicate (8 * userLen a.cat blk) false) (List.replicate 8 false)
        (commandPair s.cfg blk a.cmd ++ s.namedValues n.toNat) = .done vd vs := by
  rcases createFatal_cases s.cfg a with ⟨c, hc, hfatal⟩ | ⟨-, hv⟩
  · rw [exec_create_fatal ha hc hfatal, Host.Outcome.next.injEq] at ht
    subst ht
    obtain rfl : c = .ok := hok
    cases hfatal
  refine ⟨hv, ?_⟩
  have han : a.n = n.toNat := congrArg CreateArgs.n ha
  rw [exec_create_valid ha hv, Host.Outcome.next.injEq] at ht
  cases hfound : findProfile s.cfg.catalog a.cat a.func a.vtype a.dir a.cmd with
  | missing l =>
    rw [createValid_missing hfound] at ht
    subst ht
    cases hok
  | block x y =>
    obtain ⟨_, blk, _, _, _, _, _, hblk⟩ := findProfile_block hfound
    cases henc : fieldEncode blk (List.replicate (8 * userLen a.cat blk) false) (List.replicate 8 false)
        (commandPair s.cfg blk a.cmd ++ s.namedValues a.n) with
    | done vd vs => exact ⟨x, y, blk, vd, vs, rfl, hblk, han ▸ henc⟩
    | rejected c bad =>
      rw [createValid_rejected hfound hblk henc] at ht
      subst ht
      obtain rfl : c = .ok := hok
      rcases fieldEncode_code henc with hc | hc <;> cases hc

/-! ### The receiver -/

section
variable {u : State} {cfg : Cfg} {t : Byte} {d o : List Byte} {v : Variant} {hasDir hasCmd prof : Bool}

/-- What `FrameDecode` gives for one whole frame and nothing after it (R145). -/
def decodedAlone (t : Byte) (d o : List Byte) : DecodeResult where
  status := .ok
  rem := []
  frame := some { ftype := t, data := d, opt := o }
  failAt := 0
  skipped := 0

theorem frameDecode_frameEncode (p : Bool) (hd : d.length ≤ 65535) (ho : o.length ≤ 255) :
    frameDecode p (frameEncode p t d o) = decodedAlone t d o := by
  have hround := (frameRoundTrip.2 p t d o [] hd ho).2.2
  rwa [List.append_nil] at hround

/-- RECV of one whole frame of a radio-class packet ends OK, with RXBUF empty and the packet's parse (R213). -/
theorem exec_recv_alone (hinv : u.Inv) (hdec : frameDecode u.cfg.dcrcType u.rxBytes = decodedAlone t d o)
    (hk : v = .radio ∨ v = .msc ∨ v = .ute) (hv : dispatchOf u.cfg t d = v) (hlong : radioTooShort v d o = false)
    {r : State}
    (hr : r = (u.received (decodedAlone t d o) { ftype := t, data := d, opt := o }).showRadio v t d o
      (reqOfArg prof hasDir hasCmd u.arg0)) :
    exec (.recv prof hasDir hasCmd) u = .next ((r.setRes2 r.view.variant.word).finish .ok) := by
  refine exec_recv_some hdec.symm rfl rfl ?_
  rw [hr]
  exact parsePacket_long (hinv.received hdec.symm rfl) hk (by rwa [State.received_cfg]) hlong

end

/-- A state of the same configuration that receives the built frame parses it as CREATE did: it decodes to CREATE's own
packet (`frameDecode_frameEncode`), and a parse depends on nothing else (`showsSame_showRadio`). -/
theorem State.Inv.recv_created {s w r : State} {a : CreateArgs} {u : Nat} {vd vs : List Bool} {hasDir hasCmd : Bool}
    (hinv : s.Inv) (hw : w.Inv) (hcfg : w.cfg = s.cfg) (hv : a.valid s.cfg) (hcat : a.cat ≠ s.cfg.rorgCdmProp)
    (hu : u ≤ 8192) (hvd : vd.length = 8 * u) (hvs : vs.length = 8) (hr : r = s.created a u vd vs)
    (hrx : w.rxBytes = r.txBytes) (hreq : reqOfArg true hasDir hasCmd w.arg0 = a.request) :
    ∃ q, Machine.exec (.recv true hasDir hasCmd) w = .next q ∧ q.status.result = .ok ∧ q.rxlen = 0 ∧ q.ShowsSame r := by
  obtain ⟨htx, -, hdata, hopt⟩ := hinv.contents_telegram (a := a) (vd := vd) (vs := vs) hu
  have htel := hinv.telegram (a := a) hu hvd hvs
  have hdec : frameDecode w.cfg.dcrcType w.rxBytes = decodedAlone pTypeRadio (createData a u vd vs) (createOpt a) := by
    rw [hrx, State.showRadio_txBytes hr, htx, hcfg]
    exact frameDecode_frameEncode _ (by rw [length_createData]; omega) (by rw [length_createOpt]; decide)
  have hdisp : dispatchOf w.cfg pTypeRadio (createData a u vd vs) = .radio := by
    rw [hcfg]
    exact dispatchOf_createData _ _ hv hcat
  obtain ⟨pre, hpre⟩ := exists_eq (a' := w.received (decodedAlone pTypeRadio (createData a u vd vs) (createOpt a))
    { ftype := pTypeRadio, data := createData a u vd vs, opt := createOpt a })
  obtain ⟨hpreData, hpreOpt⟩ : pre.dataBytes = createData a u vd vs ∧ pre.optBytes = createOpt a :=
    hpre ▸ hw.contents_received hdec.symm rfl
  have hpreInv : pre.Inv := hpre ▸ hw.received hdec.symm rfl
  have hpreCfg : pre.cfg = (s.telegram a u vd vs).cfg := by rw [hpre, State.received_cfg, hcfg, State.telegram_cfg]
  have hpreType : pre.fType = (s.telegram a u vd vs).fType := by rw [hpre, State.received_fType, State.telegram_eq]
  have hpreRx : pre.rxlen = 0 := by
    rw [hpre, State.received_rxlen]
    rfl
  obtain ⟨q, hq⟩ :=
    exists_eq (a' := pre.showRadio .radio pTypeRadio (createData a u vd vs) (createOpt a) a.request)
  have hsame : q.ShowsSame r := by
    rw [hq, hr]
    exact hpreInv.showsSame_showRadio htel hpreCfg rfl hpreType (hpreData.trans hdata.symm) (hpreOpt.trans hopt.symm)
  refine ⟨_, exec_recv_alone (r := q) hw hdec (.inl rfl) hdisp (radioTooShort_create _ _ _) (by rw [hreq, hq, hpre]), rfl,
    (State.showRadio_rxlen hq).trans hpreRx, hsame⟩

/-- Settles O60: a CREATE that ends OK built a telegram (`create_ok_cases`), and `recv_created` has its receiver. -/
theorem createShowsWhatAReceiverSees : Obligations.CreateShowsWhatAReceiverSees := by
  intro s t w learn hasDir hasCmd n hinv hw ht hok hprop hcfg hrx hreq
  obtain ⟨a, ha⟩ := exists_eq (a' := createArgs learn hasDir hasCmd n s)
  obtain ⟨hv, x, y, blk, vd, vs, hfound, hblk, henc⟩ := create_ok_cases ha ht hok
  have hcat : a.cat ≠ s.cfg.rorgCdmProp := ha ▸ hprop
  obtain ⟨hvd, hvs⟩ := fieldEncode_lengths henc
  rw [List.length_replicate] at hvd hvs
  obtain ⟨r, hr⟩ := exists_eq (a' := s.created a (userLen a.cat blk) vd vs)
  rw [exec_create_done hinv ha hv hcat hfound hblk henc hr, Host.Outcome.next.injEq] at ht
  subst ht
  exact hinv.recv_created (r := r) hw hcfg hv hcat (userLen_le a.cat blk) hvd hvs hr hrx (hreq.trans (ha ▸ rfl))

end Sys2Proof.Machine

/-! The bytes of a fragment (R231 to R235, R242): the proprietary declared length as decimal digits, and the view PARSE
shows of it. -/

namespace Sys2Proof.Machine

/-! ### The proprietary declared length -/

theorem ofDigits_decDigits (b : Byte) : Nat.ofDigits 10 (decDigits b) = b.toNat := by
  unfold decDigits
  split
  case isTrue h => simp [h]
  case isFalse => exact Nat.ofDigits_digits 10 b.toNat

/-- `digits` counts the digits of a byte's decimal string (R234). -/
theorem length_decDigits (b : Byte) : (decDigits b).length = digits b := by
  have hb := b.isLt
  unfold decDigits
  split
  case isTrue h => simp [h, digits]
  case isFalse h =>
    have hne : b.toNat ≠ 0 := fun h0 => h (BitVec.eq_of_toNat_eq h0)
    have hlen : ∀ k, (Nat.digits 10 b.toNat).length ≤ k ↔ b.toNat < 10 ^ k := fun k =>
      Nat.digits_length_le_iff (by decide) b.toNat
    have h0 := hlen 0
    have h1 := hlen 1
    have h2 := hlen 2
    have h3 := hlen 3
    unfold digits
    split
    · omega
    · split <;> omega

theorem decLen_eq_ofDigits (a b : Byte) : decLen a b = Nat.ofDigits 10 (decDigits b ++ decDigits a) := by
  rw [Nat.ofDigits_append, ofDigits_decDigits, ofDigits_decDigits, length_decDigits, decLen, Nat.mul_comm, Nat.add_comm]

theorem decLen_le (a b : Byte) : decLen a b ≤ 255255 := by
  have ha := a.isLt
  have hb := b.isLt
  have hd : 10 ^ digits b ≤ 1000 := by
    unfold digits
    split
    · decide
    · split <;> decide
  have hmul : a.toNat * 10 ^ digits b ≤ 255 * 1000 := Nat.mul_le_mul (by omega) hd
  unfold decLen
  omega

/-! ### The view of a fragment -/

/-- Fields of these widths, put together, stand at the places R68 gives them in V_CHAIN. -/
theorem chainWord_fields (z : BitVec 22) (valid prop : Bool) (q i : BitVec 4) {w : BitVec (22 + 1 + 1 + 4 + 4)}
    (hw : w = z ++ BitVec.ofBool valid ++ BitVec.ofBool prop ++ q ++ i) :
    w.extractLsb' 0 4 = i ∧ w.extractLsb' 4 4 = q ∧ w.getLsbD 8 = prop ∧ w.getLsbD 9 = valid ∧
      w.extractLsb' 10 22 = z := by
  subst hw
  refine ⟨BitVec.extractLsb'_append_eq_right, ?_, ?_, ?_, ?_⟩
  · rw [BitVec.extractLsb'_append_eq_of_le (by decide), BitVec.extractLsb'_append_eq_right]
  · simp only [BitVec.getLsbD_append]
    simp
  · simp only [BitVec.getLsbD_append]
    simp
  · rw [BitVec.extractLsb'_append_eq_of_le (by decide), BitVec.extractLsb'_append_eq_of_le (by decide),
      BitVec.extractLsb'_append_eq_of_le (by decide), BitVec.extractLsb'_append_eq_left]

/-- The index is the control byte's low half (R232). -/
theorem fragIdx_toNat (d : List Byte) : (fragIdx d).toNat = (d.getD 1 0).toNat % 16 := by
  simp [fragIdx, BitVec.extractLsb'_toNat]

/-- The sequence number is its high half (R232). -/
theorem fragSeq_toNat (d : List Byte) : (fragSeq d).toNat = (d.getD 1 0).toNat / 16 := by
  have hbyte := (d.getD 1 0).isLt
  have hhalf : (d.getD 1 0).toNat / 16 < 16 := by omega
  rw [fragSeq, BitVec.extractLsb'_toNat, Nat.shiftRight_eq_div_pow]
  exact Nat.mod_eq_of_lt hhalf

section
variable {s : State}

/-- A fragment the F registers hold is not short (R231). -/
theorem State.holdsFragment.not_short (h : s.holdsFragment) : fragTooShort s.dataBytes = false := by
  obtain ⟨-, hfirst, hnext⟩ := h
  rw [← length_dataBytes] at hfirst hnext
  rw [← Bool.not_eq_true, fragTooShort_iff]
  by_cases hidx : fragIdx s.dataBytes = 0
  · have := hfirst hidx
    rintro (hlen | ⟨-, hlen⟩ | ⟨hne, -⟩)
    · omega
    · omega
    · exact hne hidx
  · have := hnext hidx
    rintro (hlen | ⟨hz, -⟩ | ⟨-, hlen⟩)
    · omega
    · exact hidx hz
    · omega

theorem holdsFragment_of_not_short (hd : dispatchOf s.cfg s.fType s.dataBytes = .chained)
    (hs : fragTooShort s.dataBytes = false) : s.holdsFragment := by
  rw [← Bool.not_eq_true, fragTooShort_iff, length_dataBytes] at hs
  push Not at hs
  obtain ⟨-, hfirst, hnext⟩ := hs
  exact ⟨hd, hfirst, hnext⟩

theorem State.holdsFragment.seven_le (h : s.holdsFragment) : 7 ≤ s.dataBytes.length := by
  obtain ⟨-, hfirst, hnext⟩ := h
  rw [length_dataBytes]
  by_cases hidx : fragIdx s.dataBytes = 0
  · exact Nat.le_trans (by decide) (hfirst hidx)
  · exact hnext hidx

end

theorem dest_fragmentView (p : Bool) (t : Byte) (d : List Byte) {o : List Byte} (ho : 6 ≤ o.length) :
    bytes4 (fragmentView p t d o View.cleared).dest = (o.drop 1).take 4 ∧
      (fragmentView p t d o View.cleared).dbm.toInt = -((o.getD 5 0).toNat : Int) := by
  have hdest : (fragmentView p t d o View.cleared).dest = addrWord ((o.drop 1).take 4) := by
    rw [← slice_add]
    exact if_pos ho
  have hdbm : (fragmentView p t d o View.cleared).dbm = -zextByte (o.getD 5 0) := if_pos ho
  rw [hdest, hdbm]
  exact ⟨bytes4_addrWord (by rw [List.length_take, List.length_drop]; omega), toInt_neg_zextByte _⟩

/-- Where the optional field does not reach them, there is no destination and no signal level (R242). -/
theorem dest_fragmentView_short (p : Bool) (t : Byte) (d : List Byte) {o : List Byte} (ho : o.length < 6) :
    (fragmentView p t d o View.cleared).dest = 0 ∧ (fragmentView p t d o View.cleared).dbm = 0 :=
  ⟨if_neg (by omega), if_neg (by omega)⟩

theorem bytes4_fragSender {s : State} (h : s.holdsFragment) :
    bytes4 s.fragSender = (s.dataBytes.drop (s.dataBytes.length - 5)).take 4 := by
  have hlen := h.seven_le
  rw [State.fragSender, senderBytes, show s.dataBytes.length - 1 = s.dataBytes.length - 5 + 4 by omega, slice_add]
  exact bytes4_addrWord (by rw [List.length_take, List.length_drop]; omega)

/-- Settles O51: the declared length by its digits, and the view of a fragment at the fixed offsets. -/
theorem fragmentFields : Obligations.FragmentFields := by
  refine ⟨fun s => chainWord_fields 0 s.view.chainValid s.view.chainProp s.view.chainSeq s.view.chainIdx rfl,
    ⟨fun a b => ⟨decLen_eq_ofDigits a b, decLen_le a b⟩, by decide⟩, ?_⟩
  rintro s d o v h rfl rfl rfl
  have hlen := h.seven_le
  exact ⟨rfl, rfl, some_getD (by omega) 0, bytes4_fragSender h, some_getD (by omega) 0, dest_fragmentView _ _ _,
    dest_fragmentView_short _ _ _, fragIdx_toNat _, fragSeq_toNat _, rfl, rfl, rfl, rfl, rfl, rfl, rfl, rfl,
    show View.cleared.uteWord = 0 by decide⟩

end Sys2Proof.Machine

/-! A slot and its chunks (R238, R240). -/

namespace Sys2Proof.Machine

theorem ChainSlot.append_eq (c : ChainSlot) (ch : List Byte) : c.append ch = { c with acc := (c.append ch).acc } := rfl

/-- Bytes past DECL are dropped one chunk at a time, or all at the end: the same bytes are kept (R238). -/
theorem ChainSlot.append_acc {c : ChainSlot} {l : List Byte} (hc : c.acc = l.take c.decl) (ch : List Byte) :
    (c.append ch).acc = (l ++ ch).take c.decl := by
  have hroom : c.decl - (l.take c.decl).length = c.decl - l.length := by
    rw [List.length_take]
    omega
  show c.acc ++ ch.take (c.decl - c.acc.length) = _
  rw [hc, hroom, List.take_append]

theorem ChainSlot.append_acc_of_le {c : ChainSlot} (hc : c.acc.length ≤ c.decl) (ch : List Byte) :
    (c.append ch).acc = (c.acc ++ ch).take c.decl :=
  ChainSlot.append_acc (List.take_of_length_le hc).symm ch

/-- Appending chunks one by one keeps the first DECL bytes of all of them (R238). -/
theorem ChainSlot.foldl_append (chunks : List (List Byte)) : ∀ (c : ChainSlot) (l : List Byte), c.acc = l.take c.decl →
    chunks.foldl ChainSlot.append c = { c with acc := (l ++ chunks.flatten).take c.decl } := by
  induction chunks with
  | nil =>
    intro c l hc
    rw [List.flatten_nil, List.append_nil, ← hc]
    rfl
  | cons ch chunks ih =>
    intro c l hc
    rw [List.foldl_cons, List.flatten_cons, ← List.append_assoc]
    exact ih (c.append ch) (l ++ ch) (ChainSlot.append_acc hc ch)

/-- Settles O55, by induction on the chunks (`ChainSlot.foldl_append`). -/
theorem chainKeepsFirstDeclBytes : Obligations.ChainKeepsFirstDeclBytes := by
  intro c first chunks hc
  rw [ChainSlot.foldl_append chunks c first hc]
  refine ⟨rfl, ?_, rfl⟩
  rw [List.length_take]
  omega

end Sys2Proof.Machine

/-! The chained case of PARSE (R245): which step of the chain a fragment takes, and from which state. -/

namespace Sys2Proof.Machine

/-! ### The steps of a fragment -/

section
variable {s : State} {t : Byte} {d o : List Byte} {req : Req} {prop : Bool}

theorem chainFeed_first (hs : fragTooShort d = false) (hi : fragIdx d = 0)
    (hp : prop = decide (category d = s.cfg.rorgCdmProp)) :
    chainFeed t d o req s =
      firstFragment (addrWord (senderBytes d)) (fragSeq d) (declaredLen prop d) (firstChunk d) o
        ((s.setView (fragmentView prop t d o s.view)).flagLenooc (lenOutOfContract prop d)) := by
  subst hp
  simp only [chainFeed, hs, hi, Bool.false_eq_true, if_false, if_true]

theorem chainFeed_orphan (hs : fragTooShort d = false) (hi : fragIdx d ≠ 0)
    (hp : prop = decide (category d = s.cfg.rorgCdmProp))
    (hk : slotWithKey s.chain (addrWord (senderBytes d)) (fragSeq d) = none) :
    chainFeed t d o req s = ((s.setView (fragmentView prop t d o s.view)).countOrphan, .chainOrphan) := by
  subst hp
  simp only [chainFeed, hs, hi, Bool.false_eq_true, if_false, State.setView_chain, hk]

theorem chainFeed_continue (hs : fragTooShort d = false) (hi : fragIdx d ≠ 0)
    (hp : prop = decide (category d = s.cfg.rorgCdmProp)) {i : Nat} {c : ChainSlot}
    (hk : slotWithKey s.chain (addrWord (senderBytes d)) (fragSeq d) = some (i, c)) :
    chainFeed t d o req s = continueChain i c (nextChunk d) req (s.setView (fragmentView prop t d o s.view)) := by
  subst hp
  simp only [chainFeed, hs, hi, Bool.false_eq_true, if_false, State.setView_chain, hk]

end

/-- The state the chain's steps start from (R194, R245): the fragment's view shown, no fields, and no selection when a
profile is requested. -/
def State.showFragment (s : State) (req : Req) : State := (s.parseStart req).setView s.fragView

section
variable {s : State} (req : Req)

theorem State.showFragment_eq :
    s.showFragment req = { s with view := s.fragView, nfields := 0, psel := s.pselAfter req.prof } := by
  rw [State.showFragment, State.parseStart_eq]
  rfl

@[simp] theorem State.showFragment_cfg : (s.showFragment req).cfg = s.cfg := s.parseStart_cfg req

@[simp] theorem State.showFragment_chain : (s.showFragment req).chain = s.chain := by rw [State.showFragment_eq]

theorem State.parseStart_setView_fragmentView :
    (s.parseStart req).setView (fragmentView s.fragProp s.fType s.dataBytes s.optBytes (s.parseStart req).view) =
      s.showFragment req := by
  rw [State.parseStart_view]
  rfl

theorem State.fragProp_eq : s.fragProp = decide (category s.dataBytes = (s.parseStart req).cfg.rorgCdmProp) := by
  rw [State.parseStart_cfg]
  rfl

theorem State.parseStart_chain : (s.parseStart req).chain = s.chain := by rw [State.parseStart_eq]

/-- PARSE of a first fragment. -/
theorem parsePacket_first (h : s.holdsFragment) (hi : fragIdx s.dataBytes = 0) :
    parsePacket s.fType s.dataBytes s.optBytes req s =
      firstFragment s.fragSender (fragSeq s.dataBytes) (declaredLen s.fragProp s.dataBytes) (firstChunk s.dataBytes)
        s.optBytes ((s.showFragment req).flagLenooc (lenOutOfContract s.fragProp s.dataBytes)) := by
  rw [parsePacket_chained h.1, chainFeed_first h.not_short hi (State.fragProp_eq req),
    State.parseStart_setView_fragmentView]
  rfl

/-- PARSE of a continuation without a slot. -/
theorem parsePacket_orphan (h : s.holdsFragment) (hi : fragIdx s.dataBytes ≠ 0)
    (hk : ∀ c, some c ∈ s.chain → ¬s.fragKey c) :
    parsePacket s.fType s.dataBytes s.optBytes req s = ((s.showFragment req).countOrphan, .chainOrphan) := by
  have hslot := slotWithKey_none.mpr (State.parseStart_chain req ▸ hk)
  rw [parsePacket_chained h.1, chainFeed_orphan h.not_short hi (State.fragProp_eq req) hslot,
    State.parseStart_setView_fragmentView]

/-- PARSE of a continuation whose slot is found. -/
theorem parsePacket_continue (h : s.holdsFragment) (hi : fragIdx s.dataBytes ≠ 0) {i : Nat} {c : ChainSlot}
    (hk : slotWithKey s.chain s.fragSender (fragSeq s.dataBytes) = some (i, c)) :
    parsePacket s.fType s.dataBytes s.optBytes req s =
      continueChain i c (nextChunk s.dataBytes) req (s.showFragment req) := by
  have hslot := (congrArg (slotWithKey · s.fragSender (fragSeq s.dataBytes)) (State.parseStart_chain req)).trans hk
  rw [parsePacket_chained h.1, chainFeed_continue h.not_short hi (State.fragProp_eq req) hslot,
    State.parseStart_setView_fragmentView]

/-- In a table that meets the invariant the slot of the fragment's key is the one found (R70). -/
theorem State.Inv.slotWithKey_of_fragKey (hinv : s.Inv) {i : Nat} {c : ChainSlot} (hc : s.chain[i]? = some (some c))
    (hk : s.fragKey c) : slotWithKey s.chain s.fragSender (fragSeq s.dataBytes) = some (i, c) := by
  obtain ⟨hsender, hseq⟩ := hk
  rw [← hsender, ← hseq]
  exact slotWithKey_of_slot hinv.chainKeys hc

end

/-! ### The first fragment -/

section
variable {s : State} {snd : Word} {seq : BitVec 4} {decl : Nat} {ch o : List Byte}

theorem firstFragment_tooLong (h : s.cfg.chainMaxLen < decl) :
    firstFragment snd seq decl ch o s = (s, .chainTooLong) := if_pos h

theorem firstFragment_full (hle : decl ≤ s.cfg.chainMaxLen) (h : slotFor s.chain snd seq = none) :
    firstFragment snd seq decl ch o s = (s, .chainFull) := by
  simp only [firstFragment, Nat.not_lt.mpr hle, if_false, h]

theorem firstFragment_slot (hle : decl ≤ s.cfg.chainMaxLen) {i : Nat} (h : slotFor s.chain snd seq = some i) :
    firstFragment snd seq decl ch o s =
      (s.setChain (s.chain.set i (some { sender := snd, seq := seq, decl := decl, acc := ch.take decl, opt := o })),
        .chainPending) := by
  simp only [firstFragment, Nat.not_lt.mpr hle, if_false, h]

end

section
variable {ct : List (Option ChainSlot)} {snd : Word} {seq : BitVec 4}

theorem slotFor_of_slot (hkeys : ct.Pairwise fun x y => keysDiffer x y = true) {i : Nat} {c : ChainSlot}
    (hi : ct[i]? = some (some c)) (hs : c.sender = snd) (hq : c.seq = seq) : slotFor ct snd seq = some i := by
  subst hs hq
  rw [slotFor, findKey_of_slot hkeys hi]

theorem slotFor_of_no_key (h : ∀ c, some c ∈ ct → ¬(c.sender = snd ∧ c.seq = seq)) :
    slotFor ct snd seq = findFree ct := by
  rw [slotFor, findKey_none.mpr h]

end

/-- What a first fragment leaves, by the slot it takes (R236, R237): the chain table and the code. -/
theorem firstFragment_outcome (snd : Word) (seq : BitVec 4) (decl : Nat) (ch o : List Byte) (s : State) :
    ∃ ct code, firstFragment snd seq decl ch o s = (s.setChain ct, code) ∧
      (s.cfg.chainMaxLen < decl → code = .chainTooLong ∧ ct = s.chain) ∧
      (decl ≤ s.cfg.chainMaxLen →
        (∀ i, slotFor s.chain snd seq = some i →
          code = .chainPending ∧
            ct = s.chain.set i (some { sender := snd, seq := seq, decl := decl, acc := ch.take decl, opt := o })) ∧
        (slotFor s.chain snd seq = none → code = .chainFull ∧ ct = s.chain)) := by
  rcases Nat.lt_or_ge s.cfg.chainMaxLen decl with hlt | hle
  · exact ⟨_, _, firstFragment_tooLong hlt, fun _ => ⟨rfl, rfl⟩, fun hle => absurd hlt (Nat.not_lt.mpr hle)⟩
  · cases hslot : slotFor s.chain snd seq with
    | none =>
      exact ⟨_, _, firstFragment_full hle hslot, fun hlt => absurd hlt (Nat.not_lt.mpr hle),
        fun _ => ⟨fun _ h => absurd h (by simp), fun _ => ⟨rfl, rfl⟩⟩⟩
    | some i =>
      exact ⟨_, _, firstFragment_slot hle hslot, fun hlt => absurd hlt (Nat.not_lt.mpr hle),
        fun _ => ⟨fun _ h => Option.some.inj h ▸ ⟨rfl, rfl⟩, fun h => absurd h (by simp)⟩⟩

/-- The declared length of a first fragment (R233, R234). -/
theorem declaredLen_eq (prop : Bool) {d : List Byte} (hd : 4 ≤ d.length) :
    declaredLen prop d =
      if prop then decLen (d.getD 2 0) (d.getD 3 0) else (d.getD 2 0).toNat * 256 + (d.getD 3 0).toNat := by
  have hcombine : combine (slice d 2 4) = (d.getD 2 0).toNat * 256 + (d.getD 3 0).toNat := by
    match d, hd with
    | _ :: _ :: x :: y :: _, _ => simp [slice, combine]
  rw [declaredLen, hcombine]

/-- PARSE of a first fragment whose declared length is `decl` (R245): what it writes, and by which slot its key gets the
chain table and the code. LENOOC comes from the two length bytes alone (R234). -/
theorem exec_parse_first {s : State} (h : s.holdsFragment) (hidx : fragIdx s.dataBytes = 0) {decl : Nat}
    (hdecl : declaredLen s.fragProp s.dataBytes = decl) (prof hasDir hasCmd : Bool) :
    ∃ ct code,
      exec (.parse prof hasDir hasCmd) s =
        .next
          { s with
            view := s.fragView, nfields := 0, psel := s.pselAfter prof, res0 := 6, chain := ct
            status :=
              { s.status.endedOk code with
                lenooc := s.status.lenooc || lenOutOfContract s.fragProp s.dataBytes } } ∧
      (s.cfg.chainMaxLen < decl → code = .chainTooLong ∧ ct = s.chain) ∧
      (decl ≤ s.cfg.chainMaxLen →
        (∀ i, slotFor s.chain s.fragSender (fragSeq s.dataBytes) = some i →
          code = .chainPending ∧
            ct = s.chain.set i (some
              { sender := s.fragSender, seq := fragSeq s.dataBytes, decl := decl
                acc := (firstChunk s.dataBytes).take decl, opt := s.optBytes })) ∧
        (slotFor s.chain s.fragSender (fragSeq s.dataBytes) = none → code = .chainFull ∧ ct = s.chain)) := by
  obtain ⟨x, hx⟩ := exists_eq (a' := (s.showFragment (reqOfArg prof hasDir hasCmd s.arg0)).flagLenooc
    (lenOutOfContract s.fragProp s.dataBytes))
  have hchain : x.chain = s.chain := by rw [hx, State.flagLenooc_chain, State.showFragment_chain]
  have hcfg : x.cfg = s.cfg := by rw [hx, State.flagLenooc_cfg, State.showFragment_cfg]
  obtain ⟨ct, code, hfirst, houtcome⟩ :=
    firstFragment_outcome s.fragSender (fragSeq s.dataBytes) decl (firstChunk s.dataBytes) s.optBytes x
  rw [hchain, hcfg] at houtcome
  have hparse := parsePacket_first (reqOfArg prof hasDir hasCmd s.arg0) h hidx
  rw [hdecl, ← hx, hfirst] at hparse
  refine ⟨ct, code, (exec_parse hparse).trans ?_, houtcome⟩
  rw [hx, State.showFragment_eq]
  rfl

end Sys2Proof.Machine

namespace Sys2Proof

open Machine

/-- Settles O52: PARSE of a first fragment (`exec_parse_first`), by the slot its key gets (R236). -/
theorem firstFragment : Obligations.FirstFragment := by
  rintro s prof hasDir hasCmd d decl slot hinv h rfl hidx hdecl rfl
  have hlen := h.seven_le
  have hdecl' : declaredLen s.fragProp s.dataBytes = decl := (declaredLen_eq s.fragProp (by omega)).trans hdecl.symm
  obtain ⟨ct, code, hexec, htoo, hfit⟩ := exec_parse_first h hidx hdecl' prof hasDir hasCmd
  refine ⟨_, code, hexec, rfl, htoo, fun hle => ?_⟩
  obtain ⟨htaken, hfull⟩ := hfit hle
  refine ⟨fun i c hc hk => htaken i (slotFor_of_slot hinv.chainKeys hc hk.1 hk.2), fun hno => ?_⟩
  have hfree := slotFor_of_no_key hno
  exact ⟨fun i hi hleast => htaken i (hfree.trans (findFree_some.mpr ⟨hi, hleast⟩)),
    fun hn => hfull (hfree.trans (findFree_none.mpr hn))⟩

end Sys2Proof

/-! PARSE of a continuation (R238 to R241). -/

namespace Sys2Proof.Machine

/-! ### A chunk appended -/

section
variable {s : State} {i : Nat} {c : ChainSlot} {ch : List Byte} {req : Req}

theorem continueChain_pending (h : (c.append ch).acc.length ≠ (c.append ch).decl) :
    continueChain i c ch req s = (s.setChain (s.chain.set i (some (c.append ch))), .chainPending) := if_neg h

theorem continueChain_complete (h : (c.append ch).acc.length = (c.append ch).decl) :
    continueChain i c ch req s = complete i (c.append ch) req (s.setChain (s.chain.set i (some (c.append ch)))) :=
  if_pos h

/-- A chunk completes its slot exactly when the bytes reach DECL (R240). -/
theorem ChainSlot.append_complete_iff (hc : c.acc.length ≤ c.decl) :
    (c.append ch).acc.length = (c.append ch).decl ↔ c.decl ≤ c.acc.length + ch.length := by
  show (c.append ch).acc.length = c.decl ↔ _
  rw [ChainSlot.append_acc_of_le hc, List.length_take, List.length_append]
  omega

/-- A chunk that does not reach DECL is kept whole (R238). -/
theorem ChainSlot.append_of_lt (h : c.acc.length + ch.length < c.decl) :
    c.append ch = { c with acc := c.acc ++ ch } := by
  rw [ChainSlot.append_eq, ChainSlot.append_acc_of_le (by omega), List.take_of_length_le]
  rw [List.length_append]
  omega

end

/-- Settles O53: an orphan (`parsePacket_orphan`), or a chunk that does not complete its slot. -/
theorem continuation : Obligations.Continuation := by
  rintro s prof hasDir hasCmd d hinv h rfl hidx
  refine ⟨fun hno => (exec_parse (parsePacket_orphan _ h hidx hno)).trans ?_, fun i c hc hk hlt => ?_⟩
  · rw [State.showFragment_eq]
    rfl
  change c.acc.length + (nextChunk s.dataBytes).length < c.decl at hlt
  have hle : c.acc.length ≤ c.decl := by omega
  have hpending : (c.append (nextChunk s.dataBytes)).acc.length ≠ (c.append (nextChunk s.dataBytes)).decl :=
    fun hdone => absurd ((ChainSlot.append_complete_iff hle).mp hdone) (Nat.not_le.mpr hlt)
  have hparse := parsePacket_continue (reqOfArg prof hasDir hasCmd s.arg0) h hidx (hinv.slotWithKey_of_fragKey hc hk)
  rw [continueChain_pending hpending, ChainSlot.append_of_lt hlt, State.showFragment_eq] at hparse
  exact exec_parse hparse

/-! ### The completing chunk -/

section
variable {t : Byte} {d o : List Byte} {req : Req}

/-- What a parse does depends on its state only through the state a variant's parse starts from (R194). -/
theorem parsePacket_congr {s s' : State} (h : s.parseStart req = s'.parseStart req) :
    parsePacket t d o req s = parsePacket t d o req s' := by
  have hcfg : s.cfg = s'.cfg := by rw [← s.parseStart_cfg req, h, State.parseStart_cfg]
  have hstart : s.clearView.dropProfile req = s'.clearView.dropProfile req := h
  simp only [parsePacket, parseWith, hstart, hcfg]

/-- Starting a parse again changes nothing. -/
theorem State.parseStart_restart (s : State) (v : View) (n : Nat) :
    State.parseStart { s with view := v, nfields := n, psel := s.pselAfter req.prof } req = s.parseStart req := by
  rw [State.parseStart_eq, State.parseStart_eq]
  cases req.prof <;> rfl

/-- The re-entered Parse is Parse, as the synthetic packet is no fragment (R241). -/
theorem parseSynthetic_eq {s : State} {c : ChainSlot} (h : s.cfg.legal = true) :
    parseSynthetic (syntheticData c) o req s = parsePacket pTypeRadio (syntheticData c) o req s := by
  have hmsc : dispatchOf s.cfg pTypeRadio (syntheticData c) = .msc := dispatchOf_synthetic h c
  simp only [parseSynthetic, parsePacket, parseWith, hmsc]

end

/-- The synthetic frame's state (R241): the slot removed, and the packet in the F registers. -/
def State.loadSynthetic (s : State) (i : Nat) (c : ChainSlot) : State :=
  (s.setChain (s.chain.set i none)).loadFrame pTypeRadio (syntheticData c) c.opt

section
variable {s : State} {i : Nat} {c : ChainSlot} {req : Req}

theorem syntheticData_eq {x : List Byte} (hx : c.acc = x.take c.decl) :
    syntheticData c = [0xD1] ++ x.take c.decl ++ bytes4 c.sender ++ [0x00] := by
  have hslice : slice c.acc 0 c.decl = x.take c.decl := by rw [hx, slice, List.drop_zero, List.take_take, Nat.min_self]
  rw [syntheticData, hslice]
  rfl

/-- A completed slot's packet fits the frame buffers (R6), and is held by the F registers. -/
theorem State.Inv.contents_loadSynthetic (h : s.Inv) (hdecl : c.decl ≤ s.cfg.chainMaxLen)
    (hopt : c.opt.length ≤ 255) :
    (s.loadSynthetic i c).Inv ∧ (s.loadSynthetic i c).dataBytes = syntheticData c ∧
      (s.loadSynthetic i c).optBytes = c.opt := by
  have hmax := Cfg.legal_chainMaxLen h.cfgLegal
  have hlen : (syntheticData c).length ≤ 65535 := by
    rw [length_syntheticData]
    omega
  have hfree : (s.setChain (s.chain.set i none)).Inv :=
    h.setChain (by rw [List.length_set, h.chainLen]) (slots_set h.chainSlotsOk i none rfl)
      (pairwise_set_none h.chainKeys i)
  exact ⟨hfree.loadFrame pTypeRadio hlen hopt, (hfree.dataBytes_loadFrame pTypeRadio c.opt hlen).2,
    (hfree.optBytes_loadFrame pTypeRadio (syntheticData c) hopt).2⟩

/-- The view a completed chain leaves (R241): the parse's, shown as CHAINED with the fragment's V_CHAIN. -/
def View.completing (v frag : View) : View :=
  { v with
    variant := .chained, chainIdx := frag.chainIdx, chainSeq := frag.chainSeq, chainProp := frag.chainProp
    chainValid := frag.chainValid }

/-- The continuation that completes its slot re-enters Parse on the synthetic frame (R241). -/
theorem parsePacket_completing (hinv : s.Inv) (h : s.holdsFragment) (hidx : fragIdx s.dataBytes ≠ 0)
    (hc : s.chain[i]? = some (some c)) (hk : s.fragKey c) {k : ChainSlot} (hslot : k = c.append (nextChunk s.dataBytes))
    (hdone : k.acc.length = k.decl) {u : State} {code : ResultCode}
    (hu : parsePacket pTypeRadio (syntheticData k) k.opt req (s.loadSynthetic i k) = (u, code)) :
    parsePacket s.fType s.dataBytes s.optBytes req s = (u.setView (u.view.completing s.fragView), code) := by
  subst hslot
  obtain ⟨k, hslot⟩ := exists_eq (a' := c.append (nextChunk s.dataBytes))
  rw [parsePacket_continue req h hidx (hinv.slotWithKey_of_fragKey hc hk), continueChain_complete hdone]
  rw [← hslot] at hu ⊢
  obtain ⟨p, hp⟩ := exists_eq
    (a' := ((s.showFragment req).setChain ((s.showFragment req).chain.set i (some k))).loadSynthetic i k)
  have hstate : p = { s.loadSynthetic i k with view := s.fragView, nfields := 0, psel := s.pselAfter req.prof } := by
    rw [hp, State.loadSynthetic, State.setChain_chain, List.set_set, State.showFragment_eq]
    rfl
  have hsame : parseSynthetic (syntheticData k) k.opt req p = (u, code) := by
    rw [parseSynthetic_eq (show p.cfg.legal = true by rw [hstate]; exact hinv.cfgLegal), ← hu, hstate]
    exact parsePacket_congr (State.parseStart_restart _ _ _)
  have hview : (s.showFragment req).view = s.fragView := by rw [State.showFragment_eq]
  rw [hp] at hsame
  have hcomplete : complete i k req ((s.showFragment req).setChain ((s.showFragment req).chain.set i (some k))) =
      (u.setView (u.view.completing (s.showFragment req).view), code) :=
    congrArg (fun r : State × ResultCode => (r.1.setView (r.1.view.completing (s.showFragment req).view), r.2)) hsame
  rw [hcomplete, hview]

/-- PARSE of the synthetic frame is an MSC parse, or the degraded view where the optional bytes are too few (R241). -/
theorem parsePacket_synthetic (hinv : s.Inv) {u : State} {code : ResultCode}
    (hu : parsePacket pTypeRadio (syntheticData c) c.opt req s = (u, code)) :
    (6 ≤ c.opt.length → u.view.variant = .msc ∧ code = .ok) ∧
      (c.opt.length < 6 →
        u.view =
            { View.cleared with
              variant := .generic, ptype := 0x01, rorg := 0xD1
              flags := { View.cleared.flags with degraded := true } } ∧
          code = .malformed) := by
  have hmsc := dispatchOf_synthetic hinv.cfgLegal c
  have hshort : radioTooShort .msc (syntheticData c) c.opt = true ↔ c.opt.length < 6 := by
    rw [radioTooShort_iff, length_syntheticData]
    simp
  refine ⟨fun ho => ?_, fun ho => ?_⟩
  · have hlong : radioTooShort .msc (syntheticData c) c.opt = false := by
      rw [← Bool.not_eq_true, hshort]
      omega
    rw [parsePacket_long hinv (.inr (.inl rfl)) hmsc hlong] at hu
    cases hu
    exact ⟨rfl, rfl⟩
  · rw [parsePacket_radio (.inr (.inl rfl)) hmsc, parseRadio_short (hshort.mpr ho), degrade_parseStart] at hu
    cases hu
    exact ⟨rfl, rfl⟩

end

/-- Settles O54: the completing continuation re-enters Parse (`parsePacket_completing`) with the frame the F registers
hold, which is `m`'s own parse. -/
theorem completion : Obligations.Completion := by
  rintro s prof hasDir hasCmd d i c hinv h rfl hidx hc hk hle
  obtain ⟨hacc, hmax, hopt⟩ := hinv.slot hc
  obtain ⟨k, hslot⟩ := exists_eq (a' := c.append (nextChunk s.dataBytes))
  have hkeep : k.decl = c.decl ∧ k.opt = c.opt ∧ k.sender = c.sender := hslot ▸ ⟨rfl, rfl, rfl⟩
  obtain ⟨hdecl, hkopt, hsender⟩ := hkeep
  have hkacc : k.acc = (c.acc ++ nextChunk s.dataBytes).take k.decl := by
    rw [hdecl, hslot]
    exact ChainSlot.append_acc_of_le hacc _
  have hdone : k.acc.length = k.decl := hslot ▸ (ChainSlot.append_complete_iff hacc).mpr hle
  have hdata : syntheticData k =
      [0xD1] ++ (c.acc ++ slice s.dataBytes 2 (s.dataBytes.length - 5)).take c.decl ++ bytes4 c.sender ++ [0x00] := by
    rw [syntheticData_eq hkacc, hdecl, hsender]
    rfl
  obtain ⟨m, hm⟩ := exists_eq (a' := s.loadSynthetic i k)
  obtain ⟨hminv, hmdata, hmopt⟩ : m.Inv ∧ m.dataBytes = syntheticData k ∧ m.optBytes = k.opt :=
    hm ▸ hinv.contents_loadSynthetic (hdecl ▸ hmax) (hkopt ▸ hopt)
  obtain ⟨u, code, hu⟩ : ∃ u code,
      parsePacket pTypeRadio (syntheticData k) k.opt (reqOfArg prof hasDir hasCmd s.arg0) m = (u, code) := ⟨_, _, rfl⟩
  obtain ⟨hlong, hshort⟩ := parsePacket_synthetic hminv hu
  have hmparse : parsePacket m.fType m.dataBytes m.optBytes (reqOfArg prof hasDir hasCmd m.arg0) m = (u, code) := by
    have htype : m.fType = pTypeRadio := hm ▸ rfl
    have harg : m.arg0 = s.arg0 := hm ▸ rfl
    rw [htype, harg, hmdata, hmopt, hu]
  have hsparse := parsePacket_completing hinv h hidx hc hk hslot hdone (hm ▸ hu)
  refine ⟨m, _, ?_, hmdata.trans hdata, hmopt.trans hkopt, exec_parse hmparse, hkopt ▸ hlong, hkopt ▸ hshort,
    exec_parse hsparse⟩
  rw [hm, State.loadSynthetic, hdata, hkopt]
  rfl

end Sys2Proof.Machine

/-! What PARSE does with the chain table (R243): a packet that is no fragment ignores it, and a fragment writes one slot
at most, its key's or a free one. -/

namespace Sys2Proof.Machine

/-! ### Parses that ignore the chain table -/

/-- A parse neither reads the chain table nor writes it. -/
def IgnoresChain (f : State → State × ResultCode) : Prop :=
  ∀ (s : State) (ct : List (Option ChainSlot)), f (s.setChain ct) = ((f s).1.setChain ct, (f s).2)

theorem IgnoresChain.chain {f : State → State × ResultCode} (h : IgnoresChain f) (s : State) :
    (f s).1.chain = s.chain :=
  congrArg (fun r : State × ResultCode => r.1.chain) (h s s.chain)

section
variable (t : Byte) (d o : List Byte) (req : Req)

theorem ignoresChain_degrade : IgnoresChain (degrade t d) := fun _ _ => rfl

theorem State.select_setChain (s : State) (hit : Option (Psel × List FieldRec)) (ct : List (Option ChainSlot)) :
    (s.setChain ct).select hit = (s.select hit).setChain ct := by
  cases hit <;> rfl

theorem fieldStep_setChain (k : Byte) (cmd : Option Byte) (s : State) (ct : List (Option ChainSlot)) :
    fieldStep k cmd req (s.setChain ct) = (fieldStep k cmd req s).setChain ct := by
  obtain ⟨hit, hhit⟩ := exists_eq (a' := fieldHit s.cfg.catalog k cmd req s.dataBits s.statBits)
  rw [fieldStep_eq s k cmd req hhit, fieldStep_eq (s.setChain ct) k cmd req hhit, State.select_setChain]
  rfl

theorem parseRadioFull_setChain (v : Variant) (s : State) (ct : List (Option ChainSlot)) :
    parseRadioFull v t d o req (s.setChain ct) = (parseRadioFull v t d o req s).setChain ct := by
  obtain ⟨b, hb⟩ := exists_eq (a' := (s.loadBits d).dataBits)
  have hload : (s.setChain ct).loadBits d = (s.loadBits d).setChain ct := rfl
  have hview : ∀ (x : State) (w : View), (x.setChain ct).setView w = (x.setView w).setChain ct := fun _ _ => rfl
  rw [parseRadioFull_steps (s := s.setChain ct) hb rfl, parseRadioFull_steps hb rfl, hload, State.setChain_view, hview,
    fieldStep_setChain]
  rfl

theorem ignoresChain_parseRadio (v : Variant) : IgnoresChain (parseRadio v t d o req) := by
  intro s ct
  unfold parseRadio
  split
  · exact ignoresChain_degrade t d s ct
  · exact congrArg (·, ResultCode.ok) (parseRadioFull_setChain t d o req v s ct)

theorem State.parseStart_setChain (s : State) (ct : List (Option ChainSlot)) :
    (s.setChain ct).parseStart req = (s.parseStart req).setChain ct := by
  rw [State.parseStart_eq, State.parseStart_eq]
  rfl

theorem ignoresChain_parseWith {chained : State → State × ResultCode} (h : IgnoresChain chained) :
    IgnoresChain (parseWith chained t d o req) := by
  intro s ct
  have hdisp : dispatchOf (s.setChain ct).cfg t d = dispatchOf s.cfg t d := rfl
  have hstart : (s.setChain ct).clearView.dropProfile req = (s.clearView.dropProfile req).setChain ct :=
    s.parseStart_setChain req ct
  unfold parseWith
  simp only [hstart, hdisp]
  cases dispatchOf s.cfg t d with
  | generic | response | event | noPacket => rfl
  | radio | msc | ute => exact ignoresChain_parseRadio t d o req _ _ ct
  | chained => exact h _ ct

theorem ignoresChain_parseSynthetic : IgnoresChain (parseSynthetic d o req) :=
  ignoresChain_parseWith pTypeRadio d o req (ignoresChain_degrade pTypeRadio d)

end

/-- A packet that is no fragment, or a fragment too short for its index, parses as one without chains. -/
theorem parsePacket_of_not_holdsFragment {s : State} (h : ¬s.holdsFragment) (req : Req) :
    parsePacket s.fType s.dataBytes s.optBytes req s =
      parseWith (degrade s.fType s.dataBytes) s.fType s.dataBytes s.optBytes req s := by
  by_cases hd : dispatchOf s.cfg s.fType s.dataBytes = .chained
  · have hs : fragTooShort s.dataBytes = true := by
      rw [← Bool.not_eq_false]
      exact fun hs => h (holdsFragment_of_not_short hd hs)
    rw [parsePacket_chained hd, chainFeed_short hs]
    simp only [parseWith, hd]
    rfl
  · cases hv : dispatchOf s.cfg s.fType s.dataBytes with
    | chained => exact absurd hv hd
    | generic | radio | ute | response | event | msc | noPacket => simp only [parsePacket, parseWith, hv]

/-! ### The slot of a continuation -/

/-- A continuation's step is one next state, one slot and one code, whatever the table and wherever the slot stands. -/
theorem continueChain_writes_slot (c : ChainSlot) (ch : List Byte) (req : Req) (s : State) :
    ∃ (r : State) (slot : Option ChainSlot) (code : ResultCode), ∀ ct i,
      continueChain i c ch req (s.setChain ct) = (r.setChain (ct.set i slot), code) := by
  by_cases hdone : (c.append ch).acc.length = (c.append ch).decl
  · obtain ⟨k, hk⟩ := exists_eq (a' := c.append ch)
    obtain ⟨r, code, hr⟩ : ∃ r code,
        parseSynthetic (syntheticData k) k.opt req (s.loadFrame pTypeRadio (syntheticData k) k.opt) = (r, code) :=
      ⟨_, _, rfl⟩
    refine ⟨r.setView (r.view.completing s.view), none, code, fun ct i => ?_⟩
    have hsynth : parseSynthetic (syntheticData k) k.opt req
        ((s.setChain ((ct.set i (some k)).set i none)).loadFrame pTypeRadio (syntheticData k) k.opt) =
          (r.setChain (ct.set i none), code) := by
      rw [List.set_set]
      have hcommute := ignoresChain_parseSynthetic (syntheticData k) k.opt req
        (s.loadFrame pTypeRadio (syntheticData k) k.opt) (ct.set i none)
      rw [hr] at hcommute
      exact hcommute
    rw [continueChain_complete hdone, ← hk]
    exact congrArg (fun x : State × ResultCode => (x.1.setView (x.1.view.completing s.view), x.2)) hsynth
  · exact ⟨s, some (c.append ch), .chainPending, fun ct i => continueChain_pending hdone⟩

/-! ### The slot PARSE writes -/

theorem firstFragment_writes_slot (snd : Word) (seq : BitVec 4) (decl : Nat) (ch o : List Byte) (s : State) :
    (firstFragment snd seq decl ch o s).1.chain = s.chain ∨
      ∃ i slot, slotFor s.chain snd seq = some i ∧
        (firstFragment snd seq decl ch o s).1.chain = s.chain.set i slot := by
  rcases Nat.lt_or_ge s.cfg.chainMaxLen decl with hlt | hle
  · rw [firstFragment_tooLong hlt]
    exact .inl rfl
  · cases hslot : slotFor s.chain snd seq with
    | none =>
      rw [firstFragment_full hle hslot]
      exact .inl rfl
    | some i =>
      rw [firstFragment_slot hle hslot]
      exact .inr ⟨i, _, rfl, rfl⟩

/-- The slot at `i` is free, or holds the key of the fragment the F registers hold. -/
def State.freeOrKeyed (s : State) (i : Nat) : Prop :=
  s.chain[i]? = some none ∨ ∃ k, s.chain[i]? = some (some k) ∧ s.fragKey k

section
variable {s : State} (req : Req)

/-- PARSE writes one slot at most, which was free or held the fragment's key (R236, R238, R240). -/
theorem parsePacket_writes_slot :
    (parsePacket s.fType s.dataBytes s.optBytes req s).1.chain = s.chain ∨
      ∃ i slot, s.freeOrKeyed i ∧
        (parsePacket s.fType s.dataBytes s.optBytes req s).1.chain = s.chain.set i slot := by
  by_cases h : s.holdsFragment
  case neg =>
    rw [parsePacket_of_not_holdsFragment h]
    exact .inl ((ignoresChain_parseWith _ _ _ req (ignoresChain_degrade s.fType s.dataBytes)).chain s)
  by_cases hidx : fragIdx s.dataBytes = 0
  · have hfirst := firstFragment_writes_slot s.fragSender (fragSeq s.dataBytes)
      (declaredLen s.fragProp s.dataBytes) (firstChunk s.dataBytes) s.optBytes
      ((s.showFragment req).flagLenooc (lenOutOfContract s.fragProp s.dataBytes))
    rw [← parsePacket_first req h hidx, State.flagLenooc_chain, State.showFragment_chain] at hfirst
    obtain hkeep | ⟨i, slot, hslot, hwrite⟩ := hfirst
    · exact .inl hkeep
    · exact .inr ⟨i, slot, (slotFor_some hslot).symm.imp_left And.left, hwrite⟩
  · cases hslot : slotWithKey s.chain s.fragSender (fragSeq s.dataBytes) with
    | none =>
      rw [parsePacket_orphan req h hidx (slotWithKey_none.mp hslot), State.countOrphan_chain, State.showFragment_chain]
      exact .inl rfl
    | some p =>
      obtain ⟨i, k⟩ := p
      obtain ⟨r, slot, code, hwrites⟩ := continueChain_writes_slot k (nextChunk s.dataBytes) req (s.showFragment req)
      have hstep : continueChain i k (nextChunk s.dataBytes) req (s.showFragment req) =
          (r.setChain ((s.showFragment req).chain.set i slot), code) := hwrites _ i
      obtain ⟨hi, hkey⟩ := slotWithKey_some hslot
      rw [parsePacket_continue req h hidx hslot, hstep, State.setChain_chain, State.showFragment_chain]
      exact .inr ⟨i, slot, .inr ⟨k, hi, hkey⟩, rfl⟩

/-- A slot of another key is neither free nor the fragment's, so PARSE keeps it (R243). -/
theorem parsePacket_keeps_slot {j : Nat} {c : ChainSlot} (hc : s.chain[j]? = some (some c)) (hk : ¬s.fragKey c) :
    (parsePacket s.fType s.dataBytes s.optBytes req s).1.chain[j]? = some (some c) := by
  obtain hkeep | ⟨i, slot, hi, hwrite⟩ := parsePacket_writes_slot (s := s) req
  · rw [hkeep, hc]
  have hij : i ≠ j := by
    rintro rfl
    obtain hfree | ⟨k, hheld, hkey⟩ := hi
    · simp [hfree] at hc
    · rw [hheld] at hc
      cases hc
      exact hk hkey
  rw [hwrite, List.getElem?_set_ne hij, hc]

/-- PARSE of two tables that agree in the continuation's slot: one next state, the tables apart, and one slot left. -/
theorem parsePacket_slot_alone {ct : List (Option ChainSlot)} {i i' : Nat} {c : ChainSlot} (hinv : s.Inv)
    (hinv' : (s.setChain ct).Inv) (hidx : fragIdx s.dataBytes ≠ 0) (hc : s.chain[i]? = some (some c))
    (hc' : ct[i']? = some (some c)) (hk : s.fragKey c) :
    ∃ (r : State) (code : ResultCode) (new new' : List (Option ChainSlot)),
      parsePacket s.fType s.dataBytes s.optBytes req s = (r.setChain new, code) ∧
        parsePacket s.fType s.dataBytes s.optBytes req (s.setChain ct) = (r.setChain new', code) ∧
        new'[i']? = new[i]? := by
  by_cases h : s.holdsFragment
  case neg =>
    have hignore := ignoresChain_parseWith s.fType s.dataBytes s.optBytes req (ignoresChain_degrade s.fType s.dataBytes)
    have hplain := parsePacket_of_not_holdsFragment h req
    have hplain' := parsePacket_of_not_holdsFragment (s := s.setChain ct) h req
    exact ⟨_, _, s.chain, ct, hplain.trans (hignore s s.chain), hplain'.trans (hignore s ct), hc'.trans hc.symm⟩
  obtain ⟨r, slot, code, hwrites⟩ := continueChain_writes_slot c (nextChunk s.dataBytes) req (s.showFragment req)
  have hshow : (s.setChain ct).showFragment req = (s.showFragment req).setChain ct := by
    rw [State.showFragment_eq, State.showFragment_eq]
    rfl
  have hstep : continueChain i c (nextChunk s.dataBytes) req (s.showFragment req) =
      (r.setChain ((s.showFragment req).chain.set i slot), code) := hwrites _ i
  have hstep' : continueChain i' c (nextChunk s.dataBytes) req ((s.setChain ct).showFragment req) =
      (r.setChain (ct.set i' slot), code) := by rw [hshow, hwrites]
  have hparse := parsePacket_continue req h hidx (hinv.slotWithKey_of_fragKey hc hk)
  have hparse' := parsePacket_continue (s := s.setChain ct) req h hidx (hinv'.slotWithKey_of_fragKey hc' hk)
  refine ⟨r, code, _, _, hparse.trans hstep, hparse'.trans hstep', ?_⟩
  obtain ⟨hi, -⟩ := List.getElem?_eq_some_iff.mp hc
  obtain ⟨hi', -⟩ := List.getElem?_eq_some_iff.mp hc'
  rw [State.showFragment_chain, List.getElem?_set_self hi, List.getElem?_set_self hi']

end

/-- Settles O56: what PARSE keeps (`parsePacket_keeps_slot`), and two runs side by side (`parsePacket_slot_alone`). -/
theorem chainsDoNotInterfere : Obligations.ChainsDoNotInterfere := by
  refine ⟨fun s t prof hasDir hasCmd j c ht hc hk => ?_,
    fun s s' t prof hasDir hasCmd i i' c hinv hinv' hs' hidx hc hc' hk ht => ?_⟩
  · have hkeep := parsePacket_keeps_slot (reqOfArg prof hasDir hasCmd s.arg0) hc hk
    rw [exec_parse rfl, Host.Outcome.next.injEq] at ht
    subst ht
    exact hkeep
  obtain ⟨ct, hct⟩ := exists_eq (a' := s'.chain)
  rw [← hct] at hs' hc'
  subst hs'
  obtain ⟨r, code, new, new', hparse, hparse', hslot⟩ :=
    parsePacket_slot_alone (reqOfArg prof hasDir hasCmd s.arg0) hinv hinv' hidx hc hc' hk
  rw [exec_parse hparse, Host.Outcome.next.injEq] at ht
  subst ht
  exact ⟨_, exec_parse hparse', rfl, hslot⟩

end Sys2Proof.Machine

/-! The end of a command (R250, R252 to R254, R262): a command either raises a fatal code from the state it started in, or
finishes with another code after changes that reach no flag but LENOOC and FLDOVF. -/

namespace Sys2Proof.Machine

/-! ### The flags a command may set -/

/-- `st'` is `st` but for LENOOC and FLDOVF, which may have been set and are not cleared (R262). -/
structure Status.Raises (st st' : Status) : Prop where
  rest : st' = { st with lenooc := st'.lenooc, fldovf := st'.fldovf }
  lenooc : st.lenooc = true → st'.lenooc = true
  fldovf : st.fldovf = true → st'.fldovf = true

theorem Status.Raises.refl (st : Status) : st.Raises st := ⟨rfl, id, id⟩

/-- Parse (Laws/Parse) sets LENOOC and FLDOVF and writes no other flag. -/
theorem ParseFrame.raises {s s' : State} (h : ParseFrame s s') : s.status.Raises s'.status := ⟨h.status, h.lenooc, h.fldovf⟩

/-! ### The two ends -/

/-- `t` is an end of a command that started in `s`, with one of `codes`. -/
inductive CommandEnd (s : State) (codes : List ResultCode) : State → Prop
  /-- R254: a fatal end discards every change. -/
  | fatal {c : ResultCode} (hc : c ∈ codes) (hfatal : c.isFatal = true) : CommandEnd s codes (s.raiseFatal c)
  /-- R253: the command's changes stand. -/
  | finished {s' : State} {c : ResultCode} (hc : c ∈ codes) (hfatal : c.isFatal = false)
    (hs : s.status.Raises s'.status) : CommandEnd s codes (s'.finish c)

/-- The outcome is a next state, and an end with one of `codes`. -/
def EndsWith (s : State) (codes : List ResultCode) (o : Host.Outcome State Fault Refusal) : Prop :=
  ∃ t, o = .next t ∧ CommandEnd s codes t

@[simp] theorem endsWith_next {s t : State} {codes : List ResultCode} : EndsWith s codes (.next t) ↔ CommandEnd s codes t :=
  ⟨fun ⟨_, ht, h⟩ => Host.Outcome.next.inj ht ▸ h, fun h => ⟨t, rfl, h⟩⟩

section
variable {s t : State} {codes : List ResultCode}

/-- An end after changes that leave STATUS as it is. -/
theorem CommandEnd.of_status {s' : State} {c : ResultCode} (hc : c ∈ codes) (hfatal : c.isFatal = false)
    (hs : s'.status = s.status) : CommandEnd s codes (s'.finish c) :=
  .finished hc hfatal (hs ▸ .refl _)

/-- An end whose changes are those of a parse from a state with the command's STATUS. -/
theorem CommandEnd.of_parse {s₁ s' : State} {c : ResultCode} (hparse : ParseOk s₁ (s', c)) (h₁ : s₁.status = s.status)
    (hcodes : ∀ c ∈ parseCodes, c ∈ codes) {s'' : State} (h' : s''.status = s'.status) :
    CommandEnd s codes (s''.finish c) := by
  obtain ⟨hframe, hc⟩ := hparse
  refine .finished (hcodes c hc) (not_fatal_of_mem_parseCodes hc) ?_
  rw [h', ← h₁]
  exact hframe.raises

/-- RESULT is the code of the end (R250, R252). -/
theorem CommandEnd.result_mem (h : CommandEnd s codes t) : t.status.result ∈ codes := by
  cases h with
  | fatal hc _ => exact hc
  | finished hc _ _ => exact hc

/-- DONE is set and BUSY cleared by either end (R252). -/
theorem CommandEnd.done (h : CommandEnd s codes t) : t.status.done = true := by cases h <;> rfl

theorem CommandEnd.busy (h : CommandEnd s codes t) : t.status.busy = false := by cases h <;> rfl

/-- FATAL is set by a fatal code and kept otherwise (R252). -/
theorem CommandEnd.fatal_eq (h : CommandEnd s codes t) :
    t.status.fatal = (s.status.fatal || t.status.result.code.getLsbD 7) := by
  rw [← ResultCode.isFatal_iff]
  cases h with
  | fatal => rfl
  | finished _ _ hs =>
    show (_ || _) = _
    rw [hs.rest]
    rfl

/-- A command sets neither RXOVF nor BUSYWR, and clears no condition flag (R262). -/
theorem CommandEnd.conditions (h : CommandEnd s codes t) :
    t.status.rxovf = s.status.rxovf ∧ t.status.busywr = s.status.busywr ∧
      (s.status.lenooc = true → t.status.lenooc = true) ∧ (s.status.fldovf = true → t.status.fldovf = true) := by
  cases h with
  | fatal => exact ⟨rfl, rfl, id, id⟩
  | @finished s' c _ _ hs =>
    have hrxovf : s'.status.rxovf = s.status.rxovf := by rw [hs.rest]
    have hbusywr : s'.status.busywr = s.status.busywr := by rw [hs.rest]
    exact ⟨hrxovf, hbusywr, hs.lenooc, hs.fldovf⟩

/-- R254: only the first of the two ends has a fatal code. -/
theorem CommandEnd.eq_of_fatal (h : CommandEnd s codes t) (hfatal : t.status.result.code.getLsbD 7 = true) :
    t = { s with status := s.status.endedFatal t.status.result } := by
  rw [← ResultCode.isFatal_iff] at hfatal
  cases h with
  | fatal _ hc => exact s.raiseFatal_of_fatal hc
  | finished _ hc _ => exact absurd hfatal (by simp [State.finish, hc])

end

/-! ### How each command ends -/

section
variable (s : State)

@[simp] theorem State.consumeRx_status (r : DecodeResult) : (s.consumeRx r).status = s.status := rfl

@[simp] theorem State.flushChains_status : s.flushChains.status = s.status := rfl

@[simp] theorem State.countMismatch_status (c : ResultCode) : (s.countMismatch c).status = s.status := by
  unfold State.countMismatch
  split <;> rfl

@[simp] theorem State.buildTelegram_status (d o : List Byte) (vd vs : List Bool) :
    (s.buildTelegram d o vd vs).status = s.status := by
  simp [State.buildTelegram]

/-- CREATE's round trip changes STATUS as a parse does. -/
theorem State.roundTrip_raises (req : Req) : s.status.Raises (s.roundTrip req).status := by
  unfold State.roundTrip
  split
  · exact (ParseOk.parsePacket s ..).1.raises
  · exact .refl _

theorem State.buildTelegram_roundTrip_raises (d o : List Byte) (vd vs : List Bool) (req : Req) :
    s.status.Raises ((s.buildTelegram d o vd vs).roundTrip req).status := by
  rw [← s.buildTelegram_status d o vd vs]
  exact State.roundTrip_raises ..

theorem endsWith_execCrc8 (bsel : BitVec 4) : EndsWith s (codesOf (.crc8 bsel)) (execCrc8 bsel s) := by
  rw [execCrc8, endsWith_next]
  split
  · exact .fatal (by simp [codesOf]) rfl
  · split
    · exact .fatal (by simp [codesOf]) rfl
    · exact .of_status (by simp [codesOf]) rfl rfl

theorem endsWith_execFrameDecode : EndsWith s (codesOf .frameDecode) (execFrameDecode s) := by
  rw [execFrameDecode, endsWith_next]
  rcases frameDecode_ends s.cfg.dcrcType s.rxBytes with ⟨hf, hst | hst⟩ | ⟨f, hf, hst⟩ <;> rw [hf, hst]
  · exact .of_status (by simp [codesOf]) rfl (by simp)
  · exact .of_status (by simp [codesOf]) rfl (by simp)
  · exact .of_status (by simp [codesOf]) rfl (by simp)

theorem endsWith_execBitsUnpack (bsel : BitVec 4) (stat : Bool) :
    EndsWith s (codesOf (.bitsUnpack bsel stat)) (execBitsUnpack bsel stat s) := by
  rw [execBitsUnpack, endsWith_next]
  split
  · exact .fatal (by simp [codesOf]) rfl
  · split
    · exact .fatal (by simp [codesOf]) rfl
    · rename_i bytes _
      by_cases hcap : (if stat then pBsCap else pBvCap) < unpackLen bytes s.arg2.toNat
      · simp only [if_pos hcap]
        exact .fatal (by simp [codesOf]) rfl
      · simp only [if_neg hcap]
        exact .of_status (by simp [codesOf]) rfl (by simp [apply_ite State.status])

theorem endsWith_execBitsToInt (stat : Bool) : EndsWith s (codesOf (.bitsToInt stat)) (execBitsToInt stat s) := by
  rw [execBitsToInt, endsWith_next]
  split
  · exact .fatal (by simp [codesOf]) rfl
  · exact .of_status (by simp [codesOf]) rfl rfl

theorem endsWith_execBitsPack (bsel : BitVec 4) (stat : Bool) :
    EndsWith s (codesOf (.bitsPack bsel stat)) (execBitsPack bsel stat s) := by
  rw [execBitsPack, endsWith_next]
  split
  · split
    · exact .fatal (by simp [codesOf]) rfl
    · exact .of_status (by simp [codesOf]) rfl rfl
  · split
    · exact .fatal (by simp [codesOf]) rfl
    · exact .of_status (by simp [codesOf]) rfl rfl
  · exact .fatal (by simp [codesOf]) rfl

theorem endsWith_execFindProfile (hasDir hasCmd : Bool) :
    EndsWith s (codesOf (.findProfile hasDir hasCmd)) (execFindProfile hasDir hasCmd s) := by
  rw [execFindProfile, endsWith_next]
  split
  · exact .of_status (by simp [codesOf]) rfl rfl
  · exact .of_status (by simp [codesOf]) rfl rfl

theorem endsWith_execFieldDecode : EndsWith s (codesOf .fieldDecode) (execFieldDecode s) := by
  rw [execFieldDecode, endsWith_next]
  split
  · exact .of_status (by simp [codesOf]) rfl rfl
  · exact .finished (by simp [codesOf]) rfl (ParseFrame.writeFields s _).raises

/-- A rejected encode ends with one of R178's two codes, neither of them fatal. -/
theorem CommandEnd.of_rejected {codes : List ResultCode} {blk : DataBlock} {vd vs : List Bool}
    {nv : List (BitVec 16 × Nat)} {c : ResultCode} {bad : Nat} (h : fieldEncode blk vd vs nv = .rejected c bad)
    (hu : .unknownField ∈ codes) (hb : .badDescriptor ∈ codes) (w : Word) :
    CommandEnd s codes ((s.setRes0 w).finish c) := by
  rcases fieldEncode_code h with rfl | rfl
  · exact .of_status hu rfl rfl
  · exact .of_status hb rfl rfl

theorem endsWith_execFieldEncode (n : BitVec 16) : EndsWith s (codesOf (.fieldEncode n)) (execFieldEncode n s) := by
  rw [execFieldEncode, endsWith_next]
  split
  · exact .fatal (by simp [codesOf]) rfl
  · split
    · exact .of_status (by simp [codesOf]) rfl rfl
    · split
      · exact .of_rejected s ‹_› (by simp [codesOf]) (by simp [codesOf]) _
      · exact .of_status (by simp [codesOf]) rfl rfl

theorem endsWith_execParse (prof hasDir hasCmd : Bool) :
    EndsWith s (codesOf (.parse prof hasDir hasCmd)) (execParse prof hasDir hasCmd s) := by
  rw [execParse, endsWith_next]
  exact .of_parse (ParseOk.parsePacket s ..) rfl (fun _ hc => hc) rfl

theorem endsWith_execRecv (prof hasDir hasCmd : Bool) :
    EndsWith s (codesOf (.recv prof hasDir hasCmd)) (execRecv prof hasDir hasCmd s) := by
  rw [execRecv, endsWith_next]
  rcases frameDecode_ends s.cfg.dcrcType s.rxBytes with ⟨hf, hst | hst⟩ | ⟨f, hf, hst⟩ <;> rw [hf, hst]
  · exact .of_status (by simp [codesOf]) rfl (by simp)
  · exact .of_status (by simp [codesOf]) rfl (by simp)
  · refine .of_parse (ParseOk.parsePacket ..) (by simp) ?_ rfl
    simp [parseCodes, codesOf]

/-- The codes of R215, each of which CREATE's row of R250 lists. -/
theorem createFatal_mem_codes {cfg : Cfg} {a : CreateArgs} {c : ResultCode} (h : createFatal cfg a = some c)
    (learn hasDir hasCmd : Bool) (n : BitVec 16) :
    c.isFatal = true ∧ c ∈ codesOf (.create learn hasDir hasCmd n) := by
  unfold createFatal at h
  split_ifs at h <;> cases h <;> exact ⟨rfl, by simp [codesOf]⟩

theorem commandEnd_createValid (a : CreateArgs) {learn hasDir hasCmd : Bool} {n : BitVec 16} :
    CommandEnd s (codesOf (.create learn hasDir hasCmd n)) (createValid a s) := by
  unfold createValid
  split
  · exact .of_status (by simp [codesOf]) rfl rfl
  · dsimp only
    split
    · exact .of_rejected s ‹_› (by simp [codesOf]) (by simp [codesOf]) _
    · refine .finished (by simp [codesOf]) rfl ?_
      rw [State.setRes0_status]
      exact State.buildTelegram_roundTrip_raises ..

theorem endsWith_execCreate (learn hasDir hasCmd : Bool) (n : BitVec 16) :
    EndsWith s (codesOf (.create learn hasDir hasCmd n)) (execCreate learn hasDir hasCmd n s) := by
  rw [execCreate, endsWith_next]
  split
  · rename_i c hc
    obtain ⟨hfatal, hmem⟩ := createFatal_mem_codes hc learn hasDir hasCmd n
    exact .fatal hmem hfatal
  · exact commandEnd_createValid s _

/-- Every command ends, in one of the two ways, with a code R250's table gives it. -/
theorem endsWith_exec (i : Instr) : EndsWith s (codesOf i) (exec i s) := by
  cases i with
  | nop => exact endsWith_next.mpr (.of_status (by simp [codesOf]) rfl rfl)
  | crc8 bsel => exact endsWith_execCrc8 s bsel
  | rxFlush => exact endsWith_next.mpr (.of_status (by simp [codesOf]) rfl rfl)
  | frameDecode => exact endsWith_execFrameDecode s
  | frameEncode => exact endsWith_next.mpr (.of_status (by simp [codesOf]) rfl rfl)
  | bitsUnpack bsel stat => exact endsWith_execBitsUnpack s bsel stat
  | bitsToInt stat => exact endsWith_execBitsToInt s stat
  | bitsPack bsel stat => exact endsWith_execBitsPack s bsel stat
  | findProfile hasDir hasCmd => exact endsWith_execFindProfile s hasDir hasCmd
  | fieldDecode => exact endsWith_execFieldDecode s
  | fieldEncode n => exact endsWith_execFieldEncode s n
  | dispatch => exact endsWith_next.mpr (.of_status (by simp [codesOf]) rfl rfl)
  | parse prof hasDir hasCmd => exact endsWith_execParse s prof hasDir hasCmd
  | recv prof hasDir hasCmd => exact endsWith_execRecv s prof hasDir hasCmd
  | create learn hasDir hasCmd n => exact endsWith_execCreate s learn hasDir hasCmd n
  | chainFlush => exact endsWith_next.mpr (.of_status (by simp [codesOf]) rfl rfl)

end

/-- The next state of a command is an end of it. -/
theorem commandEnd_of_exec {i : Instr} {s t : State} (h : exec i s = .next t) : CommandEnd s (codesOf i) t :=
  endsWith_next.mp (h ▸ endsWith_exec s i)

/-! ### The block step -/

section
variable {s : State}

theorem blockTurn_of_mayRun (h : s.mayRun) : blockTurn s = true := by
  obtain ⟨hbusy, hdelay | hidle⟩ := h
  · simp [blockTurn, hbusy, hdelay]
  · simp [blockTurn, hbusy, hidle]

/-- R255: a word that decodes to no command ends fatal, with no other change. -/
theorem blockStep_of_illegal (h : decode s.cmdl = .error .illegalOpcode) :
    blockStep s = .next (s.raiseFatal .illegalOpcode) := by
  rw [blockStep, fetchWord, h]

/-- Every block step is an end: of the command in CMDL, or of an illegal opcode. -/
theorem endsWith_blockStep (s : State) : ∃ codes, EndsWith s codes (blockStep s) := by
  cases hdec : decode s.cmdl with
  | ok i => exact ⟨_, by rw [blockStep, fetchWord, hdec]; exact endsWith_exec s i⟩
  | error e =>
    cases e
    exact ⟨[.illegalOpcode], by rw [blockStep_of_illegal hdec, endsWith_next]; exact .fatal List.mem_cons_self rfl⟩

end

end Sys2Proof.Machine

/-! The interrupt line (R258 to R260), after a command's end and after the host's writes; then the statements. -/

namespace Sys2Proof.Machine

/-! ### The interrupt line -/

/-- The line after a command's end (R258, R260): DONE is set, and FATAL as R252 has it. -/
theorem irq_of_exec {i : Instr} {s t : State} (h : exec i s = .next t) :
    t.irq = (s.ctrl.ieDone || (s.status.fatal || t.status.result.code.getLsbD 7) && s.ctrl.ieErr) := by
  have hend := commandEnd_of_exec h
  have hctrl : t.ctrl = s.ctrl := congrArg Operands.ctrl (keepsOperands_exec s i t h)
  rw [State.irq, hend.done, hend.fatal_eq, hctrl, Bool.true_and]

/-- The places of CTRL's enables (R33). -/
theorem Ctrl.getLsbD_word_zero (c : Ctrl) : c.word.getLsbD 0 = c.ieDone := by
  simp only [Ctrl.word, BitVec.getLsbD_append]
  simp

theorem Ctrl.getLsbD_word_one (c : Ctrl) : c.word.getLsbD 1 = c.ieErr := by
  simp only [Ctrl.word, BitVec.getLsbD_append]
  simp

/-- The line as the two registers read (R33, R34, R258). -/
theorem irq_eq_registers (s : State) : s.irq =
    ((readReg s .status).getLsbD 1 && (readReg s .ctrl).getLsbD 0 ||
      (readReg s .status).getLsbD 2 && (readReg s .ctrl).getLsbD 1) := by
  rw [readReg, readReg, Status.getLsbD_word, Status.getLsbD_word, Ctrl.getLsbD_word_zero, Ctrl.getLsbD_word_one]
  rfl

/-- With both enables off the line is low. -/
theorem irq_of_disabled {s : State} (hdone : s.ctrl.ieDone = false) (herr : s.ctrl.ieErr = false) : s.irq = false := by
  simp [State.irq, hdone, herr]

/-- With DONE and FATAL clear the line is low. -/
theorem irq_of_clear {s : State} (hdone : s.status.done = false) (hfatal : s.status.fatal = false) : s.irq = false := by
  simp [State.irq, hdone, hfatal]

/-- An `ack` clears DONE and FATAL (R34, R259). -/
theorem irq_of_ack (s : State) : (memWrite s 0x00C 4 0x7E).irq = false := by
  have hwrite : memWrite s 0x00C 4 0x7E = _ := memWrite_live s (r := .status) rfl 0x7E
  rw [hwrite]
  exact irq_of_clear (Bool.and_false _) (Bool.and_false _)

/-- A CTRL write that resets, or that clears the enables, leaves them off (R33, R282). -/
theorem irq_of_ctrl_write (s : State) {w : Word} (hdone : w.getLsbD 0 = false) (herr : w.getLsbD 1 = false) :
    (memWrite s 0x008 4 w).irq = false := by
  have hwrite : memWrite s 0x008 4 w = (writeCtrl s w).respond .ack := memWrite_live s (r := .ctrl) rfl w
  rw [hwrite, writeCtrl]
  split
  · exact irq_of_disabled rfl rfl
  · exact irq_of_disabled hdone herr

/-! ### The statements -/

/-- Settles O8: the two ends of `CommandEnd`, one of which every command takes. -/
theorem everyCommandEnds : Obligations.EveryCommandEnds := by
  intro i s
  obtain ⟨t, ht, hend⟩ := endsWith_exec s i
  exact ⟨t, ht, hend.done, hend.busy, hend.fatal_eq, hend.conditions⟩

/-- Settles O9: an end with a fatal code is a raise from the state the command started in. -/
theorem fatalEndChangesOnlyStatus : Obligations.FatalEndChangesOnlyStatus := by
  intro s t ht hfatal
  obtain ⟨codes, hend⟩ := endsWith_blockStep s
  rw [ht, endsWith_next] at hend
  exact hend.eq_of_fatal hfatal

/-- Settles O10: the codes come with each command's end, and their numbers are R250's. -/
theorem resultCodesByCommand : Obligations.ResultCodesByCommand := by
  refine ⟨fun i s t ht => (commandEnd_of_exec ht).result_mem, fun c => ?_⟩
  cases c <;> rfl

/-- Settles O12: `irq_of_exec` for a command's end, and the two ways a write lowers the line. -/
theorem irqIsALevel : Obligations.IrqIsALevel := by
  refine ⟨irq_eq_registers, fun i s t ht => ?_, fun s => ⟨irq_of_ack s, ?_, ?_⟩⟩
  · rw [irq_of_exec ht]
    refine ⟨fun hdone => ?_, fun herr hcode => ?_, fun hirq => ?_, fun hdone hfatal hcode => ?_, fun hdone herr => ?_⟩
    · simp [hdone]
    · simp [herr, hcode]
    · simp only [State.irq, Bool.or_eq_true, Bool.and_eq_true] at hirq ⊢
      exact hirq.imp And.right (And.imp_left .inl)
    · rw [hdone, hfatal, hcode]
      rfl
    · simp [hdone, herr]
  · exact irq_of_ctrl_write s rfl rfl
  · exact irq_of_ctrl_write s rfl rfl

/-- Settles O6: the write is `writeCmd`, and the step is `blockStep` on a word that decodes to no command. -/
theorem illegalOpcodeEndsFatal : Obligations.IllegalOpcodeEndsFatal := by
  refine ⟨fun s w hidle => ?_, fun s hrun hopc => ?_⟩
  · have hwrite : memWrite s 0x010 4 w = (writeCmd s w).respond .ack := memWrite_idle s hidle .cmd w
    rw [hwrite]
    exact ⟨rfl, rfl⟩
  · rw [← opcOf_toNat] at hopc
    rw [step, if_pos (blockTurn_of_mayRun hrun), blockStep_of_illegal (decode_of_opcOf_ge hopc),
      State.raiseFatal_of_fatal _ rfl]

end Sys2Proof.Machine

/-! Reset (R280 to R283): the invariant at reset, what a reset leaves in every register, buffer and table, and the writes
of CTRL. -/

namespace Sys2Proof.Machine

/-! ### The reset contents -/

/-- A field entry that nothing has written reads 0 in every word (R50, R281). -/
theorem FieldRec.word_blank (w : Nat) : (Store.blank : FieldRec).word w = 0 := by
  match w with
  | 0 | 1 | 2 | 3 | 4 => rfl
  | _ + 5 => rfl

/-- A reset leaves every slot free (R283). -/
theorem chainOcc_resetWith (cfg : Cfg) : (State.resetWith cfg).chainOcc = 0 := chainOcc_of_free _ rfl

/-- The registers of a block that was reset read as at `State.reset`, whatever the configuration and the state before:
only CHAIN_OCC, which counts the slots, looks at a field whose reset value depends on the configuration. -/
theorem readReg_blockReset (s : State) (r : Reg) : readReg s.blockReset r = readReg State.reset r := by
  cases r
  case chainOcc =>
    have hblock : s.blockReset.chainOcc = 0 := chainOcc_resetWith s.cfg
    have hreset : State.reset.chainOcc = 0 := chainOcc_resetWith _
    rw [readReg, readReg, hblock, hreset]
  all_goals rfl

/-- R281's table. -/
theorem readReg_reset (r : Reg) : readReg State.reset r =
    if r = .id then 0x45535033 else if r = .version then 1 else if r = .vVariant then 7 else 0 := by
  cases r <;> decide

/-! ### CTRL -/

/-- The places of CTRL (R33): the enables in bits 0 and 1, and 0 elsewhere. -/
theorem Ctrl.getLsbD_word (c : Ctrl) (k : Nat) :
    c.word.getLsbD k = if k = 0 then c.ieDone else if k = 1 then c.ieErr else false := by
  match k with
  | 0 => exact c.getLsbD_word_zero
  | 1 => exact c.getLsbD_word_one
  | j + 2 =>
    simp only [Ctrl.word, BitVec.getLsbD_append]
    simp

/-- A write to CTRL acts whether or not a command is pending (R91, R282). -/
theorem memWrite_ctrl (s : State) (w : Word) : memWrite s 0x008 4 w = (writeCtrl s w).respond .ack :=
  memWrite_live s (r := .ctrl) rfl w

/-- A write with SRST set resets the block (R282). -/
theorem writeCtrl_reset (s : State) {w : Word} (h : w.getLsbD 31 = true) : writeCtrl s w = s.blockReset := if_pos h

/-- A write with SRST clear stores the two enables (R33). -/
theorem writeCtrl_enables (s : State) {w : Word} (h : w.getLsbD 31 = false) :
    writeCtrl s w = { s with ctrl := { ieDone := w.getLsbD 0, ieErr := w.getLsbD 1 } } :=
  if_neg (Bool.eq_false_iff.mp h)

/-! ### The statements -/

/-- Settles O13: `State.inv_resetWith`, at every legal configuration and at the recommended one, which is legal. -/
theorem resetMeetsInv : Obligations.ResetMeetsInv :=
  ⟨fun _ => State.inv_resetWith, State.inv_resetWith (by decide)⟩

/-- Settles O15: every store is empty, every slot free, and the registers read R281's table. -/
theorem resetState : Obligations.ResetState := fun s =>
  ⟨rfl, fun r => (readReg_blockReset s r).trans (readReg_reset r), rfl, rfl, fun _ => ⟨rfl, rfl, rfl, rfl⟩,
    fun _ => ⟨rfl, rfl⟩, fun _ w => ⟨FieldRec.word_blank w, rfl⟩, List.length_replicate,
    fun _ hx => List.eq_of_mem_replicate hx, irq_of_disabled rfl rfl⟩

/-- Settles O16: a CTRL write is `writeCtrl` in every state, and a hardware reset is the same `blockReset`. -/
theorem ctrlWriteResetsOrEnables : Obligations.CtrlWriteResetsOrEnables := by
  refine ⟨fun s => s.ctrl.getLsbD_word, fun s w => ⟨fun hsrst => ?_, fun hsrst => ?_, rfl⟩⟩
  · rw [memWrite_ctrl, writeCtrl_reset s hsrst]
  · rw [memWrite_ctrl, writeCtrl_enables s hsrst]
    rfl

end Sys2Proof.Machine

/-! The end of a pending command (R90, R296). While a command is pending every host step takes one from the delay left,
since an accepted CMD write, which alone draws a new delay, needs an idle block; so the block's turn comes in time. -/

namespace Sys2Proof.Machine

section
variable {s : State}

/-! ### What an access leaves of the delay -/

theorem memRead_delay (s : State) (a n : Nat) : (memRead s a n).delay = s.delay :=
  (congrArg State.delay (memRead_frame s a n)).trans rfl

theorem writeCtrl_delay_le (s : State) (w : Word) : (writeCtrl s w).delay ≤ s.delay := by
  unfold writeCtrl
  split
  · exact Nat.zero_le _
  · exact Nat.le_refl _

/-- While BUSY = 1 no write draws a new delay: a write to CMD is dropped (R91), and a reset leaves no delay. -/
theorem acceptedWrite_delay_le (hbusy : s.status.busy = true) (t : Target) (w : Word) :
    (acceptedWrite s t w).delay ≤ s.delay := by
  cases hlive : t.liveWrite with
  | false =>
    rw [acceptedWrite_dropped s hbusy hlive]
  | true =>
    rw [acceptedWrite_live s hlive]
    obtain rfl | rfl := t.liveWrite_iff.mp hlive
    · exact Nat.le_refl _
    · exact writeCtrl_delay_le s w

theorem memWrite_delay_le (hbusy : s.status.busy = true) (a n : Nat) (w : Word) :
    (memWrite s a n w).delay ≤ s.delay := by
  cases h : accept s.cfg a n with
  | none =>
    rw [memWrite_busError s h]
    exact Nat.le_refl _
  | some t =>
    rw [memWrite_of_accept s h]
    exact acceptedWrite_delay_le hbusy t w

/-! ### What a host step leaves of the delay -/

/-- The host's program stops at an undefined label, or goes on with at most `d` host steps left to the block step. -/
def StopsOrLeaves (d : Nat) (o : Host.Outcome State Fault Refusal) : Prop :=
  o = .fault .undefinedLabel ∨ ∃ t, o = .next t ∧ t.delay ≤ d

theorem StopsOrLeaves.next {d : Nat} {t : State} (h : t.delay ≤ d) : StopsOrLeaves d (.next t) := .inr ⟨t, rfl, h⟩

theorem stopsOrLeaves_gotoLabel (s : State) (l : Nat) : StopsOrLeaves (s.delay - 1) (gotoLabel s l) := by
  unfold gotoLabel
  split
  · exact .next (Nat.le_refl _)
  · exact .inl rfl

/-- A conditional branch goes to its label or on to the next line (R114). -/
theorem stopsOrLeaves_branchIf (s : State) (c : Prop) [Decidable c] (l : Nat) :
    StopsOrLeaves (s.delay - 1) (if c then gotoLabel s l else .next s.advanceHost) := by
  split
  · exact stopsOrLeaves_gotoLabel s l
  · exact .next (Nat.le_refl _)

/-- Every line but `halt` takes one from the delay of a pending command. -/
theorem stopsOrLeaves_runLine (hbusy : s.status.busy = true) {line : HostLine} (hline : line ≠ .halt) :
    StopsOrLeaves (s.delay - 1) (runLine s line) := by
  cases line with
  | write a n v => exact .next (memWrite_delay_le (s := s.advanceHost) hbusy a n v)
  | read a n => exact .next (memRead_delay s.advanceHost a n).le
  | label l => exact .next (Nat.le_refl _)
  | ifEq hi lo v l => exact stopsOrLeaves_branchIf s _ l
  | ifNe hi lo v l => exact stopsOrLeaves_branchIf s _ l
  | goto l => exact stopsOrLeaves_gotoLabel s l
  | halt => exact absurd rfl hline
  | hardReset => exact .next (Nat.zero_le _)

/-- A host that is not idle is at a line other than `halt`. -/
theorem hostLine_of_not_idle (h : hostIdle s = false) : ∃ line, hostLine s = some line ∧ line ≠ .halt := by
  unfold hostIdle at h
  split at h
  · cases h
  · cases h
  · rename_i line hhalt hline
    exact ⟨line, hline, fun heq => hhalt (heq ▸ rfl)⟩

/-! ### The step of a busy block -/

/-- The block's turn ends the pending command (R90, R252). -/
theorem step_of_blockTurn (h : blockTurn s = true) : ∃ t, step s = .next t ∧ t.status.busy = false := by
  obtain ⟨codes, t, ht, hend⟩ := endsWith_blockStep s
  exact ⟨t, by rw [step, if_pos h, ht], hend.busy⟩

/-- Where it is the host's turn although a command is pending, there is delay left, and the step takes one from it. -/
theorem step_of_waiting (hbusy : s.status.busy = true) (h : blockTurn s = false) :
    s.delay ≠ 0 ∧ StopsOrLeaves (s.delay - 1) (step s) := by
  have hwait : hostIdle s = false ∧ s.delay ≠ 0 := by simpa [blockTurn, hbusy] using h
  obtain ⟨hactive, hdelay⟩ := hwait
  obtain ⟨line, hline, hhalt⟩ := hostLine_of_not_idle hactive
  have hstep : step s = runLine s line := by rw [step, if_neg (Bool.eq_false_iff.mp h), hostStep, hline]
  exact ⟨hdelay, hstep ▸ stopsOrLeaves_runLine hbusy hhalt⟩

/-! ### Runs -/

theorem run_succ_of_next {M : Host.Core} {s t : M.State} (h : M.step s = .next t) (k : Nat) :
    M.run (k + 1) s = M.run k t := by
  rw [Host.Core.run, h]

theorem run_succ_of_fault {M : Host.Core} {s : M.State} {e : M.Fault} (h : M.step s = .fault e) (k : Nat) :
    M.run (k + 1) s = .fault e := by
  rw [Host.Core.run, h]

/-- After `k` steps no command is pending, or the host's program has stopped at an undefined label. -/
def State.OverAfter (s : State) (k : Nat) : Prop :=
  (∃ t : State, Host.Core.run Sys2Proof.core k s = .next t ∧ t.status.busy = false) ∨
    Host.Core.run Sys2Proof.core k s = .fault Fault.undefinedLabel

theorem State.overAfter_zero (h : s.status.busy = false) : s.OverAfter 0 := .inl ⟨s, rfl, h⟩

theorem State.OverAfter.succ {t : State} {k : Nat} (h : t.OverAfter k) (hstep : step s = .next t) :
    s.OverAfter (k + 1) := by
  have hrun := run_succ_of_next (M := Sys2Proof.core) hstep k
  rw [State.OverAfter, hrun]
  exact h

/-- By induction on the delay left: it is the block's turn, or one host step leaves less. -/
theorem exists_overAfter (hbusy : s.status.busy = true) : ∃ k ≤ s.delay + 1, s.OverAfter k := by
  induction hn : s.delay using Nat.strong_induction_on generalizing s with
  | _ n ih =>
    subst hn
    cases hturn : blockTurn s with
    | true =>
      obtain ⟨t, hstep, hidle⟩ := step_of_blockTurn hturn
      exact ⟨1, by omega, (State.overAfter_zero hidle).succ hstep⟩
    | false =>
      obtain ⟨hdelay, hstop | ⟨t, hstep, hle⟩⟩ := step_of_waiting hbusy hturn
      · exact ⟨1, by omega, .inr (run_succ_of_fault (M := Sys2Proof.core) hstop 0)⟩
      · cases hpending : t.status.busy with
        | false => exact ⟨1, by omega, (State.overAfter_zero hpending).succ hstep⟩
        | true =>
          obtain ⟨k, hk, hover⟩ := ih t.delay (by omega) hpending rfl
          exact ⟨k + 1, by omega, hover.succ hstep⟩

end

/-- Settles O7: `exists_overAfter`, whose bound is the delay left and the block's own step. -/
theorem pendingCommandEnds : Obligations.PendingCommandEnds := fun _ hbusy => exists_overAfter hbusy

end Sys2Proof.Machine
